-- ==== Sys2Proof/Word.lean ====
section
/-! DEFINITION. The widths of the machine (R6, R8): a 24-bit data and instruction word, a 56-bit accumulator pattern. -/

namespace Sys2Proof

/-- One 24-bit word: an instruction word, a datum of P, X or Y, an address (R6, R60). -/
abbrev Word := BitVec 24

/-- A packed 56-bit accumulator value A2 : A1 : A0 (R160). -/
abbrev Word56 := BitVec 56

/-- One byte of scratch memory (R305). -/
abbrev Byte := BitVec 8

end Sys2Proof
end

