-- ==== Sys2Proof/Syntax.lean ====
section
/-! DEFINITION. The instructions: one constructor of `Instr` per row of spec/opcode_table.json, and their operand types.
The operand types follow R96 to R106 and R175. A reserved register code is kept as a code (R23: reaching it is Fatal). -/

namespace Sys2Proof

/-- The registers named by a 6-bit register code (R20, R21). `a` and `b` are the logical accumulators 0x0E and 0x0F.
`reserved` holds a code that names no register (R23). -/
inductive Reg where
  | x0 | x1 | y0 | y1
  | a0 | b0 | a2 | b2 | a1 | b1
  | a | b
  | r (i : Fin 8)
  | n (i : Fin 8)
  | m (i : Fin 8)
  | sr | omr | sp | ssh | ssl | la | lc
  | reserved (code : BitVec 6)
  deriving DecidableEq, Repr

/-- The destination accumulator of an ALU operation, bit d (R175). -/
inductive AccSel where
  | a | b
  deriving DecidableEq, Repr

/-- The space bit S (R105). -/
inductive Space where
  | x | y
  deriving DecidableEq, Repr

/-- The direction bit W (R96): `load` moves memory (or the source) to the register. -/
inductive Dir where
  | load | store
  deriving DecidableEq, Repr

/-- The seven register modes of MMM (R100). -/
inductive EaMode where
  | postSubN   -- (Rn)-Nn
  | postAddN   -- (Rn)+Nn
  | postDec    -- (Rn)-
  | postInc    -- (Rn)+
  | plain      -- (Rn)
  | indexed    -- (Rn+Nn)
  | preDec     -- -(Rn)
  deriving DecidableEq, Repr

/-- An effective address that is neither immediate nor reserved (R100): a register mode, or the extension word. -/
inductive EaAddr where
  | reg (mode : EaMode) (i : Fin 8)
  | abs (addr : Word)
  deriving DecidableEq, Repr

/-- A source operand given by MMMRRR: an address, or the immediate in the extension word (R100). -/
inductive EaSrc where
  | addr (ea : EaAddr)
  | imm (value : Word)
  deriving DecidableEq, Repr

/-- W with MMMRRR: a load takes any source, a store takes no immediate (R107, R225, R226, R227). -/
inductive EaMove where
  | load (src : EaSrc)
  | store (dst : EaAddr)
  deriving DecidableEq, Repr

/-- The short mode MM of the address register update (R101, R222). -/
inductive UpdateMode where
  | subN | addN | dec | inc
  deriving DecidableEq, Repr

/-- The modes MM and mm of an XY move (R102). -/
inductive XyMode where
  | plain | addN | dec | inc
  deriving DecidableEq, Repr

/-- The condition field CCCC (R106). -/
inductive Cond where
  | cc | ge | ne | pl | nn | ec | lc | gt
  | cs | lt | eq | mi | nr | es | ls | le
  deriving DecidableEq, Repr

/-- The target EE of ANDI and ORI (R96); 11 matches no row. -/
inductive CtlTarget where
  | mr | ccr | omr
  deriving DecidableEq, Repr

/-- The X-side register of a class I or XY move: 00 X0, 01 X1, 10 A, 11 B (R226, R231). -/
inductive XSide where
  | x0 | x1 | a | b
  deriving DecidableEq, Repr

/-- The Y-side register of a class I or XY move: 00 Y0, 01 Y1, 10 A, 11 B (R227, R231). -/
inductive YSide where
  | y0 | y1 | a | b
  deriving DecidableEq, Repr

/-- The destination e of the register part of an R:Y class I move (R227). -/
inductive XInput where
  | x0 | x1
  deriving DecidableEq, Repr

/-- The destination F of the register part of an X:R class I move (R226). -/
inductive YInput where
  | y0 | y1
  deriving DecidableEq, Repr

/-- The register pair LLL of an L move (R229). -/
inductive LPair where
  | a10 | b10 | x | y | a | b | ab | ba
  deriving DecidableEq, Repr

/-- The 24-bit ALU source JJ (R175). -/
inductive AluReg where
  | x0 | y0 | x1 | y1
  deriving DecidableEq, Repr

/-- The 48-bit ALU source J (R175, R191, R194). -/
inductive PairSel where
  | x | y
  deriving DecidableEq, Repr

/-- The multiplier sources QQQ as (S1, S2) (R175). -/
inductive MulPair where
  | x0x0 | y0y0 | x1x0 | y1y0 | x0y1 | y0x0 | x1y0 | y1x1
  deriving DecidableEq, Repr

/-- The sign k of a multiply (R175). -/
inductive MulSign where
  | plus | minus
  deriving DecidableEq, Repr

/-- The data-ALU operation of a parallel or class II word: the 40 rows of format alu_byte (R175). -/
inductive AluOp where
  | move
  | tfrAcc (d : AccSel)
  | tfrReg (j : AluReg) (d : AccSel)
  | addr (d : AccSel)
  | tst (d : AccSel)
  | cmpAcc (d : AccSel)
  | cmpReg (j : AluReg) (d : AccSel)
  | subr (d : AccSel)
  | cmpmAcc (d : AccSel)
  | cmpmReg (j : AluReg) (d : AccSel)
  | addAcc (d : AccSel)
  | addX (d : AccSel)
  | addY (d : AccSel)
  | addReg (j : AluReg) (d : AccSel)
  | rnd (d : AccSel)
  | addl (d : AccSel)
  | clr (d : AccSel)
  | subAcc (d : AccSel)
  | subX (d : AccSel)
  | subY (d : AccSel)
  | subReg (j : AluReg) (d : AccSel)
  | subl (d : AccSel)
  | notAcc (d : AccSel)
  | adc (j : PairSel) (d : AccSel)
  | asr (d : AccSel)
  | lsr (d : AccSel)
  | sbc (j : PairSel) (d : AccSel)
  | absAcc (d : AccSel)
  | ror (d : AccSel)
  | asl (d : AccSel)
  | lsl (d : AccSel)
  | neg (d : AccSel)
  | rol (d : AccSel)
  | orReg (j : AluReg) (d : AccSel)
  | eorReg (j : AluReg) (d : AccSel)
  | andReg (j : AluReg) (d : AccSel)
  | mpy (q : MulPair) (d : AccSel) (k : MulSign)
  | mpyr (q : MulPair) (d : AccSel) (k : MulSign)
  | mac (q : MulPair) (d : AccSel) (k : MulSign)
  | macr (q : MulPair) (d : AccSel) (k : MulSign)
  deriving DecidableEq, Repr

/-- The instructions, one constructor per row of spec/opcode_table.json, in the table's order. The last 40 are
the alu_byte rows: as an instruction of its own such a row is its operation with no parallel move, the word
0x2000bb (R221; log entry 12). -/
inductive Instr where
  | nop
  | rti
  | illegal
  | trap
  | rts
  | wait
  | stop
  | enddo
  | andi (i : BitVec 8) (t : CtlTarget)
  | ori (i : BitVec 8) (t : CtlTarget)
  | movecReg (w : Dir) (r : Reg) (c : Reg)
  | movecEa (mv : EaMove) (sp : Space) (c : Reg)
  | movecAa (w : Dir) (aa : BitVec 6) (sp : Space) (c : Reg)
  | movecImm (i : BitVec 8) (c : Reg)
  | repImm (count : BitVec 12)
  | repAa (aa : BitVec 6) (sp : Space)
  | repEa (mode : EaMode) (i : Fin 8) (sp : Space)
  | repReg (r : Reg)
  | doImm (count : BitVec 12) (last : Word)
  | doAa (aa : BitVec 6) (sp : Space) (last : Word)
  | doEa (mode : EaMode) (i : Fin 8) (sp : Space) (last : Word)
  | doReg (r : Reg) (last : Word)
  | moveXRII (d : AccSel) (ea : EaAddr) (alu : AluOp)
  | moveRYII (d : AccSel) (ea : EaAddr) (alu : AluOp)
  | jmpEa (ea : EaAddr)
  | jccEa (ea : EaAddr) (cond : Cond)
  | jsrEa (ea : EaAddr)
  | jsccEa (ea : EaAddr) (cond : Cond)
  | jmpAbs (addr : BitVec 12)
  | jsrAbs (addr : BitVec 12)
  | jccAbs (cond : Cond) (addr : BitVec 12)
  | jsccAbs (cond : Cond) (addr : BitVec 12)
  | moveXRI (f : XSide) (d : AccSel) (g : YInput) (mv : EaMove) (alu : AluOp)
  | moveRYI (d : AccSel) (e : XInput) (f : YSide) (mv : EaMove) (alu : AluOp)
  | noMove (alu : AluOp)
  | moveUpdate (mode : UpdateMode) (i : Fin 8) (alu : AluOp)
  | moveRegReg (src : Reg) (dst : Reg) (alu : AluOp)
  | moveImm (dst : Reg) (i : BitVec 8) (alu : AluOp)
  | moveXYEa (sp : Space) (r : Reg) (mv : EaMove) (alu : AluOp)
  | moveXYAa (sp : Space) (r : Reg) (w : Dir) (aa : BitVec 6) (alu : AluOp)
  | moveLEa (l : LPair) (w : Dir) (ea : EaAddr) (alu : AluOp)
  | moveLAa (l : LPair) (w : Dir) (aa : BitVec 6) (alu : AluOp)
  | moveXYDouble (wy : Dir) (my : XyMode) (e : XSide) (f : YSide) (wx : Dir) (rr : BitVec 2) (mx : XyMode) (i : Fin 8) (alu : AluOp)
  | aluMove
  | tfrAcc (d : AccSel)
  | tfrReg (j : AluReg) (d : AccSel)
  | addr (d : AccSel)
  | tst (d : AccSel)
  | cmpAcc (d : AccSel)
  | cmpReg (j : AluReg) (d : AccSel)
  | subr (d : AccSel)
  | cmpmAcc (d : AccSel)
  | cmpmReg (j : AluReg) (d : AccSel)
  | addAcc (d : AccSel)
  | addX (d : AccSel)
  | addY (d : AccSel)
  | addReg (j : AluReg) (d : AccSel)
  | rnd (d : AccSel)
  | addl (d : AccSel)
  | clr (d : AccSel)
  | subAcc (d : AccSel)
  | subX (d : AccSel)
  | subY (d : AccSel)
  | subReg (j : AluReg) (d : AccSel)
  | subl (d : AccSel)
  | notAcc (d : AccSel)
  | adc (j : PairSel) (d : AccSel)
  | asr (d : AccSel)
  | lsr (d : AccSel)
  | sbc (j : PairSel) (d : AccSel)
  | absAcc (d : AccSel)
  | ror (d : AccSel)
  | asl (d : AccSel)
  | lsl (d : AccSel)
  | neg (d : AccSel)
  | rol (d : AccSel)
  | orReg (j : AluReg) (d : AccSel)
  | eorReg (j : AluReg) (d : AccSel)
  | andReg (j : AluReg) (d : AccSel)
  | mpy (q : MulPair) (d : AccSel) (k : MulSign)
  | mpyr (q : MulPair) (d : AccSel) (k : MulSign)
  | mac (q : MulPair) (d : AccSel) (k : MulSign)
  | macr (q : MulPair) (d : AccSel) (k : MulSign)
  deriving DecidableEq, Repr

end Sys2Proof
end

