-- ==== Sys2Proof/WellFormed.lean ====
section
/-! DEFINITION. The checks an `Instr` passes if an instruction word can hold it: its register operands lie in the
field the row gives them (R21, R104, R107, R110). Every other operand is bounded by its type. -/

namespace Sys2Proof

/-- The codes that name no register: 0x00-0x03 and 0x28-0x38 (R23). -/
def reservedCode (c : BitVec 6) : Bool :=
  c.toNat < 0x04 || (0x28 ≤ c.toNat && c.toNat ≤ 0x38)

/-- A register operand of a 6-bit field: any register, or a code that is really reserved (R104). -/
def Reg.codeOk : Reg → Bool
  | .reserved c => reservedCode c
  | _ => true

/-- A register of a 5-bit parallel-move field: codes 0x04-0x1F (R104, R110). -/
def Reg.isMoveReg : Reg → Bool
  | .x0 | .x1 | .y0 | .y1 | .a0 | .b0 | .a2 | .b2 | .a1 | .b1 | .a | .b | .r _ | .n _ => true
  | .m _ | .sr | .omr | .sp | .ssh | .ssl | .la | .lc | .reserved _ => false

/-- A register of a MOVEC control field: codes 0x20-0x3F, the reserved ones among them (R104). -/
def Reg.isControlReg : Reg → Bool
  | .m _ | .sr | .omr | .sp | .ssh | .ssl | .la | .lc => true
  | .reserved c => reservedCode c && decide (0x20 ≤ c.toNat)
  | .x0 | .x1 | .y0 | .y1 | .a0 | .b0 | .a2 | .b2 | .a1 | .b1 | .a | .b | .r _ | .n _ => false

/-- An instruction that some word encodes. -/
def Instr.wellFormed : Instr → Bool
  | .movecReg _ r c => r.codeOk && c.isControlReg
  | .movecEa _ _ c => c.isControlReg
  | .movecAa _ _ _ c => c.isControlReg
  | .movecImm _ c => c.isControlReg
  | .repReg r => r.codeOk
  | .doReg r _ => r.codeOk
  | .moveRegReg src dst _ => src.isMoveReg && dst.isMoveReg
  | .moveImm dst _ _ => dst.isMoveReg
  | .moveXYEa _ r _ _ => r.isMoveReg
  | .moveXYAa _ r _ _ _ => r.isMoveReg
  | .nop | .rti | .illegal | .trap | .rts | .wait | .stop | .enddo => true
  | .andi .. | .ori .. | .repImm .. | .repAa .. | .repEa .. | .doImm .. | .doAa .. | .doEa .. => true
  | .moveXRII .. | .moveRYII .. | .jmpEa .. | .jccEa .. | .jsrEa .. | .jsccEa .. => true
  | .jmpAbs .. | .jsrAbs .. | .jccAbs .. | .jsccAbs .. => true
  | .moveXRI .. | .moveRYI .. | .noMove .. | .moveUpdate .. | .moveLEa .. | .moveLAa .. | .moveXYDouble .. => true
  | .aluMove | .tfrAcc .. | .tfrReg .. | .addr .. | .tst .. | .cmpAcc .. | .cmpReg .. | .subr .. => true
  | .cmpmAcc .. | .cmpmReg .. | .addAcc .. | .addX .. | .addY .. | .addReg .. | .rnd .. | .addl .. | .clr .. => true
  | .subAcc .. | .subX .. | .subY .. | .subReg .. | .subl .. | .notAcc .. | .adc .. | .asr .. | .lsr .. => true
  | .sbc .. | .absAcc .. | .ror .. | .asl .. | .lsl .. | .neg .. | .rol .. | .orReg .. | .eorReg .. => true
  | .andReg .. | .mpy .. | .mpyr .. | .mac .. | .macr .. => true

end Sys2Proof
end

