-- ==== Sys2Proof/Decode.lean ====
section
/-! DEFINITION. The decoder, as a table of rows (R93, R94, R107, R110, R175), and the encoder, written from the same
templates. Decoding is total: a word with no row is rejected as `unlisted`, a word with two as `ambiguousMatch`. -/

namespace Sys2Proof

/-! ### Bit fields -/

/-- `w[lo+len-1 : lo]` (R8). -/
def fieldAt {n : Nat} (w : BitVec n) (lo len : Nat) : BitVec len := w.extractLsb' lo len

/-- A 3-bit register number. -/
def indexOf (f : BitVec 3) : Fin 8 := f.toFin

/-- The bits of a register number. -/
def indexBits (i : Fin 8) : BitVec 3 := BitVec.ofFin i

/-! ### Register codes (R21, R104) -/

/-- The register of a 6-bit code. -/
def regOfCode (c : BitVec 6) : Reg :=
  match (fieldAt c 3 3).toNat with
  | 2 => .r (indexOf (fieldAt c 0 3))
  | 3 => .n (indexOf (fieldAt c 0 3))
  | 4 => .m (indexOf (fieldAt c 0 3))
  | _ =>
    match c.toNat with
    | 0x04 => .x0
    | 0x05 => .x1
    | 0x06 => .y0
    | 0x07 => .y1
    | 0x08 => .a0
    | 0x09 => .b0
    | 0x0A => .a2
    | 0x0B => .b2
    | 0x0C => .a1
    | 0x0D => .b1
    | 0x0E => .a
    | 0x0F => .b
    | 0x39 => .sr
    | 0x3A => .omr
    | 0x3B => .sp
    | 0x3C => .ssh
    | 0x3D => .ssl
    | 0x3E => .la
    | 0x3F => .lc
    | _ => .reserved c

/-- The 6-bit code of a register. -/
def regCode : Reg → BitVec 6
  | .x0 => 0x04
  | .x1 => 0x05
  | .y0 => 0x06
  | .y1 => 0x07
  | .a0 => 0x08
  | .b0 => 0x09
  | .a2 => 0x0A
  | .b2 => 0x0B
  | .a1 => 0x0C
  | .b1 => 0x0D
  | .a => 0x0E
  | .b => 0x0F
  | .r i => (0b010#3 ++ indexBits i : BitVec 6)
  | .n i => (0b011#3 ++ indexBits i : BitVec 6)
  | .m i => (0b100#3 ++ indexBits i : BitVec 6)
  | .sr => 0x39
  | .omr => 0x3A
  | .sp => 0x3B
  | .ssh => 0x3C
  | .ssl => 0x3D
  | .la => 0x3E
  | .lc => 0x3F
  | .reserved c => c

/-- A 5-bit parallel-move field is the code `0 : DDDDD` (R104). -/
def moveRegOf (f : BitVec 5) : Reg := regOfCode (0#1 ++ f : BitVec 6)

/-- A 5-bit MOVEC control field is the code `1 : ddddd` (R104). -/
def controlRegOf (f : BitVec 5) : Reg := regOfCode (1#1 ++ f : BitVec 6)

/-- The low five bits of a register's code. -/
def regBits5 (r : Reg) : BitVec 5 := fieldAt (regCode r) 0 5

/-! ### One-bit and short fields -/

def accOf (b : BitVec 1) : AccSel := if b = 1#1 then .b else .a
def accBit : AccSel → BitVec 1
  | .a => 0
  | .b => 1

def spaceOf (b : BitVec 1) : Space := if b = 1#1 then .y else .x
def spaceBit : Space → BitVec 1
  | .x => 0
  | .y => 1

def dirOf (b : BitVec 1) : Dir := if b = 1#1 then .load else .store
def dirBit : Dir → BitVec 1
  | .store => 0
  | .load => 1

def xInputOf (b : BitVec 1) : XInput := if b = 1#1 then .x1 else .x0
def xInputBit : XInput → BitVec 1
  | .x0 => 0
  | .x1 => 1

def yInputOf (b : BitVec 1) : YInput := if b = 1#1 then .y1 else .y0
def yInputBit : YInput → BitVec 1
  | .y0 => 0
  | .y1 => 1

def pairSelOf (b : BitVec 1) : PairSel := if b = 1#1 then .y else .x
def pairSelBit : PairSel → BitVec 1
  | .x => 0
  | .y => 1

def mulSignOf (b : BitVec 1) : MulSign := if b = 1#1 then .minus else .plus
def mulSignBit : MulSign → BitVec 1
  | .plus => 0
  | .minus => 1

def xSideOf (f : BitVec 2) : XSide :=
  match f.toNat with
  | 0 => .x0
  | 1 => .x1
  | 2 => .a
  | _ => .b
def xSideBits : XSide → BitVec 2
  | .x0 => 0
  | .x1 => 1
  | .a => 2
  | .b => 3

def ySideOf (f : BitVec 2) : YSide :=
  match f.toNat with
  | 0 => .y0
  | 1 => .y1
  | 2 => .a
  | _ => .b
def ySideBits : YSide → BitVec 2
  | .y0 => 0
  | .y1 => 1
  | .a => 2
  | .b => 3

/-- JJ, the low bits of JJJ = 100 .. 111 (R175). -/
def aluRegOf (f : BitVec 2) : AluReg :=
  match f.toNat with
  | 0 => .x0
  | 1 => .y0
  | 2 => .x1
  | _ => .y1
def aluRegBits : AluReg → BitVec 2
  | .x0 => 0
  | .y0 => 1
  | .x1 => 2
  | .y1 => 3

/-- MM of the address register update (R101, R222). -/
def updateModeOf (f : BitVec 2) : UpdateMode :=
  match f.toNat with
  | 0 => .subN
  | 1 => .addN
  | 2 => .dec
  | _ => .inc
def updateModeBits : UpdateMode → BitVec 2
  | .subN => 0
  | .addN => 1
  | .dec => 2
  | .inc => 3

/-- MM and mm of an XY move (R102). -/
def xyModeOf (f : BitVec 2) : XyMode :=
  match f.toNat with
  | 0 => .plain
  | 1 => .addN
  | 2 => .dec
  | _ => .inc
def xyModeBits : XyMode → BitVec 2
  | .plain => 0
  | .addN => 1
  | .dec => 2
  | .inc => 3

/-- EE of ANDI and ORI (R96); 11 is excluded by the rows' predicate. -/
def ctlTargetOf (f : BitVec 2) : CtlTarget :=
  match f.toNat with
  | 0 => .mr
  | 1 => .ccr
  | _ => .omr
def ctlTargetBits : CtlTarget → BitVec 2
  | .mr => 0
  | .ccr => 1
  | .omr => 2

/-- LLL (R229). -/
def lPairOf (f : BitVec 3) : LPair :=
  match f.toNat with
  | 0 => .a10
  | 1 => .b10
  | 2 => .x
  | 3 => .y
  | 4 => .a
  | 5 => .b
  | 6 => .ab
  | _ => .ba
def lPairBits : LPair → BitVec 3
  | .a10 => 0
  | .b10 => 1
  | .x => 2
  | .y => 3
  | .a => 4
  | .b => 5
  | .ab => 6
  | .ba => 7

/-- QQQ (R175). -/
def mulPairOf (f : BitVec 3) : MulPair :=
  match f.toNat with
  | 0 => .x0x0
  | 1 => .y0y0
  | 2 => .x1x0
  | 3 => .y1y0
  | 4 => .x0y1
  | 5 => .y0x0
  | 6 => .x1y0
  | _ => .y1x1
def mulPairBits : MulPair → BitVec 3
  | .x0x0 => 0
  | .y0y0 => 1
  | .x1x0 => 2
  | .y1y0 => 3
  | .x0y1 => 4
  | .y0x0 => 5
  | .x1y0 => 6
  | .y1x1 => 7

/-- CCCC (R106). -/
def condOf (f : BitVec 4) : Cond :=
  match f.toNat with
  | 0 => .cc
  | 1 => .ge
  | 2 => .ne
  | 3 => .pl
  | 4 => .nn
  | 5 => .ec
  | 6 => .lc
  | 7 => .gt
  | 8 => .cs
  | 9 => .lt
  | 10 => .eq
  | 11 => .mi
  | 12 => .nr
  | 13 => .es
  | 14 => .ls
  | _ => .le
def condBits : Cond → BitVec 4
  | .cc => 0
  | .ge => 1
  | .ne => 2
  | .pl => 3
  | .nn => 4
  | .ec => 5
  | .lc => 6
  | .gt => 7
  | .cs => 8
  | .lt => 9
  | .eq => 10
  | .mi => 11
  | .nr => 12
  | .es => 13
  | .ls => 14
  | .le => 15

/-! ### Effective addresses (R100) -/

/-- MMMRRR = 110000, the absolute form. -/
def eaIsAbs (f : BitVec 6) : Bool := f == 0b110000#6
/-- MMMRRR = 110100, the immediate form. -/
def eaIsImm (f : BitVec 6) : Bool := f == 0b110100#6
/-- MMM = 110 with another RRR. -/
def eaIsReserved (f : BitVec 6) : Bool := fieldAt f 3 3 == 0b110#3 && !eaIsAbs f && !eaIsImm f
/-- Neither immediate nor reserved: an address. -/
def eaIsAddr (f : BitVec 6) : Bool := !eaIsReserved f && !eaIsImm f
/-- Not MMM = 110: a register mode. -/
def eaIsReg (f : BitVec 6) : Bool := !(fieldAt f 3 3 == 0b110#3)
/-- The predicate "ea not reserved; W = 0: ea not immediate" of the rows with a W bit. -/
def eaMoveOk (w : BitVec 1) (f : BitVec 6) : Bool := !eaIsReserved f && !(w == 0#1 && eaIsImm f)

/-- MMM other than 110. -/
def eaModeOf (f : BitVec 3) : EaMode :=
  match f.toNat with
  | 0 => .postSubN
  | 1 => .postAddN
  | 2 => .postDec
  | 3 => .postInc
  | 4 => .plain
  | 5 => .indexed
  | _ => .preDec
def eaModeBits : EaMode → BitVec 3
  | .postSubN => 0
  | .postAddN => 1
  | .postDec => 2
  | .postInc => 3
  | .plain => 4
  | .indexed => 5
  | .preDec => 7

/-- The address operand of MMMRRR, with the extension word for the absolute form. -/
def eaAddrOf (f : BitVec 6) (ext : Word) : EaAddr :=
  if eaIsAbs f then .abs ext else .reg (eaModeOf (fieldAt f 3 3)) (indexOf (fieldAt f 0 3))

/-- The source operand of MMMRRR, with the extension word for the absolute and immediate forms. -/
def eaSrcOf (f : BitVec 6) (ext : Word) : EaSrc :=
  if eaIsImm f then .imm ext else .addr (eaAddrOf f ext)

/-- W with MMMRRR. -/
def eaMoveOf (w : BitVec 1) (f : BitVec 6) (ext : Word) : EaMove :=
  match dirOf w with
  | .load => .load (eaSrcOf f ext)
  | .store => .store (eaAddrOf f ext)

/-- MMMRRR of a register mode. -/
def eaRegBits (mode : EaMode) (i : Fin 8) : BitVec 6 := (eaModeBits mode ++ indexBits i : BitVec 6)

def eaAddrBits : EaAddr → BitVec 6
  | .reg mode i => eaRegBits mode i
  | .abs _ => 0b110000

def eaAddrExt : EaAddr → List Word
  | .reg _ _ => []
  | .abs e => [e]

def eaSrcBits : EaSrc → BitVec 6
  | .addr ea => eaAddrBits ea
  | .imm _ => 0b110100

def eaSrcExt : EaSrc → List Word
  | .addr ea => eaAddrExt ea
  | .imm v => [v]

def eaMoveDir : EaMove → Dir
  | .load _ => .load
  | .store _ => .store

def eaMoveBits : EaMove → BitVec 6
  | .load src => eaSrcBits src
  | .store dst => eaAddrBits dst

def eaMoveExt : EaMove → List Word
  | .load src => eaSrcExt src
  | .store dst => eaAddrExt dst

/-! ### Templates (R93) -/

/-- The mask of a template: a set bit for each literal. -/
def templateMask (t : String) : Nat :=
  t.toList.foldl (fun n c => 2 * n + if c == '0' || c == '1' then 1 else 0) 0

/-- The match value of a template: its literals, other positions 0. -/
def templateValue (t : String) : Nat :=
  t.toList.foldl (fun n c => 2 * n + if c == '1' then 1 else 0) 0

/-! ### The data-ALU byte (R175) -/

/-- A row of format alu_byte. -/
structure AluRow where
  mnemonic : String
  template : String
  mask : Byte
  value : Byte
  build : Byte → AluOp

/-- Bit d of the byte. -/
def byteAcc (b : Byte) : AccSel := accOf (fieldAt b 3 1)
def byteReg (b : Byte) : AluReg := aluRegOf (fieldAt b 4 2)
def bytePair (b : Byte) : PairSel := pairSelOf (fieldAt b 4 1)
def byteMul (b : Byte) : MulPair := mulPairOf (fieldAt b 4 3)
def byteSign (b : Byte) : MulSign := mulSignOf (fieldAt b 2 1)

def aluRows : List AluRow := [
  ⟨"MOVE__no_ALU_op", "00000000", 0xFF, 0x00, fun _ => .move⟩,
  ⟨"TFR_D__D", "0000d001", 0xF7, 0x01, fun b => .tfrAcc (byteAcc b)⟩,
  ⟨"TFR_reg_D", "01JJd001", 0xC7, 0x41, fun b => .tfrReg (byteReg b) (byteAcc b)⟩,
  ⟨"ADDR", "0000d010", 0xF7, 0x02, fun b => .addr (byteAcc b)⟩,
  ⟨"TST", "0000d011", 0xF7, 0x03, fun b => .tst (byteAcc b)⟩,
  ⟨"CMP_D__D", "0000d101", 0xF7, 0x05, fun b => .cmpAcc (byteAcc b)⟩,
  ⟨"CMP_reg_D", "01JJd101", 0xC7, 0x45, fun b => .cmpReg (byteReg b) (byteAcc b)⟩,
  ⟨"SUBR", "0000d110", 0xF7, 0x06, fun b => .subr (byteAcc b)⟩,
  ⟨"CMPM_D__D", "0000d111", 0xF7, 0x07, fun b => .cmpmAcc (byteAcc b)⟩,
  ⟨"CMPM_reg_D", "01JJd111", 0xC7, 0x47, fun b => .cmpmReg (byteReg b) (byteAcc b)⟩,
  ⟨"ADD_D__D", "0001d000", 0xF7, 0x10, fun b => .addAcc (byteAcc b)⟩,
  ⟨"ADD_X_D", "0010d000", 0xF7, 0x20, fun b => .addX (byteAcc b)⟩,
  ⟨"ADD_Y_D", "0011d000", 0xF7, 0x30, fun b => .addY (byteAcc b)⟩,
  ⟨"ADD_reg_D", "01JJd000", 0xC7, 0x40, fun b => .addReg (byteReg b) (byteAcc b)⟩,
  ⟨"RND", "0001d001", 0xF7, 0x11, fun b => .rnd (byteAcc b)⟩,
  ⟨"ADDL", "0001d010", 0xF7, 0x12, fun b => .addl (byteAcc b)⟩,
  ⟨"CLR", "0001d011", 0xF7, 0x13, fun b => .clr (byteAcc b)⟩,
  ⟨"SUB_D__D", "0001d100", 0xF7, 0x14, fun b => .subAcc (byteAcc b)⟩,
  ⟨"SUB_X_D", "0010d100", 0xF7, 0x24, fun b => .subX (byteAcc b)⟩,
  ⟨"SUB_Y_D", "0011d100", 0xF7, 0x34, fun b => .subY (byteAcc b)⟩,
  ⟨"SUB_reg_D", "01JJd100", 0xC7, 0x44, fun b => .subReg (byteReg b) (byteAcc b)⟩,
  ⟨"SUBL", "0001d110", 0xF7, 0x16, fun b => .subl (byteAcc b)⟩,
  ⟨"NOT", "0001d111", 0xF7, 0x17, fun b => .notAcc (byteAcc b)⟩,
  ⟨"ADC", "001Jd001", 0xE7, 0x21, fun b => .adc (bytePair b) (byteAcc b)⟩,
  ⟨"ASR", "0010d010", 0xF7, 0x22, fun b => .asr (byteAcc b)⟩,
  ⟨"LSR", "0010d011", 0xF7, 0x23, fun b => .lsr (byteAcc b)⟩,
  ⟨"SBC", "001Jd101", 0xE7, 0x25, fun b => .sbc (bytePair b) (byteAcc b)⟩,
  ⟨"ABS", "0010d110", 0xF7, 0x26, fun b => .absAcc (byteAcc b)⟩,
  ⟨"ROR", "0010d111", 0xF7, 0x27, fun b => .ror (byteAcc b)⟩,
  ⟨"ASL", "0011d010", 0xF7, 0x32, fun b => .asl (byteAcc b)⟩,
  ⟨"LSL", "0011d011", 0xF7, 0x33, fun b => .lsl (byteAcc b)⟩,
  ⟨"NEG", "0011d110", 0xF7, 0x36, fun b => .neg (byteAcc b)⟩,
  ⟨"ROL", "0011d111", 0xF7, 0x37, fun b => .rol (byteAcc b)⟩,
  ⟨"OR", "01JJd010", 0xC7, 0x42, fun b => .orReg (byteReg b) (byteAcc b)⟩,
  ⟨"EOR", "01JJd011", 0xC7, 0x43, fun b => .eorReg (byteReg b) (byteAcc b)⟩,
  ⟨"AND", "01JJd110", 0xC7, 0x46, fun b => .andReg (byteReg b) (byteAcc b)⟩,
  ⟨"MPY", "1QQQdk00", 0x83, 0x80, fun b => .mpy (byteMul b) (byteAcc b) (byteSign b)⟩,
  ⟨"MPYR", "1QQQdk01", 0x83, 0x81, fun b => .mpyr (byteMul b) (byteAcc b) (byteSign b)⟩,
  ⟨"MAC", "1QQQdk10", 0x83, 0x82, fun b => .mac (byteMul b) (byteAcc b) (byteSign b)⟩,
  ⟨"MACR", "1QQQdk11", 0x83, 0x83, fun b => .macr (byteMul b) (byteAcc b) (byteSign b)⟩]

/-- The rows a byte matches. -/
def aluMatches (b : Byte) : List AluRow := aluRows.filter fun r => b &&& r.mask == r.value

/-- The ALU operation of a byte, `none` for the undefined bytes of R175. -/
def decodeAluByte (b : Byte) : Option AluOp :=
  match aluMatches b with
  | [r] => some (r.build b)
  | _ => none

/-- The ALU byte of a word (R111). -/
def aluByteOf (w : Word) : Byte := fieldAt w 0 8

/-- The ALU byte of the word is defined (R133, R175). -/
def aluDefined (w : Word) : Bool := (decodeAluByte (aluByteOf w)).isSome

/-- The ALU operation of a word whose byte is defined. -/
def aluOf (w : Word) : AluOp := (decodeAluByte (aluByteOf w)).getD .move

/-! ### The word rows (R107, R110) -/

/-- A row: its template, mask and match, extra predicate (R94), whether it takes an extension word (R91, R108),
and the instruction it builds from the opcode word and the extension word. -/
structure Row where
  mnemonic : String
  template : String
  mask : Word
  value : Word
  pred : Word → Bool
  ext : Word → Bool
  build : Word → Word → Instr

/-- MMMRRR at w[13:8]. -/
def eaBits (w : Word) : BitVec 6 := fieldAt w 8 6
/-- Bit W at w[15]. -/
def wBit (w : Word) : BitVec 1 := fieldAt w 15 1
def eaNeedsExt (w : Word) : Bool := eaIsAbs (eaBits w) || eaIsImm (eaBits w)
def eaNeedsAbs (w : Word) : Bool := eaIsAbs (eaBits w)
def always (_ : Word) : Bool := true
def never (_ : Word) : Bool := false

/-- The 12-bit count `hhhh : iiiiiiii` (R96). -/
def countOf (w : Word) : BitVec 12 := (fieldAt w 0 4 ++ fieldAt w 8 8 : BitVec 12)

/-- DDDDD = w[21:20] : w[18:16] of an X or Y memory move (R110). -/
def xyRegBits (w : Word) : BitVec 5 := (fieldAt w 20 2 ++ fieldAt w 16 3 : BitVec 5)

/-- LLL = w[19] : w[17:16] of an L move (R229). -/
def lBits (w : Word) : BitVec 3 := (fieldAt w 19 1 ++ fieldAt w 16 2 : BitVec 3)

/-- A 5-bit register field that names a register: at least 00100 (R110). -/
def moveRegOk (f : BitVec 5) : Bool := 4 ≤ f.toNat

def nonParallelRows : List Row := [
  ⟨"NOP", "000000000000000000000000", 0xFFFFFF, 0x000000, always, never, fun _ _ => .nop⟩,
  ⟨"RTI", "000000000000000000000100", 0xFFFFFF, 0x000004, always, never, fun _ _ => .rti⟩,
  ⟨"ILLEGAL", "000000000000000000000101", 0xFFFFFF, 0x000005, always, never, fun _ _ => .illegal⟩,
  ⟨"TRAP", "000000000000000000000110", 0xFFFFFF, 0x000006, always, never, fun _ _ => .trap⟩,
  ⟨"RTS", "000000000000000000001100", 0xFFFFFF, 0x00000C, always, never, fun _ _ => .rts⟩,
  ⟨"WAIT", "000000000000000010000110", 0xFFFFFF, 0x000086, always, never, fun _ _ => .wait⟩,
  ⟨"STOP", "000000000000000010000111", 0xFFFFFF, 0x000087, always, never, fun _ _ => .stop⟩,
  ⟨"ENDDO", "000000000000000010001100", 0xFFFFFF, 0x00008C, always, never, fun _ _ => .enddo⟩,
  ⟨"ANDI", "00000000iiiiiiii101110EE", 0xFF00FC, 0x0000B8, fun w => fieldAt w 0 2 != 3#2, never,
    fun w _ => .andi (fieldAt w 8 8) (ctlTargetOf (fieldAt w 0 2))⟩,
  ⟨"ORI", "00000000iiiiiiii111110EE", 0xFF00FC, 0x0000F8, fun w => fieldAt w 0 2 != 3#2, never,
    fun w _ => .ori (fieldAt w 8 8) (ctlTargetOf (fieldAt w 0 2))⟩,
  ⟨"MOVEC_reg", "00000100W1eeeeee101ddddd", 0xFF40E0, 0x0440A0, always, never,
    fun w _ => .movecReg (dirOf (wBit w)) (regOfCode (fieldAt w 8 6)) (controlRegOf (fieldAt w 0 5))⟩,
  ⟨"MOVEC_ea", "00000101W1MMMRRR0S1ddddd", 0xFF40A0, 0x054020, fun w => eaMoveOk (wBit w) (eaBits w), eaNeedsExt,
    fun w e => .movecEa (eaMoveOf (wBit w) (eaBits w) e) (spaceOf (fieldAt w 6 1)) (controlRegOf (fieldAt w 0 5))⟩,
  ⟨"MOVEC_aa", "00000101W0aaaaaa0S1ddddd", 0xFF40A0, 0x050020, always, never,
    fun w _ => .movecAa (dirOf (wBit w)) (fieldAt w 8 6) (spaceOf (fieldAt w 6 1)) (controlRegOf (fieldAt w 0 5))⟩,
  ⟨"MOVEC_imm", "00000101iiiiiiii101ddddd", 0xFF00E0, 0x0500A0, always, never,
    fun w _ => .movecImm (fieldAt w 8 8) (controlRegOf (fieldAt w 0 5))⟩,
  ⟨"REP_imm", "00000110iiiiiiii1010hhhh", 0xFF00F0, 0x0600A0, always, never, fun w _ => .repImm (countOf w)⟩,
  ⟨"REP_aa", "0000011000aaaaaa0S100000", 0xFFC0BF, 0x060020, always, never,
    fun w _ => .repAa (fieldAt w 8 6) (spaceOf (fieldAt w 6 1))⟩,
  ⟨"REP_ea", "0000011001MMMRRR0S100000", 0xFFC0BF, 0x064020, fun w => eaIsReg (eaBits w), never,
    fun w _ => .repEa (eaModeOf (fieldAt w 11 3)) (indexOf (fieldAt w 8 3)) (spaceOf (fieldAt w 6 1))⟩,
  ⟨"REP_reg", "0000011011dddddd00100000", 0xFFC0FF, 0x06C020, always, never, fun w _ => .repReg (regOfCode (fieldAt w 8 6))⟩,
  ⟨"DO_imm", "00000110iiiiiiii1000hhhh", 0xFF00F0, 0x060080, always, always, fun w e => .doImm (countOf w) e⟩,
  ⟨"DO_aa", "0000011000aaaaaa0S000000", 0xFFC0BF, 0x060000, always, always,
    fun w e => .doAa (fieldAt w 8 6) (spaceOf (fieldAt w 6 1)) e⟩,
  ⟨"DO_ea", "0000011001MMMRRR0S000000", 0xFFC0BF, 0x064000, fun w => eaIsReg (eaBits w), always,
    fun w e => .doEa (eaModeOf (fieldAt w 11 3)) (indexOf (fieldAt w 8 3)) (spaceOf (fieldAt w 6 1)) e⟩,
  ⟨"DO_reg", "0000011011DDDDDD00000000", 0xFFC0FF, 0x06C000, always, always, fun w e => .doReg (regOfCode (fieldAt w 8 6)) e⟩,
  ⟨"MOVE_X_R_class_II", "0000100d00MMMRRRxxxxxxxx", 0xFEC000, 0x080000, fun w => eaIsAddr (eaBits w) && aluDefined w, eaNeedsAbs,
    fun w e => .moveXRII (accOf (fieldAt w 16 1)) (eaAddrOf (eaBits w) e) (aluOf w)⟩,
  ⟨"MOVE_R_Y_class_II", "0000100d10MMMRRRxxxxxxxx", 0xFEC000, 0x088000, fun w => eaIsAddr (eaBits w) && aluDefined w, eaNeedsAbs,
    fun w e => .moveRYII (accOf (fieldAt w 16 1)) (eaAddrOf (eaBits w) e) (aluOf w)⟩,
  ⟨"JMP_ea", "0000101011MMMRRR10000000", 0xFFC0FF, 0x0AC080, fun w => eaIsAddr (eaBits w), eaNeedsAbs,
    fun w e => .jmpEa (eaAddrOf (eaBits w) e)⟩,
  ⟨"Jcc_ea", "0000101011MMMRRR1010CCCC", 0xFFC0F0, 0x0AC0A0, fun w => eaIsAddr (eaBits w), eaNeedsAbs,
    fun w e => .jccEa (eaAddrOf (eaBits w) e) (condOf (fieldAt w 0 4))⟩,
  ⟨"JSR_ea", "0000101111MMMRRR10000000", 0xFFC0FF, 0x0BC080, fun w => eaIsAddr (eaBits w), eaNeedsAbs,
    fun w e => .jsrEa (eaAddrOf (eaBits w) e)⟩,
  ⟨"JScc_ea", "0000101111MMMRRR1010CCCC", 0xFFC0F0, 0x0BC0A0, fun w => eaIsAddr (eaBits w), eaNeedsAbs,
    fun w e => .jsccEa (eaAddrOf (eaBits w) e) (condOf (fieldAt w 0 4))⟩,
  ⟨"JMP_abs", "000011000000aaaaaaaaaaaa", 0xFFF000, 0x0C0000, always, never, fun w _ => .jmpAbs (fieldAt w 0 12)⟩,
  ⟨"JSR_abs", "000011010000aaaaaaaaaaaa", 0xFFF000, 0x0D0000, always, never, fun w _ => .jsrAbs (fieldAt w 0 12)⟩,
  ⟨"Jcc_abs", "00001110CCCCaaaaaaaaaaaa", 0xFF0000, 0x0E0000, always, never,
    fun w _ => .jccAbs (condOf (fieldAt w 12 4)) (fieldAt w 0 12)⟩,
  ⟨"JScc_abs", "00001111CCCCaaaaaaaaaaaa", 0xFF0000, 0x0F0000, always, never,
    fun w _ => .jsccAbs (condOf (fieldAt w 12 4)) (fieldAt w 0 12)⟩]

def parallelRows : List Row := [
  ⟨"MOVE_X_R_class_I", "0001ffdFW0MMMRRRxxxxxxxx", 0xF04000, 0x100000,
    fun w => eaMoveOk (wBit w) (eaBits w) && aluDefined w, eaNeedsExt,
    fun w e => .moveXRI (xSideOf (fieldAt w 18 2)) (accOf (fieldAt w 17 1)) (yInputOf (fieldAt w 16 1))
      (eaMoveOf (wBit w) (eaBits w) e) (aluOf w)⟩,
  ⟨"MOVE_R_Y_class_I", "0001deffW1MMMRRRxxxxxxxx", 0xF04000, 0x104000,
    fun w => eaMoveOk (wBit w) (eaBits w) && aluDefined w, eaNeedsExt,
    fun w e => .moveRYI (accOf (fieldAt w 19 1)) (xInputOf (fieldAt w 18 1)) (ySideOf (fieldAt w 16 2))
      (eaMoveOf (wBit w) (eaBits w) e) (aluOf w)⟩,
  ⟨"no_parallel_move", "0010000000000000xxxxxxxx", 0xFFFF00, 0x200000, aluDefined, never, fun w _ => .noMove (aluOf w)⟩,
  ⟨"MOVE__Rn__update", "00100000010MMRRRxxxxxxxx", 0xFFE000, 0x204000, aluDefined, never,
    fun w _ => .moveUpdate (updateModeOf (fieldAt w 11 2)) (indexOf (fieldAt w 8 3)) (aluOf w)⟩,
  ⟨"MOVE_reg_reg", "001000eeeeedddddxxxxxxxx", 0xFC0000, 0x200000,
    fun w => moveRegOk (fieldAt w 13 5) && moveRegOk (fieldAt w 8 5) && aluDefined w, never,
    fun w _ => .moveRegReg (moveRegOf (fieldAt w 13 5)) (moveRegOf (fieldAt w 8 5)) (aluOf w)⟩,
  ⟨"MOVE__xx_reg", "001DDDDDiiiiiiiixxxxxxxx", 0xE00000, 0x200000, fun w => moveRegOk (fieldAt w 16 5) && aluDefined w, never,
    fun w _ => .moveImm (moveRegOf (fieldAt w 16 5)) (fieldAt w 8 8) (aluOf w)⟩,
  ⟨"MOVE_X_Y_ea", "01DDSDDDW1MMMRRRxxxxxxxx", 0xC04000, 0x404000,
    fun w => moveRegOk (xyRegBits w) && eaMoveOk (wBit w) (eaBits w) && aluDefined w, eaNeedsExt,
    fun w e => .moveXYEa (spaceOf (fieldAt w 19 1)) (moveRegOf (xyRegBits w)) (eaMoveOf (wBit w) (eaBits w) e) (aluOf w)⟩,
  ⟨"MOVE_X_Y_aa", "01DDSDDDW0aaaaaaxxxxxxxx", 0xC04000, 0x400000, fun w => moveRegOk (xyRegBits w) && aluDefined w, never,
    fun w _ => .moveXYAa (spaceOf (fieldAt w 19 1)) (moveRegOf (xyRegBits w)) (dirOf (wBit w)) (fieldAt w 8 6) (aluOf w)⟩,
  ⟨"MOVE_L_ea", "0100L0LLW1MMMRRRxxxxxxxx", 0xF44000, 0x404000, fun w => eaIsAddr (eaBits w) && aluDefined w, eaNeedsAbs,
    fun w e => .moveLEa (lPairOf (lBits w)) (dirOf (wBit w)) (eaAddrOf (eaBits w) e) (aluOf w)⟩,
  ⟨"MOVE_L_aa", "0100L0LLW0aaaaaaxxxxxxxx", 0xF44000, 0x400000, aluDefined, never,
    fun w _ => .moveLAa (lPairOf (lBits w)) (dirOf (wBit w)) (fieldAt w 8 6) (aluOf w)⟩,
  ⟨"MOVE_X_Y", "1wmmeeffWrrMMRRRxxxxxxxx", 0x800000, 0x800000, aluDefined, never,
    fun w _ => .moveXYDouble (dirOf (fieldAt w 22 1)) (xyModeOf (fieldAt w 20 2)) (xSideOf (fieldAt w 18 2))
      (ySideOf (fieldAt w 16 2)) (dirOf (wBit w)) (fieldAt w 13 2) (xyModeOf (fieldAt w 11 2)) (indexOf (fieldAt w 8 3)) (aluOf w)⟩]

/-! ### Lookup (R92, R94) -/

/-- Why a word is not an instruction. -/
inductive DecodeError where
  | unlisted          -- no row matches (R137)
  | ambiguousMatch    -- two rows match (R94)
  deriving DecidableEq, Repr

/-- The opcode space splits at 0x100000 (R92). -/
def rowsFor (w : Word) : List Row := if w.toNat < 0x100000 then nonParallelRows else parallelRows

/-- The row's template and predicate hold of the word (R94). -/
def Row.accepts (r : Row) (w : Word) : Bool := w &&& r.mask == r.value && r.pred w

/-- The rows a word matches. -/
def rowMatches (w : Word) : List Row := (rowsFor w).filter fun r => r.accepts w

/-- "Exactly one entry may match" (R94). -/
def lookupRow (w : Word) : Except DecodeError Row :=
  match rowMatches w with
  | [r] => .ok r
  | [] => .error .unlisted
  | _ => .error .ambiguousMatch

/-- The length is told from the opcode word alone (R91): whether an extension word follows. -/
def hasExtension (w : Word) : Bool :=
  match lookupRow w with
  | .ok r => r.ext w
  | .error _ => false

/-- The instruction of an opcode word and the word after it. -/
def decode (w ext : Word) : Except DecodeError Instr :=
  match lookupRow w with
  | .ok r => .ok (r.build w ext)
  | .error e => .error e

/-! ### The alu_byte rows as instructions -/

/-- The row of an ALU operation, as an instruction of its own (R221). -/
def aluInstr : AluOp → Instr
  | .move => .aluMove
  | .tfrAcc d => .tfrAcc d
  | .tfrReg j d => .tfrReg j d
  | .addr d => .addr d
  | .tst d => .tst d
  | .cmpAcc d => .cmpAcc d
  | .cmpReg j d => .cmpReg j d
  | .subr d => .subr d
  | .cmpmAcc d => .cmpmAcc d
  | .cmpmReg j d => .cmpmReg j d
  | .addAcc d => .addAcc d
  | .addX d => .addX d
  | .addY d => .addY d
  | .addReg j d => .addReg j d
  | .rnd d => .rnd d
  | .addl d => .addl d
  | .clr d => .clr d
  | .subAcc d => .subAcc d
  | .subX d => .subX d
  | .subY d => .subY d
  | .subReg j d => .subReg j d
  | .subl d => .subl d
  | .notAcc d => .notAcc d
  | .adc j d => .adc j d
  | .asr d => .asr d
  | .lsr d => .lsr d
  | .sbc j d => .sbc j d
  | .absAcc d => .absAcc d
  | .ror d => .ror d
  | .asl d => .asl d
  | .lsl d => .lsl d
  | .neg d => .neg d
  | .rol d => .rol d
  | .orReg j d => .orReg j d
  | .eorReg j d => .eorReg j d
  | .andReg j d => .andReg j d
  | .mpy q d k => .mpy q d k
  | .mpyr q d k => .mpyr q d k
  | .mac q d k => .mac q d k
  | .macr q d k => .macr q d k

/-- The word that holds an ALU byte with no parallel move (R221). -/
def noMoveWord (b : Byte) : Word := (0x2000#16 ++ b : BitVec 24)

/-- The instruction of an instruction's bits, numbered as spec/opcode_table.json numbers them: bits 23:0 are the
opcode word, bits 47:24 the extension word. A row of at most 8 bits is an alu_byte row (log entry 12). -/
def decodeTableWord (nbits w : Nat) : Option Instr :=
  if nbits ≤ 8 then (decodeAluByte (BitVec.ofNat 8 w)).map aluInstr
  else
    match decode (BitVec.ofNat 24 w) (BitVec.ofNat 24 (w >>> 24)) with
    | .ok i => some i
    | .error _ => none

/-! ### The encoder -/

/-- The ALU byte of an operation, from the patterns of R175. -/
def encodeAluOp : AluOp → Byte
  | .move => 0x00
  | .tfrAcc d => (0b0000#4 ++ accBit d ++ 0b001#3 : BitVec 8)
  | .tfrReg j d => (0b01#2 ++ aluRegBits j ++ accBit d ++ 0b001#3 : BitVec 8)
  | .addr d => (0b0000#4 ++ accBit d ++ 0b010#3 : BitVec 8)
  | .tst d => (0b0000#4 ++ accBit d ++ 0b011#3 : BitVec 8)
  | .cmpAcc d => (0b0000#4 ++ accBit d ++ 0b101#3 : BitVec 8)
  | .cmpReg j d => (0b01#2 ++ aluRegBits j ++ accBit d ++ 0b101#3 : BitVec 8)
  | .subr d => (0b0000#4 ++ accBit d ++ 0b110#3 : BitVec 8)
  | .cmpmAcc d => (0b0000#4 ++ accBit d ++ 0b111#3 : BitVec 8)
  | .cmpmReg j d => (0b01#2 ++ aluRegBits j ++ accBit d ++ 0b111#3 : BitVec 8)
  | .addAcc d => (0b0001#4 ++ accBit d ++ 0b000#3 : BitVec 8)
  | .addX d => (0b0010#4 ++ accBit d ++ 0b000#3 : BitVec 8)
  | .addY d => (0b0011#4 ++ accBit d ++ 0b000#3 : BitVec 8)
  | .addReg j d => (0b01#2 ++ aluRegBits j ++ accBit d ++ 0b000#3 : BitVec 8)
  | .rnd d => (0b0001#4 ++ accBit d ++ 0b001#3 : BitVec 8)
  | .addl d => (0b0001#4 ++ accBit d ++ 0b010#3 : BitVec 8)
  | .clr d => (0b0001#4 ++ accBit d ++ 0b011#3 : BitVec 8)
  | .subAcc d => (0b0001#4 ++ accBit d ++ 0b100#3 : BitVec 8)
  | .subX d => (0b0010#4 ++ accBit d ++ 0b100#3 : BitVec 8)
  | .subY d => (0b0011#4 ++ accBit d ++ 0b100#3 : BitVec 8)
  | .subReg j d => (0b01#2 ++ aluRegBits j ++ accBit d ++ 0b100#3 : BitVec 8)
  | .subl d => (0b0001#4 ++ accBit d ++ 0b110#3 : BitVec 8)
  | .notAcc d => (0b0001#4 ++ accBit d ++ 0b111#3 : BitVec 8)
  | .adc j d => (0b001#3 ++ pairSelBit j ++ accBit d ++ 0b001#3 : BitVec 8)
  | .asr d => (0b0010#4 ++ accBit d ++ 0b010#3 : BitVec 8)
  | .lsr d => (0b0010#4 ++ accBit d ++ 0b011#3 : BitVec 8)
  | .sbc j d => (0b001#3 ++ pairSelBit j ++ accBit d ++ 0b101#3 : BitVec 8)
  | .absAcc d => (0b0010#4 ++ accBit d ++ 0b110#3 : BitVec 8)
  | .ror d => (0b0010#4 ++ accBit d ++ 0b111#3 : BitVec 8)
  | .asl d => (0b0011#4 ++ accBit d ++ 0b010#3 : BitVec 8)
  | .lsl d => (0b0011#4 ++ accBit d ++ 0b011#3 : BitVec 8)
  | .neg d => (0b0011#4 ++ accBit d ++ 0b110#3 : BitVec 8)
  | .rol d => (0b0011#4 ++ accBit d ++ 0b111#3 : BitVec 8)
  | .orReg j d => (0b01#2 ++ aluRegBits j ++ accBit d ++ 0b010#3 : BitVec 8)
  | .eorReg j d => (0b01#2 ++ aluRegBits j ++ accBit d ++ 0b011#3 : BitVec 8)
  | .andReg j d => (0b01#2 ++ aluRegBits j ++ accBit d ++ 0b110#3 : BitVec 8)
  | .mpy q d k => (1#1 ++ mulPairBits q ++ accBit d ++ mulSignBit k ++ 0b00#2 : BitVec 8)
  | .mpyr q d k => (1#1 ++ mulPairBits q ++ accBit d ++ mulSignBit k ++ 0b01#2 : BitVec 8)
  | .mac q d k => (1#1 ++ mulPairBits q ++ accBit d ++ mulSignBit k ++ 0b10#2 : BitVec 8)
  | .macr q d k => (1#1 ++ mulPairBits q ++ accBit d ++ mulSignBit k ++ 0b11#2 : BitVec 8)

/-- The word of an alu_byte row as an instruction of its own. -/
def encodeAluOnly (op : AluOp) : List Word := [noMoveWord (encodeAluOp op)]

/-- `hhhh` and `iiiiiiii` of a 12-bit count (R96). -/
def countHigh (c : BitVec 12) : BitVec 4 := fieldAt c 8 4
def countLow (c : BitVec 12) : BitVec 8 := fieldAt c 0 8

/-- The words of an instruction: the opcode word, then its extension word if it has one (R107, R110). -/
def encode : Instr → List Word
  | .nop => [0x000000]
  | .rti => [0x000004]
  | .illegal => [0x000005]
  | .trap => [0x000006]
  | .rts => [0x00000C]
  | .wait => [0x000086]
  | .stop => [0x000087]
  | .enddo => [0x00008C]
  | .andi i t => [(0x00#8 ++ i ++ 0b101110#6 ++ ctlTargetBits t : BitVec 24)]
  | .ori i t => [(0x00#8 ++ i ++ 0b111110#6 ++ ctlTargetBits t : BitVec 24)]
  | .movecReg w r c => [(0x04#8 ++ dirBit w ++ 1#1 ++ regCode r ++ 0b101#3 ++ regBits5 c : BitVec 24)]
  | .movecEa mv sp c =>
    (0x05#8 ++ dirBit (eaMoveDir mv) ++ 1#1 ++ eaMoveBits mv ++ 0#1 ++ spaceBit sp ++ 1#1 ++ regBits5 c : BitVec 24) :: eaMoveExt mv
  | .movecAa w aa sp c => [(0x05#8 ++ dirBit w ++ 0#1 ++ aa ++ 0#1 ++ spaceBit sp ++ 1#1 ++ regBits5 c : BitVec 24)]
  | .movecImm i c => [(0x05#8 ++ i ++ 0b101#3 ++ regBits5 c : BitVec 24)]
  | .repImm c => [(0x06#8 ++ countLow c ++ 0b1010#4 ++ countHigh c : BitVec 24)]
  | .repAa aa sp => [(0x06#8 ++ 0b00#2 ++ aa ++ 0#1 ++ spaceBit sp ++ 0b100000#6 : BitVec 24)]
  | .repEa mode i sp => [(0x06#8 ++ 0b01#2 ++ eaRegBits mode i ++ 0#1 ++ spaceBit sp ++ 0b100000#6 : BitVec 24)]
  | .repReg r => [(0x06#8 ++ 0b11#2 ++ regCode r ++ 0b00100000#8 : BitVec 24)]
  | .doImm c last => [(0x06#8 ++ countLow c ++ 0b1000#4 ++ countHigh c : BitVec 24), last]
  | .doAa aa sp last => [(0x06#8 ++ 0b00#2 ++ aa ++ 0#1 ++ spaceBit sp ++ 0b000000#6 : BitVec 24), last]
  | .doEa mode i sp last => [(0x06#8 ++ 0b01#2 ++ eaRegBits mode i ++ 0#1 ++ spaceBit sp ++ 0b000000#6 : BitVec 24), last]
  | .doReg r last => [(0x06#8 ++ 0b11#2 ++ regCode r ++ 0b00000000#8 : BitVec 24), last]
  | .moveXRII d ea alu => (0b0000100#7 ++ accBit d ++ 0b00#2 ++ eaAddrBits ea ++ encodeAluOp alu : BitVec 24) :: eaAddrExt ea
  | .moveRYII d ea alu => (0b0000100#7 ++ accBit d ++ 0b10#2 ++ eaAddrBits ea ++ encodeAluOp alu : BitVec 24) :: eaAddrExt ea
  | .jmpEa ea => (0x0A#8 ++ 0b11#2 ++ eaAddrBits ea ++ 0x80#8 : BitVec 24) :: eaAddrExt ea
  | .jccEa ea cond => (0x0A#8 ++ 0b11#2 ++ eaAddrBits ea ++ 0b1010#4 ++ condBits cond : BitVec 24) :: eaAddrExt ea
  | .jsrEa ea => (0x0B#8 ++ 0b11#2 ++ eaAddrBits ea ++ 0x80#8 : BitVec 24) :: eaAddrExt ea
  | .jsccEa ea cond => (0x0B#8 ++ 0b11#2 ++ eaAddrBits ea ++ 0b1010#4 ++ condBits cond : BitVec 24) :: eaAddrExt ea
  | .jmpAbs a => [(0x0C0#12 ++ a : BitVec 24)]
  | .jsrAbs a => [(0x0D0#12 ++ a : BitVec 24)]
  | .jccAbs cond a => [(0x0E#8 ++ condBits cond ++ a : BitVec 24)]
  | .jsccAbs cond a => [(0x0F#8 ++ condBits cond ++ a : BitVec 24)]
  | .moveXRI f d g mv alu =>
    (0b0001#4 ++ xSideBits f ++ accBit d ++ yInputBit g ++ dirBit (eaMoveDir mv) ++ 0#1 ++ eaMoveBits mv ++ encodeAluOp alu : BitVec 24)
      :: eaMoveExt mv
  | .moveRYI d e f mv alu =>
    (0b0001#4 ++ accBit d ++ xInputBit e ++ ySideBits f ++ dirBit (eaMoveDir mv) ++ 1#1 ++ eaMoveBits mv ++ encodeAluOp alu : BitVec 24)
      :: eaMoveExt mv
  | .noMove alu => [noMoveWord (encodeAluOp alu)]
  | .moveUpdate mode i alu => [(0b00100000010#11 ++ updateModeBits mode ++ indexBits i ++ encodeAluOp alu : BitVec 24)]
  | .moveRegReg src dst alu => [(0b001000#6 ++ regBits5 src ++ regBits5 dst ++ encodeAluOp alu : BitVec 24)]
  | .moveImm dst i alu => [(0b001#3 ++ regBits5 dst ++ i ++ encodeAluOp alu : BitVec 24)]
  | .moveXYEa sp r mv alu =>
    (0b01#2 ++ fieldAt (regBits5 r) 3 2 ++ spaceBit sp ++ fieldAt (regBits5 r) 0 3 ++ dirBit (eaMoveDir mv) ++ 1#1 ++ eaMoveBits mv
      ++ encodeAluOp alu : BitVec 24) :: eaMoveExt mv
  | .moveXYAa sp r w aa alu =>
    [(0b01#2 ++ fieldAt (regBits5 r) 3 2 ++ spaceBit sp ++ fieldAt (regBits5 r) 0 3 ++ dirBit w ++ 0#1 ++ aa ++ encodeAluOp alu : BitVec 24)]
  | .moveLEa l w ea alu =>
    (0b0100#4 ++ fieldAt (lPairBits l) 2 1 ++ 0#1 ++ fieldAt (lPairBits l) 0 2 ++ dirBit w ++ 1#1 ++ eaAddrBits ea ++ encodeAluOp alu
      : BitVec 24) :: eaAddrExt ea
  | .moveLAa l w aa alu =>
    [(0b0100#4 ++ fieldAt (lPairBits l) 2 1 ++ 0#1 ++ fieldAt (lPairBits l) 0 2 ++ dirBit w ++ 0#1 ++ aa ++ encodeAluOp alu : BitVec 24)]
  | .moveXYDouble wy my e f wx rr mx i alu =>
    [(1#1 ++ dirBit wy ++ xyModeBits my ++ xSideBits e ++ ySideBits f ++ dirBit wx ++ rr ++ xyModeBits mx ++ indexBits i
      ++ encodeAluOp alu : BitVec 24)]
  | .aluMove => encodeAluOnly .move
  | .tfrAcc d => encodeAluOnly (.tfrAcc d)
  | .tfrReg j d => encodeAluOnly (.tfrReg j d)
  | .addr d => encodeAluOnly (.addr d)
  | .tst d => encodeAluOnly (.tst d)
  | .cmpAcc d => encodeAluOnly (.cmpAcc d)
  | .cmpReg j d => encodeAluOnly (.cmpReg j d)
  | .subr d => encodeAluOnly (.subr d)
  | .cmpmAcc d => encodeAluOnly (.cmpmAcc d)
  | .cmpmReg j d => encodeAluOnly (.cmpmReg j d)
  | .addAcc d => encodeAluOnly (.addAcc d)
  | .addX d => encodeAluOnly (.addX d)
  | .addY d => encodeAluOnly (.addY d)
  | .addReg j d => encodeAluOnly (.addReg j d)
  | .rnd d => encodeAluOnly (.rnd d)
  | .addl d => encodeAluOnly (.addl d)
  | .clr d => encodeAluOnly (.clr d)
  | .subAcc d => encodeAluOnly (.subAcc d)
  | .subX d => encodeAluOnly (.subX d)
  | .subY d => encodeAluOnly (.subY d)
  | .subReg j d => encodeAluOnly (.subReg j d)
  | .subl d => encodeAluOnly (.subl d)
  | .notAcc d => encodeAluOnly (.notAcc d)
  | .adc j d => encodeAluOnly (.adc j d)
  | .asr d => encodeAluOnly (.asr d)
  | .lsr d => encodeAluOnly (.lsr d)
  | .sbc j d => encodeAluOnly (.sbc j d)
  | .absAcc d => encodeAluOnly (.absAcc d)
  | .ror d => encodeAluOnly (.ror d)
  | .asl d => encodeAluOnly (.asl d)
  | .lsl d => encodeAluOnly (.lsl d)
  | .neg d => encodeAluOnly (.neg d)
  | .rol d => encodeAluOnly (.rol d)
  | .orReg j d => encodeAluOnly (.orReg j d)
  | .eorReg j d => encodeAluOnly (.eorReg j d)
  | .andReg j d => encodeAluOnly (.andReg j d)
  | .mpy q d k => encodeAluOnly (.mpy q d k)
  | .mpyr q d k => encodeAluOnly (.mpyr q d k)
  | .mac q d k => encodeAluOnly (.mac q d k)
  | .macr q d k => encodeAluOnly (.macr q d k)

end Sys2Proof
end

