-- ==== Sys2Proof/Config.lean ====
section
/-! DEFINITION. The named parameters of R7 at their decided values, the interrupt source table of R323, and the free values.
The values here are the spec's own decisions (spec/92_eei_decisions.md), not the source's: log entry 15. -/

namespace Sys2Proof

/-- The 12 interrupt sources, in the arbitration order of R323. -/
inductive IrqSource where
  | reset
  | illegal
  | stackError
  | trace
  | swi
  | hostCommand
  | hostRcv
  | hostTrx
  | ssiRcvE
  | ssiRcv
  | ssiTrxE
  | ssiTrx
  deriving DecidableEq, Repr

/-- A source's interrupt priority level (R37, R325): -1 (disabled), 0, 1, 2, or 3 (non-maskable). -/
inductive Ipl where
  | disabled
  | level0
  | level1
  | level2
  | level3
  deriving DecidableEq, Repr

/-- What UNLISTED_POLICY may say (R137). -/
inductive UnlistedPolicy where
  | refuse
  | undefinedPath
  deriving DecidableEq, Repr

namespace Config

/-- Sizes of the storage arrays, in words (R6). -/
def xramSize : Nat := 3072
def yramSize : Nat := 2048
def pramSize : Nat := 4096
def mixSize : Nat := 1024
def periphSize : Nat := 128

/-- PERIPH_BASE (R62, D2). -/
def periphBase : Nat := 0xFFFF80

/-- MIX_BASE0 and MIX_BASE1 (R62, D2). -/
def mixBase0 : Nat := 0x000C00
def mixBase1 : Nat := 0x001400

/-- SR_RW_MASK (R28, D3) and OMR_RW_MASK (R29, D4). -/
def srRwMask : BitVec 16 := 0xAF7F
def omrRwMask : BitVec 8 := 0xC7

/-- The five core-implemented peripheral addresses (R291, D22). -/
def addrIsr : Word := 0xFFFFC5
def addrDmaNext : Word := 0xFFFFD4
def addrDmaStart : Word := 0xFFFFD5
def addrDmaControl : Word := 0xFFFFD6
def addrDmaConfig : Word := 0xFFFFD7

/-- ISR_EOL_ACK_BIT (R299). -/
def isrEolAckBit : Nat := 7

/-- DMA_DIR_BIT, and the low bits of DMA_BUFID_FIELD (8:5) and DMA_FORMAT_FIELD (12:10) (R298, D19). -/
def dmaDirBit : Nat := 1
def dmaBufidLow : Nat := 5
def dmaFormatLow : Nat := 10

/-- DMA_MAX_NODES (R311, D42). -/
def dmaMaxNodes : Nat := 16384

/-- The two implemented transfer formats (R301): 2-byte items holding the upper 16 bits, 4-byte items. -/
inductive DmaFormat where
  | upper16
  | full24
  deriving DecidableEq, Repr

/-- DMA_FORMATS (R301, D19). -/
def dmaFormats (code : Nat) : Option DmaFormat :=
  match code with
  | 1 => some .upper16
  | 2 => some .full24
  | _ => none

/-- VECTOR (R323, R324, D11): the P address of a source's 2-word vector slot. -/
def vector : IrqSource → Word
  | .reset => 0x00
  | .illegal => 0x3E
  | .stackError => 0x02
  | .trace => 0x04
  | .swi => 0x06
  | .hostCommand => 0xFF
  | .hostRcv => 0x20
  | .hostTrx => 0x22
  | .ssiRcvE => 0x0E
  | .ssiRcv => 0x0C
  | .ssiTrxE => 0x12
  | .ssiTrx => 0x10

/-- IPL_RESET (R323, R325, D11). -/
def iplReset : IrqSource → Ipl
  | .reset | .illegal | .stackError | .trace | .swi => .level3
  | .hostCommand | .hostRcv | .hostTrx | .ssiRcvE | .ssiRcv | .ssiTrxE | .ssiTrx => .disabled

/-- UNLISTED_POLICY (R137, D14, D31), the one policy of R95 for a word with no row and for a row without handler.
DESIGN CHOICE (log entry 5): the undefined path of R136, the effect that the spec allows, where its default is `refuse`.
Unsafe for a word that the original table has a row for. -/
def unlistedPolicy : UnlistedPolicy := .undefinedPath

/-- CYCLES (R132, R366, D30): the default charge of every step, and what a row adds to it. -/
def cyclesDefault : Nat := 2
def cyclesExtraReturn : Nat := 2
def cyclesExtraRep : Nat := 2
def cyclesExtraDo : Nat := 4
def cyclesExtraJump : Nat := 2
def cyclesExtraExtension : Nat := 2

/-- HostPeriphRead (R67, R346, D24), a FREE VALUE: what the host's peripheral read callback returns at the
draw numbered by the first argument, for the address of the second. Nothing constrains it (log entry 3). -/
opaque hostPeriphRead : Nat → Word → Word

/-- ScratchRead (R7, R305), a FREE VALUE: the environment's byte at a scratch address that nothing here has
written. Nothing constrains it (log entry 2). -/
opaque scratchInit : Nat → Byte

/-- The five word arrays whose contents a later reset leaves unspecified (R45, R361, D10). -/
inductive ArrayName where
  | xram
  | yram
  | pram
  | mixbuffer
  | periph
  deriving DecidableEq, Repr

/-- A FREE VALUE: the word an array holds at an index after the reset call numbered by the first argument.
Nothing constrains it (log entry 4). -/
opaque memoryAfterReset : Nat → ArrayName → Nat → Word

end Config

end Sys2Proof
end

