-- ==== Sys2Proof/Machine/Mem.lean ====
section
/-! DEFINITION. Memory as plain data: lists of (address, contents) in one canonical form. The smallest addressable unit
of P, X and Y is one 24-bit word (R60), of scratch memory one byte (R305): log entries 1 and 2. -/

namespace Sys2Proof.Machine

/-- The first entry at an address. -/
def cellFind {α : Type} : List (Nat × α) → Nat → Option α
  | [], _ => none
  | (b, v) :: rest, a => if b = a then some v else cellFind rest a

/-- Put an entry at its place in the rising order, replacing one at the same address. -/
def cellInsert {α : Type} : List (Nat × α) → Nat → α → List (Nat × α)
  | [], a, v => [(a, v)]
  | (b, w) :: rest, a, v =>
    if a < b then (a, v) :: (b, w) :: rest
    else if a = b then (a, v) :: rest
    else (b, w) :: cellInsert rest a v

/-- Remove what an address holds. -/
def cellErase {α : Type} (m : List (Nat × α)) (a : Nat) : List (Nat × α) :=
  m.filter fun e => e.1 ≠ a

/-- One word array: pram, xram, yram, mixbuffer or periph. -/
abbrev Memory := List (Nat × Word)

/-- What an unlisted index reads as: arrays are zero after initialize (R45, R360). -/
def Memory.unlisted : Word := 0

/-- The word at an index. -/
def Memory.read (m : Memory) (a : Nat) : Word := (cellFind m a).getD Memory.unlisted

/-- Store a word, keeping the canonical form: a word equal to what an unlisted index reads as is not listed. -/
def Memory.write (m : Memory) (a : Nat) (v : Word) : Memory :=
  if v = Memory.unlisted then cellErase m a else cellInsert m a v

/-- The canonical form of an array of `size` words: indices strictly rising and inside the array, no entry equal
to what an unlisted index reads as. -/
abbrev Memory.wf (size : Nat) (m : Memory) : Prop :=
  m.Pairwise (fun p q => p.1 < q.1) ∧ ∀ e ∈ m, e.1 < size ∧ e.2 ≠ Memory.unlisted

/-- The canonical array of `size` words with the given contents. -/
def Memory.ofContents (contents : Nat → Word) : Nat → Memory
  | 0 => []
  | k + 1 => Memory.write (Memory.ofContents contents k) k (contents k)

/-- Scratch memory: the bytes that DMA has written, by byte address; the environment owns the rest (R305). -/
abbrev Scratch := List Host.Cell

/-- The byte at a scratch address: what was written there, or the environment's byte. -/
def Scratch.read (m : Scratch) (a : Nat) : Byte := (cellFind m a).getD (Config.scratchInit a)

/-- Store a byte. -/
def Scratch.write (m : Scratch) (a : Nat) (v : Byte) : Scratch := cellInsert m a v

/-- The canonical form of scratch memory: addresses strictly rising. -/
abbrev Scratch.wf (m : Scratch) : Prop := m.Pairwise (fun p q => p.1 < q.1)

end Sys2Proof.Machine
end

