-- ==== Sys2Proof/Machine/State.lean ====
section
/-! DEFINITION. The machine's state as plain data, its faults and refusals, and the state after reset.
Every field is named in INVENTORY.md with the rule of spec/ that gives it. -/

namespace Sys2Proof.Machine

/-- The implementation faults of R322, "Fatal". Each ends the step at once. All are safe: the machine has no
next state, and the spec says that a claim must not read the state after one. -/
inductive Fault where
  /-- A P, X or Y access outside the space's cells, the fetch among them (R62, R64, R65). Safe. -/
  | addressOutOfRange
  /-- A word that matches two rows (R94); no word does with this table. Safe. -/
  | ambiguousMatch
  /-- A read or write of a register code that names no register (R23). Safe. -/
  | reservedRegister
  /-- A rule reads the scaling mode while SR[11:10] = 11 (R170). Safe. -/
  | scalingReserved
  /-- A modulo displacement larger than the modulus (R103). Safe. -/
  | moduloReserved
  /-- A reserved modifier value Mn (R103). Safe. -/
  | modifierReserved
  /-- A control-flow or loop row as the repeated instruction of REP (R144). Safe. -/
  | repOfControl
  /-- Two moves of one word into the same register (R234). Safe. -/
  | moveConflict
  /-- Arbitration took HOST_COMMAND, SSI_RCV_E or SSI_TRX_E (R334). Safe. -/
  | unimplementedVector
  /-- The host raised a source outside 0-11 (R327). Safe. -/
  | badSource
  /-- A DMA control action 5, 6 or 7 (R294). Safe. -/
  | dmaAction
  /-- A DMA format other than those of DMA_FORMATS (R301). Safe. -/
  | dmaFormat
  /-- A DMA buffer-id other than 0xE and 0xF (R302). Safe. -/
  | dmaBufid
  /-- A DMA transfer outside the three DSP offset ranges (R303). Safe. -/
  | dmaOffset
  /-- A DMA walk of more than DMA_MAX_NODES nodes (R311). Safe. -/
  | dmaNonterminating
  deriving DecidableEq, Repr

/-- Why a step has no meaning. -/
inductive Refusal where
  /-- Raised by an arm of exec whose instruction has no meaning yet. Safe. -/
  | notModelled (mnemonic : String)
  /-- Raised at a word with no row, and at a row without handler, where UNLISTED_POLICY is `refuse` (R95, R137); the
model's policy is the other one (log entry 5). Safe. -/
  | unlistedWord
  deriving DecidableEq, Repr

/-- `interrupt_state` (R37, C3). -/
inductive InterruptState where
  | none
  | disabled
  | long
  deriving DecidableEq, Repr

/-- `pipeline_count`, 0 to 5 (R37). -/
inductive PipelineCount where
  | zero
  | one
  | two
  | three
  | four
  | five
  deriving DecidableEq, Repr

/-- An accumulator: the limbs A2, A1, A0 or B2, B1, B0 (R24). -/
structure Acc where
  ext : BitVec 8
  mid : Word
  lo : Word
  deriving DecidableEq, Repr

/-- The whole machine. -/
structure State where
  /-- Program counter (R35). -/
  pc : Word
  /-- Input registers (R25). -/
  x0 : Word
  x1 : Word
  y0 : Word
  y1 : Word
  /-- Accumulators (R24). -/
  a : Acc
  b : Acc
  /-- Address, offset and modifier registers (R26). -/
  r : Vector Word 8
  n : Vector Word 8
  m : Vector Word 8
  /-- Status register (R27, R28). -/
  sr : BitVec 16
  /-- Operating mode register (R29). -/
  omr : BitVec 8
  /-- Stack pointer with SE (bit 4) and UF (bit 5) (R30). -/
  sp : BitVec 6
  /-- Shadows of the stack's active slot (R31). -/
  ssh : BitVec 16
  ssl : BitVec 16
  /-- Hardware stack rows 0 and 1 (R31). -/
  stackH : Vector (BitVec 16) 16
  stackL : Vector (BitVec 16) 16
  /-- Loop address (R32). -/
  la : BitVec 16
  /-- Loop counter, one bit wider than its register so that it can hold 0x10000 (R32, R141, C4). -/
  lc : BitVec 17
  /-- REP state (R36). -/
  loopRep : Bool
  pcOnRep : Bool
  lcSaved : BitVec 16
  /-- Interrupt bookkeeping (R37), by source index. -/
  pending : Vector Bool 12
  ipl : Vector Ipl 12
  pendingCount : Nat
  interruptState : InterruptState
  pipelineCount : PipelineCount
  instrFetch : Option Word
  savePc : Option Word
  iplToRaise : BitVec 2
  longTaken : Bool
  /-- Cycle and instruction bookkeeping (R38). -/
  instrCycle : Nat
  instrCount : Nat
  budget : Int
  /-- `len`, the length the PC update adds (R132, R138). -/
  len : Nat
  /-- The fault state with its reason (R39). -/
  fatal : Option Fault
  /-- The word arrays (R60); `periph` is read and written by no rule (R44). -/
  xram : Memory
  yram : Memory
  pram : Memory
  mixbuffer : Memory
  periph : Memory
  /-- DMA state (R290). -/
  dmaConfig : Word
  dmaControl : Word
  dmaStart : Word
  dmaNext : Word
  eol : Bool
  /-- The environment's scratch bytes that DMA has written (R305). -/
  scratch : Scratch
  /-- The MODEL's own: how many free draws have been made (log entry 3). -/
  draws : Nat
  deriving DecidableEq, Repr

/-- A raised Fatal: its reason, and the state written before it, which stays (R130, R322, D34). -/
structure Stop where
  reason : Fault
  left : State
  deriving DecidableEq, Repr

/-- The index of an interrupt source (R323). -/
def irqIndex : IrqSource → Fin 12
  | .reset => 0
  | .illegal => 1
  | .stackError => 2
  | .trace => 3
  | .swi => 4
  | .hostCommand => 5
  | .hostRcv => 6
  | .hostTrx => 7
  | .ssiRcvE => 8
  | .ssiRcv => 9
  | .ssiTrxE => 10
  | .ssiTrx => 11

/-- The 12 sources in index order (R323). -/
def irqAll : List IrqSource :=
  [.reset, .illegal, .stackError, .trace, .swi, .hostCommand, .hostRcv, .hostTrx, .ssiRcvE, .ssiRcv, .ssiTrxE, .ssiTrx]

/-- IPL_RESET by source index (R325). -/
def iplResetVector : Vector Ipl 12 :=
  #v[Config.iplReset .reset, Config.iplReset .illegal, Config.iplReset .stackError, Config.iplReset .trace,
    Config.iplReset .swi, Config.iplReset .hostCommand, Config.iplReset .hostRcv, Config.iplReset .hostTrx,
    Config.iplReset .ssiRcvE, Config.iplReset .ssiRcv, Config.iplReset .ssiTrxE, Config.iplReset .ssiTrx]

/-- The machine after `initialize`, which ends in a reset (R45, R290, R360, R361). `len` is zero-initialized
(log entry 10); `draws` is the model's own (DESIGN CHOICE 0, log entry 3). -/
def State.reset : State where
  pc := 0
  x0 := 0
  x1 := 0
  y0 := 0
  y1 := 0
  a := ⟨0, 0, 0⟩
  b := ⟨0, 0, 0⟩
  r := Vector.replicate 8 0
  n := Vector.replicate 8 0
  m := Vector.replicate 8 0xFFFF
  sr := 0
  omr := 0x02
  sp := 0
  ssh := 0
  ssl := 0
  stackH := Vector.replicate 16 0
  stackL := Vector.replicate 16 0
  la := 0
  lc := 0
  loopRep := false
  pcOnRep := false
  lcSaved := 0
  pending := Vector.replicate 12 false
  ipl := iplResetVector
  pendingCount := 0
  interruptState := .none
  pipelineCount := .zero
  instrFetch := none
  savePc := none
  iplToRaise := 0
  longTaken := false
  instrCycle := 0
  instrCount := 0
  budget := 0
  len := 0
  fatal := none
  xram := []
  yram := []
  pram := []
  mixbuffer := []
  periph := []
  dmaConfig := 0
  dmaControl := 0
  dmaStart := 0
  dmaNext := 0
  eol := false
  scratch := []
  draws := 0

end Sys2Proof.Machine
end

