-- ==== Sys2Proof/Machine/Arith.lean ====
section
/-! DEFINITION. The primitives of the 56-bit arithmetic unit (R160 to R169, R171): exact results narrowed to 56 bits. -/

namespace Sys2Proof.Machine

/-- `pack(h, m, l)` of an accumulator's limbs (R160). -/
def pack (x : Acc) : Word56 := (x.ext ++ x.mid ++ x.lo : BitVec 56)

/-- `unpack(v)` (R160). -/
def unpack (v : Word56) : Acc := ⟨fieldAt v 48 8, fieldAt v 24 24, fieldAt v 0 24⟩

/-- The extension limb that sign-extends a middle limb. -/
def signExt8 (s : Word) : BitVec 8 := if s.msb then 0xFF else 0x00

/-- `al24(s)`: a 24-bit operand aligned to the middle limb (R161). -/
def al24 (s : Word) : Word56 := pack ⟨signExt8 s, s, 0⟩

/-- `al48` of the pair hi : lo (R162). -/
def al48 (hi lo : Word) : Word56 := pack ⟨signExt8 hi, hi, lo⟩

/-- A 56-bit result with its carry (or borrow) and overflow. -/
structure Res56 where
  r : Word56
  c : Bool
  v : Bool
  deriving DecidableEq, Repr

/-- `add56(a, b)` (R164). -/
def add56 (a b : Word56) : Res56 :=
  let r := BitVec.ofNat 56 (a.toNat + b.toNat)
  ⟨r, decide (2 ^ 56 ≤ a.toNat + b.toNat), a.msb == b.msb && r.msb != a.msb⟩

/-- `sub56(a, b)`, which computes a - b (R165). -/
def sub56 (a b : Word56) : Res56 :=
  let r := BitVec.ofInt 56 (a.toNat - b.toNat : Int)
  ⟨r, decide (a.toNat < b.toNat), a.msb != b.msb && r.msb != a.msb⟩

/-- `abs56(a)`; no carry (R166). -/
def abs56 (a : Word56) : Res56 :=
  ⟨if a.msb then (sub56 0 a).r else a, false, a == BitVec.ofNat 56 (2 ^ 55)⟩

/-- Some bit of a[55 : 55-n] differs from the bit `sign` (R167). -/
def highBitsDiffer (a : Word56) (n : Nat) (sign : Bool) : Bool :=
  (List.range (n + 1)).any fun k => a.getLsbD (55 - k) != sign

/-- `asl56(a, n)` for n at most 55 (R167). -/
def asl56 (a : Word56) (n : Nat) : Res56 :=
  let r := a <<< n
  ⟨r, n != 0 && a.getLsbD (56 - n), n != 0 && highBitsDiffer a n r.msb⟩

/-- `asr56(a, n)` for n at most 55 (R168). -/
def asr56 (a : Word56) (n : Nat) : Res56 :=
  ⟨BitVec.ofInt 56 (a.toInt / 2 ^ n), n != 0 && a.getLsbD (n - 1), false⟩

/-- `mul(s1, s2, neg)`: the fractional product (R169). -/
def mul56 (s1 s2 : Word) (sign : MulSign) : Word56 :=
  let p := BitVec.ofInt 56 (2 * s1.toInt * s2.toInt)
  match sign with
  | .plus => p
  | .minus => (sub56 0 p).r

/-- Convergent rounding at bit k (R171): add 2^k; if bits k..0 of the sum are all 0, clear bit k+1; clear bits k..0.
The carry of the add is discarded. -/
def roundAt (k : Nat) (a : Word56) : Res56 :=
  let s := add56 a (BitVec.ofNat 56 (2 ^ k))
  let low := s.r &&& BitVec.ofNat 56 (2 ^ (k + 1) - 1)
  let kept := s.r &&& ~~~ BitVec.ofNat 56 (2 ^ (k + 1) - 1)
  ⟨if low = 0 then kept &&& ~~~ BitVec.ofNat 56 (2 ^ (k + 1)) else kept, false, s.v⟩

end Sys2Proof.Machine
end

