-- ==== Sys2Proof/Machine/Flags.lean ====
section
/-! DEFINITION. The status register's bits, the scaling mode, the flag functions and the limiter
(R27, R106, R170 to R174). -/

namespace Sys2Proof.Machine

/-- Bit numbers of SR (R27). -/
def srC : Nat := 0
def srV : Nat := 1
def srZ : Nat := 2
def srN : Nat := 3
def srU : Nat := 4
def srE : Nat := 5
def srL : Nat := 6
def srT : Nat := 13
def srLF : Nat := 15

/-- Write one bit of a word. -/
def setBit {n : Nat} (w : BitVec n) (i : Nat) (v : Bool) : BitVec n :=
  if v then w ||| BitVec.twoPow n i else w &&& ~~~ BitVec.twoPow n i

/-- A write of v to SR stores v & SR_RW_MASK (R28). -/
def maskSr (v : BitVec 16) : BitVec 16 := v &&& Config.srRwMask

/-- A write of v to OMR stores v & OMR_RW_MASK (R29). -/
def maskOmr (v : BitVec 8) : BitVec 8 := v &&& Config.omrRwMask

/-- SR.I, the interrupt mask (R27). -/
def srMask (sr : BitVec 16) : BitVec 2 := fieldAt sr 8 2

/-- The three scaling modes (R170). -/
inductive Scale where
  | none
  | down
  | up
  deriving DecidableEq, Repr

/-- The scaling mode SR[11:10]; 11 is Fatal for every rule that reads it (R170). -/
def scaleOf (sr : BitVec 16) : Except Fault Scale :=
  match (fieldAt sr 10 2).toNat with
  | 0 => .ok .none
  | 1 => .ok .down
  | 2 => .ok .up
  | _ => .error .scalingReserved

/-- The rounding position of each scaling mode (R171, C1). -/
def roundBit : Scale → Nat
  | .none => 23
  | .down => 24
  | .up => 22

/-- `rnd56(a)` (R171). -/
def rnd56 (sc : Scale) (a : Word56) : Res56 := roundAt (roundBit sc) a

/-- All bits of r[55 : lo] are equal. -/
def topEqual (r : Word56) (lo : Nat) : Bool :=
  (List.range (56 - lo)).all fun k => r.getLsbD (lo + k) == r.msb

/-- E: the extension is in use (R172). -/
def flagE (sc : Scale) (r : Word56) : Bool :=
  match sc with
  | .none => !topEqual r 47
  | .down => !topEqual r 48
  | .up => !topEqual r 46

/-- U: unnormalized (R172). -/
def flagU (sc : Scale) (r : Word56) : Bool :=
  match sc with
  | .none => r.getLsbD 47 == r.getLsbD 46
  | .down => r.getLsbD 48 == r.getLsbD 47
  | .up => r.getLsbD 46 == r.getLsbD 45

/-- "Set flags EUNZ(r)" (R172). -/
def withEunz (sc : Scale) (r : Word56) (sr : BitVec 16) : BitVec 16 :=
  setBit (setBit (setBit (setBit sr srE (flagE sc r)) srU (flagU sc r)) srN r.msb) srZ (r == 0)

/-- Set V, and OR it into the sticky L (R172). -/
def withV (v : Bool) (sr : BitVec 16) : BitVec 16 :=
  setBit (setBit sr srV v) srL (sr.getLsbD srL || v)

/-- Set C. -/
def withC (c : Bool) (sr : BitVec 16) : BitVec 16 := setBit sr srC c

/-- The flags of a logical operation with middle limb d (R174): N, Z, and V cleared. -/
def withLogic (d : Word) (sr : BitVec 16) : BitVec 16 :=
  setBit (setBit (setBit sr srN d.msb) srZ (d == 0)) srV false

/-- `limit24`: the value, and whether it saturated (R173). -/
def limit24 (sc : Scale) (a : Word56) : Word × Bool :=
  if flagE sc a then (if a.msb then 0x800000 else 0x7FFFFF, true)
  else
    match sc with
    | .none => (fieldAt a 24 24, false)
    | .down => (fieldAt a 25 24, false)
    | .up => (fieldAt a 23 24, false)

/-- `limit48`: the high and low words, and whether it saturated (R173, R230). -/
def limit48 (sc : Scale) (a : Word56) : (Word × Word) × Bool :=
  if flagE sc a then (if a.msb then (0x800000, 0x000000) else (0x7FFFFF, 0xFFFFFF), true)
  else
    match sc with
    | .none => ((fieldAt a 24 24, fieldAt a 0 24), false)
    | .down => ((fieldAt a 25 24, fieldAt a 1 24), false)
    | .up => ((fieldAt a 23 24, (fieldAt a 0 23 ++ 0#1 : BitVec 24)), false)

/-- The condition CCCC on SR's CCR bits (R106). -/
def condHolds (cond : Cond) (sr : BitVec 16) : Bool :=
  let c := sr.getLsbD srC
  let v := sr.getLsbD srV
  let z := sr.getLsbD srZ
  let n := sr.getLsbD srN
  let u := sr.getLsbD srU
  let e := sr.getLsbD srE
  let l := sr.getLsbD srL
  match cond with
  | .cc => !c
  | .ge => !(n ^^ v)
  | .ne => !z
  | .pl => !n
  | .nn => !(z || (!u && !e))
  | .ec => !e
  | .lc => !l
  | .gt => !(z || (n ^^ v))
  | .cs => c
  | .lt => n ^^ v
  | .eq => z
  | .mi => n
  | .nr => z || (!u && !e)
  | .es => e
  | .ls => l
  | .le => z || (n ^^ v)

end Sys2Proof.Machine
end

