-- ==== Sys2Proof/Machine/Ops.lean ====
section
/-! DEFINITION. The named operations over registers, the hardware stack, the word arrays and the interrupt state
(R31, R40 to R42, R62 to R65, R326, R334, R338), the entry into an interrupt and the return from one among them. -/

namespace Sys2Proof.Machine

/-! ### Raising a Fatal -/

/-- A Fatal raised in a state leaves that state (R130, R308, D34). -/
def raisedIn {α : Type} (s : State) : Except Fault α → Except Stop α
  | .ok x => .ok x
  | .error r => .error ⟨r, s⟩

/-- The computation without what its Fatal leaves. -/
def reasonOnly {α : Type} : Except Stop α → Except Fault α
  | .ok x => .ok x
  | .error e => .error e.reason

/-- The state that a computation's Fatal leaves; `s` where it completes. -/
def leftBy {α : Type} (x : Except Stop α) (s : State) : State :=
  match x with
  | .ok _ => s
  | .error e => e.left

/-- A raised Fatal is the fault outcome of the step (R322). -/
def toOutcome : Except Stop State → Host.Outcome State Fault Refusal
  | .ok s => .next s
  | .error e => .fault e.reason

/-! ### Registers -/

def getAcc (s : State) : AccSel → Acc
  | .a => s.a
  | .b => s.b

def setAcc (s : State) (d : AccSel) (v : Acc) : State :=
  match d with
  | .a => { s with a := v }
  | .b => { s with b := v }

/-- `val(D)` (R160). -/
def accVal (s : State) (d : AccSel) : Word56 := pack (getAcc s d)

def setR (s : State) (i : Fin 8) (v : Word) : State := { s with r := s.r.set i v }
def setN (s : State) (i : Fin 8) (v : Word) : State := { s with n := s.n.set i v }
def setM (s : State) (i : Fin 8) (v : Word) : State := { s with m := s.m.set i v }
def setSr (s : State) (v : BitVec 16) : State := { s with sr := v }
def setPc (s : State) (v : Word) : State := { s with pc := v }

/-- `pc <- target; len <- 0` (R9, R138). -/
def jumpTo (s : State) (t : Word) : State := { s with pc := t, len := 0 }

/-- `cyc <- cyc + n` (R9). -/
def addCycles (s : State) (n : Nat) : State := { s with instrCycle := s.instrCycle + n }

/-- A two-word form by its effective address: `len <- 2` and the extra charge (R108, R366). -/
def takeExtension (s : State) : State :=
  { s with len := 2, instrCycle := s.instrCycle + Config.cyclesExtraExtension }

/-! ### Interrupt sources -/

/-- `post(src)` (R326). -/
def post (src : IrqSource) (s : State) : State :=
  if s.ipl[irqIndex src] = .disabled then s
  else if s.pending[irqIndex src] then s
  else { s with pending := s.pending.set (irqIndex src) true, pendingCount := s.pendingCount + 1 }

/-! ### The hardware stack -/

/-- The slot that SP[3:0] selects (R30). -/
def slotOf (sp : BitVec 6) : Fin 16 := (fieldAt sp 0 4).toFin

/-- Load the shadows from the active slot (R31). -/
def refreshShadows (s : State) : State :=
  { s with ssh := s.stackH[slotOf s.sp], ssl := s.stackL[slotOf s.sp] }

/-- Post STACK_ERROR if SE is clear and the new pointer n has bit 4 set (R40, R42). -/
def postStackError (n : BitVec 6) (s : State) : State :=
  if !s.sp.getLsbD 4 && n.getLsbD 4 then post .stackError s else s

/-- SP[3:0] + 1, and SP[3:0] - 1 modulo 64 (R40, R42). -/
def spUp (sp : BitVec 6) : BitVec 6 := (sp &&& 0x0F) + 1
def spDown (sp : BitVec 6) : BitVec 6 := (sp &&& 0x0F) - 1

/-- The new SP: the sticky bits kept, n ORed in (R40, R42). -/
def spJoin (sp n : BitVec 6) : BitVec 6 := (sp &&& 0x30) ||| n

/-- Write the stack's slot of a push: slot 0 takes zeros, and only a full push writes row 1 elsewhere (R40, R41). -/
def writeSlot (slot : Fin 16) (hi : BitVec 16) (lo : Option (BitVec 16)) (s : State) : State :=
  if slot = 0 then { s with stackH := s.stackH.set 0 0, stackL := s.stackL.set 0 0 }
  else
    match lo with
    | some v => { s with stackH := s.stackH.set slot hi, stackL := s.stackL.set slot v }
    | none => { s with stackH := s.stackH.set slot hi }

/-- The shared body of `push` and `push_ssh` (R40, R41). -/
def pushWith (hi : BitVec 16) (lo : Option (BitVec 16)) (s : State) : State :=
  let n := spUp s.sp
  let s1 := postStackError n s
  let s2 := { s1 with sp := spJoin s.sp n }
  refreshShadows (writeSlot (slotOf n) hi lo s2)

/-- `push(a, b)`; each entry keeps 16 bits (R31, R40). -/
def push (a b : Word) (s : State) : State := pushWith (a.setWidth 16) (some (b.setWidth 16)) s

/-- `push_ssh(a)` (R41). -/
def pushSsh (a : Word) (s : State) : State := pushWith (a.setWidth 16) none s

/-- The state after `pop()`; the popped entry is (SSH, SSL) before it (R42). -/
def popState (s : State) : State :=
  let n := spDown s.sp
  let s1 := postStackError n s
  refreshShadows { s1 with sp := spJoin s.sp n }

/-- `(p, s) <- pop()` (R42). -/
def pop (s : State) : (BitVec 16 × BitVec 16) × State := ((s.ssh, s.ssl), popState s)

/-- A write of SP (R33). -/
def writeSp (v : Word) (s : State) : State :=
  let w : BitVec 6 := v.setWidth 6
  if s.sp &&& 0x30 = 0 ∧ w &&& 0x30 ≠ 0 then refreshShadows { post .stackError s with sp := w &&& 0x30 }
  else refreshShadows { s with sp := w }

/-- A write of SSL: the active slot of row 1 and the shadow (R33). -/
def writeSsl (v : Word) (s : State) : State :=
  { s with stackL := s.stackL.set (slotOf s.sp) (v.setWidth 16), ssl := v.setWidth 16 }

/-! ### The word arrays -/

/-- `MemRead(P, a)` (R64). -/
def readP (s : State) (a : Word) : Except Fault Word :=
  if a.toNat < Config.pramSize then .ok (s.pram.read a.toNat) else .error .addressOutOfRange

/-- `MemWrite(P, a, v)` (R64). -/
def writeP (s : State) (a v : Word) : Except Fault State :=
  if a.toNat < Config.pramSize then .ok { s with pram := s.pram.write a.toNat v } else .error .addressOutOfRange

/-- `MemRead(Y, a)` (R64). -/
def readY (s : State) (a : Word) : Except Fault Word :=
  if a.toNat < Config.yramSize then .ok (s.yram.read a.toNat) else .error .addressOutOfRange

/-- `MemWrite(Y, a, v)` (R64). -/
def writeY (s : State) (a v : Word) : Except Fault State :=
  if a.toNat < Config.yramSize then .ok { s with yram := s.yram.write a.toNat v } else .error .addressOutOfRange

/-- The cell an X address below the peripheral window selects. -/
inductive XCell where
  | mix (index : Nat)
  | ram (index : Nat)
  deriving DecidableEq, Repr

/-- The X decode of R62 below PERIPH_BASE. -/
def xCell (a : Word) : Except Fault XCell :=
  if Config.periphBase ≤ a.toNat then .error .addressOutOfRange
  else if Config.mixBase0 ≤ a.toNat ∧ a.toNat < Config.mixBase0 + Config.mixSize then .ok (.mix (a.toNat - Config.mixBase0))
  else if Config.mixBase1 ≤ a.toNat ∧ a.toNat < Config.mixBase1 + Config.mixSize then .ok (.mix (a.toNat - Config.mixBase1))
  else if a.toNat < Config.xramSize then .ok (.ram a.toNat)
  else .error .addressOutOfRange

/-- `MemRead(X, a)` below the peripheral window (R62). -/
def readXData (s : State) (a : Word) : Except Fault Word :=
  match xCell a with
  | .ok (.mix k) => .ok (s.mixbuffer.read k)
  | .ok (.ram k) => .ok (s.xram.read k)
  | .error r => .error r

/-- `MemWrite(X, a, v)` below the peripheral window (R63). -/
def writeXData (s : State) (a v : Word) : Except Fault State :=
  match xCell a with
  | .ok (.mix k) => .ok { s with mixbuffer := s.mixbuffer.write k v }
  | .ok (.ram k) => .ok { s with xram := s.xram.write k v }
  | .error r => .error r

/-! ### Entering and leaving an interrupt -/

/-- The bits that a long entry clears: LF, T, S1, S0, I1, I0 (R338). -/
def longClear : BitVec 16 := 0xAF00

/-- `long_entry()` with the saved pc (R338): push (old pc, SR), clear LF, T, S1:S0 and I1:I0, install the level. -/
def longEntry (saved : Word) (s : State) : State :=
  let s1 := push saved (s.sr.setWidth 24) { s with interruptState := .long, longTaken := true }
  { s1 with sr := (s1.sr &&& ~~~ longClear) ||| (s.iplToRaise.setWidth 16 <<< 8) }

/-- The level promoted by one, capped at 3; a disabled source is never taken (R334). -/
def promote : Ipl → BitVec 2
  | .disabled => 0
  | .level0 => 1
  | .level1 => 2
  | .level2 => 3
  | .level3 => 3

/-- The vectors the core does not implement (R334, D33). -/
def vectorUnimplemented : IrqSource → Bool
  | .hostCommand | .ssiRcvE | .ssiTrxE => true
  | .reset | .illegal | .stackError | .trace | .swi | .hostRcv | .hostTrx | .ssiRcv | .ssiTrx => false

/-- The winner leaves the pending sources, and its promoted level and its vector are latched (R334). -/
def latchInterrupt (src : IrqSource) (s : State) : State :=
  { s with
    pending := s.pending.set (irqIndex src) false
    pendingCount := s.pendingCount - 1
    iplToRaise := promote s.ipl[irqIndex src]
    instrFetch := some (Config.vector src) }

/-- The pipeline armed at count 5 (R334). -/
def armPipeline (s : State) : State := { s with longTaken := false, interruptState := .disabled, pipelineCount := .five }

/-- A winner of arbitration is taken (R334). The Fatal of an unimplemented vector comes after the latch, which stays
(R130, D34). -/
def takeInterrupt (src : IrqSource) (s : State) : Except Stop State :=
  let s1 := latchInterrupt src s
  if vectorUnimplemented src then .error ⟨.unimplementedVector, s1⟩ else .ok (armPipeline s1)

/-- The return from a long interrupt: `(p, s) <- pop(); pc <- p; SR <- s; len <- 0` (R251, R343). -/
def returnFromInterrupt (s : State) : State :=
  jumpTo (setSr (popState s) (maskSr s.ssl)) (s.ssh.setWidth 24)

/-- The return from a subroutine: the popped SR is discarded (R254). -/
def returnFromSubroutine (s : State) : State := jumpTo (popState s) (s.ssh.setWidth 24)

/-- The end of a DO loop: two pops restore LF, LA and LC (R140, R143, R256). -/
def unwindLoop (s : State) : State :=
  let s1 := popState s
  let s2 := setSr s1 (setBit s1.sr srLF (s.ssl.getLsbD srLF))
  { popState s2 with la := s2.ssh, lc := s2.ssl.setWidth 17 }

end Sys2Proof.Machine
end

