-- ==== Sys2Proof/Machine/Dma.lean ====
section
/-! DEFINITION. The linked-list DMA descriptor walker and its registers (R290 to R311), and the interrupt-status register.
A walk runs inside the write to ADDR_DMA_CONTROL (R296, R306). -/

namespace Sys2Proof.Machine

/-- Status bits of `control` (R290). -/
def dmaFrozen : Nat := 3
def dmaRunning : Nat := 4
def dmaStopped : Nat := 5

/-- The EOL bit of a next-block pointer (R296, R297). -/
def dmaEol : Nat := 14

/-! ### Items in scratch memory (R301, R305) -/

/-- Bytes of one item. -/
def itemSize : Config.DmaFormat → Nat
  | .upper16 => 2
  | .full24 => 4

/-- The item of a DSP word, little-endian. -/
def itemBytes (f : Config.DmaFormat) (v : Word) : List Byte :=
  match f with
  | .upper16 => [fieldAt v 8 8, fieldAt v 16 8]
  | .full24 => [fieldAt v 0 8, fieldAt v 8 8, fieldAt v 16 8, 0]

/-- The DSP word of the item at a scratch address. -/
def itemWord (f : Config.DmaFormat) (m : Scratch) (a : Nat) : Word :=
  match f with
  | .upper16 => (m.read (a + 1) ++ m.read a ++ 0x00#8 : BitVec 24)
  | .full24 => (m.read (a + 2) ++ m.read (a + 1) ++ m.read a : BitVec 24)

/-- Store bytes at rising addresses. -/
def writeBytes : Scratch → Nat → List Byte → Scratch
  | m, _, [] => m
  | m, a, b :: rest => writeBytes (m.write a b) (a + 1) rest

/-- The words of `count` items from a scratch address. -/
def itemWords (f : Config.DmaFormat) (m : Scratch) : Nat → Nat → List Word
  | _, 0 => []
  | a, k + 1 => itemWord f m a :: itemWords f m (a + itemSize f) k

/-! ### DSP-side blocks (R303, R304) -/

/-- The spaces a transfer reaches (R61, R303). -/
inductive DspSpace where
  | x
  | y
  | p
  deriving DecidableEq, Repr

/-- `MemRead(space, a)` of a DSP-side address, which lies below 0x3800 (R306). -/
def readDsp (sp : DspSpace) (s : State) (a : Word) : Except Fault Word :=
  match sp with
  | .x => readXData s a
  | .y => readY s a
  | .p => readP s a

/-- `MemWrite(space, a, v)` of a DSP-side address. -/
def writeDsp (sp : DspSpace) (s : State) (a v : Word) : Except Fault State :=
  match sp with
  | .x => writeXData s a v
  | .y => writeY s a v
  | .p => writeP s a v

/-- The words of a block, in rising order. -/
def readBlock (sp : DspSpace) (s : State) : Nat → Nat → Except Fault (List Word)
  | _, 0 => .ok []
  | a, k + 1 => do
    let v ← readDsp sp s (BitVec.ofNat 24 a)
    let rest ← readBlock sp s (a + 1) k
    .ok (v :: rest)

/-- Store the words of a block, in rising order; a Fatal leaves the words before it stored. -/
def writeBlock (sp : DspSpace) : State → Nat → List Word → Except Stop State
  | s, _, [] => .ok s
  | s, a, v :: rest => do
    let s1 ← raisedIn s (writeDsp sp s (BitVec.ofNat 24 a) v)
    writeBlock sp s1 (a + 1) rest

/-- `dsp_range(off, count)`: the space and base of a transfer that lies whole inside its range (R303, D40). -/
def dspRange (off count : Nat) : Except Fault (DspSpace × Nat) :=
  if off < 0x1800 then
    if off + count ≤ 0x1800 then .ok (.x, off) else .error .dmaOffset
  else if off < 0x2000 then
    if off + count ≤ 0x2000 then .ok (.y, off - 0x1800) else .error .dmaOffset
  else if 0x2800 ≤ off ∧ off < 0x3800 then
    if off + count ≤ 0x3800 then .ok (.p, off - 0x2800) else .error .dmaOffset
  else .error .dmaOffset

/-! ### Descriptors (R297, R298, R300) -/

/-- The seven words of a descriptor. -/
structure Descriptor where
  next : Word
  ctl : Word
  count : Word
  dspOff : Word
  scratchOff : Word
  scratchBase : Word
  scratchLast : Word
  deriving DecidableEq, Repr

/-- Read the descriptor at a, word by word. -/
def readDescriptor (s : State) (a : Nat) : Except Fault Descriptor := do
  let d0 ← readXData s (BitVec.ofNat 24 a)
  let d1 ← readXData s (BitVec.ofNat 24 (a + 1))
  let d2 ← readXData s (BitVec.ofNat 24 (a + 2))
  let d3 ← readXData s (BitVec.ofNat 24 (a + 3))
  let d4 ← readXData s (BitVec.ofNat 24 (a + 4))
  let d5 ← readXData s (BitVec.ofNat 24 (a + 5))
  let d6 ← readXData s (BitVec.ofNat 24 (a + 6))
  .ok ⟨d0, d1, d2, d3, d4, d5, d6⟩

/-- The format field (R298). -/
def ctlFormat (ctl : Word) : Nat := (fieldAt ctl Config.dmaFormatLow 3).toNat
/-- The buffer-id field (R298). -/
def ctlBufid (ctl : Word) : Nat := (fieldAt ctl Config.dmaBufidLow 4).toNat
/-- The direction bit (R298). -/
def ctlToScratch (ctl : Word) : Bool := ctl.getLsbD Config.dmaDirBit

/-- `scratch_address`: the address, or `none` where the node's copy is skipped (R302, D20). -/
def scratchAddress (d : Descriptor) (bytes : Nat) : Except Fault (Option Nat) :=
  if ctlBufid d.ctl = 0xE then
    if d.scratchLast.toNat + 1 ≤ d.scratchOff.toNat + bytes then .ok none
    else .ok (some (d.scratchBase.toNat + d.scratchOff.toNat))
  else if ctlBufid d.ctl = 0xF then .ok (some d.scratchOff.toNat)
  else .error .dmaBufid

/-- `dsp_to_scratch` (R304). -/
def dspToScratch (f : Config.DmaFormat) (sp : DspSpace) (base count saddr : Nat) (s : State) : Except Fault State := do
  let ws ← readBlock sp s base count
  .ok { s with scratch := writeBytes s.scratch saddr (ws.flatMap (itemBytes f)) }

/-- `scratch_to_dsp` (R304). -/
def scratchToDsp (f : Config.DmaFormat) (sp : DspSpace) (base count saddr : Nat) (s : State) : Except Stop State :=
  writeBlock sp s base (itemWords f s.scratch saddr count)

/-- `transfer(d)`, its checks in the order of R300: format, scratch address, DSP range. -/
def dmaTransfer (d : Descriptor) (s : State) : Except Stop State :=
  match Config.dmaFormats (ctlFormat d.ctl) with
  | none => .error ⟨.dmaFormat, s⟩
  | some f => do
    let saddr ← raisedIn s (scratchAddress d (d.count.toNat * itemSize f))
    match saddr with
    | none => .ok s
    | some a => do
      let (sp, base) ← raisedIn s (dspRange d.dspOff.toNat d.count.toNat)
      if ctlToScratch d.ctl then raisedIn s (dspToScratch f sp base d.count.toNat a s)
      else scratchToDsp f sp base d.count.toNat a s

/-- One node of the walk: load its descriptor, follow its pointer, set eol, transfer (R296, R299). -/
def dmaNode (s : State) : Except Stop State := do
  let d ← raisedIn s (readDescriptor s (fieldAt s.dmaNext 0 14).toNat)
  dmaTransfer d { s with dmaNext := d.next, eol := s.eol || d.next.getLsbD dmaEol }

/-- The walk, with the number of nodes it may still load (R296, R311). A Fatal leaves the transfers of the nodes before
it done (R308). -/
def dmaWalk : Nat → State → Except Stop State
  | 0, s => if s.dmaNext.getLsbD dmaEol then .ok s else .error ⟨.dmaNonterminating, s⟩
  | k + 1, s =>
    if s.dmaNext.getLsbD dmaEol then .ok s
    else do
      let s1 ← dmaNode s
      dmaWalk k s1

/-- `dma_run()` (R296): nothing unless running and not frozen. -/
def dmaRun (s : State) : Except Stop State :=
  if s.dmaControl.getLsbD dmaRunning && !s.dmaControl.getLsbD dmaFrozen then dmaWalk Config.dmaMaxNodes s else .ok s

/-- The action field's effect on `control` (R294, D21). -/
def dmaAction (v control : Word) : Except Fault Word :=
  match (fieldAt v 0 3).toNat with
  | 0 => .ok control
  | 1 => .ok (setBit (setBit control dmaRunning true) dmaStopped false)
  | 2 => .ok (setBit (setBit control dmaStopped true) dmaRunning false)
  | 3 => .ok (setBit control dmaFrozen true)
  | 4 => .ok (setBit control dmaFrozen false)
  | _ => .error .dmaAction

/-- A write to ADDR_DMA_CONTROL (R294). -/
def dmaControlWrite (v : Word) (s : State) : Except Stop State := do
  let control ← raisedIn s (dmaAction v s.dmaControl)
  dmaRun { s with dmaControl := control }

/-! ### The peripheral window (R67, R68, R291 to R293, R299) -/

/-- The interrupt-status register: eol at bit 7 (R299, D23). -/
def isrValue (s : State) : Word := if s.eol then 0x80 else 0

/-- A read at or above PERIPH_BASE: a core-implemented register, or a free draw (R67, D24). -/
def readPeriph (a : Word) (s : State) : Word × State :=
  if a = Config.addrIsr then (isrValue s, s)
  else if a = Config.addrDmaConfig then (s.dmaConfig, s)
  else if a = Config.addrDmaControl then (s.dmaControl, s)
  else if a = Config.addrDmaStart then (s.dmaStart, s)
  else if a = Config.addrDmaNext then (s.dmaNext, s)
  else (Config.hostPeriphRead s.draws a, { s with draws := s.draws + 1 })

/-- A write at or above PERIPH_BASE: a core-implemented register, or the host's, which changes nothing here (R68). -/
def writePeriph (a v : Word) (s : State) : Except Stop State :=
  if a = Config.addrIsr then .ok (if v.getLsbD Config.isrEolAckBit then { s with eol := false } else s)
  else if a = Config.addrDmaConfig then .ok { s with dmaConfig := v }
  else if a = Config.addrDmaControl then dmaControlWrite v s
  else if a = Config.addrDmaStart then .ok { s with dmaStart := v }
  else if a = Config.addrDmaNext then .ok { s with dmaNext := v }
  else .ok s

end Sys2Proof.Machine
end

