-- ==== Sys2Proof/Machine/Operands.lean ====
section
/-! DEFINITION. Operands: the register reads and writes of R33 and R34, the X and Y accesses of an instruction
(R62 to R68), address modifier arithmetic (R103) and effective addresses (R100 to R102). -/

namespace Sys2Proof.Machine

/-! ### Registers by code -/

/-- Sign-extend an extension limb to a word (R34). -/
def extendExt (e : BitVec 8) : Word := e.signExtend 24

/-- The 24-bit write of a logical accumulator (R33). -/
def accOfWord (v : Word) : Acc := ⟨signExt8 v, v, 0⟩

/-- An accumulator read as a 24-bit source: limited, and a saturation sets L (R34, R173). -/
def readLimited (d : AccSel) (s : State) : Except Fault (Word × State) :=
  match scaleOf s.sr with
  | .error r => .error r
  | .ok sc =>
    let res := limit24 sc (accVal s d)
    .ok (res.1, if res.2 then setSr s (setBit s.sr srL true) else s)

/-- `reg[r]` as a 24-bit source (R34). A read of SSH pops; a reserved code is Fatal (R23). -/
def readReg (r : Reg) (s : State) : Except Fault (Word × State) :=
  match r with
  | .x0 => .ok (s.x0, s)
  | .x1 => .ok (s.x1, s)
  | .y0 => .ok (s.y0, s)
  | .y1 => .ok (s.y1, s)
  | .a0 => .ok (s.a.lo, s)
  | .b0 => .ok (s.b.lo, s)
  | .a2 => .ok (extendExt s.a.ext, s)
  | .b2 => .ok (extendExt s.b.ext, s)
  | .a1 => .ok (s.a.mid, s)
  | .b1 => .ok (s.b.mid, s)
  | .a => readLimited .a s
  | .b => readLimited .b s
  | .r i => .ok (s.r[i], s)
  | .n i => .ok (s.n[i], s)
  | .m i => .ok (s.m[i], s)
  | .sr => .ok (s.sr.setWidth 24, s)
  | .omr => .ok (s.omr.setWidth 24, s)
  | .sp => .ok (s.sp.setWidth 24, s)
  | .ssh => .ok (s.ssh.setWidth 24, popState s)
  | .ssl => .ok (s.ssl.setWidth 24, s)
  | .la => .ok (s.la.setWidth 24, s)
  | .lc => .ok (s.lc.setWidth 24, s)
  | .reserved _ => .error .reservedRegister

/-- `reg[r] <- v` (R33). A write of SSH pushes; a reserved code is Fatal (R23). -/
def writeReg (r : Reg) (v : Word) (s : State) : Except Fault State :=
  match r with
  | .x0 => .ok { s with x0 := v }
  | .x1 => .ok { s with x1 := v }
  | .y0 => .ok { s with y0 := v }
  | .y1 => .ok { s with y1 := v }
  | .a0 => .ok { s with a := { s.a with lo := v } }
  | .b0 => .ok { s with b := { s.b with lo := v } }
  | .a2 => .ok { s with a := { s.a with ext := v.setWidth 8 } }
  | .b2 => .ok { s with b := { s.b with ext := v.setWidth 8 } }
  | .a1 => .ok { s with a := { s.a with mid := v } }
  | .b1 => .ok { s with b := { s.b with mid := v } }
  | .a => .ok { s with a := accOfWord v }
  | .b => .ok { s with b := accOfWord v }
  | .r i => .ok (setR s i v)
  | .n i => .ok (setN s i v)
  | .m i => .ok (setM s i v)
  | .sr => .ok (setSr s (maskSr (v.setWidth 16)))
  | .omr => .ok { s with omr := maskOmr (v.setWidth 8) }
  | .sp => .ok (writeSp v s)
  | .ssh => .ok (pushSsh v s)
  | .ssl => .ok (writeSsl v s)
  | .la => .ok { s with la := v.setWidth 16 }
  | .lc => .ok { s with lc := (v.setWidth 16).setWidth 17 }
  | .reserved _ => .error .reservedRegister

def accReg : AccSel → Reg
  | .a => .a
  | .b => .b

def xSideReg : XSide → Reg
  | .x0 => .x0
  | .x1 => .x1
  | .a => .a
  | .b => .b

def ySideReg : YSide → Reg
  | .y0 => .y0
  | .y1 => .y1
  | .a => .a
  | .b => .b

def xInputReg : XInput → Reg
  | .x0 => .x0
  | .x1 => .x1

def yInputReg : YInput → Reg
  | .y0 => .y0
  | .y1 => .y1

/-! ### X and Y accesses of an instruction -/

/-- `MemRead(space, a)` (R62, R64, R67). -/
def memLoad (sp : Space) (a : Word) (s : State) : Except Fault (Word × State) :=
  match sp with
  | .x =>
    if Config.periphBase ≤ a.toNat then .ok (readPeriph a s)
    else
      match readXData s a with
      | .ok v => .ok (v, s)
      | .error r => .error r
  | .y =>
    match readY s a with
    | .ok v => .ok (v, s)
    | .error r => .error r

/-- `MemWrite(space, a, v)` (R63, R64, R68), with what a Fatal of a DMA walk leaves (R308). -/
def attemptStore (sp : Space) (a v : Word) (s : State) : Except Stop State :=
  match sp with
  | .x => if Config.periphBase ≤ a.toNat then writePeriph a v s else raisedIn s (writeXData s a v)
  | .y => raisedIn s (writeY s a v)

/-- `MemWrite(space, a, v)` by its next state or its reason. -/
def memStore (sp : Space) (a v : Word) (s : State) : Except Fault State := reasonOnly (attemptStore sp a v s)

/-- A 6-bit absolute short address, zero-extended (R96, R225). -/
def shortAddr (aa : BitVec 6) : Word := aa.setWidth 24

/-! ### Address modifier arithmetic (R103) -/

/-- The address with its 24 bits in reverse order. -/
def rev24 (v : Word) : Word := v.reverse

/-- The least k with 2^k at least Mn + 1, for Mn at least 1. -/
def moduloBits (mn : Word) : Nat := Nat.log2 mn.toNat + 1

/-- The modulo case: M = Mn + 1, base = Rn with its low k bits cleared. -/
def moduloOffset (rn mn : Word) (d : Int) : Except Fault Word :=
  let modulus : Int := mn.toNat + 1
  let base : Int := (rn.toNat / 2 ^ moduloBits mn * 2 ^ moduloBits mn : Nat)
  if modulus < d.natAbs then .error .moduloReserved
  else
    let t : Int := rn.toNat + d
    let t1 := if base + modulus ≤ t then t - modulus else t
    let t2 := if t1 < base then t1 + modulus else t1
    .ok (BitVec.ofInt 24 t2)

/-- `offset(n, d)` on the values of Rn and Mn (R103). -/
def offsetOf (rn mn : Word) (d : Int) : Except Fault Word :=
  if mn = 0xFFFFFF then .ok (BitVec.ofInt 24 (rn.toNat + d))
  else if mn = 0 then .ok (rev24 (rev24 rn + rev24 (BitVec.ofInt 24 d)))
  else if mn.toNat ≤ 0x7FFFFF then moduloOffset rn mn d
  else .error .modifierReserved

/-- `offset(n, d)` (R103). -/
def offset (s : State) (i : Fin 8) (d : Int) : Except Fault Word := offsetOf s.r[i] s.m[i] d

/-- Nn as a signed displacement (R100). -/
def nDisp (s : State) (i : Fin 8) : Int := s.n[i].toInt

/-! ### Effective addresses -/

/-- An address, with the Rn update it makes (R100, R102). -/
structure AddrUse where
  addr : Word
  update : Option (Fin 8 × Word)
  deriving DecidableEq, Repr

/-- The address is Rn, and Rn is updated by d afterwards. -/
def postUpdate (s : State) (i : Fin 8) (d : Int) : Except Fault AddrUse :=
  match offset s i d with
  | .ok u => .ok ⟨s.r[i], some (i, u)⟩
  | .error r => .error r

/-- The register modes of R100. -/
def useMode (mode : EaMode) (i : Fin 8) (s : State) : Except Fault AddrUse :=
  match mode with
  | .postSubN => postUpdate s i (-nDisp s i)
  | .postAddN => postUpdate s i (nDisp s i)
  | .postDec => postUpdate s i (-1)
  | .postInc => postUpdate s i 1
  | .plain => .ok ⟨s.r[i], none⟩
  | .indexed =>
    match offset s i (nDisp s i) with
    | .ok u => .ok ⟨u, none⟩
    | .error r => .error r
  | .preDec =>
    match offset s i (-1) with
    | .ok u => .ok ⟨u, some (i, u)⟩
    | .error r => .error r

/-- The address of MMMRRR (R100). -/
def useEa (ea : EaAddr) (s : State) : Except Fault AddrUse :=
  match ea with
  | .reg mode i => useMode mode i s
  | .abs a => .ok ⟨a, none⟩

/-- Whether the operand takes an extension word (R108). -/
def eaTakesExt : EaAddr → Bool
  | .reg _ _ => false
  | .abs _ => true

/-- The modes of an XY move (R102). -/
def useXyMode (mode : XyMode) (i : Fin 8) (s : State) : Except Fault AddrUse :=
  match mode with
  | .plain => .ok ⟨s.r[i], none⟩
  | .addN => postUpdate s i (nDisp s i)
  | .dec => postUpdate s i (-1)
  | .inc => postUpdate s i 1

/-- The Y part's address register of an XY move: rr + 4 where RRR < 4, else rr (R102, log entry 9). -/
def xyYIndex (i : Fin 8) (rr : BitVec 2) : Fin 8 :=
  if i.val < 4 then indexOf (0b1#1 ++ rr : BitVec 3) else indexOf (0b0#1 ++ rr : BitVec 3)

/-- Write the Rn update. -/
def applyUpdate (u : Option (Fin 8 × Word)) (s : State) : State :=
  match u with
  | some (i, v) => setR s i v
  | none => s

/-- Evaluate an effective address of a non-parallel instruction: its address, and the state with the Rn update
written and the extension word counted (R100, R108). -/
def enterEa (ea : EaAddr) (s : State) : Except Fault (Word × State) :=
  match useEa ea s with
  | .ok u =>
    let s1 := applyUpdate u.update s
    .ok (u.addr, if eaTakesExt ea then takeExtension s1 else s1)
  | .error r => .error r

/-- Words of the instruction whose operand is this effective address. -/
def eaLength (ea : EaAddr) : Word := if eaTakesExt ea then 2 else 1

end Sys2Proof.Machine
end

