-- ==== Sys2Proof/Machine/Control.lean ====
section
/-! DEFINITION. Program control, loops and control-register moves (R250 to R278), and the undefined path (R136).
The cycle charges are those of R366. -/

namespace Sys2Proof.Machine

/-! ### No operation, traps, returns -/

/-- NOP (R250). -/
def execNop (s : State) : Host.Outcome State Fault Refusal := .next s

/-- RTI (R251). -/
def execRti (s : State) : Host.Outcome State Fault Refusal :=
  .next (addCycles (returnFromInterrupt s) Config.cyclesExtraReturn)

/-- ILLEGAL posts its interrupt source (R252). -/
def execIllegal (s : State) : Host.Outcome State Fault Refusal := .next (post .illegal s)

/-- TRAP posts SWI (R253). -/
def execTrap (s : State) : Host.Outcome State Fault Refusal := .next (post .swi s)

/-- RTS (R254). -/
def execRts (s : State) : Host.Outcome State Fault Refusal :=
  .next (addCycles (returnFromSubroutine s) Config.cyclesExtraReturn)

/-- UNLISTED_POLICY for a word with no row and for a row without handler alike (R95): a refusal, or the undefined path,
which changes nothing beyond the default charge and length that the step has set (R136, R137). -/
def unlistedPath (s : State) : Host.Outcome State Fault Refusal :=
  match Config.unlistedPolicy with
  | .refuse => .refused .unlistedWord
  | .undefinedPath => .next s

/-- WAIT is a row without a handler (R255; log entry 5). -/
def execWait (s : State) : Host.Outcome State Fault Refusal := unlistedPath s

/-- STOP is a row without a handler (R255; log entry 5). -/
def execStop (s : State) : Host.Outcome State Fault Refusal := unlistedPath s

/-- ENDDO (R256). -/
def execEnddo (s : State) : Host.Outcome State Fault Refusal := .next (unwindLoop s)

/-- ANDI #i,EE (R257). -/
def execAndi (i : BitVec 8) (t : CtlTarget) (s : State) : Host.Outcome State Fault Refusal :=
  match t with
  | .mr => .next (setSr s (maskSr (s.sr &&& (i ++ 0xFF#8 : BitVec 16))))
  | .ccr => .next (setSr s (maskSr (s.sr &&& (0xFF#8 ++ i : BitVec 16))))
  | .omr => .next { s with omr := maskOmr (s.omr &&& i) }

/-- ORI #i,EE (R258). -/
def execOri (i : BitVec 8) (t : CtlTarget) (s : State) : Host.Outcome State Fault Refusal :=
  match t with
  | .mr => .next (setSr s (maskSr (s.sr ||| (i ++ 0x00#8 : BitVec 16))))
  | .ccr => .next (setSr s (maskSr (s.sr ||| (0x00#8 ++ i : BitVec 16))))
  | .omr => .next { s with omr := maskOmr (s.omr ||| i) }

/-! ### MOVEC -/

/-- `reg[dst] <- reg[src]` by R33 and R34. -/
def copyReg (src dst : Reg) (s : State) : Except Stop State := do
  let (v, s1) ← raisedIn s (readReg src s)
  raisedIn s1 (writeReg dst v s1)

/-- The move of R259 in its direction. -/
def attemptMovecReg (w : Dir) (r c : Reg) (s : State) : Except Stop State :=
  match w with
  | .load => copyReg r c s
  | .store => copyReg c r s

/-- MOVEC register form (R259). -/
def execMovecReg (w : Dir) (r c : Reg) (s : State) : Host.Outcome State Fault Refusal := toOutcome (attemptMovecReg w r c s)

/-- `reg[c] <- space:a`. -/
def loadReg (sp : Space) (a : Word) (c : Reg) (s : State) : Except Stop State := do
  let (v, s1) ← raisedIn s (memLoad sp a s)
  raisedIn s1 (writeReg c v s1)

/-- `space:a <- reg[c]`. -/
def storeReg (sp : Space) (a : Word) (c : Reg) (s : State) : Except Stop State := do
  let (v, s1) ← raisedIn s (readReg c s)
  attemptStore sp a v s1

/-- The move of R260: the effective address first. -/
def attemptMovecEa (mv : EaMove) (sp : Space) (c : Reg) (s : State) : Except Stop State :=
  match mv with
  | .load (.imm v) => raisedIn (takeExtension s) (writeReg c v (takeExtension s))
  | .load (.addr ea) => do
    let (a, s1) ← raisedIn s (enterEa ea s)
    loadReg sp a c s1
  | .store ea => do
    let (a, s1) ← raisedIn s (enterEa ea s)
    storeReg sp a c s1

/-- MOVEC memory form (R260). -/
def execMovecEa (mv : EaMove) (sp : Space) (c : Reg) (s : State) : Host.Outcome State Fault Refusal :=
  toOutcome (attemptMovecEa mv sp c s)

/-- The move of R261 in its direction. -/
def attemptMovecAa (w : Dir) (aa : BitVec 6) (sp : Space) (c : Reg) (s : State) : Except Stop State :=
  match w with
  | .load => loadReg sp (shortAddr aa) c s
  | .store => storeReg sp (shortAddr aa) c s

/-- MOVEC absolute-short form (R261). -/
def execMovecAa (w : Dir) (aa : BitVec 6) (sp : Space) (c : Reg) (s : State) : Host.Outcome State Fault Refusal :=
  toOutcome (attemptMovecAa w aa sp c s)

/-- MOVEC immediate form (R262). -/
def execMovecImm (i : BitVec 8) (c : Reg) (s : State) : Host.Outcome State Fault Refusal :=
  toOutcome (raisedIn s (writeReg c (i.setWidth 24) s))

/-! ### Loop counts -/

/-- The count operand X/Y:aa (R264, R268). -/
def countAa (aa : BitVec 6) (sp : Space) (s : State) : Except Stop (Word × State) := raisedIn s (memLoad sp (shortAddr aa) s)

/-- The count operand X/Y:ea with the Rn update of the mode (R265, R269). -/
def countEa (mode : EaMode) (i : Fin 8) (sp : Space) (s : State) : Except Stop (Word × State) := do
  let (a, s1) ← raisedIn s (enterEa (.reg mode i) s)
  raisedIn s1 (memLoad sp a s1)

/-- The count operand S (R266, R270). -/
def countReg (r : Reg) (s : State) : Except Stop (Word × State) := raisedIn s (readReg r s)

/-! ### REP -/

/-- The body of R263 with a 16-bit count: save LC, load it, mark the first pass. -/
def startRep (count : BitVec 16) (s : State) : State :=
  addCycles { s with lcSaved := s.lc.setWidth 16, lc := count.setWidth 17, loopRep := true, pcOnRep := true }
    Config.cyclesExtraRep

/-- REP #c (R263). -/
def execRepImm (count : BitVec 12) (s : State) : Host.Outcome State Fault Refusal :=
  .next (startRep (count.setWidth 16) s)

/-- REP X/Y:aa (R264). -/
def execRepAa (aa : BitVec 6) (sp : Space) (s : State) : Host.Outcome State Fault Refusal :=
  toOutcome (do
    let (v, s1) ← countAa aa sp s
    .ok (startRep (v.setWidth 16) s1))

/-- REP X/Y:ea with the Rn update of the mode (R265). -/
def execRepEa (mode : EaMode) (i : Fin 8) (sp : Space) (s : State) : Host.Outcome State Fault Refusal :=
  toOutcome (do
    let (v, s1) ← countEa mode i sp s
    .ok (startRep (v.setWidth 16) s1))

/-- REP S (R266). -/
def execRepReg (r : Reg) (s : State) : Host.Outcome State Fault Refusal :=
  toOutcome (do
    let (v, s1) ← countReg r s
    .ok (startRep (v.setWidth 16) s1))

/-! ### DO -/

/-- "save the outer loop context", the first push of R267. -/
def saveLoop (s : State) : State := push (s.la.setWidth 24) (s.lc.setWidth 24) s

/-- The body of R267 with a 16-bit count and the loop's last address. -/
def startDo (count : BitVec 16) (last : Word) (s : State) : State :=
  let s1 := saveLoop s
  let s2 := push (s1.pc + 2) (s1.sr.setWidth 24) { s1 with la := last.setWidth 16 }
  addCycles { setSr s2 (setBit s2.sr srLF true) with lc := count.setWidth 17, len := 2 } Config.cyclesExtraDo

/-- DO #c,expr (R267). -/
def execDoImm (count : BitVec 12) (last : Word) (s : State) : Host.Outcome State Fault Refusal :=
  .next (startDo (count.setWidth 16) last s)

/-- DO X/Y:aa,expr: the count is read before the pushes (R268). -/
def execDoAa (aa : BitVec 6) (sp : Space) (last : Word) (s : State) : Host.Outcome State Fault Refusal :=
  toOutcome (do
    let (v, s1) ← countAa aa sp s
    .ok (startDo (v.setWidth 16) last s1))

/-- DO X/Y:ea,expr with the Rn update (R269). -/
def execDoEa (mode : EaMode) (i : Fin 8) (sp : Space) (last : Word) (s : State) : Host.Outcome State Fault Refusal :=
  toOutcome (do
    let (v, s1) ← countEa mode i sp s
    .ok (startDo (v.setWidth 16) last s1))

/-- DO S,expr (R270). -/
def execDoReg (r : Reg) (last : Word) (s : State) : Host.Outcome State Fault Refusal :=
  toOutcome (do
    let (v, s1) ← countReg r s
    .ok (startDo (v.setWidth 16) last s1))

/-! ### Jumps and calls -/

/-- A 12-bit address, zero-extended (R275). -/
def jumpAddr (a : BitVec 12) : Word := a.setWidth 24

/-- A taken jump with its charge (R366). -/
def takeJump (t : Word) (s : State) : State := addCycles (jumpTo s t) Config.cyclesExtraJump

/-- A jump not taken charges the same (R366). -/
def skipJump (s : State) : State := addCycles s Config.cyclesExtraJump

/-- The body of JSR (R273): after a long entry it does not push again, and hands LONG over to DISABLED. -/
def callTo (t len : Word) (s : State) : State :=
  if s.interruptState = .long then takeJump t { s with interruptState := .disabled }
  else takeJump t (push (s.pc + len) (s.sr.setWidth 24) s)

/-- The body of a taken JScc, which always pushes (R274). -/
def callAlways (t len : Word) (s : State) : State := takeJump t (push (s.pc + len) (s.sr.setWidth 24) s)

/-- JMP ea (R271). -/
def execJmpEa (ea : EaAddr) (s : State) : Host.Outcome State Fault Refusal :=
  toOutcome (do
    let (t, s1) ← raisedIn s (enterEa ea s)
    .ok (takeJump t s1))

/-- Jcc ea: the Rn update happens in either case (R272). -/
def execJccEa (ea : EaAddr) (cond : Cond) (s : State) : Host.Outcome State Fault Refusal :=
  toOutcome (do
    let (t, s1) ← raisedIn s (enterEa ea s)
    .ok (if condHolds cond s.sr then takeJump t s1 else skipJump s1))

/-- JSR ea (R273). -/
def execJsrEa (ea : EaAddr) (s : State) : Host.Outcome State Fault Refusal :=
  toOutcome (do
    let (t, s1) ← raisedIn s (enterEa ea s)
    .ok (callTo t (eaLength ea) s1))

/-- JScc ea (R274). -/
def execJsccEa (ea : EaAddr) (cond : Cond) (s : State) : Host.Outcome State Fault Refusal :=
  toOutcome (do
    let (t, s1) ← raisedIn s (enterEa ea s)
    .ok (if condHolds cond s.sr then callAlways t (eaLength ea) s1 else skipJump s1))

/-- JMP xxx (R275). -/
def execJmpAbs (a : BitVec 12) (s : State) : Host.Outcome State Fault Refusal := .next (takeJump (jumpAddr a) s)

/-- JSR xxx (R276). -/
def execJsrAbs (a : BitVec 12) (s : State) : Host.Outcome State Fault Refusal := .next (callTo (jumpAddr a) 1 s)

/-- Jcc xxx (R277). -/
def execJccAbs (cond : Cond) (a : BitVec 12) (s : State) : Host.Outcome State Fault Refusal :=
  .next (if condHolds cond s.sr then takeJump (jumpAddr a) s else skipJump s)

/-- JScc xxx (R278). -/
def execJsccAbs (cond : Cond) (a : BitVec 12) (s : State) : Host.Outcome State Fault Refusal :=
  .next (if condHolds cond s.sr then callAlways (jumpAddr a) 1 s else skipJump s)

end Sys2Proof.Machine
end

