-- ==== Sys2Proof/Machine/DataAlu.lean ====
section
/-! DEFINITION. The data-ALU operations (R175 to R207). Each computes an effect from the state at the start of the
instruction (R176): the accumulator it writes and SR. Alone, with no parallel move, it is an instruction (R221). -/

namespace Sys2Proof.Machine

/-- What an ALU operation writes: at most one accumulator, and SR. -/
structure AluEffect where
  acc : Option (AccSel × Acc)
  sr : BitVec 16
  deriving DecidableEq, Repr

/-- D', the other accumulator (R175). -/
def otherAcc : AccSel → AccSel
  | .a => .b
  | .b => .a

/-- The 24-bit ALU source register (R175). -/
def aluRegVal (s : State) : AluReg → Word
  | .x0 => s.x0
  | .y0 => s.y0
  | .x1 => s.x1
  | .y1 => s.y1

/-- The aligned 48-bit pair X or Y (R162). -/
def pairVal (s : State) : PairSel → Word56
  | .x => al48 s.x1 s.x0
  | .y => al48 s.y1 s.y0

/-- The multiplier operands (S1, S2) of QQQ (R175). -/
def mulOperands (s : State) : MulPair → Word × Word
  | .x0x0 => (s.x0, s.x0)
  | .y0y0 => (s.y0, s.y0)
  | .x1x0 => (s.x1, s.x0)
  | .y1y0 => (s.y1, s.y0)
  | .x0y1 => (s.x0, s.y1)
  | .y0x0 => (s.y0, s.x0)
  | .x1y0 => (s.x1, s.y0)
  | .y1x1 => (s.y1, s.x1)

/-- `mul(S1, S2, k)` (R169, R204). -/
def product (s : State) (q : MulPair) (k : MulSign) : Word56 :=
  mul56 (mulOperands s q).1 (mulOperands s q).2 k

/-- D takes a 56-bit value (R160). -/
def writeEffect (d : AccSel) (r : Word56) (sr : BitVec 16) : AluEffect := ⟨some (d, unpack r), sr⟩

/-- "Flags: E U N Z, V, C", D written (R176). -/
def arithEffect (d : AccSel) (x : Res56) (s : State) : Except Fault AluEffect :=
  match scaleOf s.sr with
  | .error r => .error r
  | .ok sc => .ok (writeEffect d x.r (withC x.c (withV x.v (withEunz sc x.r s.sr))))

/-- "Flags: E U N Z, V", D written, C kept; the result may depend on the scaling mode (R176). -/
def arithNoCarry (d : AccSel) (f : Scale → Res56) (s : State) : Except Fault AluEffect :=
  match scaleOf s.sr with
  | .error r => .error r
  | .ok sc => .ok (writeEffect d (f sc).r (withV (f sc).v (withEunz sc (f sc).r s.sr)))

/-- "Flags: E U N Z of r, V, C", no write (R181, R183). -/
def compareEffect (x : Res56) (s : State) : Except Fault AluEffect :=
  match scaleOf s.sr with
  | .error r => .error r
  | .ok sc => .ok ⟨none, withC x.c (withV x.v (withEunz sc x.r s.sr))⟩

/-- "Flags: E U N Z of r, V", no write, C kept (R180). -/
def compareNoCarry (x : Res56) (s : State) : Except Fault AluEffect :=
  match scaleOf s.sr with
  | .error r => .error r
  | .ok sc => .ok ⟨none, withV x.v (withEunz sc x.r s.sr)⟩

/-- A middle-limb operation: D1 and the flags of R174, over an SR that may have C written already. -/
def logicEffect (d : AccSel) (m : Word) (sr : BitVec 16) (s : State) : Except Fault AluEffect :=
  .ok ⟨some (d, { getAcc s d with mid := m }), withLogic m sr⟩

/-- The fixed flags of CLR: E 0, U 1, N 0, Z 1, V 0 (R187). -/
def clrFlags (sr : BitVec 16) : BitVec 16 :=
  setBit (setBit (setBit (setBit (setBit sr srE false) srU true) srN false) srZ true) srV false

/-- V of an earlier step ORed into a result's V. -/
def orOverflow (v : Bool) (x : Res56) : Res56 := ⟨x.r, x.c, v || x.v⟩

/-- A carry bit as a 56-bit operand. -/
def carryVal (c : Bool) : Word56 := if c then 1 else 0

/-- The two adds of ADC (R191). -/
def addCarry (a b : Word56) (c : Bool) : Res56 :=
  let x := add56 a b
  let y := add56 x.r (carryVal c)
  ⟨y.r, x.c || y.c, x.v || y.v⟩

/-- The two subtracts of SBC (R194). -/
def subBorrow (a b : Word56) (c : Bool) : Res56 :=
  let x := sub56 a b
  let y := sub56 x.r (carryVal c)
  ⟨y.r, x.c || y.c, x.v || y.v⟩

/-- The rotates through C (R196, R200). -/
def rotateRight (m : Word) (c : Bool) : Word := (BitVec.ofBool c ++ fieldAt m 1 23 : BitVec 24)
def rotateLeft (m : Word) (c : Bool) : Word := (fieldAt m 0 23 ++ BitVec.ofBool c : BitVec 24)

/-! ### The effects -/

/-- MOVE, byte 0x00: no ALU operation (R177). -/
def aluMove (s : State) : Except Fault AluEffect := .ok ⟨none, s.sr⟩

/-- TFR D',D: the full 56 bits are copied, no flags (R178). -/
def aluTfrAcc (d : AccSel) (s : State) : Except Fault AluEffect :=
  .ok (writeEffect d (accVal s (otherAcc d)) s.sr)

/-- TFR reg,D: the aligned register, no flags (R178). -/
def aluTfrReg (j : AluReg) (d : AccSel) (s : State) : Except Fault AluEffect :=
  .ok (writeEffect d (al24 (aluRegVal s j)) s.sr)

/-- ADDR D',D (R179). -/
def aluAddr (d : AccSel) (s : State) : Except Fault AluEffect :=
  arithEffect d (add56 (asr56 (accVal s d) 1).r (accVal s (otherAcc d))) s

/-- TST D: no write, V cleared, C kept (R180). -/
def aluTst (d : AccSel) (s : State) : Except Fault AluEffect :=
  compareNoCarry ⟨accVal s d, false, false⟩ s

/-- CMP D',D: no write (R181). -/
def aluCmpAcc (d : AccSel) (s : State) : Except Fault AluEffect :=
  compareEffect (sub56 (accVal s d) (accVal s (otherAcc d))) s

/-- CMP reg,D: no write (R181). -/
def aluCmpReg (j : AluReg) (d : AccSel) (s : State) : Except Fault AluEffect :=
  compareEffect (sub56 (accVal s d) (al24 (aluRegVal s j))) s

/-- SUBR D',D (R182). -/
def aluSubr (d : AccSel) (s : State) : Except Fault AluEffect :=
  arithEffect d (sub56 (asr56 (accVal s d) 1).r (accVal s (otherAcc d))) s

/-- CMPM D',D: magnitudes compared, no write (R183). -/
def aluCmpmAcc (d : AccSel) (s : State) : Except Fault AluEffect :=
  compareEffect (sub56 (abs56 (accVal s d)).r (abs56 (accVal s (otherAcc d))).r) s

/-- CMPM reg,D: magnitudes compared, no write (R183). -/
def aluCmpmReg (j : AluReg) (d : AccSel) (s : State) : Except Fault AluEffect :=
  compareEffect (sub56 (abs56 (accVal s d)).r (abs56 (al24 (aluRegVal s j))).r) s

/-- ADD D',D (R184). -/
def aluAddAcc (d : AccSel) (s : State) : Except Fault AluEffect :=
  arithEffect d (add56 (accVal s d) (accVal s (otherAcc d))) s

/-- ADD X,D (R184). -/
def aluAddX (d : AccSel) (s : State) : Except Fault AluEffect :=
  arithEffect d (add56 (accVal s d) (pairVal s .x)) s

/-- ADD Y,D (R184). -/
def aluAddY (d : AccSel) (s : State) : Except Fault AluEffect :=
  arithEffect d (add56 (accVal s d) (pairVal s .y)) s

/-- ADD reg,D (R184). -/
def aluAddReg (j : AluReg) (d : AccSel) (s : State) : Except Fault AluEffect :=
  arithEffect d (add56 (accVal s d) (al24 (aluRegVal s j))) s

/-- RND D: C kept (R185). -/
def aluRnd (d : AccSel) (s : State) : Except Fault AluEffect :=
  arithNoCarry d (fun sc => rnd56 sc (accVal s d)) s

/-- ADDL D',D (R186). -/
def aluAddl (d : AccSel) (s : State) : Except Fault AluEffect :=
  arithEffect d (orOverflow (asl56 (accVal s d) 1).v (add56 (asl56 (accVal s d) 1).r (accVal s (otherAcc d)))) s

/-- CLR D: fixed flags, C and L kept (R187). -/
def aluClr (d : AccSel) (s : State) : Except Fault AluEffect :=
  .ok (writeEffect d 0 (clrFlags s.sr))

/-- SUB D',D (R188). -/
def aluSubAcc (d : AccSel) (s : State) : Except Fault AluEffect :=
  arithEffect d (sub56 (accVal s d) (accVal s (otherAcc d))) s

/-- SUB X,D (R188). -/
def aluSubX (d : AccSel) (s : State) : Except Fault AluEffect :=
  arithEffect d (sub56 (accVal s d) (pairVal s .x)) s

/-- SUB Y,D (R188). -/
def aluSubY (d : AccSel) (s : State) : Except Fault AluEffect :=
  arithEffect d (sub56 (accVal s d) (pairVal s .y)) s

/-- SUB reg,D (R188). -/
def aluSubReg (j : AluReg) (d : AccSel) (s : State) : Except Fault AluEffect :=
  arithEffect d (sub56 (accVal s d) (al24 (aluRegVal s j))) s

/-- SUBL D',D (R189). -/
def aluSubl (d : AccSel) (s : State) : Except Fault AluEffect :=
  arithEffect d (orOverflow (asl56 (accVal s d) 1).v (sub56 (asl56 (accVal s d) 1).r (accVal s (otherAcc d)))) s

/-- NOT D (R190). -/
def aluNotAcc (d : AccSel) (s : State) : Except Fault AluEffect :=
  logicEffect d (~~~ (getAcc s d).mid) s.sr s

/-- ADC S,D: two adds, their carries and overflows ORed (R191). -/
def aluAdc (j : PairSel) (d : AccSel) (s : State) : Except Fault AluEffect :=
  arithEffect d (addCarry (accVal s d) (pairVal s j) (s.sr.getLsbD srC)) s

/-- ASR D: V cleared (R192). -/
def aluAsr (d : AccSel) (s : State) : Except Fault AluEffect :=
  arithEffect d (asr56 (accVal s d) 1) s

/-- LSR D (R193). -/
def aluLsr (d : AccSel) (s : State) : Except Fault AluEffect :=
  logicEffect d ((getAcc s d).mid >>> 1) (withC ((getAcc s d).mid.getLsbD 0) s.sr) s

/-- SBC S,D: two subtracts, their borrows and overflows ORed (R194). -/
def aluSbc (j : PairSel) (d : AccSel) (s : State) : Except Fault AluEffect :=
  arithEffect d (subBorrow (accVal s d) (pairVal s j) (s.sr.getLsbD srC)) s

/-- ABS D: C kept (R195). -/
def aluAbsAcc (d : AccSel) (s : State) : Except Fault AluEffect :=
  arithNoCarry d (fun _ => abs56 (accVal s d)) s

/-- ROR D: through C (R196). -/
def aluRor (d : AccSel) (s : State) : Except Fault AluEffect :=
  logicEffect d (rotateRight (getAcc s d).mid (s.sr.getLsbD srC)) (withC ((getAcc s d).mid.getLsbD 0) s.sr) s

/-- ASL D (R197). -/
def aluAsl (d : AccSel) (s : State) : Except Fault AluEffect :=
  arithEffect d (asl56 (accVal s d) 1) s

/-- LSL D (R198). -/
def aluLsl (d : AccSel) (s : State) : Except Fault AluEffect :=
  logicEffect d ((getAcc s d).mid <<< 1) (withC (getAcc s d).mid.msb s.sr) s

/-- NEG D: C kept (R199). -/
def aluNeg (d : AccSel) (s : State) : Except Fault AluEffect :=
  arithNoCarry d (fun _ => sub56 0 (accVal s d)) s

/-- ROL D: through C (R200). -/
def aluRol (d : AccSel) (s : State) : Except Fault AluEffect :=
  logicEffect d (rotateLeft (getAcc s d).mid (s.sr.getLsbD srC)) (withC (getAcc s d).mid.msb s.sr) s

/-- OR reg,D (R201). -/
def aluOrReg (j : AluReg) (d : AccSel) (s : State) : Except Fault AluEffect :=
  logicEffect d ((getAcc s d).mid ||| aluRegVal s j) s.sr s

/-- EOR reg,D (R202). -/
def aluEorReg (j : AluReg) (d : AccSel) (s : State) : Except Fault AluEffect :=
  logicEffect d ((getAcc s d).mid ^^^ aluRegVal s j) s.sr s

/-- AND reg,D (R203). -/
def aluAndReg (j : AluReg) (d : AccSel) (s : State) : Except Fault AluEffect :=
  logicEffect d ((getAcc s d).mid &&& aluRegVal s j) s.sr s

/-- MPY: V cleared, C kept (R204). -/
def aluMpy (q : MulPair) (d : AccSel) (k : MulSign) (s : State) : Except Fault AluEffect :=
  arithNoCarry d (fun _ => ⟨product s q k, false, false⟩) s

/-- MPYR: C kept (R205). -/
def aluMpyr (q : MulPair) (d : AccSel) (k : MulSign) (s : State) : Except Fault AluEffect :=
  arithNoCarry d (fun sc => rnd56 sc (product s q k)) s

/-- MAC: C kept (R206). -/
def aluMac (q : MulPair) (d : AccSel) (k : MulSign) (s : State) : Except Fault AluEffect :=
  arithNoCarry d (fun _ => add56 (accVal s d) (product s q k)) s

/-- MACR: C kept, overflows ORed (R207). -/
def aluMacr (q : MulPair) (d : AccSel) (k : MulSign) (s : State) : Except Fault AluEffect :=
  arithNoCarry d (fun sc => orOverflow (add56 (accVal s d) (product s q k)).v (rnd56 sc (add56 (accVal s d) (product s q k)).r)) s

/-- The effect of the ALU operation of a word (R111, R175). -/
def aluEffect (op : AluOp) (s : State) : Except Fault AluEffect :=
  match op with
  | .move => aluMove s
  | .tfrAcc d => aluTfrAcc d s
  | .tfrReg j d => aluTfrReg j d s
  | .addr d => aluAddr d s
  | .tst d => aluTst d s
  | .cmpAcc d => aluCmpAcc d s
  | .cmpReg j d => aluCmpReg j d s
  | .subr d => aluSubr d s
  | .cmpmAcc d => aluCmpmAcc d s
  | .cmpmReg j d => aluCmpmReg j d s
  | .addAcc d => aluAddAcc d s
  | .addX d => aluAddX d s
  | .addY d => aluAddY d s
  | .addReg j d => aluAddReg j d s
  | .rnd d => aluRnd d s
  | .addl d => aluAddl d s
  | .clr d => aluClr d s
  | .subAcc d => aluSubAcc d s
  | .subX d => aluSubX d s
  | .subY d => aluSubY d s
  | .subReg j d => aluSubReg j d s
  | .subl d => aluSubl d s
  | .notAcc d => aluNotAcc d s
  | .adc j d => aluAdc j d s
  | .asr d => aluAsr d s
  | .lsr d => aluLsr d s
  | .sbc j d => aluSbc j d s
  | .absAcc d => aluAbsAcc d s
  | .ror d => aluRor d s
  | .asl d => aluAsl d s
  | .lsl d => aluLsl d s
  | .neg d => aluNeg d s
  | .rol d => aluRol d s
  | .orReg j d => aluOrReg j d s
  | .eorReg j d => aluEorReg j d s
  | .andReg j d => aluAndReg j d s
  | .mpy q d k => aluMpy q d k s
  | .mpyr q d k => aluMpyr q d k s
  | .mac q d k => aluMac q d k s
  | .macr q d k => aluMacr q d k s

/-! ### Writing an effect, and the operations as instructions of their own -/

/-- Write the ALU destination and SR (R220, phase 2, step 1). L is the OR of the operation's L and of the L that the
reads of phase 1 left. -/
def applyAlu (e : AluEffect) (s : State) : State :=
  let s1 :=
    match e.acc with
    | some (d, v) => setAcc s d v
    | none => s
  setSr s1 (setBit e.sr srL (e.sr.getLsbD srL || s.sr.getLsbD srL))

/-- An ALU operation with no parallel move (R221). -/
def runAlu (effect : State → Except Fault AluEffect) (s : State) : Host.Outcome State Fault Refusal :=
  match effect s with
  | .ok e => .next (applyAlu e s)
  | .error r => .fault r

/-- R177, with no parallel move (R221). -/
def execAluMove (s : State) : Host.Outcome State Fault Refusal := runAlu aluMove s

/-- R178, with no parallel move (R221). -/
def execTfrAcc (d : AccSel) (s : State) : Host.Outcome State Fault Refusal := runAlu (aluTfrAcc d) s

/-- R178, with no parallel move (R221). -/
def execTfrReg (j : AluReg) (d : AccSel) (s : State) : Host.Outcome State Fault Refusal := runAlu (aluTfrReg j d) s

/-- R179, with no parallel move (R221). -/
def execAddr (d : AccSel) (s : State) : Host.Outcome State Fault Refusal := runAlu (aluAddr d) s

/-- R180, with no parallel move (R221). -/
def execTst (d : AccSel) (s : State) : Host.Outcome State Fault Refusal := runAlu (aluTst d) s

/-- R181, with no parallel move (R221). -/
def execCmpAcc (d : AccSel) (s : State) : Host.Outcome State Fault Refusal := runAlu (aluCmpAcc d) s

/-- R181, with no parallel move (R221). -/
def execCmpReg (j : AluReg) (d : AccSel) (s : State) : Host.Outcome State Fault Refusal := runAlu (aluCmpReg j d) s

/-- R182, with no parallel move (R221). -/
def execSubr (d : AccSel) (s : State) : Host.Outcome State Fault Refusal := runAlu (aluSubr d) s

/-- R183, with no parallel move (R221). -/
def execCmpmAcc (d : AccSel) (s : State) : Host.Outcome State Fault Refusal := runAlu (aluCmpmAcc d) s

/-- R183, with no parallel move (R221). -/
def execCmpmReg (j : AluReg) (d : AccSel) (s : State) : Host.Outcome State Fault Refusal := runAlu (aluCmpmReg j d) s

/-- R184, with no parallel move (R221). -/
def execAddAcc (d : AccSel) (s : State) : Host.Outcome State Fault Refusal := runAlu (aluAddAcc d) s

/-- R184, with no parallel move (R221). -/
def execAddX (d : AccSel) (s : State) : Host.Outcome State Fault Refusal := runAlu (aluAddX d) s

/-- R184, with no parallel move (R221). -/
def execAddY (d : AccSel) (s : State) : Host.Outcome State Fault Refusal := runAlu (aluAddY d) s

/-- R184, with no parallel move (R221). -/
def execAddReg (j : AluReg) (d : AccSel) (s : State) : Host.Outcome State Fault Refusal := runAlu (aluAddReg j d) s

/-- R185, with no parallel move (R221). -/
def execRnd (d : AccSel) (s : State) : Host.Outcome State Fault Refusal := runAlu (aluRnd d) s

/-- R186, with no parallel move (R221). -/
def execAddl (d : AccSel) (s : State) : Host.Outcome State Fault Refusal := runAlu (aluAddl d) s

/-- R187, with no parallel move (R221). -/
def execClr (d : AccSel) (s : State) : Host.Outcome State Fault Refusal := runAlu (aluClr d) s

/-- R188, with no parallel move (R221). -/
def execSubAcc (d : AccSel) (s : State) : Host.Outcome State Fault Refusal := runAlu (aluSubAcc d) s

/-- R188, with no parallel move (R221). -/
def execSubX (d : AccSel) (s : State) : Host.Outcome State Fault Refusal := runAlu (aluSubX d) s

/-- R188, with no parallel move (R221). -/
def execSubY (d : AccSel) (s : State) : Host.Outcome State Fault Refusal := runAlu (aluSubY d) s

/-- R188, with no parallel move (R221). -/
def execSubReg (j : AluReg) (d : AccSel) (s : State) : Host.Outcome State Fault Refusal := runAlu (aluSubReg j d) s

/-- R189, with no parallel move (R221). -/
def execSubl (d : AccSel) (s : State) : Host.Outcome State Fault Refusal := runAlu (aluSubl d) s

/-- R190, with no parallel move (R221). -/
def execNotAcc (d : AccSel) (s : State) : Host.Outcome State Fault Refusal := runAlu (aluNotAcc d) s

/-- R191, with no parallel move (R221). -/
def execAdc (j : PairSel) (d : AccSel) (s : State) : Host.Outcome State Fault Refusal := runAlu (aluAdc j d) s

/-- R192, with no parallel move (R221). -/
def execAsr (d : AccSel) (s : State) : Host.Outcome State Fault Refusal := runAlu (aluAsr d) s

/-- R193, with no parallel move (R221). -/
def execLsr (d : AccSel) (s : State) : Host.Outcome State Fault Refusal := runAlu (aluLsr d) s

/-- R194, with no parallel move (R221). -/
def execSbc (j : PairSel) (d : AccSel) (s : State) : Host.Outcome State Fault Refusal := runAlu (aluSbc j d) s

/-- R195, with no parallel move (R221). -/
def execAbsAcc (d : AccSel) (s : State) : Host.Outcome State Fault Refusal := runAlu (aluAbsAcc d) s

/-- R196, with no parallel move (R221). -/
def execRor (d : AccSel) (s : State) : Host.Outcome State Fault Refusal := runAlu (aluRor d) s

/-- R197, with no parallel move (R221). -/
def execAsl (d : AccSel) (s : State) : Host.Outcome State Fault Refusal := runAlu (aluAsl d) s

/-- R198, with no parallel move (R221). -/
def execLsl (d : AccSel) (s : State) : Host.Outcome State Fault Refusal := runAlu (aluLsl d) s

/-- R199, with no parallel move (R221). -/
def execNeg (d : AccSel) (s : State) : Host.Outcome State Fault Refusal := runAlu (aluNeg d) s

/-- R200, with no parallel move (R221). -/
def execRol (d : AccSel) (s : State) : Host.Outcome State Fault Refusal := runAlu (aluRol d) s

/-- R201, with no parallel move (R221). -/
def execOrReg (j : AluReg) (d : AccSel) (s : State) : Host.Outcome State Fault Refusal := runAlu (aluOrReg j d) s

/-- R202, with no parallel move (R221). -/
def execEorReg (j : AluReg) (d : AccSel) (s : State) : Host.Outcome State Fault Refusal := runAlu (aluEorReg j d) s

/-- R203, with no parallel move (R221). -/
def execAndReg (j : AluReg) (d : AccSel) (s : State) : Host.Outcome State Fault Refusal := runAlu (aluAndReg j d) s

/-- R204, with no parallel move (R221). -/
def execMpy (q : MulPair) (d : AccSel) (k : MulSign) (s : State) : Host.Outcome State Fault Refusal := runAlu (aluMpy q d k) s

/-- R205, with no parallel move (R221). -/
def execMpyr (q : MulPair) (d : AccSel) (k : MulSign) (s : State) : Host.Outcome State Fault Refusal := runAlu (aluMpyr q d k) s

/-- R206, with no parallel move (R221). -/
def execMac (q : MulPair) (d : AccSel) (k : MulSign) (s : State) : Host.Outcome State Fault Refusal := runAlu (aluMac q d k) s

/-- R207, with no parallel move (R221). -/
def execMacr (q : MulPair) (d : AccSel) (k : MulSign) (s : State) : Host.Outcome State Fault Refusal := runAlu (aluMacr q d k) s

end Sys2Proof.Machine
end

