-- ==== Sys2Proof/Machine/Moves.lean ====
section
/-! DEFINITION. The parallel data moves (R220 to R235) and the class II moves (R232, R233), over one two-phase shared
operation: every read first, then the ALU destination and flags, the Rn updates, the move destinations. -/

namespace Sys2Proof.Machine

/-- One move destination. -/
inductive MoveWrite where
  | reg (r : Reg) (v : Word)
  | mem (sp : Space) (a v : Word)
  deriving DecidableEq, Repr

/-- What phase 1 leaves to phase 2: the state after the reads (the limiter's L, the free draws), the Rn updates,
the move destinations in their order, and whether an extension word was taken. -/
structure MovePlan where
  state : State
  updates : List (Fin 8 × Word)
  writes : List MoveWrite
  ext : Bool
  deriving DecidableEq, Repr

/-- One write of phase 2 (R33, R63, R64). -/
def applyWrite (w : MoveWrite) (s : State) : Except Stop State :=
  match w with
  | .reg r v => raisedIn s (writeReg r v s)
  | .mem sp a v => attemptStore sp a v s

/-- The writes of phase 2 in order; a Fatal ends them and leaves those before it (R220). -/
def applyWrites : List MoveWrite → State → Except Stop State
  | [], s => .ok s
  | w :: rest, s => do
    let s1 ← applyWrite w s
    applyWrites rest s1

/-- The Rn updates of phase 2. -/
def applyUpdates : List (Fin 8 × Word) → State → State
  | [], s => s
  | (i, v) :: rest, s => applyUpdates rest (setR s i v)

/-- Phase 2 (R220). -/
def commitMove (e : AluEffect) (p : MovePlan) : Except Stop State :=
  let s1 := applyUpdates p.updates (applyAlu e p.state)
  applyWrites p.writes (if p.ext then takeExtension s1 else s1)

/-- A parallel-move instruction in its two phases (R220): a Fatal of phase 1 precedes every write, one of phase 2 leaves
the writes before it. -/
def attemptMove (op : AluOp) (plan : State → Except Fault MovePlan) (s : State) : Except Stop State := do
  let p ← raisedIn s (plan s)
  let e ← raisedIn s (aluEffect op s)
  commitMove e p

/-- The outcome of a parallel-move instruction. -/
def runMove (op : AluOp) (plan : State → Except Fault MovePlan) (s : State) : Host.Outcome State Fault Refusal :=
  toOutcome (attemptMove op plan s)

/-! ### Shared plans -/

/-- Read the sources of register-to-register parts, giving their writes. -/
def readMoves : List (Reg × Reg) → State → Except Fault (List MoveWrite × State)
  | [], s => .ok ([], s)
  | (dst, src) :: rest, s => do
    let (v, s1) ← readReg src s
    let (ws, s2) ← readMoves rest s1
    .ok (.reg dst v :: ws, s2)

/-- A plan of one memory part and some register parts, their writes kept apart. -/
structure EaPlan where
  state : State
  updates : List (Fin 8 × Word)
  main : MoveWrite
  others : List MoveWrite
  ext : Bool
  deriving DecidableEq, Repr

/-- The memory part `register <-> space:ea` with register parts beside it (R225 to R228, R232, R233): addresses, then
register sources, then the memory source (R220). -/
def planEa (sp : Space) (r : Reg) (mv : EaMove) (others : List (Reg × Reg)) (s : State) : Except Fault EaPlan :=
  match mv with
  | .load (.imm v) => do
    let (ws, s1) ← readMoves others s
    .ok ⟨s1, [], .reg r v, ws, true⟩
  | .load (.addr ea) => do
    let u ← useEa ea s
    let (ws, s1) ← readMoves others s
    let (v, s2) ← memLoad sp u.addr s1
    .ok ⟨s2, u.update.toList, .reg r v, ws, eaTakesExt ea⟩
  | .store ea => do
    let u ← useEa ea s
    let (v, s1) ← readReg r s
    let (ws, s2) ← readMoves others s1
    .ok ⟨s2, u.update.toList, .mem sp u.addr v, ws, eaTakesExt ea⟩

/-- The memory part's write, then the others. -/
def mainFirst (p : EaPlan) : MovePlan := ⟨p.state, p.updates, p.main :: p.others, p.ext⟩

/-- The others' writes, then the memory part's. -/
def mainLast (p : EaPlan) : MovePlan := ⟨p.state, p.updates, p.others ++ [p.main], p.ext⟩

/-! ### The move classes -/

/-- Phase 1 of no parallel move (R221). -/
def planNoMove (s : State) : Except Fault MovePlan := .ok ⟨s, [], [], false⟩

/-- No parallel move (R221). -/
def execNoMove (op : AluOp) (s : State) : Host.Outcome State Fault Refusal :=
  runMove op planNoMove s

/-- The displacement of the short mode MM (R101, R222). -/
def updateDisp (mode : UpdateMode) (s : State) (i : Fin 8) : Int :=
  match mode with
  | .subN => -nDisp s i
  | .addN => nDisp s i
  | .dec => -1
  | .inc => 1

/-- Phase 1 of the address register update (R222). -/
def planMoveUpdate (mode : UpdateMode) (i : Fin 8) (s : State) : Except Fault MovePlan := do
  let u ← offset s i (updateDisp mode s i)
  .ok ⟨s, [(i, u)], [], false⟩

/-- Address register update (R222). -/
def execMoveUpdate (mode : UpdateMode) (i : Fin 8) (op : AluOp) (s : State) : Host.Outcome State Fault Refusal :=
  runMove op (planMoveUpdate mode i) s

/-- Phase 1 of a register to register move (R223). -/
def planMoveRegReg (src dst : Reg) (s : State) : Except Fault MovePlan := do
  let (ws, s1) ← readMoves [(dst, src)] s
  .ok ⟨s1, [], ws, false⟩

/-- Register to register (R223). -/
def execMoveRegReg (src dst : Reg) (op : AluOp) (s : State) : Host.Outcome State Fault Refusal :=
  runMove op (planMoveRegReg src dst) s

/-- The value that an immediate short gives a destination (R224): left-aligned for X0, X1, Y0, Y1, A and B,
right-aligned elsewhere. -/
def immShort (dst : Reg) (i : BitVec 8) : Word :=
  match dst with
  | .x0 | .x1 | .y0 | .y1 | .a | .b => i.setWidth 24 <<< 16
  | .a0 | .b0 | .a2 | .b2 | .a1 | .b1 | .r _ | .n _ => i.setWidth 24
  | .m _ | .sr | .omr | .sp | .ssh | .ssl | .la | .lc | .reserved _ => i.setWidth 24

/-- Phase 1 of an immediate short move (R224). -/
def planMoveImm (dst : Reg) (i : BitVec 8) (s : State) : Except Fault MovePlan := .ok ⟨s, [], [.reg dst (immShort dst i)], false⟩

/-- Immediate short to register (R224). -/
def execMoveImm (dst : Reg) (i : BitVec 8) (op : AluOp) (s : State) : Host.Outcome State Fault Refusal :=
  runMove op (planMoveImm dst i) s

/-- Phase 1 of an X or Y move with an effective address or an immediate (R225). -/
def planMoveXYEa (sp : Space) (r : Reg) (mv : EaMove) (s : State) : Except Fault MovePlan := do
  let p ← planEa sp r mv [] s
  .ok (mainFirst p)

/-- X or Y memory move with an effective address or an immediate (R225). -/
def execMoveXYEa (sp : Space) (r : Reg) (mv : EaMove) (op : AluOp) (s : State) : Host.Outcome State Fault Refusal :=
  runMove op (planMoveXYEa sp r mv) s

/-- Phase 1 of an X or Y move with an absolute short address (R225). -/
def planMoveXYAa (sp : Space) (r : Reg) (w : Dir) (aa : BitVec 6) (s : State) : Except Fault MovePlan :=
  match w with
  | .load => do
    let (v, s1) ← memLoad sp (shortAddr aa) s
    .ok ⟨s1, [], [.reg r v], false⟩
  | .store => do
    let (v, s1) ← readReg r s
    .ok ⟨s1, [], [.mem sp (shortAddr aa) v], false⟩

/-- X or Y memory move with an absolute short address (R225). -/
def execMoveXYAa (sp : Space) (r : Reg) (w : Dir) (aa : BitVec 6) (op : AluOp) (s : State) : Host.Outcome State Fault Refusal :=
  runMove op (planMoveXYAa sp r w aa) s

/-- Phase 1 of an X:R class I move (R226). -/
def planMoveXRI (f : XSide) (d : AccSel) (g : YInput) (mv : EaMove) (s : State) : Except Fault MovePlan := do
  let p ← planEa .x (xSideReg f) mv [(yInputReg g, accReg d)] s
  .ok (mainFirst p)

/-- X:R class I (R226): the X part, then F <- S2. -/
def execMoveXRI (f : XSide) (d : AccSel) (g : YInput) (mv : EaMove) (op : AluOp) (s : State) : Host.Outcome State Fault Refusal :=
  runMove op (planMoveXRI f d g mv) s

/-- Phase 1 of an R:Y class I move (R227). -/
def planMoveRYI (d : AccSel) (e : XInput) (f : YSide) (mv : EaMove) (s : State) : Except Fault MovePlan := do
  let p ← planEa .y (ySideReg f) mv [(xInputReg e, accReg d)] s
  .ok (mainLast p)

/-- R:Y class I (R227): e <- S1, then the Y part. -/
def execMoveRYI (d : AccSel) (e : XInput) (f : YSide) (mv : EaMove) (op : AluOp) (s : State) : Host.Outcome State Fault Refusal :=
  runMove op (planMoveRYI d e f mv) s

/-- Phase 1 of an X:R class II move (R232). -/
def planMoveXRII (d : AccSel) (ea : EaAddr) (s : State) : Except Fault MovePlan := do
  let p ← planEa .x (accReg d) (.store ea) [(accReg d, .x0)] s
  .ok (mainFirst p)

/-- X:R class II (R232): X:ea <- limited S, then S <- X0. -/
def execMoveXRII (d : AccSel) (ea : EaAddr) (op : AluOp) (s : State) : Host.Outcome State Fault Refusal :=
  runMove op (planMoveXRII d ea) s

/-- Phase 1 of an R:Y class II move (R233). -/
def planMoveRYII (d : AccSel) (ea : EaAddr) (s : State) : Except Fault MovePlan := do
  let p ← planEa .y (accReg d) (.store ea) [(accReg d, .y0)] s
  .ok (mainFirst p)

/-- R:Y class II (R233): Y:ea <- limited S, then S <- Y0. -/
def execMoveRYII (d : AccSel) (ea : EaAddr) (op : AluOp) (s : State) : Host.Outcome State Fault Refusal :=
  runMove op (planMoveRYII d ea) s

/-! ### L moves (R229, R230) -/

/-- The high and low words of an L pair as sources. -/
def readPair (l : LPair) (s : State) : Except Fault ((Word × Word) × State) :=
  let both (hi lo : Reg) : Except Fault ((Word × Word) × State) := do
    let (h, s1) ← readReg hi s
    let (v, s2) ← readReg lo s1
    .ok ((h, v), s2)
  let long (d : AccSel) : Except Fault ((Word × Word) × State) :=
    match scaleOf s.sr with
    | .error r => .error r
    | .ok sc =>
      let res := limit48 sc (accVal s d)
      .ok (res.1, if res.2 then setSr s (setBit s.sr srL true) else s)
  match l with
  | .a10 => both .a1 .a0
  | .b10 => both .b1 .b0
  | .x => both .x1 .x0
  | .y => both .y1 .y0
  | .a => long .a
  | .b => long .b
  | .ab => both .a .b
  | .ba => both .b .a

/-- The register writes of an L pair. A and B take the pair with the sign of its high word: the logical
accumulator's write, then the low limb. -/
def pairWrites (l : LPair) (hi lo : Word) : List MoveWrite :=
  match l with
  | .a10 => [.reg .a1 hi, .reg .a0 lo]
  | .b10 => [.reg .b1 hi, .reg .b0 lo]
  | .x => [.reg .x1 hi, .reg .x0 lo]
  | .y => [.reg .y1 hi, .reg .y0 lo]
  | .a => [.reg .a hi, .reg .a0 lo]
  | .b => [.reg .b hi, .reg .b0 lo]
  | .ab => [.reg .a hi, .reg .b lo]
  | .ba => [.reg .b hi, .reg .a lo]

/-- An L move at an address: X:addr is the high word, Y:addr the low word; the X access comes first (R229). -/
def planLong (l : LPair) (w : Dir) (addr : Word) (updates : List (Fin 8 × Word)) (ext : Bool) (s : State) :
    Except Fault MovePlan :=
  match w with
  | .load => do
    let (hi, s1) ← memLoad .x addr s
    let (lo, s2) ← memLoad .y addr s1
    .ok ⟨s2, updates, pairWrites l hi lo, ext⟩
  | .store => do
    let (v, s1) ← readPair l s
    .ok ⟨s1, updates, [.mem .x addr v.1, .mem .y addr v.2], ext⟩

/-- Phase 1 of an L move with an effective address (R229). -/
def planMoveLEa (l : LPair) (w : Dir) (ea : EaAddr) (s : State) : Except Fault MovePlan := do
  let u ← useEa ea s
  planLong l w u.addr u.update.toList (eaTakesExt ea) s

/-- L move with an effective address (R229). -/
def execMoveLEa (l : LPair) (w : Dir) (ea : EaAddr) (op : AluOp) (s : State) : Host.Outcome State Fault Refusal :=
  runMove op (planMoveLEa l w ea) s

/-- Phase 1 of an L move with an absolute short address (R229). -/
def planMoveLAa (l : LPair) (w : Dir) (aa : BitVec 6) (s : State) : Except Fault MovePlan :=
  planLong l w (shortAddr aa) [] false s

/-- L move with an absolute short address (R229). -/
def execMoveLAa (l : LPair) (w : Dir) (aa : BitVec 6) (op : AluOp) (s : State) : Host.Outcome State Fault Refusal :=
  runMove op (planMoveLAa l w aa) s

/-! ### XY double moves (R231, R234) -/

/-- Both parts read memory into the same accumulator (R234). -/
def xyConflict (wx wy : Dir) (e : XSide) (f : YSide) : Bool :=
  wx == .load && wy == .load && ((e == .a && f == .a) || (e == .b && f == .b))

/-- The register source of a storing part. -/
def xySource (w : Dir) (r : Reg) (s : State) : Except Fault (Word × State) :=
  match w with
  | .store => readReg r s
  | .load => .ok (0, s)

/-- The write of one part: a storing part writes its register source, a loading part its memory source. -/
def xyWrite (w : Dir) (sp : Space) (r : Reg) (a v : Word) (s : State) : Except Fault (MoveWrite × State) :=
  match w with
  | .store => .ok (.mem sp a v, s)
  | .load => do
    let (x, s1) ← memLoad sp a s
    .ok (.reg r x, s1)

/-- Phase 1 of an XY double move (R231). -/
def planMoveXYDouble (wy : Dir) (my : XyMode) (e : XSide) (f : YSide) (wx : Dir) (rr : BitVec 2) (mx : XyMode) (i : Fin 8)
    (s : State) : Except Fault MovePlan :=
  if xyConflict wx wy e f then .error .moveConflict
  else do
    let ux ← useXyMode mx i s
    let uy ← useXyMode my (xyYIndex i rr) s
    let (vx, s1) ← xySource wx (xSideReg e) s
    let (vy, s2) ← xySource wy (ySideReg f) s1
    let (px, s3) ← xyWrite wx .x (xSideReg e) ux.addr vx s2
    let (py, s4) ← xyWrite wy .y (ySideReg f) uy.addr vy s3
    .ok ⟨s4, ux.update.toList ++ uy.update.toList, [px, py], false⟩

/-- XY double move (R231): addresses, register sources, memory sources, X part before Y part. -/
def execMoveXYDouble (wy : Dir) (my : XyMode) (e : XSide) (f : YSide) (wx : Dir) (rr : BitVec 2) (mx : XyMode) (i : Fin 8)
    (op : AluOp) (s : State) : Host.Outcome State Fault Refusal :=
  runMove op (planMoveXYDouble wy my e f wx rr mx i) s

end Sys2Proof.Machine
end

