-- ==== Sys2Proof/Machine/Dispatch.lean ====
section
/-! DEFINITION. One arm per constructor of Instr, each a direct call of its meaning. -/

namespace Sys2Proof.Machine

def exec (i : Instr) (s : State) : Host.Outcome State Fault Refusal :=
  match i with
  | .nop => Sys2Proof.Machine.execNop s
  | .rti => Sys2Proof.Machine.execRti s
  | .illegal => Sys2Proof.Machine.execIllegal s
  | .trap => Sys2Proof.Machine.execTrap s
  | .rts => Sys2Proof.Machine.execRts s
  | .wait => Sys2Proof.Machine.execWait s
  | .stop => Sys2Proof.Machine.execStop s
  | .enddo => Sys2Proof.Machine.execEnddo s
  | .andi k t => Sys2Proof.Machine.execAndi k t s
  | .ori k t => Sys2Proof.Machine.execOri k t s
  | .movecReg w r c => Sys2Proof.Machine.execMovecReg w r c s
  | .movecEa mv sp c => Sys2Proof.Machine.execMovecEa mv sp c s
  | .movecAa w aa sp c => Sys2Proof.Machine.execMovecAa w aa sp c s
  | .movecImm k c => Sys2Proof.Machine.execMovecImm k c s
  | .repImm count => Sys2Proof.Machine.execRepImm count s
  | .repAa aa sp => Sys2Proof.Machine.execRepAa aa sp s
  | .repEa mode k sp => Sys2Proof.Machine.execRepEa mode k sp s
  | .repReg r => Sys2Proof.Machine.execRepReg r s
  | .doImm count last => Sys2Proof.Machine.execDoImm count last s
  | .doAa aa sp last => Sys2Proof.Machine.execDoAa aa sp last s
  | .doEa mode k sp last => Sys2Proof.Machine.execDoEa mode k sp last s
  | .doReg r last => Sys2Proof.Machine.execDoReg r last s
  | .moveXRII d ea alu => Sys2Proof.Machine.execMoveXRII d ea alu s
  | .moveRYII d ea alu => Sys2Proof.Machine.execMoveRYII d ea alu s
  | .jmpEa ea => Sys2Proof.Machine.execJmpEa ea s
  | .jccEa ea cond => Sys2Proof.Machine.execJccEa ea cond s
  | .jsrEa ea => Sys2Proof.Machine.execJsrEa ea s
  | .jsccEa ea cond => Sys2Proof.Machine.execJsccEa ea cond s
  | .jmpAbs addr => Sys2Proof.Machine.execJmpAbs addr s
  | .jsrAbs addr => Sys2Proof.Machine.execJsrAbs addr s
  | .jccAbs cond addr => Sys2Proof.Machine.execJccAbs cond addr s
  | .jsccAbs cond addr => Sys2Proof.Machine.execJsccAbs cond addr s
  | .moveXRI f d g mv alu => Sys2Proof.Machine.execMoveXRI f d g mv alu s
  | .moveRYI d e f mv alu => Sys2Proof.Machine.execMoveRYI d e f mv alu s
  | .noMove alu => Sys2Proof.Machine.execNoMove alu s
  | .moveUpdate mode k alu => Sys2Proof.Machine.execMoveUpdate mode k alu s
  | .moveRegReg src dst alu => Sys2Proof.Machine.execMoveRegReg src dst alu s
  | .moveImm dst k alu => Sys2Proof.Machine.execMoveImm dst k alu s
  | .moveXYEa sp r mv alu => Sys2Proof.Machine.execMoveXYEa sp r mv alu s
  | .moveXYAa sp r w aa alu => Sys2Proof.Machine.execMoveXYAa sp r w aa alu s
  | .moveLEa l w ea alu => Sys2Proof.Machine.execMoveLEa l w ea alu s
  | .moveLAa l w aa alu => Sys2Proof.Machine.execMoveLAa l w aa alu s
  | .moveXYDouble wy my e f wx rr mx k alu => Sys2Proof.Machine.execMoveXYDouble wy my e f wx rr mx k alu s
  | .aluMove => Sys2Proof.Machine.execAluMove s
  | .tfrAcc d => Sys2Proof.Machine.execTfrAcc d s
  | .tfrReg j d => Sys2Proof.Machine.execTfrReg j d s
  | .addr d => Sys2Proof.Machine.execAddr d s
  | .tst d => Sys2Proof.Machine.execTst d s
  | .cmpAcc d => Sys2Proof.Machine.execCmpAcc d s
  | .cmpReg j d => Sys2Proof.Machine.execCmpReg j d s
  | .subr d => Sys2Proof.Machine.execSubr d s
  | .cmpmAcc d => Sys2Proof.Machine.execCmpmAcc d s
  | .cmpmReg j d => Sys2Proof.Machine.execCmpmReg j d s
  | .addAcc d => Sys2Proof.Machine.execAddAcc d s
  | .addX d => Sys2Proof.Machine.execAddX d s
  | .addY d => Sys2Proof.Machine.execAddY d s
  | .addReg j d => Sys2Proof.Machine.execAddReg j d s
  | .rnd d => Sys2Proof.Machine.execRnd d s
  | .addl d => Sys2Proof.Machine.execAddl d s
  | .clr d => Sys2Proof.Machine.execClr d s
  | .subAcc d => Sys2Proof.Machine.execSubAcc d s
  | .subX d => Sys2Proof.Machine.execSubX d s
  | .subY d => Sys2Proof.Machine.execSubY d s
  | .subReg j d => Sys2Proof.Machine.execSubReg j d s
  | .subl d => Sys2Proof.Machine.execSubl d s
  | .notAcc d => Sys2Proof.Machine.execNotAcc d s
  | .adc j d => Sys2Proof.Machine.execAdc j d s
  | .asr d => Sys2Proof.Machine.execAsr d s
  | .lsr d => Sys2Proof.Machine.execLsr d s
  | .sbc j d => Sys2Proof.Machine.execSbc j d s
  | .absAcc d => Sys2Proof.Machine.execAbsAcc d s
  | .ror d => Sys2Proof.Machine.execRor d s
  | .asl d => Sys2Proof.Machine.execAsl d s
  | .lsl d => Sys2Proof.Machine.execLsl d s
  | .neg d => Sys2Proof.Machine.execNeg d s
  | .rol d => Sys2Proof.Machine.execRol d s
  | .orReg j d => Sys2Proof.Machine.execOrReg j d s
  | .eorReg j d => Sys2Proof.Machine.execEorReg j d s
  | .andReg j d => Sys2Proof.Machine.execAndReg j d s
  | .mpy q d j => Sys2Proof.Machine.execMpy q d j s
  | .mpyr q d j => Sys2Proof.Machine.execMpyr q d j s
  | .mac q d j => Sys2Proof.Machine.execMac q d j s
  | .macr q d j => Sys2Proof.Machine.execMacr q d j s

end Sys2Proof.Machine
end

