-- ==== Sys2Proof/Machine/FatalState.lean ====
section
/-! DEFINITION. What a Fatal leaves inside an instruction: "the state written before the Fatal stays" (R130, R220, R308, D34).
A Fatal of step gives no next state; the host's calls keep what it leaves. -/

namespace Sys2Proof.Machine

/-- The count operand of a DO row, which is read before the extension word (R267 to R270). -/
def doCount (i : Instr) (s : State) : Option (Except Stop (Word × State)) :=
  match i with
  | .doImm count _ => some (.ok (count.setWidth 24, s))
  | .doAa aa sp _ => some (countAa aa sp s)
  | .doEa mode k sp _ => some (countEa mode k sp s)
  | .doReg r _ => some (countReg r s)
  | .jmpEa .. | .jccEa .. | .jsrEa .. | .jsccEa .. | .jmpAbs .. | .jsrAbs .. | .jccAbs .. | .jsccAbs .. => none
  | .nop | .rti | .illegal | .trap | .rts | .wait | .stop | .enddo | .andi .. | .ori .. => none
  | .movecReg .. | .movecEa .. | .movecAa .. | .movecImm .. | .repImm .. | .repAa .. | .repEa .. | .repReg .. => none
  | .moveXRII .. | .moveRYII .. | .moveXRI .. | .moveRYI .. | .noMove .. | .moveUpdate .. | .moveRegReg .. | .moveImm .. => none
  | .moveXYEa .. | .moveXYAa .. | .moveLEa .. | .moveLAa .. | .moveXYDouble .. => none
  | .aluMove | .tfrAcc .. | .tfrReg .. | .addr .. | .tst .. | .cmpAcc .. | .cmpReg .. | .subr .. | .cmpmAcc .. | .cmpmReg ..
  | .addAcc .. | .addX .. | .addY .. | .addReg .. | .rnd .. | .addl .. | .clr .. | .subAcc .. | .subX .. | .subY ..
  | .subReg .. | .subl .. | .notAcc .. | .adc .. | .asr .. | .lsr .. | .sbc .. | .absAcc .. | .ror .. | .asl .. | .lsl ..
  | .neg .. | .rol .. | .orReg .. | .eorReg .. | .andReg .. | .mpy .. | .mpyr .. | .mac .. | .macr .. => none

/-- An instruction whose extension word lies outside P (R131, R64): an effective address reads the word first (R108), a
DO row reads its count and saves the outer loop before it (R267 to R270). -/
def truncated (i : Instr) (s : State) : Stop :=
  match doCount i s with
  | none => ⟨.addressOutOfRange, s⟩
  | some (.ok (_, s1)) => ⟨.addressOutOfRange, saveLoop s1⟩
  | some (.error e) => e

/-- The state that a Fatal inside the instruction leaves. The rows that raise none, and those that raise one before their
first write, leave the state they started in. -/
def fatalOfInstr (i : Instr) (s : State) : State :=
  match i with
  | .movecReg w r c => leftBy (attemptMovecReg w r c s) s
  | .movecEa mv sp c => leftBy (attemptMovecEa mv sp c s) s
  | .movecAa w aa sp c => leftBy (attemptMovecAa w aa sp c s) s
  | .repEa mode k sp | .doEa mode k sp _ => leftBy (countEa mode k sp s) s
  | .moveXRII d ea alu => leftBy (attemptMove alu (planMoveXRII d ea) s) s
  | .moveRYII d ea alu => leftBy (attemptMove alu (planMoveRYII d ea) s) s
  | .moveXRI f d g mv alu => leftBy (attemptMove alu (planMoveXRI f d g mv) s) s
  | .moveRYI d e f mv alu => leftBy (attemptMove alu (planMoveRYI d e f mv) s) s
  | .noMove alu => leftBy (attemptMove alu planNoMove s) s
  | .moveUpdate mode k alu => leftBy (attemptMove alu (planMoveUpdate mode k) s) s
  | .moveRegReg src dst alu => leftBy (attemptMove alu (planMoveRegReg src dst) s) s
  | .moveImm dst k alu => leftBy (attemptMove alu (planMoveImm dst k) s) s
  | .moveXYEa sp r mv alu => leftBy (attemptMove alu (planMoveXYEa sp r mv) s) s
  | .moveXYAa sp r w aa alu => leftBy (attemptMove alu (planMoveXYAa sp r w aa) s) s
  | .moveLEa l w ea alu => leftBy (attemptMove alu (planMoveLEa l w ea) s) s
  | .moveLAa l w aa alu => leftBy (attemptMove alu (planMoveLAa l w aa) s) s
  | .moveXYDouble wy my e f wx rr mx k alu => leftBy (attemptMove alu (planMoveXYDouble wy my e f wx rr mx k) s) s
  | .nop | .rti | .illegal | .trap | .rts | .wait | .stop | .enddo | .andi .. | .ori .. | .movecImm .. => s
  | .repImm .. | .repAa .. | .repReg .. | .doImm .. | .doAa .. | .doReg .. => s
  | .jmpEa .. | .jccEa .. | .jsrEa .. | .jsccEa .. | .jmpAbs .. | .jsrAbs .. | .jccAbs .. | .jsccAbs .. => s
  | .aluMove | .tfrAcc .. | .tfrReg .. | .addr .. | .tst .. | .cmpAcc .. | .cmpReg .. | .subr .. | .cmpmAcc .. | .cmpmReg ..
  | .addAcc .. | .addX .. | .addY .. | .addReg .. | .rnd .. | .addl .. | .clr .. | .subAcc .. | .subX .. | .subY ..
  | .subReg .. | .subl .. | .notAcc .. | .adc .. | .asr .. | .lsr .. | .sbc .. | .absAcc .. | .ror .. | .asl .. | .lsl ..
  | .neg .. | .rol .. | .orReg .. | .eorReg .. | .andReg .. | .mpy .. | .mpyr .. | .mac .. | .macr .. => s

end Sys2Proof.Machine
end

