-- ==== Sys2Proof/Machine/Fetch.lean ====
section
/-! DEFINITION. Fetching and decoding the word at pc (R131, R134, R137, R144), and the bookkeeping at the start of an
instruction (R132). -/

namespace Sys2Proof.Machine

/-- What the fetch finds. -/
inductive Fetched where
  | instr (i : Instr)
  /-- The row's extension word lies outside P; the instruction's other operands are read from its opcode word. -/
  | truncated (i : Instr)
  | unlisted
  | fault (r : Fault)
  deriving DecidableEq, Repr

/-- The rows that cannot be the repeated instruction of a REP (R144). -/
def forbiddenUnderRep : Instr → Bool
  | .jmpEa .. | .jccEa .. | .jsrEa .. | .jsccEa .. | .jmpAbs .. | .jsrAbs .. | .jccAbs .. | .jsccAbs .. => true
  | .rts | .rti | .enddo => true
  | .repImm .. | .repAa .. | .repEa .. | .repReg .. | .doImm .. | .doAa .. | .doEa .. | .doReg .. => true
  | .nop | .illegal | .trap | .wait | .stop | .andi .. | .ori .. => false
  | .movecReg .. | .movecEa .. | .movecAa .. | .movecImm .. | .moveXRII .. | .moveRYII .. => false
  | .moveXRI .. | .moveRYI .. | .noMove .. | .moveUpdate .. | .moveRegReg .. | .moveImm .. => false
  | .moveXYEa .. | .moveXYAa .. | .moveLEa .. | .moveLAa .. | .moveXYDouble .. => false
  | .aluMove | .tfrAcc .. | .tfrReg .. | .addr .. | .tst .. | .cmpAcc .. | .cmpReg .. | .subr .. => false
  | .cmpmAcc .. | .cmpmReg .. | .addAcc .. | .addX .. | .addY .. | .addReg .. | .rnd .. | .addl .. | .clr .. => false
  | .subAcc .. | .subX .. | .subY .. | .subReg .. | .subl .. | .notAcc .. | .adc .. | .asr .. | .lsr .. => false
  | .sbc .. | .absAcc .. | .ror .. | .asl .. | .lsl .. | .neg .. | .rol .. | .orReg .. | .eorReg .. => false
  | .andReg .. | .mpy .. | .mpyr .. | .mac .. | .macr .. => false

/-- A REP is in its passes: the word decoded now is the repeated instruction (R144). -/
def repeating (s : State) : Bool := s.loopRep && !s.pcOnRep

/-- The extension word at pc + 1 where the row takes one (R108); 0 stands where it takes none. -/
def fetchExtension (s : State) (taken : Bool) : Except Fault Word :=
  if taken then readP s (s.pc + 1) else .ok 0

/-- Fetch the word at pc, decide R144 from the row alone (log entry 7), then read the extension word (log entry 6). -/
def fetch (s : State) : Fetched :=
  match readP s s.pc with
  | .error r => .fault r
  | .ok w =>
    match decode w 0 with
    | .error .unlisted => .unlisted
    | .error .ambiguousMatch => .fault .ambiguousMatch
    | .ok i0 =>
      if repeating s && forbiddenUnderRep i0 then .fault .repOfControl
      else
        match fetchExtension s (hasExtension w) with
        | .error _ => .truncated i0
        | .ok e =>
          match decode w e with
          | .ok i => .instr i
          | .error .unlisted => .unlisted
          | .error .ambiguousMatch => .fault .ambiguousMatch

/-- "cycle charge defaults to 2, instruction length defaults to 1 word" (R132). -/
def beginInstr (s : State) : State := { s with instrCycle := Config.cyclesDefault, len := 1 }

end Sys2Proof.Machine
end

