-- ==== Sys2Proof/Machine/Interrupt.lean ====
section
/-! DEFINITION. The interrupt check at the end of every step (R330 to R340): the five-count pipeline, the trace test,
arbitration. -/

namespace Sys2Proof.Machine

/-- The two JSR patterns of a long interrupt (R336). -/
def isLong (w : Word) : Bool := w &&& 0xFFF000 == 0x0D0000 || w &&& 0xFFC0FF == 0x0BC080

/-- "if is_long(MemRead(P, pc)) then long_entry()" (R330, R338). In a state with no saved pc, which no run
reaches here, there is no entry (log entry 16). -/
def inspectVector (s : State) : Except Stop State :=
  match readP s s.pc with
  | .error r => .error ⟨r, s⟩
  | .ok w =>
    match isLong w, s.savePc with
    | true, some saved => .ok (longEntry saved s)
    | true, none => .ok s
    | false, _ => .ok s

/-- Count 4: save the pc, go to the vector, inspect its first word. -/
def pipelineFour (s : State) : Except Stop State :=
  match s.instrFetch with
  | none => .ok { s with savePc := some s.pc, pipelineCount := .three }
  | some v => do
    let s1 ← inspectVector { s with savePc := some s.pc, pc := v }
    .ok { s1 with pipelineCount := .three }

/-- Count 3: inspect the second vector word if it is the next to execute (R337). -/
def pipelineThree (s : State) : Except Stop State :=
  match s.instrFetch with
  | none => .ok { s with pipelineCount := .two }
  | some v =>
    if s.pc = v + 1 then do
      let s1 ← inspectVector s
      .ok { s1 with pipelineCount := .two }
    else .ok { s with pipelineCount := .two }

/-- Count 2: the fast return (R339). -/
def pipelineTwo (s : State) : State :=
  match s.instrFetch, s.savePc with
  | some v, some saved =>
    if s.pc = v + 2 ∧ s.longTaken = false then { s with pc := saved, pipelineCount := .one }
    else { s with pipelineCount := .one }
  | some _, none => { s with pipelineCount := .one }
  | none, _ => { s with pipelineCount := .one }

/-- Count 0: leave the pipeline (R335, R340). -/
def leavePipeline (s : State) : State :=
  { s with savePc := none, instrFetch := none, longTaken := false, interruptState := .none }

/-- The integer of a level (R37). -/
def iplValue : Ipl → Int
  | .disabled => -1
  | .level0 => 0
  | .level1 => 1
  | .level2 => 2
  | .level3 => 3

/-- The scan of R333 from one source on, with the winner so far and its level. -/
def scanSources (s : State) : List IrqSource → Option IrqSource → Int → Option IrqSource
  | [], win, _ => win
  | i :: rest, win, best =>
    if s.pending[irqIndex i] then
      if s.ipl[irqIndex i] = .level3 then some i
      else if ((srMask s.sr).toNat : Int) < iplValue s.ipl[irqIndex i] ∧ best < iplValue s.ipl[irqIndex i] then
        scanSources s rest (some i) (iplValue s.ipl[irqIndex i])
      else scanSources s rest win best
    else scanSources s rest win best

/-- The winner of arbitration (R333). -/
def winner (s : State) : Option IrqSource := scanSources s irqAll none (-1)

/-- `arbitrate()` (R333, R334). -/
def arbitrate (s : State) : Except Stop State :=
  match winner s with
  | some i => takeInterrupt i s
  | none => .ok s

/-- The trace test, and arbitration where anything is pending (R330, R332). -/
def traceAndArbitrate (s : State) : Except Stop State :=
  let s1 := if s.sr.getLsbD srT then post .trace s else s
  if s1.pendingCount = 0 then .ok s1 else arbitrate s1

/-- One count of the pipeline (R335 to R340). -/
def pipelineStep (s : State) : Except Stop State :=
  match s.pipelineCount with
  | .five => .ok { s with pipelineCount := .four }
  | .four => pipelineFour s
  | .three => pipelineThree s
  | .two => .ok (pipelineTwo s)
  | .one => .ok { s with pipelineCount := .zero }
  | .zero => traceAndArbitrate (leavePipeline s)

/-- `interrupt_check()` (R330) with what its Fatal leaves; it does nothing during a REP (R331). -/
def attemptCheck (s : State) : Except Stop State :=
  if s.loopRep then .ok s
  else
    match s.interruptState with
    | .none => traceAndArbitrate s
    | .disabled | .long => pipelineStep s

/-- `interrupt_check()` by its next state or its reason. -/
def interruptCheck (s : State) : Except Fault State := reasonOnly (attemptCheck s)

end Sys2Proof.Machine
end

