-- ==== Sys2Proof/Machine/PcUpdate.lean ====
section
/-! DEFINITION. The PC update that follows every instruction (R138 to R143): the REP passes, the advance by `len`,
the DO loop end. -/

namespace Sys2Proof.Machine

/-- `(LC - 1) & 0xFFFF` (R140). -/
def decLc (lc : BitVec 17) : BitVec 17 := ((lc - 1).setWidth 16).setWidth 17

/-- The REP branch of R140: the REP instruction's own update (R141), or the end of one pass (R142). -/
def repUpdate (s : State) : State :=
  if s.loopRep then
    if s.pcOnRep then { s with lc := if s.lc = 0 then 0x10000 else s.lc, pcOnRep := false }
    else if decLc s.lc ≠ 0 then { s with lc := decLc s.lc, len := 0 }
    else { s with loopRep := false, lc := s.lcSaved.setWidth 17 }
  else s

/-- `pc <- trunc_24(pc + len)` (R35, R140). -/
def advancePc (s : State) : State := { s with pc := s.pc + BitVec.ofNat 24 s.len }

/-- "pc has just stepped past the loop's last address" with LF set (R143). -/
def atLoopEnd (s : State) : Bool := s.sr.getLsbD srLF && s.pc.toNat == s.la.toNat + 1

/-- The DO loop end of R140 and R143. -/
def loopEnd (s : State) : State :=
  if atLoopEnd s then
    if decLc s.lc = 0 then unwindLoop { s with lc := decLc s.lc }
    else { s with lc := decLc s.lc, pc := s.ssh.setWidth 24 }
  else s

/-- `update_pc()` (R140). -/
def updatePc (s : State) : State := loopEnd (advancePc (repUpdate s))

end Sys2Proof.Machine
end

