-- ==== Sys2Proof/Machine/Step.lean ====
section
/-! DEFINITION. The core step of R130, and the state that its Fatal leaves. -/

namespace Sys2Proof.Machine

/-- What follows the execution of an instruction: PC update, interrupt check, instruction count (R130). The check sees SR
as the instruction left it, a mask it wrote included: R330 and R333 have it read SR after the PC update, though R368
says "only checks after the writing step" (DESIGN CHOICE, log entry 26). -/
def finish (s : State) : Host.Outcome State Fault Refusal :=
  match interruptCheck (updatePc s) with
  | .ok s1 => .next { s1 with instrCount := s1.instrCount + 1 }
  | .error r => .fault r

/-- The rest of the step after an outcome of the execution: a Fatal or a refusal ends it at once (R130). -/
def finishOutcome : Host.Outcome State Fault Refusal → Host.Outcome State Fault Refusal
  | .next s => finish s
  | .fault r => .fault r
  | .refused r => .refused r

/-- `execute_instruction` (R130). While `fatal` is set no step is taken (R39, R345). -/
def step (s : State) : Host.Outcome State Fault Refusal :=
  match s.fatal with
  | some r => .fault r
  | none =>
    match fetch s with
    | .fault r => .fault r
    | .truncated i => .fault (truncated i (beginInstr s)).reason
    | .unlisted => finishOutcome (unlistedPath (beginInstr s))
    | .instr i => finishOutcome (exec i (beginInstr s))

/-- The state after a check's Fatal (R330). -/
def fatalOfFinish (s : State) : State := leftBy (attemptCheck (updatePc s)) s

/-- The state after the rest of a step whose execution had an outcome: where the execution was Fatal, what that left. -/
def fatalOfOutcome (left s : State) : Host.Outcome State Fault Refusal → State
  | .next t => fatalOfFinish t
  | .fault _ => left
  | .refused _ => s

/-- The state that a Fatal step leaves: "the state written before the Fatal stays" (R130, D34). -/
def fatalOfStep (s : State) : State :=
  match fetch s with
  | .fault _ => if s.pc.toNat < Config.pramSize then beginInstr s else s
  | .truncated i => (truncated i (beginInstr s)).left
  | .unlisted => fatalOfOutcome s s (unlistedPath (beginInstr s))
  | .instr i => fatalOfOutcome (fatalOfInstr i (beginInstr s)) s (exec i (beginInstr s))

/-- The opcode word of an instruction's bits; an alu_byte row stands in the word with no parallel move
(R221; log entry 12). -/
def firstWordOf (nbits w : Nat) : Word :=
  if nbits ≤ 8 then noMoveWord (BitVec.ofNat 8 w) else BitVec.ofNat 24 w

/-- The extension word of an instruction's bits. -/
def secondWordOf (nbits w : Nat) : Word := if nbits ≤ 8 then 0 else BitVec.ofNat 24 (w >>> 24)

/-- Store a word of P, where the address is one of P's. -/
def placeP (a v : Word) (s : State) : State :=
  if a.toNat < Config.pramSize then { s with pram := s.pram.write a.toNat v } else s

/-- The instruction's words stored at pc and pc + 1 in P, where the step fetches. -/
def State.withFetchWord (s : State) (nbits w : Nat) : State :=
  placeP (s.pc + 1) (secondWordOf nbits w) (placeP s.pc (firstWordOf nbits w) s)

end Sys2Proof.Machine
end

