-- ==== Sys2Proof/Machine/HostCalls.lean ====
section
/-! DEFINITION. The host's calls between steps (R345): initialize, reset, run, step, bootstrap, raise-interrupt, set-ipl
and read-cell. In the fault state every call but initialize and reset does nothing and returns the error (D34). -/

namespace Sys2Proof.Machine

/-- What a call returns. -/
inductive CallStatus where
  | done
  | fatal (r : Fault)
  | refused (r : Refusal)
  deriving DecidableEq, Repr

/-- The machine after a call, and what the call returned. -/
structure CallResult where
  state : State
  status : CallStatus
  deriving DecidableEq, Repr

/-- A call that the fault state turns away (R345, D34). -/
def unlessFatal (s : State) (call : CallResult) : CallResult :=
  match s.fatal with
  | some r => ⟨s, .fatal r⟩
  | none => call

/-- `initialize` with the environment's scratch bytes (R360). -/
def callInitialize (scratch : Scratch) : State := { State.reset with scratch := scratch }

/-- The contents of an array after a reset call: unspecified (R361, D10; log entry 4). -/
def arrayAfterReset (draw : Nat) (name : Config.ArrayName) (size : Nat) : Memory :=
  Memory.ofContents (Config.memoryAfterReset draw name) size

/-- `reset` (R361): every register at its reset value, memory unspecified, the scratch store untouched. -/
def callReset (s : State) : State :=
  { State.reset with
    xram := arrayAfterReset s.draws .xram Config.xramSize
    yram := arrayAfterReset s.draws .yram Config.yramSize
    pram := arrayAfterReset s.draws .pram Config.pramSize
    mixbuffer := arrayAfterReset s.draws .mixbuffer Config.mixSize
    periph := arrayAfterReset s.draws .periph Config.periphSize
    scratch := s.scratch
    draws := s.draws + 1 }

/-- The fault state after a Fatal that leaves s (R322, R39). No claim may read the rest of it (R130; log entry 8). -/
def enterFault (s : State) (r : Fault) : CallResult := ⟨{ s with fatal := some r }, .fatal r⟩

/-- `step` (R345): one step regardless of the budget. -/
def callStep (s : State) : CallResult :=
  unlessFatal s
    (match step s with
    | .next s1 => ⟨s1, .done⟩
    | .fault r => enterFault (fatalOfStep s) r
    | .refused r => ⟨s, .refused r⟩)

/-- The loop of `run`, while the budget is positive, for at most so many steps (R146, R147). -/
def runLoop : Nat → State → CallResult
  | 0, s => ⟨s, .done⟩
  | k + 1, s =>
    if s.budget ≤ 0 then ⟨s, .done⟩
    else
      match step s with
      | .next s1 => runLoop k { s1 with budget := s1.budget - s1.instrCycle }
      | .fault r => enterFault (fatalOfStep s) r
      | .refused r => ⟨s, .refused r⟩

/-- `run(cycles)` (R146): each step charges at least 2 cycles, so the budget bounds the steps. -/
def callRun (s : State) (cycles : Nat) : CallResult :=
  unlessFatal s (runLoop (s.budget + cycles).toNat { s with budget := s.budget + cycles })

/-- The word of a 4-byte little-endian scratch item, its top byte dropped (R310). -/
def bootWord (m : Scratch) (k : Nat) : Word := itemWord .full24 m (4 * k)

/-- P:0 to P:n-1 from scratch (R310). -/
def bootWords (m : Scratch) (p : Memory) : Nat → Memory
  | 0 => p
  | k + 1 => (bootWords m p k).write k (bootWord m k)

/-- `bootstrap` (R310): 0x800 words into P. -/
def callBootstrap (s : State) : CallResult :=
  unlessFatal s ⟨{ s with pram := bootWords s.scratch s.pram 0x800 }, .done⟩

/-- `raise-interrupt(source-id)` (R327). -/
def callRaiseInterrupt (s : State) (id : Nat) : CallResult :=
  unlessFatal s
    (match irqAll[id]? with
    | some src => ⟨post src s, .done⟩
    | none => enterFault s .badSource)

/-- `set-ipl(source-id, level)` (R328). -/
def callSetIpl (s : State) (src : IrqSource) (level : Ipl) : CallResult :=
  unlessFatal s ⟨{ s with ipl := s.ipl.set (irqIndex src) level }, .done⟩

/-- What `read-cell` returns. -/
inductive CellRead where
  | word (v : Word)
  | outOfRange
  | fatal (r : Fault)
  deriving DecidableEq, Repr

/-- The value of a peripheral address for a debug read: a core register, or 0 (R347, D39). -/
def peekPeriph (s : State) (a : Word) : Word :=
  if a = Config.addrIsr then isrValue s
  else if a = Config.addrDmaConfig then s.dmaConfig
  else if a = Config.addrDmaControl then s.dmaControl
  else if a = Config.addrDmaStart then s.dmaStart
  else if a = Config.addrDmaNext then s.dmaNext
  else 0

/-- The word a debug read returns (R347). -/
def peekCell (s : State) (sp : DspSpace) (a : Word) : Except Fault Word :=
  match sp with
  | .x => if Config.periphBase ≤ a.toNat then .ok (peekPeriph s a) else readXData s a
  | .y => readY s a
  | .p => readP s a

/-- `read-cell(space, address)` (R347): no state change; out of range is an error that does not set `fatal`. -/
def callReadCell (s : State) (sp : DspSpace) (a : Word) : CellRead :=
  match s.fatal with
  | some r => .fatal r
  | none =>
    match peekCell s sp a with
    | .ok v => .word v
    | .error _ => .outOfRange

end Sys2Proof.Machine
end

