-- ==== Sys2Proof/Safety.lean ====
section
/-! DEFINITION. What every state of a run keeps: the terms of the invariant claims. -/

namespace Sys2Proof.Safety

open Sys2Proof.Machine

/-- Every word array, and scratch memory, is in its canonical form. -/
structure MemoryOk (s : State) : Prop where
  xram : Memory.wf Config.xramSize s.xram
  yram : Memory.wf Config.yramSize s.yram
  pram : Memory.wf Config.pramSize s.pram
  mixbuffer : Memory.wf Config.mixSize s.mixbuffer
  periph : Memory.wf Config.periphSize s.periph
  scratch : Scratch.wf s.scratch

/-- SR and OMR hold only writable bits (R22, R28, R29). -/
structure StatusOk (s : State) : Prop where
  sr : s.sr &&& ~~~ Config.srRwMask = 0
  omr : s.omr &&& ~~~ Config.omrRwMask = 0

/-- SSH and SSL hold the active slot of the stack (R31). -/
structure ShadowOk (s : State) : Prop where
  ssh : s.ssh = s.stackH[slotOf s.sp]
  ssl : s.ssl = s.stackL[slotOf s.sp]

/-- Between steps the REP's own pass is over, and LC is a 16-bit value except in the passes of a REP (R32, R141). -/
structure LoopOk (s : State) : Prop where
  firstPassOver : s.pcOnRep = false
  lcBound : s.lc.toNat ≤ 0x10000
  lcWide : s.lc = 0x10000 → s.loopRep = true

/-- The number of pending sources is counted (R37, R326). -/
def PendingOk (s : State) : Prop := s.pendingCount = s.pending.toList.count true

/-- The pipeline's latches agree with its state (R330, R335). -/
structure PipelineOk (s : State) : Prop where
  idle : s.interruptState = .none →
    s.instrFetch = none ∧ s.savePc = none ∧ s.pipelineCount = .zero ∧ s.longTaken = false
  fetch : s.interruptState ≠ .none → s.instrFetch.isSome
  save : s.interruptState ≠ .none → s.pipelineCount ≠ .five → s.pipelineCount ≠ .four → s.savePc.isSome
  long : s.interruptState = .long → s.longTaken = true

/-- The DMA control register holds its three status bits only (R290). -/
def DmaOk (s : State) : Prop := s.dmaControl &&& ~~~ (0x38 : Word) = 0

/-- The machine invariant. -/
structure Inv (s : State) : Prop where
  memory : MemoryOk s
  status : StatusOk s
  shadow : ShadowOk s
  loop : LoopOk s
  pending : PendingOk s
  pipeline : PipelineOk s
  dma : DmaOk s

/-- A run of k steps that meets no fault and no refusal. -/
def RunsFor (k : Nat) (s : State) : Prop := ∃ t, Sys2Proof.core.run k s = .next t

end Sys2Proof.Safety
end

