-- ==== Sys2Proof/Certificates/Slice0/Obligations.lean ====
section
/-! DEFINITION. The statements for the provers, and the terms they are written in. The terms restate the rules of spec/
over exact integers and explicit fields, beside the model's own names. -/

namespace Sys2Proof.Claims

open Sys2Proof.Machine

/-! ### Memory -/

/-- The storage cell an address of P, X or Y selects (R62, R64). -/
inductive Cell where
  | p (index : Nat)
  | x (index : Nat)
  | y (index : Nat)
  | mix (index : Nat)
  deriving DecidableEq, Repr

/-- The cell of an address; X addresses of the two mix windows share their cells (R62, R64). -/
def cellOf (sp : DspSpace) (a : Word) : Option Cell :=
  match sp with
  | .p => if a.toNat < 4096 then some (.p a.toNat) else none
  | .y => if a.toNat < 2048 then some (.y a.toNat) else none
  | .x =>
    if 0x0C00 ≤ a.toNat ∧ a.toNat < 0x1000 then some (.mix (a.toNat - 0x0C00))
    else if 0x1400 ≤ a.toNat ∧ a.toNat < 0x1800 then some (.mix (a.toNat - 0x1400))
    else if a.toNat < 3072 then some (.x a.toNat)
    else none

/-- The DSP space of an instruction's space bit. -/
def dsp : Space → DspSpace
  | .x => .x
  | .y => .y

/-- Every word of P, X and Y, every scratch byte and the peripheral shadow read as before. -/
def SameMemory (s t : State) : Prop :=
  (∀ sp a, readDsp sp t a = readDsp sp s a) ∧ (∀ a, t.scratch.read a = s.scratch.read a) ∧ t.periph = s.periph

/-- The cell of an address holds v, and every other cell, every scratch byte and the peripheral shadow are as before. -/
def OnlyCell (sp : DspSpace) (a v : Word) (s t : State) : Prop :=
  readDsp sp t a = .ok v ∧ (∀ sp' a', cellOf sp' a' ≠ cellOf sp a → readDsp sp' t a' = readDsp sp' s a') ∧
  (∀ b, t.scratch.read b = s.scratch.read b) ∧ t.periph = s.periph

/-- Only the X, Y and mix-buffer arrays differ. -/
def OnlyArrays (s t : State) : Prop := t = { s with xram := t.xram, yram := t.yram, mixbuffer := t.mixbuffer }

/-! ### Arithmetic -/

/-- The signed 56-bit range is left. -/
def overflows (z : Int) : Bool := decide (z < -2 ^ 55 ∨ 2 ^ 55 ≤ z)

/-- The 56-bit pattern of an integer. -/
def pattern (z : Int) : Word56 := BitVec.ofInt 56 z

/-- The bound below which the extension is not in use, in each scaling mode (R172). -/
def extBound : Scale → Int
  | .none => 2 ^ 47
  | .down => 2 ^ 48
  | .up => 2 ^ 46

/-- The upper of the two bits that U compares (R172). -/
def normBit : Scale → Nat
  | .none => 47
  | .down => 48
  | .up => 46

/-- The rounding position (R171). -/
def tieBit : Scale → Nat
  | .none => 23
  | .down => 24
  | .up => 22

/-- The multiple of 2^(k+1) nearest to z, the even one of two equally near (R171). -/
def nearestEven (k : Nat) (z : Int) : Int :=
  if z % 2 ^ (k + 1) < 2 ^ k ∨ (z % 2 ^ (k + 1) = 2 ^ k ∧ z / 2 ^ (k + 1) % 2 = 0) then z / 2 ^ (k + 1) * 2 ^ (k + 1)
  else (z / 2 ^ (k + 1) + 1) * 2 ^ (k + 1)

/-- SR after an arithmetic result r with carry c and overflow v: E U N Z of r, V, C, the sticky L, nothing else
(R172, R176). -/
structure ArithFlags (sc : Scale) (r : Word56) (c v : Bool) (before after : BitVec 16) : Prop where
  ext : after.getLsbD srE = decide (r.toInt < -extBound sc ∨ extBound sc ≤ r.toInt)
  unnormalized : after.getLsbD srU = (r.getLsbD (normBit sc) == r.getLsbD (normBit sc - 1))
  negative : after.getLsbD srN = decide (r.toInt < 0)
  zero : after.getLsbD srZ = decide (r.toInt = 0)
  overflow : after.getLsbD srV = v
  carry : after.getLsbD srC = c
  limit : after.getLsbD srL = (before.getLsbD srL || v)
  rest : ∀ k, 7 ≤ k → after.getLsbD k = before.getLsbD k

/-- The operations that read the scaling mode neither for their result nor for their flags (R170, R176): MOVE, TFR, CLR and
those of the middle limb. -/
def ModeFree (op : AluOp) : Prop :=
  op = .move ∨ (∃ d, op ∈ [AluOp.tfrAcc d, .clr d, .notAcc d, .lsr d, .lsl d, .ror d, .rol d]) ∨
  ∃ j d, op ∈ [AluOp.tfrReg j d, .orReg j d, .eorReg j d, .andReg j d]

/-- Each of the instructions is Fatal in the reserved scaling mode 11 (R170, R176). -/
def FatalInMode11 (is : List Instr) (s : State) : Prop := s.sr &&& 0x0C00 = 0x0C00 → ∀ i ∈ is, exec i s = .fault .scalingReserved

/-- The instruction completes: D takes r, SR the flags of r, and nothing else changes. -/
def Computes (i : Instr) (s : State) (d : AccSel) (sc : Scale) (r : Word56) (c v : Bool) : Prop :=
  ∃ t, exec i s = .next t ∧ accVal t d = r ∧ ArithFlags sc r c v s.sr t.sr ∧
    t = setSr (setAcc s d (getAcc t d)) t.sr ∧ SameMemory s t

/-- The instruction completes: SR takes the flags of r, and nothing else changes. -/
def Compares (i : Instr) (s : State) (sc : Scale) (r : Word56) (c v : Bool) : Prop :=
  ∃ t, exec i s = .next t ∧ ArithFlags sc r c v s.sr t.sr ∧ t = setSr s t.sr ∧ SameMemory s t

/-- The sum of x and y (R164). -/
def Adds (i : Instr) (s : State) (d : AccSel) (sc : Scale) (x y : Word56) : Prop :=
  Computes i s d sc (pattern (x.toInt + y.toInt)) (decide (2 ^ 56 ≤ x.toNat + y.toNat)) (overflows (x.toInt + y.toInt))

/-- The difference of x and y (R165). -/
def Subtracts (i : Instr) (s : State) (d : AccSel) (sc : Scale) (x y : Word56) : Prop :=
  Computes i s d sc (pattern (x.toInt - y.toInt)) (decide (x.toNat < y.toNat)) (overflows (x.toInt - y.toInt))

/-- The flags of the difference of x and y. -/
def ComparesDifference (i : Instr) (s : State) (sc : Scale) (x y : Word56) : Prop :=
  Compares i s sc (pattern (x.toInt - y.toInt)) (decide (x.toNat < y.toNat)) (overflows (x.toInt - y.toInt))

/-- The magnitude of a 56-bit value; the most negative one is its own (R166). -/
def magnitude (x : Word56) : Word56 := pattern |x.toInt|

/-- The exact product of a multiply: twice the signed product, negated for k = 1 (R169). -/
def exactProduct (s : State) (q : MulPair) (k : MulSign) : Int :=
  let p := 2 * (mulOperands s q).1.toInt * (mulOperands s q).2.toInt
  match k with
  | .plus => p
  | .minus => -p

/-- The middle limb takes m, SR takes N, Z, V = 0 and C; nothing else changes (R174). -/
def MiddleLimb (i : Instr) (s : State) (d : AccSel) (m : Word) (c : Bool) : Prop :=
  ∃ t, exec i s = .next t ∧ getAcc t d = { getAcc s d with mid := m } ∧
    t.sr.getLsbD srN = m.msb ∧ t.sr.getLsbD srZ = decide (m = 0) ∧ t.sr.getLsbD srV = false ∧ t.sr.getLsbD srC = c ∧
    (∀ k, 4 ≤ k → t.sr.getLsbD k = s.sr.getLsbD k) ∧ t = setSr (setAcc s d (getAcc t d)) t.sr ∧ SameMemory s t

/-! ### The hardware stack -/

/-- The state after a push of (a, b) (R40). -/
def pushed (a b : BitVec 16) (s : State) : State :=
  let sp : BitVec 6 := (s.sp &&& 0x30) ||| ((s.sp &&& 0x0F) + 1)
  if s.sp &&& 0x0F = 0x0F then
    let s1 := if s.sp.getLsbD 4 then s else post .stackError s
    { s1 with sp := sp, stackH := s.stackH.set 0 0, stackL := s.stackL.set 0 0, ssh := 0, ssl := 0 }
  else
    let slot : Fin 16 := (((s.sp &&& 0x0F) + 1).setWidth 4).toFin
    { s with sp := sp, stackH := s.stackH.set slot a, stackL := s.stackL.set slot b, ssh := a, ssl := b }

/-- The state after a pop (R42). -/
def popped (s : State) : State :=
  let sp : BitVec 6 := (s.sp &&& 0x30) ||| ((s.sp &&& 0x0F) - 1)
  let s1 := if s.sp &&& 0x0F = 0 ∧ s.sp.getLsbD 4 = false then post .stackError s else s
  let slot : Fin 16 := (sp.setWidth 4).toFin
  { s1 with sp := sp, ssh := s.stackH[slot], ssl := s.stackL[slot] }

/-- The state after a write of SP (R33). -/
def pointed (w : BitVec 6) (s : State) : State :=
  if s.sp &&& 0x30 = 0 ∧ w &&& 0x30 ≠ 0 then
    { post .stackError s with sp := w &&& 0x30, ssh := s.stackH[0], ssl := s.stackL[0] }
  else { s with sp := w, ssh := s.stackH[(w.setWidth 4).toFin], ssl := s.stackL[(w.setWidth 4).toFin] }

/-- The state after a push of SSH alone (R41). -/
def pushedHigh (a : BitVec 16) (s : State) : State :=
  if s.sp &&& 0x0F = 0x0F then pushed 0 0 s
  else
    let slot : Fin 16 := (((s.sp &&& 0x0F) + 1).setWidth 4).toFin
    { s with sp := (s.sp &&& 0x30) ||| ((s.sp &&& 0x0F) + 1), stackH := s.stackH.set slot a, ssh := a, ssl := s.stackL[slot] }

/-! ### Parallel moves -/

/-- Phase 2 of a parallel move before the move destinations: the ALU destination and flags, then the Rn update, and the
length and charge of an extension word (R220, R108, R366). -/
def afterAlu (e : AluEffect) (update : Option (Fin 8 × Word)) (ext : Bool) (s : State) : State :=
  let s1 := applyUpdate update (applyAlu e s)
  if ext then { s1 with len := 2, instrCycle := s1.instrCycle + 2 } else s1

/-- The displacement of a short mode (R101, R222). -/
def shortDisp (mode : UpdateMode) (n : Word) : Int :=
  match mode with
  | .subN => -n.toInt
  | .addN => n.toInt
  | .dec => -1
  | .inc => 1

/-- The registers of an L pair after a load of hi and lo (R229). -/
def pairLoaded (l : LPair) (hi lo : Word) (s : State) : State :=
  match l with
  | .a10 => { s with a := { s.a with mid := hi, lo := lo } }
  | .b10 => { s with b := { s.b with mid := hi, lo := lo } }
  | .x => { s with x1 := hi, x0 := lo }
  | .y => { s with y1 := hi, y0 := lo }
  | .a => { s with a := ⟨signExt8 hi, hi, lo⟩ }
  | .b => { s with b := ⟨signExt8 hi, hi, lo⟩ }
  | .ab => { s with a := ⟨signExt8 hi, hi, 0⟩, b := ⟨signExt8 lo, lo, 0⟩ }
  | .ba => { s with b := ⟨signExt8 hi, hi, 0⟩, a := ⟨signExt8 lo, lo, 0⟩ }

/-- The high word, the low word and the saturation of an L pair as a source (R229, R230). -/
def pairSource (l : LPair) (sc : Scale) (s : State) : Word × Word × Bool :=
  match l with
  | .a10 => (s.a.mid, s.a.lo, false)
  | .b10 => (s.b.mid, s.b.lo, false)
  | .x => (s.x1, s.x0, false)
  | .y => (s.y1, s.y0, false)
  | .a => ((limit48 sc (pack s.a)).1.1, (limit48 sc (pack s.a)).1.2, (limit48 sc (pack s.a)).2)
  | .b => ((limit48 sc (pack s.b)).1.1, (limit48 sc (pack s.b)).1.2, (limit48 sc (pack s.b)).2)
  | .ab => ((limit24 sc (pack s.a)).1, (limit24 sc (pack s.b)).1, (limit24 sc (pack s.a)).2 || (limit24 sc (pack s.b)).2)
  | .ba => ((limit24 sc (pack s.b)).1, (limit24 sc (pack s.a)).1, (limit24 sc (pack s.b)).2 || (limit24 sc (pack s.a)).2)

/-- The sticky L set where a limiter saturated (R173). -/
def limited (sat : Bool) (s : State) : State := if sat then { s with sr := s.sr ||| 0x0040 } else s

/-- A load answers the register's new value; the effects of R220 follow, and every word of memory reads as before. -/
def LoadsRegister (i : Instr) (s s1 : State) (r : Reg) (v : Word) (op : AluOp) (update : Option (Fin 8 × Word)) (ext : Bool) : Prop :=
  ∃ e t, aluEffect op s = .ok e ∧ writeReg r v (afterAlu e update ext s1) = .ok t ∧ exec i s = .next t ∧ SameMemory s t

/-- A store of a register answers the cell's new value; the effects of R220 precede it, and nothing else changes. -/
def StoresRegister (i : Instr) (s : State) (r : Reg) (sp : Space) (a : Word) (op : AluOp) (update : Option (Fin 8 × Word))
    (ext : Bool) : Prop :=
  ∃ e v s1 t, aluEffect op s = .ok e ∧ readReg r s = .ok (v, s1) ∧ exec i s = .next t ∧ OnlyCell (dsp sp) a v s t ∧
    OnlyArrays (afterAlu e update ext s1) t

/-- A store of v to a peripheral address of X: after the effects of R220 the instruction does what the peripheral path does
with v, and its Fatal is that of the path (R63, R68). -/
def StoresPeripheral (i : Instr) (s : State) (r : Reg) (a : Word) (op : AluOp) (update : Option (Fin 8 × Word)) (ext : Bool) : Prop :=
  ∃ e v s1, aluEffect op s = .ok e ∧ readReg r s = .ok (v, s1) ∧
    (∀ t, memStore .x a v (afterAlu e update ext s1) = .ok t → exec i s = .next t) ∧
    (∀ f, memStore .x a v (afterAlu e update ext s1) = .error f → exec i s = .fault f)

/-! ### Control -/

/-- The rows that a REP may not repeat (R144). -/
def ControlRow (i : Instr) : Prop :=
  (∃ ea, i = .jmpEa ea) ∨ (∃ ea c, i = .jccEa ea c) ∨ (∃ ea, i = .jsrEa ea) ∨ (∃ ea c, i = .jsccEa ea c) ∨
  (∃ a, i = .jmpAbs a) ∨ (∃ a, i = .jsrAbs a) ∨ (∃ c a, i = .jccAbs c a) ∨ (∃ c a, i = .jsccAbs c a) ∨
  i = .rts ∨ i = .rti ∨ i = .enddo ∨
  (∃ c, i = .repImm c) ∨ (∃ aa sp, i = .repAa aa sp) ∨ (∃ m k sp, i = .repEa m k sp) ∨ (∃ r, i = .repReg r) ∨
  (∃ c l, i = .doImm c l) ∨ (∃ aa sp l, i = .doAa aa sp l) ∨ (∃ m k sp l, i = .doEa m k sp l) ∨ (∃ r l, i = .doReg r l)

/-- The state after the body of REP with a 16-bit count (R263). -/
def repStarted (count : BitVec 16) (s : State) : State :=
  { s with lcSaved := s.lc.setWidth 16, lc := count.setWidth 17, loopRep := true, pcOnRep := true, instrCycle := s.instrCycle + 2 }

/-- The state after the body of DO with a 16-bit count and the loop's last address (R267). -/
def doStarted (count : BitVec 16) (last : Word) (s : State) : State :=
  let s1 := pushed s.la (s.lc.setWidth 16) s
  let s2 := pushed ((s.pc + 2).setWidth 16) s.sr { s1 with la := last.setWidth 16 }
  { s2 with sr := s2.sr ||| 0x8000, lc := count.setWidth 17, len := 2, instrCycle := s2.instrCycle + 4 }

/-- The state after the effective address of a control row: the Rn update, and the extension word's length and
charge (R100, R108, R366). -/
def addressed (update : Option (Fin 8 × Word)) (ext : Bool) (s : State) : State :=
  let s1 := applyUpdate update s
  if ext then { s1 with len := 2, instrCycle := s1.instrCycle + 2 } else s1

/-- A jump to t: pc, the length 0, two cycles (R138, R366). -/
def jumped (t : Word) (s : State) : State := { s with pc := t, len := 0, instrCycle := s.instrCycle + 2 }

/-- The body of JSR with the instruction's length (R273). -/
def called (t len : Word) (s : State) : State :=
  if s.interruptState = .long then jumped t { s with interruptState := .disabled }
  else jumped t (pushed ((s.pc + len).setWidth 16) s.sr s)

/-- SR with LF replaced by the LF of a popped SR (R140, R256). -/
def loopFlagFrom (sr popped : BitVec 16) : BitVec 16 := (sr &&& 0x7FFF) ||| (popped &&& 0x8000)

/-- The state after the two pops that end a DO loop (R140, R143, R256). -/
def loopPopped (s : State) : State :=
  let s1 := popped s
  let s2 := { s1 with sr := loopFlagFrom s1.sr s.ssl }
  { popped s2 with la := s2.ssh, lc := s2.ssl.setWidth 17 }

/-- The test for a loop's end after pc has moved: with LF set and pc past the last address LC counts down, and the loop
goes back to SSH or unwinds (R140, R143). -/
def loopTested (s : State) : State :=
  let count : BitVec 16 := s.lc.setWidth 16 - 1
  if s.sr.getLsbD srLF = true ∧ s.pc.toNat = s.la.toNat + 1 then
    if count = 0 then loopPopped { s with lc := 0 } else { s with lc := count.setWidth 17, pc := s.ssh.setWidth 24 }
  else s

/-- k PC updates after instructions of n words. -/
def passes (n : Nat) : Nat → State → State
  | 0, s => s
  | k + 1, s => passes n k (updatePc { s with len := n })

/-! ### DMA -/

/-- Every word of P, X and Y reads as before. -/
def SameWords (s t : State) : Prop := ∀ sp a, readDsp sp t a = readDsp sp s a

/-- The words a block of a space holds. -/
def blockWords (sp : DspSpace) (s : State) (base count : Nat) : List Word :=
  (List.range count).map fun k => ((readDsp sp s (BitVec.ofNat 24 (base + k))).toOption).getD 0

/-- The space and base of a DSP-side offset whose whole transfer lies in its range (R303). -/
def DmaRange (off count : Nat) (sp : DspSpace) (base : Nat) : Prop :=
  (sp = .x ∧ base = off ∧ off < 0x1800 ∧ off + count ≤ 0x1800) ∨
  (sp = .y ∧ off = base + 0x1800 ∧ off < 0x2000 ∧ off + count ≤ 0x2000) ∨
  (sp = .p ∧ off = base + 0x2800 ∧ off < 0x3800 ∧ off + count ≤ 0x3800)

/-- `control` after the action field of v, for the actions 0 to 4 (R294). -/
def actedControl (v control : Word) : Word :=
  if v &&& 7 = 1 then (control ||| 0x10) &&& ~~~ 0x20
  else if v &&& 7 = 2 then (control ||| 0x20) &&& ~~~ 0x10
  else if v &&& 7 = 3 then control ||| 0x08
  else if v &&& 7 = 4 then control &&& ~~~ 0x08
  else control

/-- The descriptor that the next-block pointer names (R297). -/
def NodeAt (s : State) (d : Vector Word 7) : Prop :=
  ∀ k : Fin 7, readDsp .x s (BitVec.ofNat 24 ((s.dmaNext &&& 0x3FFF).toNat + k.val)) = .ok d[k]

/-- RUNNING set, STOPPED clear (R294). -/
def started (s : State) : State := { s with dmaControl := (s.dmaControl ||| 0x10) &&& ~~~ 0x20 }

/-- The pointer taken and EOL noted, before the node's transfer (R296, R299). -/
def nodeLoaded (d : Vector Word 7) (s : State) : State := { s with dmaNext := d[0], eol := s.eol || d[0].getLsbD 14 }

/-- The transfer format of a node (R298, R301). -/
def nodeFormat (d : Vector Word 7) : Option Config.DmaFormat :=
  match ((d[1] >>> 10) &&& 7).toNat with
  | 1 => some .upper16
  | 2 => some .full24
  | _ => none

/-- The buffer-id of a node (R298). -/
def nodeBufid (d : Vector Word 7) : Word := (d[1] >>> 5) &&& 0xF

/-- The bytes a node moves (R301). -/
def nodeBytes (f : Config.DmaFormat) (d : Vector Word 7) : Nat :=
  match f with
  | .upper16 => d[2].toNat * 2
  | .full24 => d[2].toNat * 4

/-- Buffer-id 0xE with a transfer that does not stay below the scratch size: the node copies nothing (R302). -/
def NodeSkipped (f : Config.DmaFormat) (d : Vector Word 7) : Prop :=
  nodeBufid d = 0xE ∧ d[6].toNat + 1 ≤ d[4].toNat + nodeBytes f d

/-- The scratch address of a node that copies (R302). -/
def NodeScratch (f : Config.DmaFormat) (d : Vector Word 7) (a : Nat) : Prop :=
  (nodeBufid d = 0xE ∧ d[4].toNat + nodeBytes f d < d[6].toNat + 1 ∧ a = d[5].toNat + d[4].toNat) ∨
  (nodeBufid d = 0xF ∧ a = d[4].toNat)

/-- A node that can be carried out: it is skipped, or its block lies in one range and its words exist (R300 to R303). -/
def NodeReady (d : Vector Word 7) : Prop :=
  ∃ f, nodeFormat d = some f ∧
    (NodeSkipped f d ∨
      ∃ sp base a, NodeScratch f d a ∧ DmaRange d[3].toNat d[2].toNat sp base ∧
        ∀ k, k < d[2].toNat → cellOf sp (BitVec.ofNat 24 (base + k)) ≠ none)

/-- The node's checks, in their order, end in a Fatal (R300 to R303). -/
def NodeFatal (d : Vector Word 7) (r : Fault) : Prop :=
  (nodeFormat d = none ∧ r = .dmaFormat) ∨
  ∃ f, nodeFormat d = some f ∧
    ((nodeBufid d ≠ 0xE ∧ nodeBufid d ≠ 0xF ∧ r = .dmaBufid) ∨
     ((∃ a, NodeScratch f d a) ∧ (∀ sp base, ¬ DmaRange d[3].toNat d[2].toNat sp base) ∧ r = .dmaOffset))

/-- Only the word arrays and scratch memory differ. -/
def OnlyStores (s t : State) : Prop :=
  t = { s with xram := t.xram, yram := t.yram, pram := t.pram, mixbuffer := t.mixbuffer, scratch := t.scratch }

/-- The node's transfer takes s to t: nothing where it is skipped; else the block is copied in the direction of its
control word, and nothing else changes (R302 to R305). -/
def NodeMoves (d : Vector Word 7) (s t : State) : Prop :=
  OnlyStores s t ∧ ∃ f, nodeFormat d = some f ∧
    ((NodeSkipped f d ∧ SameWords s t ∧ t.scratch = s.scratch) ∨
      ∃ sp base a, NodeScratch f d a ∧ DmaRange d[3].toNat d[2].toNat sp base ∧
        (d[1].getLsbD 1 = true → SameWords s t ∧
          readBlock sp s base d[2].toNat = .ok (blockWords sp s base d[2].toNat) ∧
          t.scratch = writeBytes s.scratch a ((blockWords sp s base d[2].toNat).flatMap (itemBytes f))) ∧
        (d[1].getLsbD 1 = false → t.scratch = s.scratch ∧
          readBlock sp t base d[2].toNat = .ok (itemWords f s.scratch a d[2].toNat) ∧
          ∀ sp' a', (∀ k, k < d[2].toNat → cellOf sp' a' ≠ cellOf sp (BitVec.ofNat 24 (base + k))) →
            readDsp sp' t a' = readDsp sp' s a'))

/-! ### Interrupts -/

/-- The two JSR forms (R336). -/
def JsrPattern (w : Word) : Prop := w &&& 0xFFF000 = 0x0D0000 ∨ w &&& 0xFFC0FF = 0x0BC080

/-- The state after a long entry that saves an interrupted pc (R338). -/
def longEntered (saved : Word) (s : State) : State :=
  { pushed (saved.setWidth 16) s.sr s with
    interruptState := .long, longTaken := true, sr := (s.sr &&& 0x50FF) ||| (s.iplToRaise.setWidth 16 <<< 8) }

/-! ### Reset -/

/-- Every field that R45, R290 and R361 give a value. -/
def ResetState (s : State) : Prop :=
  s.pc = 0 ∧ s.omr = 0x02 ∧ (∀ i : Fin 8, s.m[i] = 0xFFFF) ∧ (∀ src, s.ipl[irqIndex src] = Config.iplReset src) ∧
  (∀ src, s.pending[irqIndex src] = false) ∧ s.pendingCount = 0 ∧
  s.x0 = 0 ∧ s.x1 = 0 ∧ s.y0 = 0 ∧ s.y1 = 0 ∧ s.a = ⟨0, 0, 0⟩ ∧ s.b = ⟨0, 0, 0⟩ ∧
  (∀ i : Fin 8, s.r[i] = 0) ∧ (∀ i : Fin 8, s.n[i] = 0) ∧ s.sr = 0 ∧ s.sp = 0 ∧ s.ssh = 0 ∧ s.ssl = 0 ∧ s.la = 0 ∧ s.lc = 0 ∧
  (∀ i : Fin 16, s.stackH[i] = 0 ∧ s.stackL[i] = 0) ∧
  s.loopRep = false ∧ s.pcOnRep = false ∧ s.lcSaved = 0 ∧
  s.interruptState = .none ∧ s.pipelineCount = .zero ∧ s.instrFetch = none ∧ s.savePc = none ∧ s.iplToRaise = 0 ∧ s.longTaken = false ∧
  s.instrCycle = 0 ∧ s.instrCount = 0 ∧ s.budget = 0 ∧ s.fatal = none ∧
  s.dmaConfig = 0 ∧ s.dmaControl = 0 ∧ s.dmaStart = 0 ∧ s.dmaNext = 0 ∧ s.eol = false

/-! ### Decoding -/

/-- The instruction of a list of words: one word without extension, or a word and its extension. -/
def wordsDecode (ws : List Word) : Option Instr :=
  match ws with
  | [w] => if hasExtension w then none else (decode w 0).toOption
  | [w, e] => if hasExtension w then (decode w e).toOption else none
  | _ => none

end Sys2Proof.Claims

open Sys2Proof Sys2Proof.Machine Sys2Proof.Claims Sys2Proof.Safety

/-! ### Decoding and encoding -/

/-- No word matches two rows, no byte matches two ALU rows, and five bytes match none (R94, R109, R175). -/
def Obligations.NoWordMatchesTwoRows : Prop :=
  (∀ w, (rowMatches w).length ≤ 1) ∧ (∀ b, (aluMatches b).length ≤ 1) ∧
  ∀ b, decodeAluByte b = none ↔ b ∈ [0x04, 0x08, 0x0C, 0x15, 0x1D]

/-- Every instruction that a word can hold is read back from its own words. An alu_byte row is read back as its operation,
and its word as that operation with no parallel move (log entry 12). -/
def Obligations.EncodeThenDecode : Prop :=
  (∀ i, i.wellFormed = true → (∀ op, i ≠ aluInstr op) → wordsDecode (encode i) = some i) ∧
  ∀ op, decodeAluByte (encodeAluOp op) = some op ∧ wordsDecode (encode (aluInstr op)) = some (.noMove op)

/-- A word that decodes is the encoding of the instruction it decodes to. -/
def Obligations.DecodeThenEncode : Prop :=
  (∀ w e i, decode w e = .ok i → i.wellFormed = true ∧ encode i = w :: if hasExtension w then [e] else []) ∧
  ∀ b op, decodeAluByte b = some op → encodeAluOp op = b

/-- Words of the spec's decoder vectors, one or more of each family. -/
def Obligations.SampleWordsDecode : Prop :=
  decode 0x000000 0 = .ok .nop ∧
  decode 0x00FEB9 0 = .ok (.andi 0xFE .ccr) ∧
  decode 0x04C4A0 0 = .ok (.movecReg .load .x0 (.m 0)) ∧
  decode 0x05E039 0 = .ok (.movecEa (.load (.addr (.reg .plain 0))) .x .sr) ∧
  decode 0x0603A0 0 = .ok (.repImm 3) ∧
  decode 0x060580 0x000004 = .ok (.doImm 5 4) ∧
  decode 0x0AE080 0 = .ok (.jmpEa (.reg .plain 0)) ∧
  decode 0x0D0100 0 = .ok (.jsrAbs 0x100) ∧
  decode 0x0EA020 0 = .ok (.jccAbs .eq 0x020) ∧
  decode 0x082000 0 = .ok (.moveXRII .a (.reg .plain 0) .move) ∧
  decode 0x10A000 0 = .ok (.moveXRI .x0 .a .y0 (.load (.addr (.reg .plain 0))) .move) ∧
  decode 0x18E100 0 = .ok (.moveRYI .b .x0 .y0 (.load (.addr (.reg .plain 1))) .move) ∧
  decode 0x200013 0 = .ok (.noMove (.clr .a)) ∧
  decode 0x205800 0 = .ok (.moveUpdate .inc 0 .move) ∧
  decode 0x44F400 0x123456 = .ok (.moveXYEa .x .x0 (.load (.imm 0x123456)) .move) ∧
  decode 0x42E000 0 = .ok (.moveLEa .x .load (.reg .plain 0) .move) ∧
  decode 0xF09800 0 = .ok (.moveXYDouble .load .inc .x0 .y0 .load 0 .inc 0 .move)

/-! ### The step -/

/-- A step runs the instruction that the words at pc decode to, between the bookkeeping of R132 and the PC update,
the interrupt check and the instruction count of R130. The check runs on the state that the instruction left, as R330 and R333
have it: that it sees a mask which this instruction wrote into SR.I (ANDI, ORI, MOVEC, RTI) is the model's choice where R368
can be read otherwise (DESIGN CHOICE, log entry 26). -/
def Obligations.StepRunsDecodedInstruction : Prop :=
  ∀ (s : State) (i : Instr),
    s.fatal = none → s.pc.toNat < 4096 →
    decode (s.pram.read s.pc.toNat) (s.pram.read (s.pc + 1).toNat) = .ok i →
    (hasExtension (s.pram.read s.pc.toNat) = true → (s.pc + 1).toNat < 4096) →
    (s.loopRep = true → s.pcOnRep = false → ¬ ControlRow i) →
    step s =
      match exec i { s with instrCycle := 2, len := 1 } with
      | .next s1 =>
        (match interruptCheck (updatePc s1) with
        | .ok s2 => .next { s2 with instrCount := s2.instrCount + 1 }
        | .error r => .fault r)
      | .fault r => .fault r
      | .refused r => .refused r

/-- The steps that run no instruction: in the fault state (R39); with pc outside P (R131, R64); with an extension word outside
P, which an effective address reads first and a DO row after its count (R131, R108, R267 to R270; log entry 6), where the
row is no control row that a REP repeats (R144; log entry 7); and at a word with no row, which takes the undefined path, the
model's choice of UNLISTED_POLICY (R136, R137; log entry 5). -/
def Obligations.StepWithoutAnInstruction : Prop :=
  ∀ s : State,
    let w := s.pram.read s.pc.toNat
    let t : State := { s with instrCycle := 2, len := 1 }
    (∀ r, s.fatal = some r → step s = .fault r) ∧
    (s.fatal = none → 4096 ≤ s.pc.toNat → step s = .fault .addressOutOfRange) ∧
    (s.fatal = none → s.pc.toNat = 4095 → hasExtension w = true →
      (∀ i, decode w 0 = .ok i → s.loopRep = true → s.pcOnRep = false → ¬ ControlRow i) →
      (∀ r, decode w 0 = .ok (.doReg r 0) →
        step s = .fault (match readReg r t with | .ok _ => .addressOutOfRange | .error f => f)) ∧
      (∀ mode k sp, decode w 0 = .ok (.doEa mode k sp 0) →
        step s = .fault (match useEa (.reg mode k) t with | .ok _ => .addressOutOfRange | .error f => f)) ∧
      ((∀ r, decode w 0 ≠ .ok (.doReg r 0)) → (∀ mode k sp, decode w 0 ≠ .ok (.doEa mode k sp 0)) →
        step s = .fault .addressOutOfRange)) ∧
    (s.fatal = none → s.pc.toNat < 4096 → rowMatches w = [] →
      (∀ u, interruptCheck (updatePc t) = .ok u → step s = .next { u with instrCount := u.instrCount + 1 }) ∧
      (∀ r, interruptCheck (updatePc t) = .error r → step s = .fault r))

/-- The rows that write pc or the loop state are Fatal as the repeated instruction of a REP (R144). -/
def Obligations.RepeatedControlRowIsFatal : Prop :=
  ∀ (s : State) (i : Instr),
    s.fatal = none → s.pc.toNat < 4096 → decode (s.pram.read s.pc.toNat) (s.pram.read (s.pc + 1).toNat) = .ok i →
    s.loopRep = true → s.pcOnRep = false → ControlRow i → step s = .fault .repOfControl

/-- Every completed step charges at least two cycles and counts one instruction (R147, R130); no step writes the levels of
the sources (R328), the peripheral shadow (R44), the budget or the fault state. -/
def Obligations.EveryStepBookkeeping : Prop :=
  ∀ s t : State, step s = .next t →
    2 ≤ t.instrCycle ∧ t.instrCount = s.instrCount + 1 ∧ t.ipl = s.ipl ∧ t.periph = s.periph ∧ t.budget = s.budget ∧ t.fatal = s.fatal

/-! ### Reset and the invariant -/

/-- The state after the reset inside `initialize`, and after any later reset call, field by field (R45, R290, R361). Later
resets leave the memories open (log entry 4) and the scratch store untouched. -/
def Obligations.ResetValues : Prop :=
  ResetState State.reset ∧ (∀ s, ResetState (callReset s) ∧ (callReset s).scratch = s.scratch) ∧
  ∀ k, State.reset.xram.read k = 0 ∧ State.reset.yram.read k = 0 ∧ State.reset.pram.read k = 0 ∧
    State.reset.mixbuffer.read k = 0 ∧ State.reset.periph.read k = 0

/-- The invariant holds at reset. -/
def Obligations.InvariantHoldsAtReset : Prop := Inv State.reset

/-- Every step keeps the invariant: canonical memories, masked SR and OMR, shadows of the active stack slot, the 17-bit
loop counter only inside a REP, the count of pending sources, the pipeline's latches, the DMA status bits. -/
def Obligations.EveryStepKeepsInvariant : Prop := ∀ s t : State, Inv s → step s = .next t → Inv t

/-! ### Registers, stack, memory -/

/-- A push and a pop are those of R40 and R42. Together they return the pushed pair and restore SP away from the overflow boundary (R43); at the boundary SE is
set, the slot takes zeros and STACK_ERROR is posted, and a pop of the empty stack sets SP to 0x3F (R40, R42). -/
def Obligations.PushThenPop : Prop :=
  ∀ (s : State) (a b : Word),
    push a b s = pushed (a.setWidth 16) (b.setWidth 16) s ∧ pop s = ((s.ssh, s.ssl), popped s) ∧
    ((s.sp &&& 0x0F).toNat ≤ 14 → s.sp.getLsbD 4 = false →
      (pop (push a b s)).1 = (a.setWidth 16, b.setWidth 16) ∧ (pop (push a b s)).2.sp = s.sp ∧
      (pop (push a b s)).2.pending = s.pending) ∧
    (s.sp &&& 0x0F = 0x0F → (push a b s).sp = (s.sp &&& 0x20) ||| 0x10 ∧ (push a b s).ssh = 0 ∧ (push a b s).ssl = 0 ∧
      (push a b s).pending = if s.sp.getLsbD 4 then s.pending else (post .stackError s).pending) ∧
    (s.sp &&& 0x0F = 0 → (popState s).sp = 0x3F ∧
      (popState s).pending = if s.sp.getLsbD 4 then s.pending else (post .stackError s).pending)

/-- What a write of each register code stores, and that nothing else changes; a reserved code is Fatal
(R33, R28, R29, R40, R41, R23). -/
def Obligations.RegisterWriteRules : Prop :=
  ∀ (s : State) (v : Word),
    (∀ d, ∃ t, writeReg (accReg d) v s = .ok t ∧ (accVal t d).toInt = v.toInt * 2 ^ 24 ∧ t = setAcc s d (getAcc t d)) ∧
    writeReg .x0 v s = .ok { s with x0 := v } ∧ writeReg .x1 v s = .ok { s with x1 := v } ∧
    writeReg .y0 v s = .ok { s with y0 := v } ∧ writeReg .y1 v s = .ok { s with y1 := v } ∧
    writeReg .a0 v s = .ok { s with a := { s.a with lo := v } } ∧ writeReg .b0 v s = .ok { s with b := { s.b with lo := v } } ∧
    writeReg .a1 v s = .ok { s with a := { s.a with mid := v } } ∧ writeReg .b1 v s = .ok { s with b := { s.b with mid := v } } ∧
    writeReg .a2 v s = .ok { s with a := { s.a with ext := v.setWidth 8 } } ∧
    writeReg .b2 v s = .ok { s with b := { s.b with ext := v.setWidth 8 } } ∧
    (∀ i, writeReg (.r i) v s = .ok { s with r := s.r.set i v } ∧ writeReg (.n i) v s = .ok { s with n := s.n.set i v } ∧
      writeReg (.m i) v s = .ok { s with m := s.m.set i v }) ∧
    writeReg .sr v s = .ok { s with sr := v.setWidth 16 &&& 0xAF7F } ∧
    writeReg .omr v s = .ok { s with omr := v.setWidth 8 &&& 0xC7 } ∧
    writeReg .sp v s = .ok (pointed (v.setWidth 6) s) ∧
    writeReg .ssh v s = .ok (pushedHigh (v.setWidth 16) s) ∧
    writeReg .ssl v s = .ok { s with stackL := s.stackL.set (slotOf s.sp) (v.setWidth 16), ssl := v.setWidth 16 } ∧
    writeReg .la v s = .ok { s with la := v.setWidth 16 } ∧
    writeReg .lc v s = .ok { s with lc := (v.setWidth 16).setWidth 17 } ∧
    (∀ c, writeReg (.reserved c) v s = .error .reservedRegister)

/-- What each register code gives as a 24-bit source, and the effect of the read: the limiter's L, the pop of SSH
(R34, R173, R23). -/
def Obligations.RegisterReadRules : Prop :=
  ∀ s : State,
    (∀ d sc, scaleOf s.sr = .ok sc →
      readReg (accReg d) s = .ok ((limit24 sc (accVal s d)).1, limited (limit24 sc (accVal s d)).2 s)) ∧
    readReg .x0 s = .ok (s.x0, s) ∧ readReg .x1 s = .ok (s.x1, s) ∧ readReg .y0 s = .ok (s.y0, s) ∧ readReg .y1 s = .ok (s.y1, s) ∧
    readReg .a0 s = .ok (s.a.lo, s) ∧ readReg .b0 s = .ok (s.b.lo, s) ∧ readReg .a1 s = .ok (s.a.mid, s) ∧
    readReg .b1 s = .ok (s.b.mid, s) ∧
    (∀ i : Fin 8, readReg (.r i) s = .ok (s.r[i], s) ∧ readReg (.n i) s = .ok (s.n[i], s) ∧ readReg (.m i) s = .ok (s.m[i], s)) ∧
    readReg .sr s = .ok (s.sr.setWidth 24, s) ∧ readReg .omr s = .ok (s.omr.setWidth 24, s) ∧
    readReg .sp s = .ok (s.sp.setWidth 24, s) ∧ readReg .ssl s = .ok (s.ssl.setWidth 24, s) ∧
    readReg .la s = .ok (s.la.setWidth 24, s) ∧ readReg .lc s = .ok (s.lc.setWidth 24, s) ∧
    readReg .ssh s = .ok (s.ssh.setWidth 24, popped s) ∧
    (∃ v, readReg .a2 s = .ok (v, s) ∧ v.toInt = s.a.ext.toInt) ∧ (∃ v, readReg .b2 s = .ok (v, s) ∧ v.toInt = s.b.ext.toInt) ∧
    (∀ c, readReg (.reserved c) s = .error .reservedRegister)

/-- An accumulator read as a 24-bit or 48-bit source is shifted by the scaling mode and saturates where the extension
is in use, which sets L (R173); scaling mode 11 is Fatal (R170). -/
def Obligations.LimiterSaturates : Prop :=
  (∀ (sc : Scale) (a : Word56),
    let lsb : Nat := match sc with | .none => 24 | .down => 25 | .up => 23
    (a.toInt < -extBound sc → limit24 sc a = (0x800000, true) ∧ limit48 sc a = ((0x800000, 0x000000), true)) ∧
    (extBound sc ≤ a.toInt → limit24 sc a = (0x7FFFFF, true) ∧ limit48 sc a = ((0x7FFFFF, 0xFFFFFF), true)) ∧
    (-extBound sc ≤ a.toInt → a.toInt < extBound sc →
      limit24 sc a = (BitVec.ofInt 24 (a.toInt / 2 ^ lsb), false) ∧
      (limit48 sc a).2 = false ∧ (limit48 sc a).1.1 = BitVec.ofInt 24 (a.toInt / 2 ^ lsb) ∧
      (limit48 sc a).1.2 = BitVec.ofInt 24 (a.toInt * 2 / 2 ^ (lsb - 23)))) ∧
  (∀ (s : State) (d : AccSel) (sc : Scale), scaleOf s.sr = .ok sc →
    ∃ t, readReg (accReg d) s = .ok ((limit24 sc (accVal s d)).1, t) ∧ t = setSr s t.sr ∧
      ∀ k, t.sr.getLsbD k = (s.sr.getLsbD k || (decide (k = 6) && (limit24 sc (accVal s d)).2))) ∧
  (∀ (s : State) (d : AccSel), s.sr &&& 0x0C00 = 0x0C00 → readReg (accReg d) s = .error .scalingReserved)

/-- A store to a cell of P, X or Y is read back, through either mix window, and leaves every other cell and all other
state; an address with no cell, below the peripheral window in X, is Fatal in either direction, for the DMA and for an
instruction alike; at or above PERIPH_BASE an instruction's X access takes the peripheral path, which `Obligations.PeripheralRegisters` says
(R62, R63, R64, R66). -/
def Obligations.StoreThenLoad : Prop :=
  ∀ (s : State) (sp : DspSpace) (a v : Word),
    (cellOf sp a ≠ none → ∃ t, writeDsp sp s a v = .ok t ∧ OnlyCell sp a v s t ∧
      t = { s with pram := t.pram, xram := t.xram, yram := t.yram, mixbuffer := t.mixbuffer }) ∧
    (cellOf sp a = none → (sp = .x → a.toNat < 0xFFFF80) →
      writeDsp sp s a v = .error .addressOutOfRange ∧ readDsp sp s a = .error .addressOutOfRange) ∧
    (∀ isp : Space, (isp = .x → a.toNat < 0xFFFF80) →
      (cellOf (dsp isp) a ≠ none → (∃ x, readDsp (dsp isp) s a = .ok x ∧ memLoad isp a s = .ok (x, s)) ∧
        ∃ t, writeDsp (dsp isp) s a v = .ok t ∧ memStore isp a v s = .ok t) ∧
      (cellOf (dsp isp) a = none → memLoad isp a s = .error .addressOutOfRange ∧ memStore isp a v s = .error .addressOutOfRange)) ∧
    (0xFFFF80 ≤ a.toNat → memLoad .x a s = .ok (readPeriph a s) ∧ memStore .x a v s = reasonOnly (writePeriph a v s)) ∧
    (∀ k, k < 1024 → readDsp .x s (BitVec.ofNat 24 (0x0C00 + k)) = readDsp .x s (BitVec.ofNat 24 (0x1400 + k)) ∧
      cellOf .x (BitVec.ofNat 24 (0x0C00 + k)) = cellOf .x (BitVec.ofNat 24 (0x1400 + k)))

/-- Address modifier arithmetic: linear, modulo, reverse-carry, and the reserved values (R103). -/
def Obligations.ModifierArithmetic : Prop :=
  ∀ (rn mn : Word) (d : Int),
    (mn = 0xFFFFFF → offsetOf rn mn d = .ok (BitVec.ofInt 24 (rn.toNat + d))) ∧
    (1 ≤ mn.toNat → mn.toNat ≤ 0x7FFFFF → ∀ k base : Nat,
      mn.toNat + 1 ≤ 2 ^ k → (∀ j, mn.toNat + 1 ≤ 2 ^ j → k ≤ j) → base = rn.toNat / 2 ^ k * 2 ^ k →
      ((mn.toNat : Int) + 1 < |d| → offsetOf rn mn d = .error .moduloReserved) ∧
      (|d| ≤ (mn.toNat : Int) + 1 →
        let t : Int := rn.toNat + d
        let t' := if (base : Int) + (mn.toNat + 1) ≤ t then t - (mn.toNat + 1) else t
        offsetOf rn mn d = .ok (BitVec.ofInt 24 (if t' < base then t' + (mn.toNat + 1) else t')) ∧
        (rn.toNat < base + (mn.toNat + 1) → ∃ u, offsetOf rn mn d = .ok u ∧ base ≤ u.toNat ∧ u.toNat < base + (mn.toNat + 1) ∧
          ((u.toNat : Int) - rn.toNat - d) % (mn.toNat + 1) = 0))) ∧
    (mn = 0 → ∃ u, offsetOf rn mn d = .ok u ∧ u.reverse = rn.reverse + (BitVec.ofInt 24 d).reverse) ∧
    (0x800000 ≤ mn.toNat → mn ≠ 0xFFFFFF → offsetOf rn mn d = .error .modifierReserved)

/-! ### The data ALU -/

/-- The adder and the subtractor over exact integers, and their round trip (R164, R165). -/
def Obligations.AdderAndSubtractor : Prop :=
  ∀ a b : Word56,
    (add56 a b).r.toNat = (a.toNat + b.toNat) % 2 ^ 56 ∧ ((add56 a b).c = true ↔ 2 ^ 56 ≤ a.toNat + b.toNat) ∧
    (add56 a b).v = overflows (a.toInt + b.toInt) ∧
    ((sub56 a b).r.toNat : Int) = ((a.toNat : Int) - b.toNat) % 2 ^ 56 ∧ ((sub56 a b).c = true ↔ a.toNat < b.toNat) ∧
    (sub56 a b).v = overflows (a.toInt - b.toInt) ∧
    (sub56 (add56 a b).r b).r = a

/-- The shifts, with the last bit shifted out as carry; a shift left that loses no significant bit is undone by the shift right of the same count (R167, R168). -/
def Obligations.ShiftLeftThenRight : Prop :=
  ∀ (a : Word56) (n : Nat), n ≤ 55 →
    (asr56 a n).r = pattern (a.toInt / 2 ^ n) ∧ (asr56 a n).c = (decide (0 < n) && a.getLsbD (n - 1)) ∧ (asr56 a n).v = false ∧
    (asl56 a n).r.toNat = a.toNat * 2 ^ n % 2 ^ 56 ∧ (asl56 a n).c = (decide (0 < n) && a.getLsbD (56 - n)) ∧
    (asl56 a n).v = overflows (a.toInt * 2 ^ n) ∧
    ((asl56 a n).v = false → (asr56 (asl56 a n).r n).r = a)

/-- ADD and SUB in their four forms (R184, R188); Fatal in scaling mode 11 (R170). -/
def Obligations.AddAndSubForms : Prop :=
  ∀ (s : State) (d : AccSel) (j : AluReg),
    FatalInMode11 [.addAcc d, .addX d, .addY d, .addReg j d, .subAcc d, .subX d, .subY d, .subReg j d] s ∧
    ∀ sc : Scale, scaleOf s.sr = .ok sc →
    Adds (.addAcc d) s d sc (accVal s d) (accVal s (otherAcc d)) ∧
    Adds (.addX d) s d sc (accVal s d) (al48 s.x1 s.x0) ∧
    Adds (.addY d) s d sc (accVal s d) (al48 s.y1 s.y0) ∧
    Adds (.addReg j d) s d sc (accVal s d) (al24 (aluRegVal s j)) ∧
    Subtracts (.subAcc d) s d sc (accVal s d) (accVal s (otherAcc d)) ∧
    Subtracts (.subX d) s d sc (accVal s d) (al48 s.x1 s.x0) ∧
    Subtracts (.subY d) s d sc (accVal s d) (al48 s.y1 s.y0) ∧
    Subtracts (.subReg j d) s d sc (accVal s d) (al24 (aluRegVal s j))

/-- TST, CMP and CMPM write SR alone (R180, R181, R183); Fatal in scaling mode 11 (R170). -/
def Obligations.CompareForms : Prop :=
  ∀ (s : State) (d : AccSel) (j : AluReg),
    FatalInMode11 [.tst d, .cmpAcc d, .cmpReg j d, .cmpmAcc d, .cmpmReg j d] s ∧
    ∀ sc : Scale, scaleOf s.sr = .ok sc →
    Compares (.tst d) s sc (accVal s d) (s.sr.getLsbD srC) false ∧
    ComparesDifference (.cmpAcc d) s sc (accVal s d) (accVal s (otherAcc d)) ∧
    ComparesDifference (.cmpReg j d) s sc (accVal s d) (al24 (aluRegVal s j)) ∧
    ComparesDifference (.cmpmAcc d) s sc (magnitude (accVal s d)) (magnitude (accVal s (otherAcc d))) ∧
    ComparesDifference (.cmpmReg j d) s sc (magnitude (accVal s d)) (magnitude (al24 (aluRegVal s j)))

/-- ADDR and SUBR halve D first, ADDL and SUBL double it (R179, R182, R186, R189); Fatal in scaling mode 11 (R170). -/
def Obligations.HalvingAndDoublingForms : Prop :=
  ∀ (s : State) (d : AccSel),
    FatalInMode11 [.addr d, .subr d, .addl d, .subl d] s ∧
    ∀ sc : Scale, scaleOf s.sr = .ok sc →
    let x := accVal s d
    let y := accVal s (otherAcc d)
    let half := pattern (x.toInt / 2)
    let twice := pattern (2 * x.toInt)
    Adds (.addr d) s d sc half y ∧
    Subtracts (.subr d) s d sc half y ∧
    Computes (.addl d) s d sc (pattern (twice.toInt + y.toInt)) (decide (2 ^ 56 ≤ twice.toNat + y.toNat))
      (overflows (2 * x.toInt) || overflows (twice.toInt + y.toInt)) ∧
    Computes (.subl d) s d sc (pattern (twice.toInt - y.toInt)) (decide (twice.toNat < y.toNat))
      (overflows (2 * x.toInt) || overflows (twice.toInt - y.toInt))

/-- ADC and SBC take the carry in a second step (R191, R194); Fatal in scaling mode 11 (R170). -/
def Obligations.CarryForms : Prop :=
  ∀ (s : State) (j : PairSel) (d : AccSel),
    FatalInMode11 [.adc j d, .sbc j d] s ∧
    ∀ sc : Scale, scaleOf s.sr = .ok sc →
    let x := accVal s d
    let y := pairVal s j
    let c : Nat := if s.sr.getLsbD srC then 1 else 0
    Computes (.adc j d) s d sc (pattern (x.toInt + y.toInt + c)) (decide (2 ^ 56 ≤ x.toNat + y.toNat + c))
      (overflows (x.toInt + y.toInt) || overflows ((pattern (x.toInt + y.toInt)).toInt + c)) ∧
    Computes (.sbc j d) s d sc (pattern (x.toInt - y.toInt - c)) (decide (x.toNat < y.toNat + c))
      (overflows (x.toInt - y.toInt) || overflows ((pattern (x.toInt - y.toInt)).toInt - c))

/-- ASL and ASR shift by one; ABS and NEG keep C, and the most negative value stays and sets V (R192, R195, R197, R199);
Fatal in scaling mode 11 (R170). -/
def Obligations.UnaryForms : Prop :=
  ∀ (s : State) (d : AccSel),
    FatalInMode11 [.asl d, .asr d, .absAcc d, .neg d] s ∧
    ∀ sc : Scale, scaleOf s.sr = .ok sc →
    let x := accVal s d
    Computes (.asl d) s d sc (pattern (2 * x.toInt)) x.msb (overflows (2 * x.toInt)) ∧
    Computes (.asr d) s d sc (pattern (x.toInt / 2)) (x.getLsbD 0) false ∧
    Computes (.absAcc d) s d sc (magnitude x) (s.sr.getLsbD srC) (decide (x.toInt = -2 ^ 55)) ∧
    Computes (.neg d) s d sc (pattern (-x.toInt)) (s.sr.getLsbD srC) (decide (x.toInt = -2 ^ 55))

/-- MPY writes the exact product, MAC adds it to D; both keep C (R204, R206); Fatal in scaling mode 11 (R170). -/
def Obligations.Products : Prop :=
  ∀ (s : State) (q : MulPair) (d : AccSel) (k : MulSign),
    FatalInMode11 [.mpy q d k, .mac q d k] s ∧
    ∀ sc : Scale, scaleOf s.sr = .ok sc →
    Computes (.mpy q d k) s d sc (pattern (exactProduct s q k)) (s.sr.getLsbD srC) false ∧
    Computes (.mac q d k) s d sc (pattern ((accVal s d).toInt + exactProduct s q k)) (s.sr.getLsbD srC)
      (overflows ((accVal s d).toInt + exactProduct s q k))

/-- RND, MPYR and MACR round to the nearest multiple, ties to even, at the scaling mode's position (R171, R185, R205, R207); Fatal
in scaling mode 11 (R170). -/
def Obligations.ConvergentRounding : Prop :=
  ∀ (s : State) (q : MulPair) (d : AccSel) (k : MulSign),
    FatalInMode11 [.rnd d, .mpyr q d k, .macr q d k] s ∧
    ∀ sc : Scale, scaleOf s.sr = .ok sc →
    let x := (accVal s d).toInt
    let p := exactProduct s q k
    let t := (pattern (x + p)).toInt
    Computes (.rnd d) s d sc (pattern (nearestEven (tieBit sc) x)) (s.sr.getLsbD srC) (overflows (x + 2 ^ tieBit sc)) ∧
    Computes (.mpyr q d k) s d sc (pattern (nearestEven (tieBit sc) p)) (s.sr.getLsbD srC) (overflows (p + 2 ^ tieBit sc)) ∧
    Computes (.macr q d k) s d sc (pattern (nearestEven (tieBit sc) t)) (s.sr.getLsbD srC)
      (overflows (x + p) || overflows (t + 2 ^ tieBit sc))

/-- OR, EOR, AND and NOT act on the middle limb and keep C; LSR, LSL, ROR and ROL move it by one bit through C
(R174, R190, R193, R196, R198, R200 to R203). -/
def Obligations.MiddleLimbOperations : Prop :=
  ∀ (s : State) (d : AccSel) (j : AluReg),
    let m := (getAcc s d).mid
    let c := s.sr.getLsbD srC
    let bit : Nat := if c then 1 else 0
    MiddleLimb (.orReg j d) s d (m ||| aluRegVal s j) c ∧ MiddleLimb (.eorReg j d) s d (m ^^^ aluRegVal s j) c ∧
    MiddleLimb (.andReg j d) s d (m &&& aluRegVal s j) c ∧ MiddleLimb (.notAcc d) s d (~~~ m) c ∧
    MiddleLimb (.lsr d) s d (BitVec.ofNat 24 (m.toNat / 2)) (m.getLsbD 0) ∧
    MiddleLimb (.lsl d) s d (BitVec.ofNat 24 (2 * m.toNat)) m.msb ∧
    MiddleLimb (.ror d) s d (BitVec.ofNat 24 (bit * 2 ^ 23 + m.toNat / 2)) (m.getLsbD 0) ∧
    MiddleLimb (.rol d) s d (BitVec.ofNat 24 (2 * m.toNat + bit)) m.msb

/-- CLR has fixed flags, TFR copies 56 bits with none, MOVE does nothing (R187, R178, R177). -/
def Obligations.ClearTransferAndMove : Prop :=
  ∀ (s : State) (d : AccSel) (j : AluReg),
    exec .aluMove s = .next s ∧
    exec (.tfrAcc d) s = .next (setAcc s d (getAcc s (otherAcc d))) ∧
    exec (.tfrReg j d) s = .next (setAcc s d ⟨signExt8 (aluRegVal s j), aluRegVal s j, 0⟩) ∧
    exec (.clr d) s = .next (setSr (setAcc s d ⟨0, 0, 0⟩) ((s.sr &&& 0xFFC1) ||| 0x0014))

/-- The word with no parallel move does what its ALU operation alone does, and writes at most D and SR[6:0] (R221, R176).
That an alu_byte row taken as an instruction of its own has one outcome with that word is the model's convention (DESIGN
CHOICE, log entry 12). -/
def Obligations.NoMoveIsTheAluOperation : Prop :=
  ∀ (s : State) (op : AluOp),
    exec (.noMove op) s = exec (aluInstr op) s ∧
    ∀ sc, scaleOf s.sr = .ok sc → ∃ e t, aluEffect op s = .ok e ∧ exec (.noMove op) s = .next t ∧ t = applyAlu e s ∧
      t = { s with a := t.a, b := t.b, sr := t.sr } ∧ (t.a = s.a ∨ t.b = s.b) ∧
      (∀ k, 7 ≤ k → t.sr.getLsbD k = s.sr.getLsbD k) ∧ (s.sr.getLsbD srL = true → t.sr.getLsbD srL = true) ∧ SameMemory s t

/-! ### Parallel moves -/

/-- The address register update, with its ALU operation, and where it is Fatal (R222, R101, R103). The operation is Fatal
in scaling mode 11 exactly where it reads the mode (R170, R174, R176 to R178, R187). That the Fatal of the address is reported
before that of the operation follows the listing of R220 (DESIGN CHOICE, log entry 19). -/
def Obligations.AddressRegisterUpdate : Prop :=
  ∀ (s : State) (mode : UpdateMode) (i : Fin 8) (op : AluOp),
    ((∃ e, aluEffect op s = .ok e) ↔ s.sr &&& 0x0C00 ≠ 0x0C00 ∨ ModeFree op) ∧
    (∀ f, aluEffect op s = .error f → f = .scalingReserved) ∧
    (∀ u, offsetOf s.r[i] s.m[i] (shortDisp mode s.n[i]) = .ok u →
      (∀ e, aluEffect op s = .ok e → ∃ t, exec (.moveUpdate mode i op) s = .next t ∧
        t = { applyAlu e s with r := s.r.set i u } ∧ SameMemory s t) ∧
      (∀ f, aluEffect op s = .error f → exec (.moveUpdate mode i op) s = .fault f)) ∧
    (∀ f, offsetOf s.r[i] s.m[i] (shortDisp mode s.n[i]) = .error f → exec (.moveUpdate mode i op) s = .fault f)

/-- Register to register and immediate short moves; the move wins over the ALU destination (R223, R224, R220). A limited
source is Fatal in scaling mode 11 (R173, R170). -/
def Obligations.RegisterAndImmediateMoves : Prop :=
  ∀ (s : State) (e : AluEffect) (op : AluOp) (dst : Reg), aluEffect op s = .ok e → dst.isMoveReg = true →
    (∀ src : Reg, src.isMoveReg = true →
      (s.sr &&& 0x0C00 ≠ 0x0C00 ∨ (src ≠ .a ∧ src ≠ .b) → ∃ v s1, readReg src s = .ok (v, s1) ∧
        LoadsRegister (.moveRegReg src dst op) s s1 dst v op none false) ∧
      (s.sr &&& 0x0C00 = 0x0C00 → src = .a ∨ src = .b → exec (.moveRegReg src dst op) s = .fault .scalingReserved)) ∧
    (∀ i : BitVec 8,
      LoadsRegister (.moveImm dst i op) s s dst
        (if dst ∈ [Reg.x0, Reg.x1, Reg.y0, Reg.y1, Reg.a, Reg.b] then BitVec.ofNat 24 (i.toNat * 2 ^ 16) else BitVec.ofNat 24 i.toNat)
        op none false)

/-- X and Y memory to register and register to memory, by effective address or absolute short address, and the immediate
word to a register (R225, R100); a store at or above PERIPH_BASE takes the peripheral path (R68). A limited source is Fatal in
scaling mode 11 (R173, R170). -/
def Obligations.MemoryMoves : Prop :=
  ∀ (s : State) (e : AluEffect) (op : AluOp) (sp : Space) (r : Reg), aluEffect op s = .ok e → r.isMoveReg = true →
    (∀ ea u v s1, useEa ea s = .ok u → memLoad sp u.addr s = .ok (v, s1) →
      LoadsRegister (.moveXYEa sp r (.load (.addr ea)) op) s s1 r v op u.update (eaTakesExt ea)) ∧
    (∀ v, LoadsRegister (.moveXYEa sp r (.load (.imm v)) op) s s r v op none true) ∧
    (∀ aa v s1, memLoad sp (aa.setWidth 24) s = .ok (v, s1) →
      LoadsRegister (.moveXYAa sp r .load aa op) s s1 r v op none false) ∧
    (s.sr &&& 0x0C00 ≠ 0x0C00 ∨ (r ≠ .a ∧ r ≠ .b) →
      (∀ ea u, useEa ea s = .ok u → cellOf (dsp sp) u.addr ≠ none →
        StoresRegister (.moveXYEa sp r (.store ea) op) s r sp u.addr op u.update (eaTakesExt ea)) ∧
      (∀ ea u, useEa ea s = .ok u → sp = .x → 0xFFFF80 ≤ u.addr.toNat →
        StoresPeripheral (.moveXYEa sp r (.store ea) op) s r u.addr op u.update (eaTakesExt ea)) ∧
      (∀ aa : BitVec 6, StoresRegister (.moveXYAa sp r .store aa op) s r sp (aa.setWidth 24) op none false)) ∧
    (s.sr &&& 0x0C00 = 0x0C00 → r = .a ∨ r = .b →
      (∀ ea u, useEa ea s = .ok u → exec (.moveXYEa sp r (.store ea) op) s = .fault .scalingReserved) ∧
      (∀ aa : BitVec 6, exec (.moveXYAa sp r .store aa op) s = .fault .scalingReserved))

/-- Class I: an X or Y access beside a limited accumulator copied to an input register (R226, R227); an X store at or above
PERIPH_BASE takes the peripheral path, and a Fatal of that path is the instruction's (R68). The limited source makes every form
Fatal in scaling mode 11 (R173, R170); that this is the reason reported where a load's address has no cell as well, register
sources being read before memory sources, is the model's choice (DESIGN CHOICE, log entry 19). -/
def Obligations.ClassOneMoves : Prop :=
  ∀ (s : State) (op : AluOp) (d : AccSel),
    (s.sr &&& 0x0C00 = 0x0C00 → ∀ f g x y,
      (∀ v, exec (.moveXRI f d g (.load (.imm v)) op) s = .fault .scalingReserved ∧
        exec (.moveRYI d x y (.load (.imm v)) op) s = .fault .scalingReserved) ∧
      (∀ ea u, useEa ea s = .ok u → ∀ mv ∈ [EaMove.load (.addr ea), .store ea],
        exec (.moveXRI f d g mv op) s = .fault .scalingReserved ∧ exec (.moveRYI d x y mv op) s = .fault .scalingReserved)) ∧
    ∀ sc : Scale, scaleOf s.sr = .ok sc →
    ∃ copy s1, readReg (accReg d) s = .ok (copy, s1) ∧
    (∀ f g ea u v s2, useEa ea s = .ok u → memLoad .x u.addr s1 = .ok (v, s2) →
      ∃ e t1 t, aluEffect op s = .ok e ∧ writeReg (xSideReg f) v (afterAlu e u.update (eaTakesExt ea) s2) = .ok t1 ∧
        writeReg (yInputReg g) copy t1 = .ok t ∧ exec (.moveXRI f d g (.load (.addr ea)) op) s = .next t ∧ SameMemory s t) ∧
    (∀ f g v, ∃ e t1 t, aluEffect op s = .ok e ∧ writeReg (xSideReg f) v (afterAlu e none true s1) = .ok t1 ∧
        writeReg (yInputReg g) copy t1 = .ok t ∧ exec (.moveXRI f d g (.load (.imm v)) op) s = .next t ∧ SameMemory s t) ∧
    (∀ f g ea u, useEa ea s = .ok u → cellOf .x u.addr ≠ none →
      ∃ e v s2 s3 t1 t, aluEffect op s = .ok e ∧ readReg (xSideReg f) s = .ok (v, s2) ∧ readReg (accReg d) s2 = .ok (copy, s3) ∧
        OnlyArrays (afterAlu e u.update (eaTakesExt ea) s3) t1 ∧ OnlyCell .x u.addr v s t1 ∧
        writeReg (yInputReg g) copy t1 = .ok t ∧ exec (.moveXRI f d g (.store ea) op) s = .next t) ∧
    (∀ f g ea u, useEa ea s = .ok u → 0xFFFF80 ≤ u.addr.toNat →
      ∃ e v s2 s3, aluEffect op s = .ok e ∧ readReg (xSideReg f) s = .ok (v, s2) ∧ readReg (accReg d) s2 = .ok (copy, s3) ∧
        (∀ t1, memStore .x u.addr v (afterAlu e u.update (eaTakesExt ea) s3) = .ok t1 →
          ∃ t, writeReg (yInputReg g) copy t1 = .ok t ∧ exec (.moveXRI f d g (.store ea) op) s = .next t) ∧
        (∀ r, memStore .x u.addr v (afterAlu e u.update (eaTakesExt ea) s3) = .error r →
          exec (.moveXRI f d g (.store ea) op) s = .fault r)) ∧
    (∀ x f ea u v s2, useEa ea s = .ok u → memLoad .y u.addr s1 = .ok (v, s2) →
      ∃ e t1 t, aluEffect op s = .ok e ∧ writeReg (xInputReg x) copy (afterAlu e u.update (eaTakesExt ea) s2) = .ok t1 ∧
        writeReg (ySideReg f) v t1 = .ok t ∧ exec (.moveRYI d x f (.load (.addr ea)) op) s = .next t ∧ SameMemory s t) ∧
    (∀ x f v, ∃ e t1 t, aluEffect op s = .ok e ∧ writeReg (xInputReg x) copy (afterAlu e none true s1) = .ok t1 ∧
        writeReg (ySideReg f) v t1 = .ok t ∧ exec (.moveRYI d x f (.load (.imm v)) op) s = .next t ∧ SameMemory s t) ∧
    (∀ x f ea u, useEa ea s = .ok u → cellOf .y u.addr ≠ none →
      ∃ e v s2 s3 t1 t, aluEffect op s = .ok e ∧ readReg (ySideReg f) s = .ok (v, s2) ∧ readReg (accReg d) s2 = .ok (copy, s3) ∧
        writeReg (xInputReg x) copy (afterAlu e u.update (eaTakesExt ea) s3) = .ok t1 ∧
        OnlyArrays t1 t ∧ OnlyCell .y u.addr v s t ∧ exec (.moveRYI d x f (.store ea) op) s = .next t)

/-- Class II: the limited accumulator goes to X or Y memory, or to the peripheral path at or above PERIPH_BASE of X (R68), and
X0 or Y0 to the accumulator (R232, R233). The limited source makes both Fatal in scaling mode 11 (R173, R170). -/
def Obligations.ClassTwoMoves : Prop :=
  ∀ (s : State) (op : AluOp) (d : AccSel) (ea : EaAddr) (u : AddrUse), useEa ea s = .ok u →
    FatalInMode11 [.moveXRII d ea op, .moveRYII d ea op] s ∧
    ∀ sc : Scale, scaleOf s.sr = .ok sc →
    ∃ e v s1, aluEffect op s = .ok e ∧ readReg (accReg d) s = .ok (v, s1) ∧
    (cellOf .x u.addr ≠ none → ∃ t1 t, OnlyArrays (afterAlu e u.update (eaTakesExt ea) s1) t1 ∧ OnlyCell .x u.addr v s t ∧
      t = setAcc t1 d ⟨signExt8 s.x0, s.x0, 0⟩ ∧ exec (.moveXRII d ea op) s = .next t) ∧
    (0xFFFF80 ≤ u.addr.toNat →
      (∀ t1, memStore .x u.addr v (afterAlu e u.update (eaTakesExt ea) s1) = .ok t1 →
        exec (.moveXRII d ea op) s = .next (setAcc t1 d ⟨signExt8 s.x0, s.x0, 0⟩)) ∧
      (∀ f, memStore .x u.addr v (afterAlu e u.update (eaTakesExt ea) s1) = .error f → exec (.moveXRII d ea op) s = .fault f)) ∧
    (cellOf .y u.addr ≠ none → ∃ t1 t, OnlyArrays (afterAlu e u.update (eaTakesExt ea) s1) t1 ∧ OnlyCell .y u.addr v s t ∧
      t = setAcc t1 d ⟨signExt8 s.y0, s.y0, 0⟩ ∧ exec (.moveRYII d ea op) s = .next t)

/-- L moves: one address names a high word in X and a low word in Y, for the eight register pairs (R229, R230). The pairs that
are limited as sources are Fatal in scaling mode 11 (R230, R170). -/
def Obligations.LongMoves : Prop :=
  ∀ (s : State) (e : AluEffect) (op : AluOp) (l : LPair), aluEffect op s = .ok e →
    (∀ ea u hi lo, useEa ea s = .ok u → readDsp .x s u.addr = .ok hi → readDsp .y s u.addr = .ok lo →
      ∃ t, t = pairLoaded l hi lo (afterAlu e u.update (eaTakesExt ea) s) ∧ exec (.moveLEa l .load ea op) s = .next t ∧ SameMemory s t) ∧
    (∀ aa : BitVec 6, ∃ hi lo t, readDsp .x s (aa.setWidth 24) = .ok hi ∧ readDsp .y s (aa.setWidth 24) = .ok lo ∧
      t = pairLoaded l hi lo (applyAlu e s) ∧ exec (.moveLAa l .load aa op) s = .next t ∧ SameMemory s t) ∧
    (∀ sc : Scale, scaleOf s.sr = .ok sc ∨ l ∈ [LPair.a10, .b10, .x, .y] →
      (∀ ea u, useEa ea s = .ok u → cellOf .x u.addr ≠ none → cellOf .y u.addr ≠ none →
        ∃ t, exec (.moveLEa l .store ea op) s = .next t ∧
          OnlyArrays (afterAlu e u.update (eaTakesExt ea) (limited (pairSource l sc s).2.2 s)) t ∧
          readDsp .x t u.addr = .ok (pairSource l sc s).1 ∧ readDsp .y t u.addr = .ok (pairSource l sc s).2.1 ∧
          ∀ sp a, cellOf sp a ≠ cellOf .x u.addr → cellOf sp a ≠ cellOf .y u.addr → readDsp sp t a = readDsp sp s a) ∧
      (∀ aa : BitVec 6, ∃ t, exec (.moveLAa l .store aa op) s = .next t ∧
        OnlyArrays (applyAlu e (limited (pairSource l sc s).2.2 s)) t ∧
        readDsp .x t (aa.setWidth 24) = .ok (pairSource l sc s).1 ∧ readDsp .y t (aa.setWidth 24) = .ok (pairSource l sc s).2.1 ∧
        ∀ sp a, cellOf sp a ≠ cellOf .x (aa.setWidth 24) → cellOf sp a ≠ cellOf .y (aa.setWidth 24) → readDsp sp t a = readDsp sp s a)) ∧
    (s.sr &&& 0x0C00 = 0x0C00 → l ∈ [LPair.a, .b, .ab, .ba] →
      (∀ ea u, useEa ea s = .ok u → exec (.moveLEa l .store ea op) s = .fault .scalingReserved) ∧
      (∀ aa : BitVec 6, exec (.moveLAa l .store aa op) s = .fault .scalingReserved))

/-- XY double moves in the four directions, each address read before either update, X part before Y part (R231, R220).
Two loads into one accumulator are Fatal (R234). An X store at or above PERIPH_BASE takes the peripheral path, before the Y part
(R68). The address registers and modes of the two parts are those of R102, of low
confidence (PRESUMED, log entry 9; item 25 of 93: no fact about the hardware); that the conflict comes before every other
Fatal is the model's choice (DESIGN CHOICE, log entry 19). -/
def Obligations.DoubleMoves : Prop :=
  ∀ (s : State) (op : AluOp) (my mx : XyMode) (x : XSide) (y : YSide) (rr : BitVec 2) (i : Fin 8),
    ((x = .a ∧ y = .a ∨ x = .b ∧ y = .b) → exec (.moveXYDouble .load my x y .load rr mx i op) s = .fault .moveConflict) ∧
    ∀ (effect : AluEffect) (ux uy : AddrUse),
    aluEffect op s = .ok effect → useXyMode mx i s = .ok ux → useXyMode my (xyYIndex i rr) s = .ok uy →
    (∀ vx s1 vy s2, ¬ (x = .a ∧ y = .a ∨ x = .b ∧ y = .b) → memLoad .x ux.addr s = .ok (vx, s1) → memLoad .y uy.addr s1 = .ok (vy, s2) →
      ∃ e t1 t, aluEffect op s = .ok e ∧ writeReg (xSideReg x) vx (applyUpdate uy.update (afterAlu e ux.update false s2)) = .ok t1 ∧
        writeReg (ySideReg y) vy t1 = .ok t ∧ exec (.moveXYDouble .load my x y .load rr mx i op) s = .next t ∧ SameMemory s t) ∧
    (∀ vy s1 vx s2, readReg (ySideReg y) s = .ok (vy, s1) → memLoad .x ux.addr s1 = .ok (vx, s2) → cellOf .y uy.addr ≠ none →
      ∃ e t1 t, aluEffect op s = .ok e ∧ writeReg (xSideReg x) vx (applyUpdate uy.update (afterAlu e ux.update false s2)) = .ok t1 ∧
        OnlyArrays t1 t ∧ OnlyCell .y uy.addr vy s t ∧ exec (.moveXYDouble .store my x y .load rr mx i op) s = .next t) ∧
    (∀ vx s1 vy s2, readReg (xSideReg x) s = .ok (vx, s1) → memLoad .y uy.addr s1 = .ok (vy, s2) → cellOf .x ux.addr ≠ none →
      ∃ e t1 t, aluEffect op s = .ok e ∧ OnlyArrays (applyUpdate uy.update (afterAlu e ux.update false s2)) t1 ∧
        OnlyCell .x ux.addr vx s t1 ∧ writeReg (ySideReg y) vy t1 = .ok t ∧
        exec (.moveXYDouble .load my x y .store rr mx i op) s = .next t) ∧
    (∀ vx s1 vy s2, readReg (xSideReg x) s = .ok (vx, s1) → memLoad .y uy.addr s1 = .ok (vy, s2) → 0xFFFF80 ≤ ux.addr.toNat →
      ∃ e, aluEffect op s = .ok e ∧
        (∀ t1, memStore .x ux.addr vx (applyUpdate uy.update (afterAlu e ux.update false s2)) = .ok t1 →
          ∃ t, writeReg (ySideReg y) vy t1 = .ok t ∧ exec (.moveXYDouble .load my x y .store rr mx i op) s = .next t) ∧
        (∀ f, memStore .x ux.addr vx (applyUpdate uy.update (afterAlu e ux.update false s2)) = .error f →
          exec (.moveXYDouble .load my x y .store rr mx i op) s = .fault f)) ∧
    (∀ vx s1 vy s2, readReg (xSideReg x) s = .ok (vx, s1) → readReg (ySideReg y) s1 = .ok (vy, s2) →
      cellOf .x ux.addr ≠ none → cellOf .y uy.addr ≠ none →
      ∃ e t, aluEffect op s = .ok e ∧ OnlyArrays (applyUpdate uy.update (afterAlu e ux.update false s2)) t ∧
        readDsp .x t ux.addr = .ok vx ∧ readDsp .y t uy.addr = .ok vy ∧
        (∀ sp a, cellOf sp a ≠ cellOf .x ux.addr → cellOf sp a ≠ cellOf .y uy.addr → readDsp sp t a = readDsp sp s a) ∧
        exec (.moveXYDouble .store my x y .store rr mx i op) s = .next t) ∧
    (∀ vx s1 vy s2, readReg (xSideReg x) s = .ok (vx, s1) → readReg (ySideReg y) s1 = .ok (vy, s2) → 0xFFFF80 ≤ ux.addr.toNat →
      ∃ e, aluEffect op s = .ok e ∧
        (∀ t1, memStore .x ux.addr vx (applyUpdate uy.update (afterAlu e ux.update false s2)) = .ok t1 →
          (cellOf .y uy.addr ≠ none → ∃ t, writeDsp .y t1 uy.addr vy = .ok t ∧
            exec (.moveXYDouble .store my x y .store rr mx i op) s = .next t) ∧
          (cellOf .y uy.addr = none → exec (.moveXYDouble .store my x y .store rr mx i op) s = .fault .addressOutOfRange)) ∧
        (∀ f, memStore .x ux.addr vx (applyUpdate uy.update (afterAlu e ux.update false s2)) = .error f →
          exec (.moveXYDouble .store my x y .store rr mx i op) s = .fault f))

/-! ### Program control -/

/-- NOP changes nothing (R250), and so do WAIT and STOP: the model takes the undefined path of R136 for a row without
handler, its choice of UNLISTED_POLICY (R255, R137; log entry 5). -/
def Obligations.NopWaitStopChangeNothing : Prop :=
  ∀ s : State, exec .nop s = .next s ∧ exec .wait s = .next s ∧ exec .stop s = .next s

/-- ILLEGAL posts source 1 and TRAP source 4 (R252, R253); a post of a disabled or already pending source changes nothing, and
of any other makes it pending and counts it, so that the count stays the number of pending sources (R326). -/
def Obligations.IllegalAndTrapPostTheirSource : Prop :=
  (∀ (s : State) (i : Instr) (k : Fin 12), i = .illegal ∧ k = 1 ∨ i = .trap ∧ k = 4 →
    (s.ipl[k] = .disabled ∨ s.pending[k] = true → exec i s = .next s) ∧
    (s.ipl[k] ≠ .disabled → s.pending[k] = false →
      exec i s = .next { s with pending := s.pending.set k true, pendingCount := s.pendingCount + 1 })) ∧
  ∀ (s : State) (j : IrqSource),
    (s.ipl[irqIndex j] = .disabled ∨ s.pending[irqIndex j] = true → post j s = s) ∧
    (s.ipl[irqIndex j] ≠ .disabled → s.pending[irqIndex j] = false →
      post j s = { s with pending := s.pending.set (irqIndex j) true, pendingCount := s.pendingCount + 1 }) ∧
    (s.pendingCount = s.pending.toList.count true → (post j s).pendingCount = (post j s).pending.toList.count true)

/-- RTI pops pc and SR, RTS pops pc and discards SR (R251, R254, R42). -/
def Obligations.ReturnsPopTheStack : Prop :=
  ∀ s : State,
    exec .rti s = .next { popped s with pc := s.ssh.setWidth 24, sr := s.ssl &&& 0xAF7F, len := 0, instrCycle := s.instrCycle + 2 } ∧
    exec .rts s = .next { popped s with pc := s.ssh.setWidth 24, len := 0, instrCycle := s.instrCycle + 2 }

/-- ENDDO pops twice and restores LF, LA and LC (R256). -/
def Obligations.EnddoUnwindsTheLoop : Prop := ∀ s : State, exec .enddo s = .next (loopPopped s)

/-- ANDI and ORI on MR, CCR and OMR, through the write masks (R257, R258, R28, R29). -/
def Obligations.AndiAndOriOnControlBits : Prop :=
  ∀ (s : State) (i : BitVec 8),
    exec (.andi i .mr) s = .next { s with sr := s.sr &&& ((i.setWidth 16 <<< 8) ||| 0x00FF) &&& 0xAF7F } ∧
    exec (.andi i .ccr) s = .next { s with sr := s.sr &&& (0xFF00 ||| i.setWidth 16) &&& 0xAF7F } ∧
    exec (.andi i .omr) s = .next { s with omr := s.omr &&& i &&& 0xC7 } ∧
    exec (.ori i .mr) s = .next { s with sr := (s.sr ||| (i.setWidth 16 <<< 8)) &&& 0xAF7F } ∧
    exec (.ori i .ccr) s = .next { s with sr := (s.sr ||| i.setWidth 16) &&& 0xAF7F } ∧
    exec (.ori i .omr) s = .next { s with omr := (s.omr ||| i) &&& 0xC7 }

/-- MOVEC between registers and from an immediate: a read by R34, then a write by R33; a reserved code is Fatal
(R259, R262, R23). That an A or B source sets the sticky L through the limiter, against R279, is the model's reading
(DEDUCED, log entry 18). -/
def Obligations.MovecRegisterAndImmediate : Prop :=
  ∀ s : State,
    (∀ (w : Dir) (r c : Reg), let src := (match w with | .load => r | .store => c); let dst := (match w with | .load => c | .store => r)
      (∀ k, src = .reserved k → exec (.movecReg w r c) s = .fault .reservedRegister) ∧
      (∀ v s1, readReg src s = .ok (v, s1) → (∀ k, dst ≠ .reserved k) →
        ∃ t, writeReg dst v s1 = .ok t ∧ exec (.movecReg w r c) s = .next t ∧ SameMemory s t) ∧
      (∀ v s1 k, readReg src s = .ok (v, s1) → dst = .reserved k → exec (.movecReg w r c) s = .fault .reservedRegister)) ∧
    (∀ (i : BitVec 8) (c : Reg), (∀ k, c ≠ .reserved k) →
      ∃ t, writeReg c (BitVec.ofNat 24 i.toNat) s = .ok t ∧ exec (.movecImm i c) s = .next t ∧ SameMemory s t) ∧
    (∀ (i : BitVec 8) (k : BitVec 6), exec (.movecImm i (.reserved k)) s = .fault .reservedRegister)

/-- MOVEC between memory and a control register, by effective address, immediate word or absolute short address
(R260, R261, R100, R108); a store at or above PERIPH_BASE of X takes the peripheral path, and a Fatal of that path is the
instruction's (R68). -/
def Obligations.MovecMemory : Prop :=
  ∀ (s : State) (sp : Space) (c : Reg), (∀ k, c ≠ .reserved k) →
    (∀ ea u v s1, useEa ea s = .ok u → memLoad sp u.addr (addressed u.update (eaTakesExt ea) s) = .ok (v, s1) →
      ∃ t, writeReg c v s1 = .ok t ∧ exec (.movecEa (.load (.addr ea)) sp c) s = .next t ∧ SameMemory s t) ∧
    (∀ v, ∃ t, writeReg c v { s with len := 2, instrCycle := s.instrCycle + 2 } = .ok t ∧
      exec (.movecEa (.load (.imm v)) sp c) s = .next t ∧ SameMemory s t) ∧
    (∀ aa v s1, memLoad sp (aa.setWidth 24) s = .ok (v, s1) →
      ∃ t, writeReg c v s1 = .ok t ∧ exec (.movecAa .load aa sp c) s = .next t ∧ SameMemory s t) ∧
    (∀ ea u v s1, useEa ea s = .ok u → cellOf (dsp sp) u.addr ≠ none →
      readReg c (addressed u.update (eaTakesExt ea) s) = .ok (v, s1) →
      ∃ t, exec (.movecEa (.store ea) sp c) s = .next t ∧ OnlyCell (dsp sp) u.addr v s t ∧ OnlyArrays s1 t) ∧
    (∀ ea u v s1, useEa ea s = .ok u → sp = .x → 0xFFFF80 ≤ u.addr.toNat →
      readReg c (addressed u.update (eaTakesExt ea) s) = .ok (v, s1) →
      (∀ t, memStore .x u.addr v s1 = .ok t → exec (.movecEa (.store ea) sp c) s = .next t) ∧
      (∀ f, memStore .x u.addr v s1 = .error f → exec (.movecEa (.store ea) sp c) s = .fault f)) ∧
    (∀ (aa : BitVec 6) v s1, readReg c s = .ok (v, s1) →
      ∃ t, exec (.movecAa .store aa sp c) s = .next t ∧ OnlyCell (dsp sp) (aa.setWidth 24) v s t ∧ OnlyArrays s1 t)

/-- REP saves LC, loads its count and starts the first pass, for its four operand forms (R263, R264, R265, R266). That a REP
of A or B keeps the L that the limiter sets, against R279, is the model's reading (DEDUCED, log entry 18); the two cycles
are those of the default table of R366 (DESIGN CHOICE, log entry 24). -/
def Obligations.RepStarts : Prop :=
  ∀ s : State,
    (∀ c : BitVec 12, exec (.repImm c) s = .next (repStarted (c.setWidth 16) s)) ∧
    (∀ aa sp v s1, memLoad sp (aa.setWidth 24) s = .ok (v, s1) → exec (.repAa aa sp) s = .next (repStarted (v.setWidth 16) s1)) ∧
    (∀ mode i sp u v s1, useEa (.reg mode i) s = .ok u → memLoad sp u.addr (applyUpdate u.update s) = .ok (v, s1) →
      exec (.repEa mode i sp) s = .next (repStarted (v.setWidth 16) s1)) ∧
    (∀ r v s1, readReg r s = .ok (v, s1) → exec (.repReg r) s = .next (repStarted (v.setWidth 16) s1))

/-- DO pushes (LA, LC) and (loop start, SR), loads LA and LC and sets LF, for its four operand forms
(R267, R268, R269, R270). That a DO of A or B keeps the L that the limiter sets, and pushes it in SR, against R279, is the
model's reading (DEDUCED, log entry 18); the four cycles are those of the default table of R366 (DESIGN CHOICE, log entry
24). -/
def Obligations.DoStarts : Prop :=
  ∀ (s : State) (last : Word),
    (∀ c : BitVec 12, exec (.doImm c last) s = .next (doStarted (c.setWidth 16) last s)) ∧
    (∀ aa sp v s1, memLoad sp (aa.setWidth 24) s = .ok (v, s1) → exec (.doAa aa sp last) s = .next (doStarted (v.setWidth 16) last s1)) ∧
    (∀ mode i sp u v s1, useEa (.reg mode i) s = .ok u → memLoad sp u.addr (applyUpdate u.update s) = .ok (v, s1) →
      exec (.doEa mode i sp last) s = .next (doStarted (v.setWidth 16) last s1)) ∧
    (∀ r v s1, readReg r s = .ok (v, s1) → exec (.doReg r last) s = .next (doStarted (v.setWidth 16) last s1))

/-- JMP and Jcc: the Rn update happens in either case, and only a true condition writes pc (R271, R272, R275, R277, R366). -/
def Obligations.Jumps : Prop :=
  ∀ (s : State) (cond : Cond) (a : BitVec 12),
    exec (.jmpAbs a) s = .next (jumped (a.setWidth 24) s) ∧
    (condHolds cond s.sr = true → exec (.jccAbs cond a) s = .next (jumped (a.setWidth 24) s)) ∧
    (condHolds cond s.sr = false → exec (.jccAbs cond a) s = .next { s with instrCycle := s.instrCycle + 2 }) ∧
    ∀ ea u, useEa ea s = .ok u →
      exec (.jmpEa ea) s = .next (jumped u.addr (addressed u.update (eaTakesExt ea) s)) ∧
      (condHolds cond s.sr = true → exec (.jccEa ea cond) s = .next (jumped u.addr (addressed u.update (eaTakesExt ea) s))) ∧
      (condHolds cond s.sr = false → ∃ t, t = addressed u.update (eaTakesExt ea) s ∧
        exec (.jccEa ea cond) s = .next { t with instrCycle := t.instrCycle + 2 })

/-- JSR pushes the return address and SR, but for the first JSR of a long interrupt, which hands LONG over to DISABLED;
a taken JScc always pushes (R273, R274, R276, R278). -/
def Obligations.Calls : Prop :=
  ∀ (s : State) (cond : Cond) (a : BitVec 12),
    exec (.jsrAbs a) s = .next (called (a.setWidth 24) 1 s) ∧
    (condHolds cond s.sr = true →
      exec (.jsccAbs cond a) s = .next (jumped (a.setWidth 24) (pushed ((s.pc + 1).setWidth 16) s.sr s))) ∧
    (condHolds cond s.sr = false → exec (.jsccAbs cond a) s = .next { s with instrCycle := s.instrCycle + 2 }) ∧
    ∀ ea u, useEa ea s = .ok u →
      let len : Word := if eaTakesExt ea then 2 else 1
      let s1 := addressed u.update (eaTakesExt ea) s
      exec (.jsrEa ea) s = .next (called u.addr len s1) ∧
      (condHolds cond s.sr = true → exec (.jsccEa ea cond) s = .next (jumped u.addr (pushed ((s.pc + len).setWidth 16) s.sr s1))) ∧
      (condHolds cond s.sr = false → exec (.jsccEa ea cond) s = .next { s1 with instrCycle := s1.instrCycle + 2 })

/-- The sixteen condition codes of R106, by number. -/
def Obligations.ConditionCodes : Prop :=
  ∀ sr : BitVec 16,
    let c := sr.getLsbD 0
    let v := sr.getLsbD 1
    let z := sr.getLsbD 2
    let n := sr.getLsbD 3
    let u := sr.getLsbD 4
    let e := sr.getLsbD 5
    let l := sr.getLsbD 6
    condHolds (condOf 0) sr = !c ∧ condHolds (condOf 8) sr = c ∧
    condHolds (condOf 1) sr = !(n != v) ∧ condHolds (condOf 9) sr = (n != v) ∧
    condHolds (condOf 2) sr = !z ∧ condHolds (condOf 10) sr = z ∧
    condHolds (condOf 3) sr = !n ∧ condHolds (condOf 11) sr = n ∧
    condHolds (condOf 4) sr = !(z || (!u && !e)) ∧ condHolds (condOf 12) sr = (z || (!u && !e)) ∧
    condHolds (condOf 5) sr = !e ∧ condHolds (condOf 13) sr = e ∧
    condHolds (condOf 6) sr = !l ∧ condHolds (condOf 14) sr = l ∧
    condHolds (condOf 7) sr = !(z || (n != v)) ∧ condHolds (condOf 15) sr = (z || (n != v))

/-! ### The PC update -/

/-- The PC updates of a REP. Its own primes a count of 0 to 0x10000 and moves to the repeated instruction (R141); that of a
pass counts LC down and holds pc, and the last restores LC and moves on (R140, R142); the loop-end test of a surrounding DO
follows each (R143). With L passes left pc stays for L - 1 updates of instructions of n words, inside a DO loop too unless
the repeated instruction stands just past its last address. A repeated NOP runs its count of times, 65536 for a count of 0. -/
def Obligations.RepPcUpdates : Prop :=
  (∀ s : State, s.loopRep = true →
    (s.pcOnRep = true → updatePc s =
      loopTested { s with lc := if s.lc = 0 then 0x10000 else s.lc, pcOnRep := false, pc := s.pc + BitVec.ofNat 24 s.len }) ∧
    (s.pcOnRep = false →
      let count : BitVec 16 := s.lc.setWidth 16 - 1
      (count ≠ 0 → updatePc s = loopTested { s with lc := count.setWidth 17, len := 0 }) ∧
      (count = 0 → updatePc s =
        loopTested { s with loopRep := false, lc := s.lcSaved.setWidth 17, pc := s.pc + BitVec.ofNat 24 s.len }))) ∧
  (∀ (s : State) (n k : Nat), s.loopRep = true → s.pcOnRep = false → s.lc.toNat ≤ 0x10000 →
    (s.sr.getLsbD srLF = true → s.pc.toNat ≠ s.la.toNat + 1) →
    (k < s.lc.toNat →
      (passes n k s).pc = s.pc ∧ (passes n k s).loopRep = true ∧ (passes n k s).lc.toNat = s.lc.toNat - k) ∧
    (0 < k → k = s.lc.toNat → passes n k s =
      loopTested { s with loopRep := false, lc := s.lcSaved.setWidth 17, len := n, pc := s.pc + BitVec.ofNat 24 n })) ∧
  (∀ (s : State) (c : BitVec 12),
    s.fatal = none → s.loopRep = false → s.interruptState = .none → s.pendingCount = 0 → s.sr.getLsbD srT = false →
    s.sr.getLsbD srLF = false → (s.pc + 1).toNat < 4096 → s.pc.toNat < 4096 →
    decode (s.pram.read s.pc.toNat) 0 = .ok (.repImm c) → s.pram.read (s.pc + 1).toNat = 0 →
    let count : Nat := if c = 0 then 65536 else c.toNat
    ∃ t, Sys2Proof.core.run (count + 1) s = .next t ∧ t.pc = s.pc + 2 ∧ t.lc = (s.lc.setWidth 16).setWidth 17 ∧
      t.loopRep = false ∧ t.instrCount = s.instrCount + count + 1)

/-- Outside a REP, pc advances by the length; past the loop's last address with LF set, LC counts down, and the loop
goes back to SSH or unwinds (R140, R143). -/
def Obligations.LoopEndTest : Prop :=
  ∀ s : State, s.loopRep = false →
    let s1 := { s with pc := s.pc + BitVec.ofNat 24 s.len }
    let count : BitVec 16 := s.lc.setWidth 16 - 1
    (s.sr.getLsbD srLF = false ∨ s1.pc.toNat ≠ s.la.toNat + 1 → updatePc s = s1) ∧
    (s.sr.getLsbD srLF = true → s1.pc.toNat = s.la.toNat + 1 → count ≠ 0 →
      updatePc s = { s1 with lc := count.setWidth 17, pc := s.ssh.setWidth 24 }) ∧
    (s.sr.getLsbD srLF = true → s1.pc.toNat = s.la.toNat + 1 → count = 0 → updatePc s = loopPopped { s1 with lc := 0 })

/-! ### Interrupts -/

/-- The winner of arbitration: the first pending source of level 3, else the first of the highest level above the mask
(R333, R348); a disabled or masked source never wins. -/
def Obligations.ArbitrationWinner : Prop :=
  ∀ s : State,
    (∀ i, winner s = some i →
      s.pending[irqIndex i] = true ∧
      ((s.ipl[irqIndex i] = .level3 ∧
          ∀ j, irqIndex j < irqIndex i → s.pending[irqIndex j] = true → s.ipl[irqIndex j] ≠ .level3) ∨
       ((∀ j, s.pending[irqIndex j] = true → s.ipl[irqIndex j] ≠ .level3) ∧
          ((srMask s.sr).toNat : Int) < iplValue s.ipl[irqIndex i] ∧
          ∀ j, s.pending[irqIndex j] = true → iplValue s.ipl[irqIndex j] ≤ iplValue s.ipl[irqIndex i] ∧
            (irqIndex j < irqIndex i → iplValue s.ipl[irqIndex j] < iplValue s.ipl[irqIndex i])))) ∧
    (winner s = none → ∀ j, s.pending[irqIndex j] = true →
      s.ipl[irqIndex j] ≠ .level3 ∧ iplValue s.ipl[irqIndex j] ≤ ((srMask s.sr).toNat : Int))

/-- A winner is cleared, its level promoted and its vector latched; then the pipeline is armed at count 5, or the vector is one
of the three unimplemented ones and the Fatal leaves what was latched (R334, R130; DEDUCED, log entry 8; `attemptCheck` is the
check with the state that its Fatal leaves). With the pipeline idle and no REP in its passes the check takes the winner, TRACE posted first
where T is set, and changes nothing more where there is none (R330, R332, R333). -/
def Obligations.WinnerArmsThePipeline : Prop :=
  (∀ s : State, s.loopRep = false → s.interruptState = .none →
    let s1 := if s.sr.getLsbD srT then post .trace s else s
    (s1.pendingCount = 0 → interruptCheck s = .ok s1) ∧
    (s1.pendingCount ≠ 0 → winner s1 = none → interruptCheck s = .ok s1) ∧
    (∀ i, s1.pendingCount ≠ 0 → winner s1 = some i →
      attemptCheck s = takeInterrupt i s1 ∧ interruptCheck s = reasonOnly (takeInterrupt i s1))) ∧
  ∀ (s : State) (i : IrqSource), s.pending[irqIndex i] = true → s.ipl[irqIndex i] ≠ .disabled →
    let latched : State := { s with
      pending := s.pending.set (irqIndex i) false
      pendingCount := s.pendingCount - 1
      iplToRaise := BitVec.ofInt 2 (min (iplValue s.ipl[irqIndex i] + 1) 3)
      instrFetch := some (Config.vector i) }
    (i ∈ [.hostCommand, .ssiRcvE, .ssiTrxE] → takeInterrupt i s = .error ⟨.unimplementedVector, latched⟩) ∧
    (i ∉ [.hostCommand, .ssiRcvE, .ssiTrxE] →
      takeInterrupt i s = .ok { latched with
        longTaken := false
        interruptState := .disabled
        pipelineCount := .five })

/-- At count 4 pc goes to the vector and its old value is saved; at count 3 the second vector word is inspected if it is the
next to execute. A JSR found makes a long interrupt: (old pc, SR) is pushed, LF, T, the scaling mode and the mask are
cleared and the new level installed (R338); the redirection and the two inspections are those of R330, R335 and R337, the JSR
forms those of R336. The JSR that then runs in the state LONG does not push again (R338, R273). -/
def Obligations.LongInterruptEntry : Prop :=
  (∀ s : State, s.interruptState = .long →
    (∀ a : BitVec 12, ∃ t, exec (.jsrAbs a) s = .next t ∧
      t = { s with pc := a.setWidth 24, len := 0, interruptState := .disabled, instrCycle := t.instrCycle }) ∧
    ∀ ea u, useEa ea s = .ok u → ∃ t, exec (.jsrEa ea) s = .next t ∧
      t = { applyUpdate u.update s with pc := u.addr, len := 0, interruptState := .disabled, instrCycle := t.instrCycle }) ∧
  ∀ (s : State) (v : Word), s.loopRep = false → s.interruptState ≠ .none → s.instrFetch = some v →
    (s.pipelineCount = .four → v.toNat < 4096 →
      let t : State := { s with savePc := some s.pc, pc := v, pipelineCount := .three }
      (¬ JsrPattern (s.pram.read v.toNat) → interruptCheck s = .ok t) ∧
      (JsrPattern (s.pram.read v.toNat) → interruptCheck s = .ok (longEntered s.pc t))) ∧
    ∀ saved, s.pipelineCount = .three → s.savePc = some saved →
      let t : State := { s with pipelineCount := .two }
      (s.pc ≠ v + 1 → interruptCheck s = .ok t) ∧
      (s.pc = v + 1 → s.pc.toNat < 4096 → ¬ JsrPattern (s.pram.read s.pc.toNat) → interruptCheck s = .ok t) ∧
      (s.pc = v + 1 → s.pc.toNat < 4096 → JsrPattern (s.pram.read s.pc.toNat) → interruptCheck s = .ok (longEntered saved t))

/-- At count 2 a fast interrupt whose two vector words have run returns to the saved pc; any other flow goes on. Counts 5
and 1 only count down (R335, R339). -/
def Obligations.FastInterruptReturn : Prop :=
  ∀ s : State, s.loopRep = false → s.interruptState ≠ .none →
    (s.pipelineCount = .five → interruptCheck s = .ok { s with pipelineCount := .four }) ∧
    (∀ v saved, s.pipelineCount = .two → s.instrFetch = some v → s.savePc = some saved →
      interruptCheck s = .ok { s with pc := if s.pc = v + 2 ∧ s.longTaken = false then saved else s.pc, pipelineCount := .one }) ∧
    (s.pipelineCount = .one → interruptCheck s = .ok { s with pipelineCount := .zero })

/-- The check does nothing during a REP (R331); count 0 leaves the pipeline and goes on to the trace test (R335, R340); the
trace bit posts TRACE before the pending test (R332). -/
def Obligations.CheckDuringRepAndTrace : Prop :=
  ∀ s : State,
    (s.loopRep = true → interruptCheck s = .ok s) ∧
    (s.loopRep = false → s.interruptState = .none → s.sr.getLsbD srT = false → s.pendingCount = 0 → interruptCheck s = .ok s) ∧
    (s.loopRep = false → s.interruptState = .none → s.sr.getLsbD srT = true → s.ipl = State.reset.ipl →
      s.pending = State.reset.pending → s.pendingCount = 0 →
      interruptCheck s = .ok { s with
        iplToRaise := 3, instrFetch := some 0x000004, longTaken := false, interruptState := .disabled, pipelineCount := .five }) ∧
    (s.loopRep = false → s.interruptState ≠ .none → s.pipelineCount = .zero →
      interruptCheck s = interruptCheck { s with savePc := none, instrFetch := none, longTaken := false, interruptState := .none })

/-! ### DMA and the host's calls -/

/-- The action field of a control write (R294): 0 does nothing, START, STOP, FREEZE and UNFREEZE act on their bits, 5 to 7
are Fatal. Then the walk runs, by the bits as they are now: not at all unless RUNNING and not FROZEN (so STOP moves nothing,
R295); a walk that completes ends at EOL and changes control no further (R296). -/
def Obligations.DmaControlActions : Prop :=
  ∀ (s : State) (v : Word),
    let c := actedControl v s.dmaControl
    (5 ≤ (v &&& 7).toNat → memStore .x 0xFFFFD6 v s = .error .dmaAction) ∧
    ((v &&& 7).toNat ≤ 4 →
      (c.getLsbD 4 = false ∨ c.getLsbD 3 = true ∨ s.dmaNext.getLsbD 14 = true →
        memStore .x 0xFFFFD6 v s = .ok { s with dmaControl := c }) ∧
      memStore .x 0xFFFFD6 v s = memStore .x 0xFFFFD6 0 { s with dmaControl := c } ∧
      ∀ t, c.getLsbD 4 = true → c.getLsbD 3 = false → memStore .x 0xFFFFD6 v s = .ok t →
        t.dmaNext.getLsbD 14 = true ∧
        t = { s with
          dmaControl := c, dmaNext := t.dmaNext, eol := t.eol, scratch := t.scratch
          xram := t.xram, yram := t.yram, pram := t.pram, mixbuffer := t.mixbuffer }) ∧
    (v &&& 7 = 2 → memStore .x 0xFFFFD6 v s = .ok { s with dmaControl := (s.dmaControl ||| 0x20) &&& ~~~ (0x10 : Word) })

/-- The nodes of a walk that a START begins (R296, R297): the pointer is taken and EOL noted, then the node is skipped, moves
its block, or is Fatal (R300 to R305). A list of one node, and of two (R307); a Fatal leaves the transfers of the nodes before
it done (R308), whether the second descriptor does not exist, fails its checks or names a word that does not exist; a list that
points to itself without EOL is Fatal (R311). `attemptStore` is `memStore` with the state that a
Fatal leaves (DEDUCED, log entry 8). -/
def Obligations.DmaWalkMovesItsNodes : Prop :=
  ∀ (s : State) (v : Word), v &&& 7 = 1 → s.dmaControl.getLsbD 3 = false → s.dmaNext.getLsbD 14 = false →
    (∀ k, k < 7 → cellOf .x (BitVec.ofNat 24 ((s.dmaNext &&& 0x3FFF).toNat + k)) = none →
      memStore .x 0xFFFFD6 v s = .error .addressOutOfRange) ∧
    ∀ d : Vector Word 7, NodeAt s d →
      (∀ r, NodeFatal d r → attemptStore .x 0xFFFFD6 v s = .error ⟨r, nodeLoaded d (started s)⟩) ∧
      (∀ f base a k, nodeFormat d = some f → NodeScratch f d a → DmaRange d[3].toNat d[2].toNat .x base → k < d[2].toNat →
        cellOf .x (BitVec.ofNat 24 (base + k)) = none → memStore .x 0xFFFFD6 v s = .error .addressOutOfRange) ∧
      (NodeReady d →
        (d[0].getLsbD 14 = true →
          ∃ t, memStore .x 0xFFFFD6 v s = .ok t ∧ NodeMoves d (nodeLoaded d (started s)) t) ∧
        (d[0].getLsbD 14 = false → d[0] &&& 0x3FFF = s.dmaNext &&& 0x3FFF → d[2] = 0 →
          attemptStore .x 0xFFFFD6 v s = .error ⟨.dmaNonterminating, nodeLoaded d (started s)⟩) ∧
        (d[0].getLsbD 14 = false → ∀ t1 d2, NodeMoves d (nodeLoaded d (started s)) t1 → NodeAt t1 d2 →
          (NodeReady d2 → d2[0].getLsbD 14 = true →
            ∃ t, memStore .x 0xFFFFD6 v s = .ok t ∧ NodeMoves d2 (nodeLoaded d2 t1) t) ∧
          (∀ r, NodeFatal d2 r → ∃ u, attemptStore .x 0xFFFFD6 v s = .error ⟨r, u⟩ ∧
            OnlyStores (nodeLoaded d2 t1) u ∧ SameWords t1 u ∧ u.scratch = t1.scratch) ∧
          (∀ f base a k, nodeFormat d2 = some f → NodeScratch f d2 a → DmaRange d2[3].toNat d2[2].toNat .x base → k < d2[2].toNat →
            cellOf .x (BitVec.ofNat 24 (base + k)) = none →
            ∃ u, attemptStore .x 0xFFFFD6 v s = .error ⟨.addressOutOfRange, u⟩ ∧
              OnlyStores (nodeLoaded d2 t1) u ∧ u.scratch = t1.scratch ∧
              ∀ sp' a', (∀ j, j < d2[2].toNat → cellOf sp' a' ≠ cellOf .x (BitVec.ofNat 24 (base + j))) →
                readDsp sp' u a' = readDsp sp' t1 a')) ∧
        (d[0].getLsbD 14 = false → ∀ t1 k, NodeMoves d (nodeLoaded d (started s)) t1 → k < 7 →
          cellOf .x (BitVec.ofNat 24 ((d[0] &&& 0x3FFF).toNat + k)) = none →
          ∃ u, attemptStore .x 0xFFFFD6 v s = .error ⟨.addressOutOfRange, u⟩ ∧
            OnlyStores t1 u ∧ SameWords t1 u ∧ u.scratch = t1.scratch))

/-- Words copied to scratch memory are read back from it, the upper 16 bits in format 1 and all 24 in format 2, and the
copy leaves every scratch byte outside the items (R301, R304, R305). -/
def Obligations.DmaItemsRoundTrip : Prop :=
  ∀ (s : State) (f : Config.DmaFormat) (sp : DspSpace) (base count saddr : Nat) (ws : List Word),
    readBlock sp s base count = .ok ws →
    ∃ t, dspToScratch f sp base count saddr s = .ok t ∧ t = { s with scratch := t.scratch } ∧
      itemWords f t.scratch saddr count = ws.map (fun w => match f with | .upper16 => w &&& 0xFFFF00 | .full24 => w) ∧
      ∀ a, a < saddr ∨ saddr + count * itemSize f ≤ a → t.scratch.read a = s.scratch.read a

/-- The interrupt-status register shows EOL at bit 7 and is acknowledged by a write of bit 7; the four DMA registers read
back, and a host address is a free draw (R292, R293, R299, R67, R68). The number of the draw, in `draws`, is the model's own
(DESIGN CHOICE, log entry 3). -/
def Obligations.PeripheralRegisters : Prop :=
  ∀ (s : State) (v : Word),
    memLoad .x 0xFFFFC5 s = .ok (if s.eol then 0x80 else 0, s) ∧
    memStore .x 0xFFFFC5 v s = .ok { s with eol := s.eol && !v.getLsbD 7 } ∧
    memStore .x 0xFFFFD7 v s = .ok { s with dmaConfig := v } ∧ memLoad .x 0xFFFFD7 s = .ok (s.dmaConfig, s) ∧
    memStore .x 0xFFFFD5 v s = .ok { s with dmaStart := v } ∧ memLoad .x 0xFFFFD5 s = .ok (s.dmaStart, s) ∧
    memStore .x 0xFFFFD4 v s = .ok { s with dmaNext := v } ∧ memLoad .x 0xFFFFD4 s = .ok (s.dmaNext, s) ∧
    memLoad .x 0xFFFFD6 s = .ok (s.dmaControl, s) ∧
    ∀ a : Word, 0xFFFF80 ≤ a.toNat → a ∉ [0xFFFFC5, 0xFFFFD4, 0xFFFFD5, 0xFFFFD6, 0xFFFFD7] →
      memStore .x a v s = .ok s ∧ memLoad .x a s = .ok (Config.hostPeriphRead s.draws a, { s with draws := s.draws + 1 })

/-- Bootstrap writes P:0 to P:0x7FF from scratch, little-endian, and nothing else (R310); a raised source is posted (R327);
set-ipl writes one level (R328); read-cell answers the stored word, a core register or 0 (R347); run adds to the budget and
takes steps, each charged, while it is positive (R146); in the fault state no call but initialize and reset acts (R345). A
Fatal step sets `fatal` with its reason and leaves the words and scratch bytes stored before it, which a DMA walk may have
written (R322, R130, R308, R361): the model's reading of the state that a Fatal leaves (DEDUCED, log entry 8). -/
def Obligations.HostCalls : Prop :=
  ∀ s : State,
    (s.fatal = none → ∃ t, callBootstrap s = ⟨t, .done⟩ ∧ t = { s with pram := t.pram } ∧
      (∀ i, i < 0x800 → t.pram.read i = (s.scratch.read (4 * i + 2) ++ s.scratch.read (4 * i + 1) ++ s.scratch.read (4 * i) : BitVec 24)) ∧
      (∀ i, 0x800 ≤ i → t.pram.read i = s.pram.read i)) ∧
    (s.fatal = none → (∀ src, callRaiseInterrupt s (irqIndex src).val = ⟨post src s, .done⟩) ∧
      ∀ k, 12 ≤ k → callRaiseInterrupt s k = ⟨{ s with fatal := some .badSource }, .fatal .badSource⟩) ∧
    (s.fatal = none → ∀ src l, callSetIpl s src l = ⟨{ s with ipl := s.ipl.set (irqIndex src) l }, .done⟩) ∧
    (s.fatal = none →
      (∀ sp a, (sp = .x → a.toNat < 0xFFFF80) →
        (∀ v, readDsp sp s a = .ok v → callReadCell s sp a = .word v) ∧ (cellOf sp a = none → callReadCell s sp a = .outOfRange)) ∧
      callReadCell s .x 0xFFFFC5 = .word (if s.eol then 0x80 else 0) ∧ callReadCell s .x 0xFFFFD7 = .word s.dmaConfig ∧
      callReadCell s .x 0xFFFFD6 = .word s.dmaControl ∧ callReadCell s .x 0xFFFFD5 = .word s.dmaStart ∧
      callReadCell s .x 0xFFFFD4 = .word s.dmaNext ∧
      ∀ a : Word, 0xFFFF80 ≤ a.toNat → a ∉ [0xFFFFC5, 0xFFFFD4, 0xFFFFD5, 0xFFFFD6, 0xFFFFD7] → callReadCell s .x a = .word 0) ∧
    (∀ c : Nat, s.fatal = none →
      let s0 : State := { s with budget := s.budget + c }
      (s0.budget ≤ 0 → callRun s c = ⟨s0, .done⟩) ∧
      (0 < s0.budget →
        (∀ t, step s0 = .next t → callRun s c = callRun { t with budget := s0.budget - t.instrCycle } 0) ∧
        (∀ r, step s0 = .fault r → callRun s c = ⟨{ fatalOfStep s0 with fatal := some r }, .fatal r⟩))) ∧
    (∀ t, s.fatal = none → step s = .next t → callStep s = ⟨t, .done⟩) ∧
    (∀ r, s.fatal = some r → callBootstrap s = ⟨s, .fatal r⟩ ∧ (∀ k, callRaiseInterrupt s k = ⟨s, .fatal r⟩) ∧
      (∀ src l, callSetIpl s src l = ⟨s, .fatal r⟩) ∧ callStep s = ⟨s, .fatal r⟩ ∧ (∀ c, callRun s c = ⟨s, .fatal r⟩) ∧
      (∀ sp a, callReadCell s sp a = .fatal r) ∧ (callReset s).fatal = none) ∧
    (∀ r, s.fatal = none → step s = .fault r → callStep s = ⟨{ fatalOfStep s with fatal := some r }, .fatal r⟩ ∧
      (callReset (callStep s).state).scratch = (fatalOfStep s).scratch) ∧
    (∀ aa c v s1 e, s.fatal = none → decode (s.pram.read s.pc.toNat) 0 = .ok (.movecEa (.store (.reg .plain aa)) .x c) →
      s.pc.toNat < 4096 → s.r[aa] = 0xFFFFD6 → readReg c { s with instrCycle := 2, len := 1 } = .ok (v, s1) →
      attemptStore .x 0xFFFFD6 v s1 = .error e →
      callStep s = ⟨{ e.left with fatal := some e.reason }, .fatal e.reason⟩)
end

