-- ==== Sys2Proof/Laws/Memory.lean ====
section
/-! SUPPORT. The laws of the memory lists: read after write, what a write leaves alone, and that every operation keeps
the canonical form. -/

namespace Sys2Proof.Machine

/-! ### The lists -/

/-- The addresses of a list rise strictly. -/
abbrev Rising {α : Type} (m : List (Nat × α)) : Prop := m.Pairwise fun p q => p.1 < q.1

theorem cellFind_insert_self {α : Type} (m : List (Nat × α)) (a : Nat) (v : α) : cellFind (cellInsert m a v) a = some v := by
  induction m with
  | nil => simp [cellInsert, cellFind]
  | cons e rest ih =>
    obtain ⟨b, w⟩ := e
    unfold cellInsert
    split
    · simp [cellFind]
    · split
      · simp [cellFind]
      · have hb : b ≠ a := fun h => by omega
        simp [cellFind, hb, ih]

theorem cellFind_insert_other {α : Type} (m : List (Nat × α)) (a b : Nat) (v : α) (h : b ≠ a) :
    cellFind (cellInsert m a v) b = cellFind m b := by
  induction m with
  | nil => simp [cellInsert, cellFind, Ne.symm h]
  | cons e rest ih =>
    obtain ⟨c, w⟩ := e
    unfold cellInsert
    split
    · simp [cellFind, Ne.symm h]
    · split
      · rename_i h1 h2
        subst h2
        simp [cellFind, Ne.symm h]
      · simp [cellFind, ih]

theorem cellFind_erase_self {α : Type} (m : List (Nat × α)) (a : Nat) : cellFind (cellErase m a) a = none := by
  induction m with
  | nil => rfl
  | cons e rest ih =>
    obtain ⟨b, w⟩ := e
    by_cases hb : b = a
    · simpa [cellErase, List.filter, hb] using ih
    · simpa [cellErase, List.filter, hb, cellFind] using ih

theorem cellFind_erase_other {α : Type} (m : List (Nat × α)) (a b : Nat) (h : b ≠ a) : cellFind (cellErase m a) b = cellFind m b := by
  induction m with
  | nil => rfl
  | cons e rest ih =>
    obtain ⟨c, w⟩ := e
    by_cases hc : c = a
    · subst hc
      simpa [cellErase, List.filter, cellFind, Ne.symm h] using ih
    · simp only [cellErase, List.filter, hc, ne_eq, not_false_eq_true, decide_true, cellFind]
      split
      · rfl
      · simpa [cellErase] using ih

/-- An entry of an insertion is the new one or an old one. -/
theorem mem_cellInsert {α : Type} {m : List (Nat × α)} {a : Nat} {v : α} {e : Nat × α} (h : e ∈ cellInsert m a v) :
    e = (a, v) ∨ e ∈ m := by
  induction m with
  | nil => simpa [cellInsert] using h
  | cons x rest ih =>
    obtain ⟨b, w⟩ := x
    unfold cellInsert at h
    split at h
    · simpa using h
    · split at h
      · rcases List.mem_cons.1 h with h | h
        · exact .inl h
        · exact .inr (List.mem_cons_of_mem _ h)
      · rcases List.mem_cons.1 h with h | h
        · exact .inr (by simp [h])
        · exact (ih h).imp id (List.mem_cons_of_mem _)

theorem cellInsert_rising {α : Type} {m : List (Nat × α)} (a : Nat) (v : α) (h : Rising m) : Rising (cellInsert m a v) := by
  induction m with
  | nil => simp [cellInsert, Rising]
  | cons x rest ih =>
    obtain ⟨b, w⟩ := x
    obtain ⟨hb, hr⟩ := List.pairwise_cons.1 h
    unfold cellInsert
    split
    · rename_i hab
      refine List.pairwise_cons.2 ⟨fun e he => ?_, h⟩
      rcases List.mem_cons.1 he with rfl | he
      · exact hab
      · exact Nat.lt_trans hab (hb e he)
    · split
      · rename_i hab
        subst hab
        exact List.pairwise_cons.2 ⟨hb, hr⟩
      · refine List.pairwise_cons.2 ⟨fun e he => ?_, ih hr⟩
        rcases mem_cellInsert he with rfl | he
        · show b < a
          omega
        · exact hb e he

theorem cellErase_rising {α : Type} {m : List (Nat × α)} (a : Nat) (h : Rising m) : Rising (cellErase m a) :=
  List.Pairwise.filter _ h

/-! ### The word arrays -/

/-- Reading back the word just stored. -/
@[simp] theorem Memory.read_write_self (m : Memory) (a : Nat) (v : Word) : (m.write a v).read a = v := by
  unfold Memory.write Memory.read
  split
  · rename_i h
    simp [cellFind_erase_self, h]
  · simp [cellFind_insert_self]

/-- A store leaves every other word as it was. -/
theorem Memory.read_write_other (m : Memory) {a b : Nat} (v : Word) (h : b ≠ a) : (m.write a v).read b = m.read b := by
  unfold Memory.write Memory.read
  split
  · rw [cellFind_erase_other m a b h]
  · rw [cellFind_insert_other m a b v h]

/-- A store inside the array keeps the canonical form. -/
theorem Memory.write_wf {size : Nat} {m : Memory} {a : Nat} (v : Word) (ha : a < size) (h : Memory.wf size m) :
    Memory.wf size (m.write a v) := by
  unfold Memory.write
  split
  · exact ⟨cellErase_rising a h.1, fun e he => h.2 e (List.mem_filter.1 he).1⟩
  · rename_i hv
    refine ⟨cellInsert_rising a v h.1, fun e he => ?_⟩
    rcases mem_cellInsert he with rfl | he
    · exact ⟨ha, hv⟩
    · exact h.2 e he

/-- A smaller array is inside a larger one. -/
theorem Memory.wf_mono {k size : Nat} {m : Memory} (hk : k ≤ size) (h : Memory.wf k m) : Memory.wf size m :=
  ⟨h.1, fun e he => ⟨Nat.lt_of_lt_of_le (h.2 e he).1 hk, (h.2 e he).2⟩⟩

/-- An array of given contents is canonical. -/
theorem Memory.ofContents_wf (contents : Nat → Word) (size : Nat) : Memory.wf size (Memory.ofContents contents size) := by
  induction size with
  | zero => simp [Memory.ofContents, Memory.wf]
  | succ k ih => exact Memory.write_wf _ (Nat.lt_succ_self k) (Memory.wf_mono (Nat.le_succ k) ih)

/-- An array of given contents reads as them, and as the unlisted word beyond. -/
theorem Memory.read_ofContents (contents : Nat → Word) (size a : Nat) :
    (Memory.ofContents contents size).read a = if a < size then contents a else Memory.unlisted := by
  induction size with
  | zero => simp [Memory.ofContents, Memory.read, cellFind]
  | succ k ih =>
    unfold Memory.ofContents
    by_cases h : a = k
    · subst h
      simp
    · rw [Memory.read_write_other _ _ h, ih]
      by_cases h1 : a < k
      · simp [h1, Nat.lt_succ_of_lt h1]
      · have h2 : ¬ a < k + 1 := by omega
        simp [h1, h2]

/-- Nothing past the head of a rising list lies at or below the head's address. -/
theorem Rising.tail_find {α : Type} {b : Nat} {w : α} {rest : List (Nat × α)} (h : Rising ((b, w) :: rest)) {a : Nat} (ha : a ≤ b) :
    cellFind rest a = none := by
  obtain ⟨hb, -⟩ := List.pairwise_cons.1 h
  clear h
  induction rest with
  | nil => rfl
  | cons x rest ih =>
    obtain ⟨c, u⟩ := x
    have hc : b < c := hb (c, u) (by simp)
    have hne : c ≠ a := by omega
    simpa [cellFind, hne] using ih fun e he => hb e (by simp [he])

/-- A rising list holds nothing below its head's address. -/
theorem Rising.tail_find_lt {α : Type} {b : Nat} {w : α} {rest : List (Nat × α)} (h : Rising ((b, w) :: rest)) {a : Nat} (ha : a < b) :
    cellFind ((b, w) :: rest) a = none := by
  have hne : b ≠ a := by omega
  simp [cellFind, hne, Rising.tail_find h (Nat.le_of_lt ha)]

/-- What a canonical array lists, a read tells: an entry is listed where the read differs from the unlisted word. -/
theorem Memory.find_eq_none {size : Nat} {m : Memory} (h : Memory.wf size m) {a : Nat} (hr : m.read a = Memory.unlisted) :
    cellFind m a = none := by
  induction m with
  | nil => rfl
  | cons e rest ih =>
    obtain ⟨b, w⟩ := e
    have hw := (h.2 (b, w) (by simp)).2
    by_cases hb : b = a
    · exact absurd (by simpa [Memory.read, cellFind, hb] using hr) hw
    · have hrest : Memory.wf size rest := ⟨(List.pairwise_cons.1 h.1).2, fun e he => h.2 e (by simp [he])⟩
      have hread : Memory.read rest a = Memory.unlisted := by simpa [Memory.read, cellFind, hb] using hr
      simpa [cellFind, hb] using ih hrest hread

/-- Two canonical arrays that read alike are equal. -/
theorem Memory.eq_of_read {size : Nat} {m p : Memory} (hm : Memory.wf size m) (hp : Memory.wf size p)
    (h : ∀ a, m.read a = p.read a) : m = p := by
  have hfind : ∀ a, cellFind m a = cellFind p a := fun a => by
    have ha := h a
    unfold Memory.read at ha
    cases hx : cellFind m a with
    | none =>
      have : Memory.read p a = Memory.unlisted := by rw [← h a, Memory.read, hx, Option.getD_none]
      exact (Memory.find_eq_none hp this).symm
    | some v =>
      cases hy : cellFind p a with
      | none =>
        have : Memory.read m a = Memory.unlisted := by rw [h a, Memory.read, hy, Option.getD_none]
        rw [Memory.find_eq_none hm this] at hx
        cases hx
      | some w =>
        rw [hx, hy] at ha
        simpa using ha
  clear h
  replace hm := hm.1
  replace hp := hp.1
  induction m generalizing p with
  | nil =>
    cases p with
    | nil => rfl
    | cons e rest =>
      have := hfind e.1
      simp [cellFind] at this
  | cons e rest ih =>
    obtain ⟨b, w⟩ := e
    cases p with
    | nil =>
      have := hfind b
      simp [cellFind] at this
    | cons f tail =>
      obtain ⟨c, u⟩ := f
      have hbc : b = c := by
        have h1 := hfind b
        have h2 := hfind c
        rcases Nat.lt_trichotomy b c with hlt | heq | hgt
        · rw [Rising.tail_find_lt hp hlt] at h1
          simp [cellFind] at h1
        · exact heq
        · rw [Rising.tail_find_lt hm hgt] at h2
          simp [cellFind] at h2
      subst hbc
      have hwu : w = u := by
        have h1 := hfind b
        simpa [cellFind] using h1
      subst hwu
      congr 1
      refine ih (fun a => ?_) (List.pairwise_cons.1 hm).2 (List.pairwise_cons.1 hp).2
      by_cases hab : a ≤ b
      · rw [Rising.tail_find hm hab, Rising.tail_find hp hab]
      · have hne : b ≠ a := by omega
        simpa [cellFind, hne] using hfind a

/-- The arrays of reset are canonical. -/
theorem Memory.empty_wf (size : Nat) : Memory.wf size [] := by simp [Memory.wf]

/-- The words that bootstrap stores keep the canonical form of an array that has room for them. -/
theorem bootWords_wf {m : Scratch} {p : Memory} {k size : Nat} (hk : k ≤ size) (h : Memory.wf size p) :
    Memory.wf size (bootWords m p k) := by
  induction k with
  | zero => exact h
  | succ k ih => exact Memory.write_wf _ (by omega) (ih (by omega))

/-- What P holds after a bootstrap of k words. -/
theorem read_bootWords (m : Scratch) (p : Memory) (k a : Nat) :
    (bootWords m p k).read a = if a < k then bootWord m a else p.read a := by
  induction k with
  | zero => simp [bootWords]
  | succ k ih =>
    unfold bootWords
    by_cases h : a = k
    · subst h
      simp
    · rw [Memory.read_write_other _ _ h, ih]
      by_cases h1 : a < k
      · simp [h1, Nat.lt_succ_of_lt h1]
      · have h2 : ¬ a < k + 1 := by omega
        simp [h1, h2]

/-! ### Scratch memory -/

@[simp] theorem Scratch.read_write_self (m : Scratch) (a : Nat) (v : Byte) : (m.write a v).read a = v := by
  simp [Scratch.write, Scratch.read, cellFind_insert_self]

theorem Scratch.read_write_other (m : Scratch) {a b : Nat} (v : Byte) (h : b ≠ a) : (m.write a v).read b = m.read b := by
  simp [Scratch.write, Scratch.read, cellFind_insert_other m a b v h]

theorem Scratch.write_wf {m : Scratch} (a : Nat) (v : Byte) (h : Scratch.wf m) : Scratch.wf (m.write a v) :=
  cellInsert_rising a v h

/-- A run of bytes keeps the canonical form. -/
theorem writeBytes_wf {m : Scratch} {a : Nat} {bs : List Byte} (h : Scratch.wf m) : Scratch.wf (writeBytes m a bs) := by
  induction bs generalizing m a with
  | nil => exact h
  | cons b rest ih => exact ih (Scratch.write_wf a b h)

/-- A run of bytes leaves the bytes below it. -/
theorem read_writeBytes_below (m : Scratch) (a : Nat) (bs : List Byte) {b : Nat} (h : b < a) : (writeBytes m a bs).read b = m.read b := by
  induction bs generalizing m a with
  | nil => rfl
  | cons x rest ih =>
    rw [writeBytes, ih _ _ (by omega), Scratch.read_write_other _ _ (by omega)]

/-- A run of bytes leaves the bytes past it. -/
theorem read_writeBytes_above (m : Scratch) (a : Nat) (bs : List Byte) {b : Nat} (h : a + bs.length ≤ b) :
    (writeBytes m a bs).read b = m.read b := by
  induction bs generalizing m a with
  | nil => rfl
  | cons x rest ih =>
    simp only [List.length_cons] at h
    rw [writeBytes, ih _ _ (by omega), Scratch.read_write_other _ _ (by omega)]

/-- The bytes of a run read back. -/
theorem read_writeBytes_inside (m : Scratch) (a : Nat) (bs : List Byte) {k : Nat} (h : k < bs.length) :
    (writeBytes m a bs).read (a + k) = bs[k] := by
  induction bs generalizing m a k with
  | nil => exact absurd h (Nat.not_lt_zero k)
  | cons x rest ih =>
    cases k with
    | zero =>
      rw [writeBytes, read_writeBytes_below _ _ _ (by omega)]
      simp
    | succ k =>
      have hk : k < rest.length := by simpa using h
      have := ih (m.write a x) (a + 1) hk
      rw [writeBytes, List.getElem_cons_succ, ← this]
      congr 1
      omega

/-! ### Accesses to the state's arrays -/

/-- An X address selects a cell inside its array. -/
theorem xCell_bound {a : Word} {c : XCell} (h : xCell a = .ok c) :
    (∃ k, c = .mix k ∧ k < Config.mixSize) ∨ (∃ k, c = .ram k ∧ k < Config.xramSize) := by
  unfold xCell at h
  split at h
  · cases h
  split at h
  · cases h
    exact .inl ⟨_, rfl, by omega⟩
  split at h
  · cases h
    exact .inl ⟨_, rfl, by omega⟩
  split at h
  · cases h
    exact .inr ⟨_, rfl, by assumption⟩
  · cases h

/-- What a store to P does. -/
theorem writeP_ok {s t : State} {a v : Word} (h : writeP s a v = .ok t) :
    a.toNat < Config.pramSize ∧ t = { s with pram := s.pram.write a.toNat v } := by
  unfold writeP at h
  split at h
  · cases h
    exact ⟨by assumption, rfl⟩
  · cases h

/-- What a store to Y does. -/
theorem writeY_ok {s t : State} {a v : Word} (h : writeY s a v = .ok t) :
    a.toNat < Config.yramSize ∧ t = { s with yram := s.yram.write a.toNat v } := by
  unfold writeY at h
  split at h
  · cases h
    exact ⟨by assumption, rfl⟩
  · cases h

/-- What a store to X below the peripheral window does. -/
theorem writeXData_ok {s t : State} {a v : Word} (h : writeXData s a v = .ok t) :
    (∃ k, xCell a = .ok (.mix k) ∧ k < Config.mixSize ∧ t = { s with mixbuffer := s.mixbuffer.write k v }) ∨
    (∃ k, xCell a = .ok (.ram k) ∧ k < Config.xramSize ∧ t = { s with xram := s.xram.write k v }) := by
  unfold writeXData at h
  split at h
  · rename_i k hk
    cases h
    rcases xCell_bound hk with ⟨j, hj, hb⟩ | ⟨j, hj, -⟩
    · cases hj
      exact .inl ⟨k, hk, hb, rfl⟩
    · cases hj
  · rename_i k hk
    cases h
    rcases xCell_bound hk with ⟨j, hj, -⟩ | ⟨j, hj, hb⟩
    · cases hj
    · cases hj
      exact .inr ⟨k, hk, hb, rfl⟩
  · cases h

end Sys2Proof.Machine
end

