-- ==== Sys2Proof/Laws/State.lean ====
section
/-! SUPPORT. One lemma per field per named update of State: what the update leaves as it was, and what it writes. -/

namespace Sys2Proof.Machine

/-! ### setR -/

@[simp] theorem setR_pc (s : State) (i : Fin 8) (v : Word) : (setR s i v).pc = s.pc := rfl
@[simp] theorem setR_x0 (s : State) (i : Fin 8) (v : Word) : (setR s i v).x0 = s.x0 := rfl
@[simp] theorem setR_x1 (s : State) (i : Fin 8) (v : Word) : (setR s i v).x1 = s.x1 := rfl
@[simp] theorem setR_y0 (s : State) (i : Fin 8) (v : Word) : (setR s i v).y0 = s.y0 := rfl
@[simp] theorem setR_y1 (s : State) (i : Fin 8) (v : Word) : (setR s i v).y1 = s.y1 := rfl
@[simp] theorem setR_a (s : State) (i : Fin 8) (v : Word) : (setR s i v).a = s.a := rfl
@[simp] theorem setR_b (s : State) (i : Fin 8) (v : Word) : (setR s i v).b = s.b := rfl
@[simp] theorem setR_r (s : State) (i : Fin 8) (v : Word) : (setR s i v).r = s.r.set i v := rfl
@[simp] theorem setR_n (s : State) (i : Fin 8) (v : Word) : (setR s i v).n = s.n := rfl
@[simp] theorem setR_m (s : State) (i : Fin 8) (v : Word) : (setR s i v).m = s.m := rfl
@[simp] theorem setR_sr (s : State) (i : Fin 8) (v : Word) : (setR s i v).sr = s.sr := rfl
@[simp] theorem setR_omr (s : State) (i : Fin 8) (v : Word) : (setR s i v).omr = s.omr := rfl
@[simp] theorem setR_sp (s : State) (i : Fin 8) (v : Word) : (setR s i v).sp = s.sp := rfl
@[simp] theorem setR_ssh (s : State) (i : Fin 8) (v : Word) : (setR s i v).ssh = s.ssh := rfl
@[simp] theorem setR_ssl (s : State) (i : Fin 8) (v : Word) : (setR s i v).ssl = s.ssl := rfl
@[simp] theorem setR_stackH (s : State) (i : Fin 8) (v : Word) : (setR s i v).stackH = s.stackH := rfl
@[simp] theorem setR_stackL (s : State) (i : Fin 8) (v : Word) : (setR s i v).stackL = s.stackL := rfl
@[simp] theorem setR_la (s : State) (i : Fin 8) (v : Word) : (setR s i v).la = s.la := rfl
@[simp] theorem setR_lc (s : State) (i : Fin 8) (v : Word) : (setR s i v).lc = s.lc := rfl
@[simp] theorem setR_loopRep (s : State) (i : Fin 8) (v : Word) : (setR s i v).loopRep = s.loopRep := rfl
@[simp] theorem setR_pcOnRep (s : State) (i : Fin 8) (v : Word) : (setR s i v).pcOnRep = s.pcOnRep := rfl
@[simp] theorem setR_lcSaved (s : State) (i : Fin 8) (v : Word) : (setR s i v).lcSaved = s.lcSaved := rfl
@[simp] theorem setR_pending (s : State) (i : Fin 8) (v : Word) : (setR s i v).pending = s.pending := rfl
@[simp] theorem setR_ipl (s : State) (i : Fin 8) (v : Word) : (setR s i v).ipl = s.ipl := rfl
@[simp] theorem setR_pendingCount (s : State) (i : Fin 8) (v : Word) : (setR s i v).pendingCount = s.pendingCount := rfl
@[simp] theorem setR_interruptState (s : State) (i : Fin 8) (v : Word) : (setR s i v).interruptState = s.interruptState := rfl
@[simp] theorem setR_pipelineCount (s : State) (i : Fin 8) (v : Word) : (setR s i v).pipelineCount = s.pipelineCount := rfl
@[simp] theorem setR_instrFetch (s : State) (i : Fin 8) (v : Word) : (setR s i v).instrFetch = s.instrFetch := rfl
@[simp] theorem setR_savePc (s : State) (i : Fin 8) (v : Word) : (setR s i v).savePc = s.savePc := rfl
@[simp] theorem setR_iplToRaise (s : State) (i : Fin 8) (v : Word) : (setR s i v).iplToRaise = s.iplToRaise := rfl
@[simp] theorem setR_longTaken (s : State) (i : Fin 8) (v : Word) : (setR s i v).longTaken = s.longTaken := rfl
@[simp] theorem setR_instrCycle (s : State) (i : Fin 8) (v : Word) : (setR s i v).instrCycle = s.instrCycle := rfl
@[simp] theorem setR_instrCount (s : State) (i : Fin 8) (v : Word) : (setR s i v).instrCount = s.instrCount := rfl
@[simp] theorem setR_budget (s : State) (i : Fin 8) (v : Word) : (setR s i v).budget = s.budget := rfl
@[simp] theorem setR_len (s : State) (i : Fin 8) (v : Word) : (setR s i v).len = s.len := rfl
@[simp] theorem setR_fatal (s : State) (i : Fin 8) (v : Word) : (setR s i v).fatal = s.fatal := rfl
@[simp] theorem setR_xram (s : State) (i : Fin 8) (v : Word) : (setR s i v).xram = s.xram := rfl
@[simp] theorem setR_yram (s : State) (i : Fin 8) (v : Word) : (setR s i v).yram = s.yram := rfl
@[simp] theorem setR_pram (s : State) (i : Fin 8) (v : Word) : (setR s i v).pram = s.pram := rfl
@[simp] theorem setR_mixbuffer (s : State) (i : Fin 8) (v : Word) : (setR s i v).mixbuffer = s.mixbuffer := rfl
@[simp] theorem setR_periph (s : State) (i : Fin 8) (v : Word) : (setR s i v).periph = s.periph := rfl
@[simp] theorem setR_dmaConfig (s : State) (i : Fin 8) (v : Word) : (setR s i v).dmaConfig = s.dmaConfig := rfl
@[simp] theorem setR_dmaControl (s : State) (i : Fin 8) (v : Word) : (setR s i v).dmaControl = s.dmaControl := rfl
@[simp] theorem setR_dmaStart (s : State) (i : Fin 8) (v : Word) : (setR s i v).dmaStart = s.dmaStart := rfl
@[simp] theorem setR_dmaNext (s : State) (i : Fin 8) (v : Word) : (setR s i v).dmaNext = s.dmaNext := rfl
@[simp] theorem setR_eol (s : State) (i : Fin 8) (v : Word) : (setR s i v).eol = s.eol := rfl
@[simp] theorem setR_scratch (s : State) (i : Fin 8) (v : Word) : (setR s i v).scratch = s.scratch := rfl
@[simp] theorem setR_draws (s : State) (i : Fin 8) (v : Word) : (setR s i v).draws = s.draws := rfl

/-! ### setN -/

@[simp] theorem setN_pc (s : State) (i : Fin 8) (v : Word) : (setN s i v).pc = s.pc := rfl
@[simp] theorem setN_x0 (s : State) (i : Fin 8) (v : Word) : (setN s i v).x0 = s.x0 := rfl
@[simp] theorem setN_x1 (s : State) (i : Fin 8) (v : Word) : (setN s i v).x1 = s.x1 := rfl
@[simp] theorem setN_y0 (s : State) (i : Fin 8) (v : Word) : (setN s i v).y0 = s.y0 := rfl
@[simp] theorem setN_y1 (s : State) (i : Fin 8) (v : Word) : (setN s i v).y1 = s.y1 := rfl
@[simp] theorem setN_a (s : State) (i : Fin 8) (v : Word) : (setN s i v).a = s.a := rfl
@[simp] theorem setN_b (s : State) (i : Fin 8) (v : Word) : (setN s i v).b = s.b := rfl
@[simp] theorem setN_r (s : State) (i : Fin 8) (v : Word) : (setN s i v).r = s.r := rfl
@[simp] theorem setN_n (s : State) (i : Fin 8) (v : Word) : (setN s i v).n = s.n.set i v := rfl
@[simp] theorem setN_m (s : State) (i : Fin 8) (v : Word) : (setN s i v).m = s.m := rfl
@[simp] theorem setN_sr (s : State) (i : Fin 8) (v : Word) : (setN s i v).sr = s.sr := rfl
@[simp] theorem setN_omr (s : State) (i : Fin 8) (v : Word) : (setN s i v).omr = s.omr := rfl
@[simp] theorem setN_sp (s : State) (i : Fin 8) (v : Word) : (setN s i v).sp = s.sp := rfl
@[simp] theorem setN_ssh (s : State) (i : Fin 8) (v : Word) : (setN s i v).ssh = s.ssh := rfl
@[simp] theorem setN_ssl (s : State) (i : Fin 8) (v : Word) : (setN s i v).ssl = s.ssl := rfl
@[simp] theorem setN_stackH (s : State) (i : Fin 8) (v : Word) : (setN s i v).stackH = s.stackH := rfl
@[simp] theorem setN_stackL (s : State) (i : Fin 8) (v : Word) : (setN s i v).stackL = s.stackL := rfl
@[simp] theorem setN_la (s : State) (i : Fin 8) (v : Word) : (setN s i v).la = s.la := rfl
@[simp] theorem setN_lc (s : State) (i : Fin 8) (v : Word) : (setN s i v).lc = s.lc := rfl
@[simp] theorem setN_loopRep (s : State) (i : Fin 8) (v : Word) : (setN s i v).loopRep = s.loopRep := rfl
@[simp] theorem setN_pcOnRep (s : State) (i : Fin 8) (v : Word) : (setN s i v).pcOnRep = s.pcOnRep := rfl
@[simp] theorem setN_lcSaved (s : State) (i : Fin 8) (v : Word) : (setN s i v).lcSaved = s.lcSaved := rfl
@[simp] theorem setN_pending (s : State) (i : Fin 8) (v : Word) : (setN s i v).pending = s.pending := rfl
@[simp] theorem setN_ipl (s : State) (i : Fin 8) (v : Word) : (setN s i v).ipl = s.ipl := rfl
@[simp] theorem setN_pendingCount (s : State) (i : Fin 8) (v : Word) : (setN s i v).pendingCount = s.pendingCount := rfl
@[simp] theorem setN_interruptState (s : State) (i : Fin 8) (v : Word) : (setN s i v).interruptState = s.interruptState := rfl
@[simp] theorem setN_pipelineCount (s : State) (i : Fin 8) (v : Word) : (setN s i v).pipelineCount = s.pipelineCount := rfl
@[simp] theorem setN_instrFetch (s : State) (i : Fin 8) (v : Word) : (setN s i v).instrFetch = s.instrFetch := rfl
@[simp] theorem setN_savePc (s : State) (i : Fin 8) (v : Word) : (setN s i v).savePc = s.savePc := rfl
@[simp] theorem setN_iplToRaise (s : State) (i : Fin 8) (v : Word) : (setN s i v).iplToRaise = s.iplToRaise := rfl
@[simp] theorem setN_longTaken (s : State) (i : Fin 8) (v : Word) : (setN s i v).longTaken = s.longTaken := rfl
@[simp] theorem setN_instrCycle (s : State) (i : Fin 8) (v : Word) : (setN s i v).instrCycle = s.instrCycle := rfl
@[simp] theorem setN_instrCount (s : State) (i : Fin 8) (v : Word) : (setN s i v).instrCount = s.instrCount := rfl
@[simp] theorem setN_budget (s : State) (i : Fin 8) (v : Word) : (setN s i v).budget = s.budget := rfl
@[simp] theorem setN_len (s : State) (i : Fin 8) (v : Word) : (setN s i v).len = s.len := rfl
@[simp] theorem setN_fatal (s : State) (i : Fin 8) (v : Word) : (setN s i v).fatal = s.fatal := rfl
@[simp] theorem setN_xram (s : State) (i : Fin 8) (v : Word) : (setN s i v).xram = s.xram := rfl
@[simp] theorem setN_yram (s : State) (i : Fin 8) (v : Word) : (setN s i v).yram = s.yram := rfl
@[simp] theorem setN_pram (s : State) (i : Fin 8) (v : Word) : (setN s i v).pram = s.pram := rfl
@[simp] theorem setN_mixbuffer (s : State) (i : Fin 8) (v : Word) : (setN s i v).mixbuffer = s.mixbuffer := rfl
@[simp] theorem setN_periph (s : State) (i : Fin 8) (v : Word) : (setN s i v).periph = s.periph := rfl
@[simp] theorem setN_dmaConfig (s : State) (i : Fin 8) (v : Word) : (setN s i v).dmaConfig = s.dmaConfig := rfl
@[simp] theorem setN_dmaControl (s : State) (i : Fin 8) (v : Word) : (setN s i v).dmaControl = s.dmaControl := rfl
@[simp] theorem setN_dmaStart (s : State) (i : Fin 8) (v : Word) : (setN s i v).dmaStart = s.dmaStart := rfl
@[simp] theorem setN_dmaNext (s : State) (i : Fin 8) (v : Word) : (setN s i v).dmaNext = s.dmaNext := rfl
@[simp] theorem setN_eol (s : State) (i : Fin 8) (v : Word) : (setN s i v).eol = s.eol := rfl
@[simp] theorem setN_scratch (s : State) (i : Fin 8) (v : Word) : (setN s i v).scratch = s.scratch := rfl
@[simp] theorem setN_draws (s : State) (i : Fin 8) (v : Word) : (setN s i v).draws = s.draws := rfl

/-! ### setM -/

@[simp] theorem setM_pc (s : State) (i : Fin 8) (v : Word) : (setM s i v).pc = s.pc := rfl
@[simp] theorem setM_x0 (s : State) (i : Fin 8) (v : Word) : (setM s i v).x0 = s.x0 := rfl
@[simp] theorem setM_x1 (s : State) (i : Fin 8) (v : Word) : (setM s i v).x1 = s.x1 := rfl
@[simp] theorem setM_y0 (s : State) (i : Fin 8) (v : Word) : (setM s i v).y0 = s.y0 := rfl
@[simp] theorem setM_y1 (s : State) (i : Fin 8) (v : Word) : (setM s i v).y1 = s.y1 := rfl
@[simp] theorem setM_a (s : State) (i : Fin 8) (v : Word) : (setM s i v).a = s.a := rfl
@[simp] theorem setM_b (s : State) (i : Fin 8) (v : Word) : (setM s i v).b = s.b := rfl
@[simp] theorem setM_r (s : State) (i : Fin 8) (v : Word) : (setM s i v).r = s.r := rfl
@[simp] theorem setM_n (s : State) (i : Fin 8) (v : Word) : (setM s i v).n = s.n := rfl
@[simp] theorem setM_m (s : State) (i : Fin 8) (v : Word) : (setM s i v).m = s.m.set i v := rfl
@[simp] theorem setM_sr (s : State) (i : Fin 8) (v : Word) : (setM s i v).sr = s.sr := rfl
@[simp] theorem setM_omr (s : State) (i : Fin 8) (v : Word) : (setM s i v).omr = s.omr := rfl
@[simp] theorem setM_sp (s : State) (i : Fin 8) (v : Word) : (setM s i v).sp = s.sp := rfl
@[simp] theorem setM_ssh (s : State) (i : Fin 8) (v : Word) : (setM s i v).ssh = s.ssh := rfl
@[simp] theorem setM_ssl (s : State) (i : Fin 8) (v : Word) : (setM s i v).ssl = s.ssl := rfl
@[simp] theorem setM_stackH (s : State) (i : Fin 8) (v : Word) : (setM s i v).stackH = s.stackH := rfl
@[simp] theorem setM_stackL (s : State) (i : Fin 8) (v : Word) : (setM s i v).stackL = s.stackL := rfl
@[simp] theorem setM_la (s : State) (i : Fin 8) (v : Word) : (setM s i v).la = s.la := rfl
@[simp] theorem setM_lc (s : State) (i : Fin 8) (v : Word) : (setM s i v).lc = s.lc := rfl
@[simp] theorem setM_loopRep (s : State) (i : Fin 8) (v : Word) : (setM s i v).loopRep = s.loopRep := rfl
@[simp] theorem setM_pcOnRep (s : State) (i : Fin 8) (v : Word) : (setM s i v).pcOnRep = s.pcOnRep := rfl
@[simp] theorem setM_lcSaved (s : State) (i : Fin 8) (v : Word) : (setM s i v).lcSaved = s.lcSaved := rfl
@[simp] theorem setM_pending (s : State) (i : Fin 8) (v : Word) : (setM s i v).pending = s.pending := rfl
@[simp] theorem setM_ipl (s : State) (i : Fin 8) (v : Word) : (setM s i v).ipl = s.ipl := rfl
@[simp] theorem setM_pendingCount (s : State) (i : Fin 8) (v : Word) : (setM s i v).pendingCount = s.pendingCount := rfl
@[simp] theorem setM_interruptState (s : State) (i : Fin 8) (v : Word) : (setM s i v).interruptState = s.interruptState := rfl
@[simp] theorem setM_pipelineCount (s : State) (i : Fin 8) (v : Word) : (setM s i v).pipelineCount = s.pipelineCount := rfl
@[simp] theorem setM_instrFetch (s : State) (i : Fin 8) (v : Word) : (setM s i v).instrFetch = s.instrFetch := rfl
@[simp] theorem setM_savePc (s : State) (i : Fin 8) (v : Word) : (setM s i v).savePc = s.savePc := rfl
@[simp] theorem setM_iplToRaise (s : State) (i : Fin 8) (v : Word) : (setM s i v).iplToRaise = s.iplToRaise := rfl
@[simp] theorem setM_longTaken (s : State) (i : Fin 8) (v : Word) : (setM s i v).longTaken = s.longTaken := rfl
@[simp] theorem setM_instrCycle (s : State) (i : Fin 8) (v : Word) : (setM s i v).instrCycle = s.instrCycle := rfl
@[simp] theorem setM_instrCount (s : State) (i : Fin 8) (v : Word) : (setM s i v).instrCount = s.instrCount := rfl
@[simp] theorem setM_budget (s : State) (i : Fin 8) (v : Word) : (setM s i v).budget = s.budget := rfl
@[simp] theorem setM_len (s : State) (i : Fin 8) (v : Word) : (setM s i v).len = s.len := rfl
@[simp] theorem setM_fatal (s : State) (i : Fin 8) (v : Word) : (setM s i v).fatal = s.fatal := rfl
@[simp] theorem setM_xram (s : State) (i : Fin 8) (v : Word) : (setM s i v).xram = s.xram := rfl
@[simp] theorem setM_yram (s : State) (i : Fin 8) (v : Word) : (setM s i v).yram = s.yram := rfl
@[simp] theorem setM_pram (s : State) (i : Fin 8) (v : Word) : (setM s i v).pram = s.pram := rfl
@[simp] theorem setM_mixbuffer (s : State) (i : Fin 8) (v : Word) : (setM s i v).mixbuffer = s.mixbuffer := rfl
@[simp] theorem setM_periph (s : State) (i : Fin 8) (v : Word) : (setM s i v).periph = s.periph := rfl
@[simp] theorem setM_dmaConfig (s : State) (i : Fin 8) (v : Word) : (setM s i v).dmaConfig = s.dmaConfig := rfl
@[simp] theorem setM_dmaControl (s : State) (i : Fin 8) (v : Word) : (setM s i v).dmaControl = s.dmaControl := rfl
@[simp] theorem setM_dmaStart (s : State) (i : Fin 8) (v : Word) : (setM s i v).dmaStart = s.dmaStart := rfl
@[simp] theorem setM_dmaNext (s : State) (i : Fin 8) (v : Word) : (setM s i v).dmaNext = s.dmaNext := rfl
@[simp] theorem setM_eol (s : State) (i : Fin 8) (v : Word) : (setM s i v).eol = s.eol := rfl
@[simp] theorem setM_scratch (s : State) (i : Fin 8) (v : Word) : (setM s i v).scratch = s.scratch := rfl
@[simp] theorem setM_draws (s : State) (i : Fin 8) (v : Word) : (setM s i v).draws = s.draws := rfl

/-! ### setSr -/

@[simp] theorem setSr_pc (s : State) (v : BitVec 16) : (setSr s v).pc = s.pc := rfl
@[simp] theorem setSr_x0 (s : State) (v : BitVec 16) : (setSr s v).x0 = s.x0 := rfl
@[simp] theorem setSr_x1 (s : State) (v : BitVec 16) : (setSr s v).x1 = s.x1 := rfl
@[simp] theorem setSr_y0 (s : State) (v : BitVec 16) : (setSr s v).y0 = s.y0 := rfl
@[simp] theorem setSr_y1 (s : State) (v : BitVec 16) : (setSr s v).y1 = s.y1 := rfl
@[simp] theorem setSr_a (s : State) (v : BitVec 16) : (setSr s v).a = s.a := rfl
@[simp] theorem setSr_b (s : State) (v : BitVec 16) : (setSr s v).b = s.b := rfl
@[simp] theorem setSr_r (s : State) (v : BitVec 16) : (setSr s v).r = s.r := rfl
@[simp] theorem setSr_n (s : State) (v : BitVec 16) : (setSr s v).n = s.n := rfl
@[simp] theorem setSr_m (s : State) (v : BitVec 16) : (setSr s v).m = s.m := rfl
@[simp] theorem setSr_sr (s : State) (v : BitVec 16) : (setSr s v).sr = v := rfl
@[simp] theorem setSr_omr (s : State) (v : BitVec 16) : (setSr s v).omr = s.omr := rfl
@[simp] theorem setSr_sp (s : State) (v : BitVec 16) : (setSr s v).sp = s.sp := rfl
@[simp] theorem setSr_ssh (s : State) (v : BitVec 16) : (setSr s v).ssh = s.ssh := rfl
@[simp] theorem setSr_ssl (s : State) (v : BitVec 16) : (setSr s v).ssl = s.ssl := rfl
@[simp] theorem setSr_stackH (s : State) (v : BitVec 16) : (setSr s v).stackH = s.stackH := rfl
@[simp] theorem setSr_stackL (s : State) (v : BitVec 16) : (setSr s v).stackL = s.stackL := rfl
@[simp] theorem setSr_la (s : State) (v : BitVec 16) : (setSr s v).la = s.la := rfl
@[simp] theorem setSr_lc (s : State) (v : BitVec 16) : (setSr s v).lc = s.lc := rfl
@[simp] theorem setSr_loopRep (s : State) (v : BitVec 16) : (setSr s v).loopRep = s.loopRep := rfl
@[simp] theorem setSr_pcOnRep (s : State) (v : BitVec 16) : (setSr s v).pcOnRep = s.pcOnRep := rfl
@[simp] theorem setSr_lcSaved (s : State) (v : BitVec 16) : (setSr s v).lcSaved = s.lcSaved := rfl
@[simp] theorem setSr_pending (s : State) (v : BitVec 16) : (setSr s v).pending = s.pending := rfl
@[simp] theorem setSr_ipl (s : State) (v : BitVec 16) : (setSr s v).ipl = s.ipl := rfl
@[simp] theorem setSr_pendingCount (s : State) (v : BitVec 16) : (setSr s v).pendingCount = s.pendingCount := rfl
@[simp] theorem setSr_interruptState (s : State) (v : BitVec 16) : (setSr s v).interruptState = s.interruptState := rfl
@[simp] theorem setSr_pipelineCount (s : State) (v : BitVec 16) : (setSr s v).pipelineCount = s.pipelineCount := rfl
@[simp] theorem setSr_instrFetch (s : State) (v : BitVec 16) : (setSr s v).instrFetch = s.instrFetch := rfl
@[simp] theorem setSr_savePc (s : State) (v : BitVec 16) : (setSr s v).savePc = s.savePc := rfl
@[simp] theorem setSr_iplToRaise (s : State) (v : BitVec 16) : (setSr s v).iplToRaise = s.iplToRaise := rfl
@[simp] theorem setSr_longTaken (s : State) (v : BitVec 16) : (setSr s v).longTaken = s.longTaken := rfl
@[simp] theorem setSr_instrCycle (s : State) (v : BitVec 16) : (setSr s v).instrCycle = s.instrCycle := rfl
@[simp] theorem setSr_instrCount (s : State) (v : BitVec 16) : (setSr s v).instrCount = s.instrCount := rfl
@[simp] theorem setSr_budget (s : State) (v : BitVec 16) : (setSr s v).budget = s.budget := rfl
@[simp] theorem setSr_len (s : State) (v : BitVec 16) : (setSr s v).len = s.len := rfl
@[simp] theorem setSr_fatal (s : State) (v : BitVec 16) : (setSr s v).fatal = s.fatal := rfl
@[simp] theorem setSr_xram (s : State) (v : BitVec 16) : (setSr s v).xram = s.xram := rfl
@[simp] theorem setSr_yram (s : State) (v : BitVec 16) : (setSr s v).yram = s.yram := rfl
@[simp] theorem setSr_pram (s : State) (v : BitVec 16) : (setSr s v).pram = s.pram := rfl
@[simp] theorem setSr_mixbuffer (s : State) (v : BitVec 16) : (setSr s v).mixbuffer = s.mixbuffer := rfl
@[simp] theorem setSr_periph (s : State) (v : BitVec 16) : (setSr s v).periph = s.periph := rfl
@[simp] theorem setSr_dmaConfig (s : State) (v : BitVec 16) : (setSr s v).dmaConfig = s.dmaConfig := rfl
@[simp] theorem setSr_dmaControl (s : State) (v : BitVec 16) : (setSr s v).dmaControl = s.dmaControl := rfl
@[simp] theorem setSr_dmaStart (s : State) (v : BitVec 16) : (setSr s v).dmaStart = s.dmaStart := rfl
@[simp] theorem setSr_dmaNext (s : State) (v : BitVec 16) : (setSr s v).dmaNext = s.dmaNext := rfl
@[simp] theorem setSr_eol (s : State) (v : BitVec 16) : (setSr s v).eol = s.eol := rfl
@[simp] theorem setSr_scratch (s : State) (v : BitVec 16) : (setSr s v).scratch = s.scratch := rfl
@[simp] theorem setSr_draws (s : State) (v : BitVec 16) : (setSr s v).draws = s.draws := rfl

/-! ### setPc -/

@[simp] theorem setPc_pc (s : State) (v : Word) : (setPc s v).pc = v := rfl
@[simp] theorem setPc_x0 (s : State) (v : Word) : (setPc s v).x0 = s.x0 := rfl
@[simp] theorem setPc_x1 (s : State) (v : Word) : (setPc s v).x1 = s.x1 := rfl
@[simp] theorem setPc_y0 (s : State) (v : Word) : (setPc s v).y0 = s.y0 := rfl
@[simp] theorem setPc_y1 (s : State) (v : Word) : (setPc s v).y1 = s.y1 := rfl
@[simp] theorem setPc_a (s : State) (v : Word) : (setPc s v).a = s.a := rfl
@[simp] theorem setPc_b (s : State) (v : Word) : (setPc s v).b = s.b := rfl
@[simp] theorem setPc_r (s : State) (v : Word) : (setPc s v).r = s.r := rfl
@[simp] theorem setPc_n (s : State) (v : Word) : (setPc s v).n = s.n := rfl
@[simp] theorem setPc_m (s : State) (v : Word) : (setPc s v).m = s.m := rfl
@[simp] theorem setPc_sr (s : State) (v : Word) : (setPc s v).sr = s.sr := rfl
@[simp] theorem setPc_omr (s : State) (v : Word) : (setPc s v).omr = s.omr := rfl
@[simp] theorem setPc_sp (s : State) (v : Word) : (setPc s v).sp = s.sp := rfl
@[simp] theorem setPc_ssh (s : State) (v : Word) : (setPc s v).ssh = s.ssh := rfl
@[simp] theorem setPc_ssl (s : State) (v : Word) : (setPc s v).ssl = s.ssl := rfl
@[simp] theorem setPc_stackH (s : State) (v : Word) : (setPc s v).stackH = s.stackH := rfl
@[simp] theorem setPc_stackL (s : State) (v : Word) : (setPc s v).stackL = s.stackL := rfl
@[simp] theorem setPc_la (s : State) (v : Word) : (setPc s v).la = s.la := rfl
@[simp] theorem setPc_lc (s : State) (v : Word) : (setPc s v).lc = s.lc := rfl
@[simp] theorem setPc_loopRep (s : State) (v : Word) : (setPc s v).loopRep = s.loopRep := rfl
@[simp] theorem setPc_pcOnRep (s : State) (v : Word) : (setPc s v).pcOnRep = s.pcOnRep := rfl
@[simp] theorem setPc_lcSaved (s : State) (v : Word) : (setPc s v).lcSaved = s.lcSaved := rfl
@[simp] theorem setPc_pending (s : State) (v : Word) : (setPc s v).pending = s.pending := rfl
@[simp] theorem setPc_ipl (s : State) (v : Word) : (setPc s v).ipl = s.ipl := rfl
@[simp] theorem setPc_pendingCount (s : State) (v : Word) : (setPc s v).pendingCount = s.pendingCount := rfl
@[simp] theorem setPc_interruptState (s : State) (v : Word) : (setPc s v).interruptState = s.interruptState := rfl
@[simp] theorem setPc_pipelineCount (s : State) (v : Word) : (setPc s v).pipelineCount = s.pipelineCount := rfl
@[simp] theorem setPc_instrFetch (s : State) (v : Word) : (setPc s v).instrFetch = s.instrFetch := rfl
@[simp] theorem setPc_savePc (s : State) (v : Word) : (setPc s v).savePc = s.savePc := rfl
@[simp] theorem setPc_iplToRaise (s : State) (v : Word) : (setPc s v).iplToRaise = s.iplToRaise := rfl
@[simp] theorem setPc_longTaken (s : State) (v : Word) : (setPc s v).longTaken = s.longTaken := rfl
@[simp] theorem setPc_instrCycle (s : State) (v : Word) : (setPc s v).instrCycle = s.instrCycle := rfl
@[simp] theorem setPc_instrCount (s : State) (v : Word) : (setPc s v).instrCount = s.instrCount := rfl
@[simp] theorem setPc_budget (s : State) (v : Word) : (setPc s v).budget = s.budget := rfl
@[simp] theorem setPc_len (s : State) (v : Word) : (setPc s v).len = s.len := rfl
@[simp] theorem setPc_fatal (s : State) (v : Word) : (setPc s v).fatal = s.fatal := rfl
@[simp] theorem setPc_xram (s : State) (v : Word) : (setPc s v).xram = s.xram := rfl
@[simp] theorem setPc_yram (s : State) (v : Word) : (setPc s v).yram = s.yram := rfl
@[simp] theorem setPc_pram (s : State) (v : Word) : (setPc s v).pram = s.pram := rfl
@[simp] theorem setPc_mixbuffer (s : State) (v : Word) : (setPc s v).mixbuffer = s.mixbuffer := rfl
@[simp] theorem setPc_periph (s : State) (v : Word) : (setPc s v).periph = s.periph := rfl
@[simp] theorem setPc_dmaConfig (s : State) (v : Word) : (setPc s v).dmaConfig = s.dmaConfig := rfl
@[simp] theorem setPc_dmaControl (s : State) (v : Word) : (setPc s v).dmaControl = s.dmaControl := rfl
@[simp] theorem setPc_dmaStart (s : State) (v : Word) : (setPc s v).dmaStart = s.dmaStart := rfl
@[simp] theorem setPc_dmaNext (s : State) (v : Word) : (setPc s v).dmaNext = s.dmaNext := rfl
@[simp] theorem setPc_eol (s : State) (v : Word) : (setPc s v).eol = s.eol := rfl
@[simp] theorem setPc_scratch (s : State) (v : Word) : (setPc s v).scratch = s.scratch := rfl
@[simp] theorem setPc_draws (s : State) (v : Word) : (setPc s v).draws = s.draws := rfl

/-! ### jumpTo -/

@[simp] theorem jumpTo_pc (s : State) (t : Word) : (jumpTo s t).pc = t := rfl
@[simp] theorem jumpTo_x0 (s : State) (t : Word) : (jumpTo s t).x0 = s.x0 := rfl
@[simp] theorem jumpTo_x1 (s : State) (t : Word) : (jumpTo s t).x1 = s.x1 := rfl
@[simp] theorem jumpTo_y0 (s : State) (t : Word) : (jumpTo s t).y0 = s.y0 := rfl
@[simp] theorem jumpTo_y1 (s : State) (t : Word) : (jumpTo s t).y1 = s.y1 := rfl
@[simp] theorem jumpTo_a (s : State) (t : Word) : (jumpTo s t).a = s.a := rfl
@[simp] theorem jumpTo_b (s : State) (t : Word) : (jumpTo s t).b = s.b := rfl
@[simp] theorem jumpTo_r (s : State) (t : Word) : (jumpTo s t).r = s.r := rfl
@[simp] theorem jumpTo_n (s : State) (t : Word) : (jumpTo s t).n = s.n := rfl
@[simp] theorem jumpTo_m (s : State) (t : Word) : (jumpTo s t).m = s.m := rfl
@[simp] theorem jumpTo_sr (s : State) (t : Word) : (jumpTo s t).sr = s.sr := rfl
@[simp] theorem jumpTo_omr (s : State) (t : Word) : (jumpTo s t).omr = s.omr := rfl
@[simp] theorem jumpTo_sp (s : State) (t : Word) : (jumpTo s t).sp = s.sp := rfl
@[simp] theorem jumpTo_ssh (s : State) (t : Word) : (jumpTo s t).ssh = s.ssh := rfl
@[simp] theorem jumpTo_ssl (s : State) (t : Word) : (jumpTo s t).ssl = s.ssl := rfl
@[simp] theorem jumpTo_stackH (s : State) (t : Word) : (jumpTo s t).stackH = s.stackH := rfl
@[simp] theorem jumpTo_stackL (s : State) (t : Word) : (jumpTo s t).stackL = s.stackL := rfl
@[simp] theorem jumpTo_la (s : State) (t : Word) : (jumpTo s t).la = s.la := rfl
@[simp] theorem jumpTo_lc (s : State) (t : Word) : (jumpTo s t).lc = s.lc := rfl
@[simp] theorem jumpTo_loopRep (s : State) (t : Word) : (jumpTo s t).loopRep = s.loopRep := rfl
@[simp] theorem jumpTo_pcOnRep (s : State) (t : Word) : (jumpTo s t).pcOnRep = s.pcOnRep := rfl
@[simp] theorem jumpTo_lcSaved (s : State) (t : Word) : (jumpTo s t).lcSaved = s.lcSaved := rfl
@[simp] theorem jumpTo_pending (s : State) (t : Word) : (jumpTo s t).pending = s.pending := rfl
@[simp] theorem jumpTo_ipl (s : State) (t : Word) : (jumpTo s t).ipl = s.ipl := rfl
@[simp] theorem jumpTo_pendingCount (s : State) (t : Word) : (jumpTo s t).pendingCount = s.pendingCount := rfl
@[simp] theorem jumpTo_interruptState (s : State) (t : Word) : (jumpTo s t).interruptState = s.interruptState := rfl
@[simp] theorem jumpTo_pipelineCount (s : State) (t : Word) : (jumpTo s t).pipelineCount = s.pipelineCount := rfl
@[simp] theorem jumpTo_instrFetch (s : State) (t : Word) : (jumpTo s t).instrFetch = s.instrFetch := rfl
@[simp] theorem jumpTo_savePc (s : State) (t : Word) : (jumpTo s t).savePc = s.savePc := rfl
@[simp] theorem jumpTo_iplToRaise (s : State) (t : Word) : (jumpTo s t).iplToRaise = s.iplToRaise := rfl
@[simp] theorem jumpTo_longTaken (s : State) (t : Word) : (jumpTo s t).longTaken = s.longTaken := rfl
@[simp] theorem jumpTo_instrCycle (s : State) (t : Word) : (jumpTo s t).instrCycle = s.instrCycle := rfl
@[simp] theorem jumpTo_instrCount (s : State) (t : Word) : (jumpTo s t).instrCount = s.instrCount := rfl
@[simp] theorem jumpTo_budget (s : State) (t : Word) : (jumpTo s t).budget = s.budget := rfl
@[simp] theorem jumpTo_len (s : State) (t : Word) : (jumpTo s t).len = 0 := rfl
@[simp] theorem jumpTo_fatal (s : State) (t : Word) : (jumpTo s t).fatal = s.fatal := rfl
@[simp] theorem jumpTo_xram (s : State) (t : Word) : (jumpTo s t).xram = s.xram := rfl
@[simp] theorem jumpTo_yram (s : State) (t : Word) : (jumpTo s t).yram = s.yram := rfl
@[simp] theorem jumpTo_pram (s : State) (t : Word) : (jumpTo s t).pram = s.pram := rfl
@[simp] theorem jumpTo_mixbuffer (s : State) (t : Word) : (jumpTo s t).mixbuffer = s.mixbuffer := rfl
@[simp] theorem jumpTo_periph (s : State) (t : Word) : (jumpTo s t).periph = s.periph := rfl
@[simp] theorem jumpTo_dmaConfig (s : State) (t : Word) : (jumpTo s t).dmaConfig = s.dmaConfig := rfl
@[simp] theorem jumpTo_dmaControl (s : State) (t : Word) : (jumpTo s t).dmaControl = s.dmaControl := rfl
@[simp] theorem jumpTo_dmaStart (s : State) (t : Word) : (jumpTo s t).dmaStart = s.dmaStart := rfl
@[simp] theorem jumpTo_dmaNext (s : State) (t : Word) : (jumpTo s t).dmaNext = s.dmaNext := rfl
@[simp] theorem jumpTo_eol (s : State) (t : Word) : (jumpTo s t).eol = s.eol := rfl
@[simp] theorem jumpTo_scratch (s : State) (t : Word) : (jumpTo s t).scratch = s.scratch := rfl
@[simp] theorem jumpTo_draws (s : State) (t : Word) : (jumpTo s t).draws = s.draws := rfl

/-! ### addCycles -/

@[simp] theorem addCycles_pc (s : State) (k : Nat) : (addCycles s k).pc = s.pc := rfl
@[simp] theorem addCycles_x0 (s : State) (k : Nat) : (addCycles s k).x0 = s.x0 := rfl
@[simp] theorem addCycles_x1 (s : State) (k : Nat) : (addCycles s k).x1 = s.x1 := rfl
@[simp] theorem addCycles_y0 (s : State) (k : Nat) : (addCycles s k).y0 = s.y0 := rfl
@[simp] theorem addCycles_y1 (s : State) (k : Nat) : (addCycles s k).y1 = s.y1 := rfl
@[simp] theorem addCycles_a (s : State) (k : Nat) : (addCycles s k).a = s.a := rfl
@[simp] theorem addCycles_b (s : State) (k : Nat) : (addCycles s k).b = s.b := rfl
@[simp] theorem addCycles_r (s : State) (k : Nat) : (addCycles s k).r = s.r := rfl
@[simp] theorem addCycles_n (s : State) (k : Nat) : (addCycles s k).n = s.n := rfl
@[simp] theorem addCycles_m (s : State) (k : Nat) : (addCycles s k).m = s.m := rfl
@[simp] theorem addCycles_sr (s : State) (k : Nat) : (addCycles s k).sr = s.sr := rfl
@[simp] theorem addCycles_omr (s : State) (k : Nat) : (addCycles s k).omr = s.omr := rfl
@[simp] theorem addCycles_sp (s : State) (k : Nat) : (addCycles s k).sp = s.sp := rfl
@[simp] theorem addCycles_ssh (s : State) (k : Nat) : (addCycles s k).ssh = s.ssh := rfl
@[simp] theorem addCycles_ssl (s : State) (k : Nat) : (addCycles s k).ssl = s.ssl := rfl
@[simp] theorem addCycles_stackH (s : State) (k : Nat) : (addCycles s k).stackH = s.stackH := rfl
@[simp] theorem addCycles_stackL (s : State) (k : Nat) : (addCycles s k).stackL = s.stackL := rfl
@[simp] theorem addCycles_la (s : State) (k : Nat) : (addCycles s k).la = s.la := rfl
@[simp] theorem addCycles_lc (s : State) (k : Nat) : (addCycles s k).lc = s.lc := rfl
@[simp] theorem addCycles_loopRep (s : State) (k : Nat) : (addCycles s k).loopRep = s.loopRep := rfl
@[simp] theorem addCycles_pcOnRep (s : State) (k : Nat) : (addCycles s k).pcOnRep = s.pcOnRep := rfl
@[simp] theorem addCycles_lcSaved (s : State) (k : Nat) : (addCycles s k).lcSaved = s.lcSaved := rfl
@[simp] theorem addCycles_pending (s : State) (k : Nat) : (addCycles s k).pending = s.pending := rfl
@[simp] theorem addCycles_ipl (s : State) (k : Nat) : (addCycles s k).ipl = s.ipl := rfl
@[simp] theorem addCycles_pendingCount (s : State) (k : Nat) : (addCycles s k).pendingCount = s.pendingCount := rfl
@[simp] theorem addCycles_interruptState (s : State) (k : Nat) : (addCycles s k).interruptState = s.interruptState := rfl
@[simp] theorem addCycles_pipelineCount (s : State) (k : Nat) : (addCycles s k).pipelineCount = s.pipelineCount := rfl
@[simp] theorem addCycles_instrFetch (s : State) (k : Nat) : (addCycles s k).instrFetch = s.instrFetch := rfl
@[simp] theorem addCycles_savePc (s : State) (k : Nat) : (addCycles s k).savePc = s.savePc := rfl
@[simp] theorem addCycles_iplToRaise (s : State) (k : Nat) : (addCycles s k).iplToRaise = s.iplToRaise := rfl
@[simp] theorem addCycles_longTaken (s : State) (k : Nat) : (addCycles s k).longTaken = s.longTaken := rfl
@[simp] theorem addCycles_instrCycle (s : State) (k : Nat) : (addCycles s k).instrCycle = s.instrCycle + k := rfl
@[simp] theorem addCycles_instrCount (s : State) (k : Nat) : (addCycles s k).instrCount = s.instrCount := rfl
@[simp] theorem addCycles_budget (s : State) (k : Nat) : (addCycles s k).budget = s.budget := rfl
@[simp] theorem addCycles_len (s : State) (k : Nat) : (addCycles s k).len = s.len := rfl
@[simp] theorem addCycles_fatal (s : State) (k : Nat) : (addCycles s k).fatal = s.fatal := rfl
@[simp] theorem addCycles_xram (s : State) (k : Nat) : (addCycles s k).xram = s.xram := rfl
@[simp] theorem addCycles_yram (s : State) (k : Nat) : (addCycles s k).yram = s.yram := rfl
@[simp] theorem addCycles_pram (s : State) (k : Nat) : (addCycles s k).pram = s.pram := rfl
@[simp] theorem addCycles_mixbuffer (s : State) (k : Nat) : (addCycles s k).mixbuffer = s.mixbuffer := rfl
@[simp] theorem addCycles_periph (s : State) (k : Nat) : (addCycles s k).periph = s.periph := rfl
@[simp] theorem addCycles_dmaConfig (s : State) (k : Nat) : (addCycles s k).dmaConfig = s.dmaConfig := rfl
@[simp] theorem addCycles_dmaControl (s : State) (k : Nat) : (addCycles s k).dmaControl = s.dmaControl := rfl
@[simp] theorem addCycles_dmaStart (s : State) (k : Nat) : (addCycles s k).dmaStart = s.dmaStart := rfl
@[simp] theorem addCycles_dmaNext (s : State) (k : Nat) : (addCycles s k).dmaNext = s.dmaNext := rfl
@[simp] theorem addCycles_eol (s : State) (k : Nat) : (addCycles s k).eol = s.eol := rfl
@[simp] theorem addCycles_scratch (s : State) (k : Nat) : (addCycles s k).scratch = s.scratch := rfl
@[simp] theorem addCycles_draws (s : State) (k : Nat) : (addCycles s k).draws = s.draws := rfl

/-! ### takeExtension -/

@[simp] theorem takeExtension_pc (s : State) : (takeExtension s).pc = s.pc := rfl
@[simp] theorem takeExtension_x0 (s : State) : (takeExtension s).x0 = s.x0 := rfl
@[simp] theorem takeExtension_x1 (s : State) : (takeExtension s).x1 = s.x1 := rfl
@[simp] theorem takeExtension_y0 (s : State) : (takeExtension s).y0 = s.y0 := rfl
@[simp] theorem takeExtension_y1 (s : State) : (takeExtension s).y1 = s.y1 := rfl
@[simp] theorem takeExtension_a (s : State) : (takeExtension s).a = s.a := rfl
@[simp] theorem takeExtension_b (s : State) : (takeExtension s).b = s.b := rfl
@[simp] theorem takeExtension_r (s : State) : (takeExtension s).r = s.r := rfl
@[simp] theorem takeExtension_n (s : State) : (takeExtension s).n = s.n := rfl
@[simp] theorem takeExtension_m (s : State) : (takeExtension s).m = s.m := rfl
@[simp] theorem takeExtension_sr (s : State) : (takeExtension s).sr = s.sr := rfl
@[simp] theorem takeExtension_omr (s : State) : (takeExtension s).omr = s.omr := rfl
@[simp] theorem takeExtension_sp (s : State) : (takeExtension s).sp = s.sp := rfl
@[simp] theorem takeExtension_ssh (s : State) : (takeExtension s).ssh = s.ssh := rfl
@[simp] theorem takeExtension_ssl (s : State) : (takeExtension s).ssl = s.ssl := rfl
@[simp] theorem takeExtension_stackH (s : State) : (takeExtension s).stackH = s.stackH := rfl
@[simp] theorem takeExtension_stackL (s : State) : (takeExtension s).stackL = s.stackL := rfl
@[simp] theorem takeExtension_la (s : State) : (takeExtension s).la = s.la := rfl
@[simp] theorem takeExtension_lc (s : State) : (takeExtension s).lc = s.lc := rfl
@[simp] theorem takeExtension_loopRep (s : State) : (takeExtension s).loopRep = s.loopRep := rfl
@[simp] theorem takeExtension_pcOnRep (s : State) : (takeExtension s).pcOnRep = s.pcOnRep := rfl
@[simp] theorem takeExtension_lcSaved (s : State) : (takeExtension s).lcSaved = s.lcSaved := rfl
@[simp] theorem takeExtension_pending (s : State) : (takeExtension s).pending = s.pending := rfl
@[simp] theorem takeExtension_ipl (s : State) : (takeExtension s).ipl = s.ipl := rfl
@[simp] theorem takeExtension_pendingCount (s : State) : (takeExtension s).pendingCount = s.pendingCount := rfl
@[simp] theorem takeExtension_interruptState (s : State) : (takeExtension s).interruptState = s.interruptState := rfl
@[simp] theorem takeExtension_pipelineCount (s : State) : (takeExtension s).pipelineCount = s.pipelineCount := rfl
@[simp] theorem takeExtension_instrFetch (s : State) : (takeExtension s).instrFetch = s.instrFetch := rfl
@[simp] theorem takeExtension_savePc (s : State) : (takeExtension s).savePc = s.savePc := rfl
@[simp] theorem takeExtension_iplToRaise (s : State) : (takeExtension s).iplToRaise = s.iplToRaise := rfl
@[simp] theorem takeExtension_longTaken (s : State) : (takeExtension s).longTaken = s.longTaken := rfl
@[simp] theorem takeExtension_instrCycle (s : State) : (takeExtension s).instrCycle = s.instrCycle + Config.cyclesExtraExtension := rfl
@[simp] theorem takeExtension_instrCount (s : State) : (takeExtension s).instrCount = s.instrCount := rfl
@[simp] theorem takeExtension_budget (s : State) : (takeExtension s).budget = s.budget := rfl
@[simp] theorem takeExtension_len (s : State) : (takeExtension s).len = 2 := rfl
@[simp] theorem takeExtension_fatal (s : State) : (takeExtension s).fatal = s.fatal := rfl
@[simp] theorem takeExtension_xram (s : State) : (takeExtension s).xram = s.xram := rfl
@[simp] theorem takeExtension_yram (s : State) : (takeExtension s).yram = s.yram := rfl
@[simp] theorem takeExtension_pram (s : State) : (takeExtension s).pram = s.pram := rfl
@[simp] theorem takeExtension_mixbuffer (s : State) : (takeExtension s).mixbuffer = s.mixbuffer := rfl
@[simp] theorem takeExtension_periph (s : State) : (takeExtension s).periph = s.periph := rfl
@[simp] theorem takeExtension_dmaConfig (s : State) : (takeExtension s).dmaConfig = s.dmaConfig := rfl
@[simp] theorem takeExtension_dmaControl (s : State) : (takeExtension s).dmaControl = s.dmaControl := rfl
@[simp] theorem takeExtension_dmaStart (s : State) : (takeExtension s).dmaStart = s.dmaStart := rfl
@[simp] theorem takeExtension_dmaNext (s : State) : (takeExtension s).dmaNext = s.dmaNext := rfl
@[simp] theorem takeExtension_eol (s : State) : (takeExtension s).eol = s.eol := rfl
@[simp] theorem takeExtension_scratch (s : State) : (takeExtension s).scratch = s.scratch := rfl
@[simp] theorem takeExtension_draws (s : State) : (takeExtension s).draws = s.draws := rfl

/-! ### beginInstr -/

@[simp] theorem beginInstr_pc (s : State) : (beginInstr s).pc = s.pc := rfl
@[simp] theorem beginInstr_x0 (s : State) : (beginInstr s).x0 = s.x0 := rfl
@[simp] theorem beginInstr_x1 (s : State) : (beginInstr s).x1 = s.x1 := rfl
@[simp] theorem beginInstr_y0 (s : State) : (beginInstr s).y0 = s.y0 := rfl
@[simp] theorem beginInstr_y1 (s : State) : (beginInstr s).y1 = s.y1 := rfl
@[simp] theorem beginInstr_a (s : State) : (beginInstr s).a = s.a := rfl
@[simp] theorem beginInstr_b (s : State) : (beginInstr s).b = s.b := rfl
@[simp] theorem beginInstr_r (s : State) : (beginInstr s).r = s.r := rfl
@[simp] theorem beginInstr_n (s : State) : (beginInstr s).n = s.n := rfl
@[simp] theorem beginInstr_m (s : State) : (beginInstr s).m = s.m := rfl
@[simp] theorem beginInstr_sr (s : State) : (beginInstr s).sr = s.sr := rfl
@[simp] theorem beginInstr_omr (s : State) : (beginInstr s).omr = s.omr := rfl
@[simp] theorem beginInstr_sp (s : State) : (beginInstr s).sp = s.sp := rfl
@[simp] theorem beginInstr_ssh (s : State) : (beginInstr s).ssh = s.ssh := rfl
@[simp] theorem beginInstr_ssl (s : State) : (beginInstr s).ssl = s.ssl := rfl
@[simp] theorem beginInstr_stackH (s : State) : (beginInstr s).stackH = s.stackH := rfl
@[simp] theorem beginInstr_stackL (s : State) : (beginInstr s).stackL = s.stackL := rfl
@[simp] theorem beginInstr_la (s : State) : (beginInstr s).la = s.la := rfl
@[simp] theorem beginInstr_lc (s : State) : (beginInstr s).lc = s.lc := rfl
@[simp] theorem beginInstr_loopRep (s : State) : (beginInstr s).loopRep = s.loopRep := rfl
@[simp] theorem beginInstr_pcOnRep (s : State) : (beginInstr s).pcOnRep = s.pcOnRep := rfl
@[simp] theorem beginInstr_lcSaved (s : State) : (beginInstr s).lcSaved = s.lcSaved := rfl
@[simp] theorem beginInstr_pending (s : State) : (beginInstr s).pending = s.pending := rfl
@[simp] theorem beginInstr_ipl (s : State) : (beginInstr s).ipl = s.ipl := rfl
@[simp] theorem beginInstr_pendingCount (s : State) : (beginInstr s).pendingCount = s.pendingCount := rfl
@[simp] theorem beginInstr_interruptState (s : State) : (beginInstr s).interruptState = s.interruptState := rfl
@[simp] theorem beginInstr_pipelineCount (s : State) : (beginInstr s).pipelineCount = s.pipelineCount := rfl
@[simp] theorem beginInstr_instrFetch (s : State) : (beginInstr s).instrFetch = s.instrFetch := rfl
@[simp] theorem beginInstr_savePc (s : State) : (beginInstr s).savePc = s.savePc := rfl
@[simp] theorem beginInstr_iplToRaise (s : State) : (beginInstr s).iplToRaise = s.iplToRaise := rfl
@[simp] theorem beginInstr_longTaken (s : State) : (beginInstr s).longTaken = s.longTaken := rfl
@[simp] theorem beginInstr_instrCycle (s : State) : (beginInstr s).instrCycle = Config.cyclesDefault := rfl
@[simp] theorem beginInstr_instrCount (s : State) : (beginInstr s).instrCount = s.instrCount := rfl
@[simp] theorem beginInstr_budget (s : State) : (beginInstr s).budget = s.budget := rfl
@[simp] theorem beginInstr_len (s : State) : (beginInstr s).len = 1 := rfl
@[simp] theorem beginInstr_fatal (s : State) : (beginInstr s).fatal = s.fatal := rfl
@[simp] theorem beginInstr_xram (s : State) : (beginInstr s).xram = s.xram := rfl
@[simp] theorem beginInstr_yram (s : State) : (beginInstr s).yram = s.yram := rfl
@[simp] theorem beginInstr_pram (s : State) : (beginInstr s).pram = s.pram := rfl
@[simp] theorem beginInstr_mixbuffer (s : State) : (beginInstr s).mixbuffer = s.mixbuffer := rfl
@[simp] theorem beginInstr_periph (s : State) : (beginInstr s).periph = s.periph := rfl
@[simp] theorem beginInstr_dmaConfig (s : State) : (beginInstr s).dmaConfig = s.dmaConfig := rfl
@[simp] theorem beginInstr_dmaControl (s : State) : (beginInstr s).dmaControl = s.dmaControl := rfl
@[simp] theorem beginInstr_dmaStart (s : State) : (beginInstr s).dmaStart = s.dmaStart := rfl
@[simp] theorem beginInstr_dmaNext (s : State) : (beginInstr s).dmaNext = s.dmaNext := rfl
@[simp] theorem beginInstr_eol (s : State) : (beginInstr s).eol = s.eol := rfl
@[simp] theorem beginInstr_scratch (s : State) : (beginInstr s).scratch = s.scratch := rfl
@[simp] theorem beginInstr_draws (s : State) : (beginInstr s).draws = s.draws := rfl

/-! ### setAcc -/

@[simp] theorem setAcc_pc (s : State) (d : AccSel) (v : Acc) : (setAcc s d v).pc = s.pc := by cases d <;> rfl
@[simp] theorem setAcc_x0 (s : State) (d : AccSel) (v : Acc) : (setAcc s d v).x0 = s.x0 := by cases d <;> rfl
@[simp] theorem setAcc_x1 (s : State) (d : AccSel) (v : Acc) : (setAcc s d v).x1 = s.x1 := by cases d <;> rfl
@[simp] theorem setAcc_y0 (s : State) (d : AccSel) (v : Acc) : (setAcc s d v).y0 = s.y0 := by cases d <;> rfl
@[simp] theorem setAcc_y1 (s : State) (d : AccSel) (v : Acc) : (setAcc s d v).y1 = s.y1 := by cases d <;> rfl
@[simp] theorem setAcc_r (s : State) (d : AccSel) (v : Acc) : (setAcc s d v).r = s.r := by cases d <;> rfl
@[simp] theorem setAcc_n (s : State) (d : AccSel) (v : Acc) : (setAcc s d v).n = s.n := by cases d <;> rfl
@[simp] theorem setAcc_m (s : State) (d : AccSel) (v : Acc) : (setAcc s d v).m = s.m := by cases d <;> rfl
@[simp] theorem setAcc_sr (s : State) (d : AccSel) (v : Acc) : (setAcc s d v).sr = s.sr := by cases d <;> rfl
@[simp] theorem setAcc_omr (s : State) (d : AccSel) (v : Acc) : (setAcc s d v).omr = s.omr := by cases d <;> rfl
@[simp] theorem setAcc_sp (s : State) (d : AccSel) (v : Acc) : (setAcc s d v).sp = s.sp := by cases d <;> rfl
@[simp] theorem setAcc_ssh (s : State) (d : AccSel) (v : Acc) : (setAcc s d v).ssh = s.ssh := by cases d <;> rfl
@[simp] theorem setAcc_ssl (s : State) (d : AccSel) (v : Acc) : (setAcc s d v).ssl = s.ssl := by cases d <;> rfl
@[simp] theorem setAcc_stackH (s : State) (d : AccSel) (v : Acc) : (setAcc s d v).stackH = s.stackH := by cases d <;> rfl
@[simp] theorem setAcc_stackL (s : State) (d : AccSel) (v : Acc) : (setAcc s d v).stackL = s.stackL := by cases d <;> rfl
@[simp] theorem setAcc_la (s : State) (d : AccSel) (v : Acc) : (setAcc s d v).la = s.la := by cases d <;> rfl
@[simp] theorem setAcc_lc (s : State) (d : AccSel) (v : Acc) : (setAcc s d v).lc = s.lc := by cases d <;> rfl
@[simp] theorem setAcc_loopRep (s : State) (d : AccSel) (v : Acc) : (setAcc s d v).loopRep = s.loopRep := by cases d <;> rfl
@[simp] theorem setAcc_pcOnRep (s : State) (d : AccSel) (v : Acc) : (setAcc s d v).pcOnRep = s.pcOnRep := by cases d <;> rfl
@[simp] theorem setAcc_lcSaved (s : State) (d : AccSel) (v : Acc) : (setAcc s d v).lcSaved = s.lcSaved := by cases d <;> rfl
@[simp] theorem setAcc_pending (s : State) (d : AccSel) (v : Acc) : (setAcc s d v).pending = s.pending := by cases d <;> rfl
@[simp] theorem setAcc_ipl (s : State) (d : AccSel) (v : Acc) : (setAcc s d v).ipl = s.ipl := by cases d <;> rfl
@[simp] theorem setAcc_pendingCount (s : State) (d : AccSel) (v : Acc) : (setAcc s d v).pendingCount = s.pendingCount := by cases d <;> rfl
@[simp] theorem setAcc_interruptState (s : State) (d : AccSel) (v : Acc) : (setAcc s d v).interruptState = s.interruptState := by cases d <;> rfl
@[simp] theorem setAcc_pipelineCount (s : State) (d : AccSel) (v : Acc) : (setAcc s d v).pipelineCount = s.pipelineCount := by cases d <;> rfl
@[simp] theorem setAcc_instrFetch (s : State) (d : AccSel) (v : Acc) : (setAcc s d v).instrFetch = s.instrFetch := by cases d <;> rfl
@[simp] theorem setAcc_savePc (s : State) (d : AccSel) (v : Acc) : (setAcc s d v).savePc = s.savePc := by cases d <;> rfl
@[simp] theorem setAcc_iplToRaise (s : State) (d : AccSel) (v : Acc) : (setAcc s d v).iplToRaise = s.iplToRaise := by cases d <;> rfl
@[simp] theorem setAcc_longTaken (s : State) (d : AccSel) (v : Acc) : (setAcc s d v).longTaken = s.longTaken := by cases d <;> rfl
@[simp] theorem setAcc_instrCycle (s : State) (d : AccSel) (v : Acc) : (setAcc s d v).instrCycle = s.instrCycle := by cases d <;> rfl
@[simp] theorem setAcc_instrCount (s : State) (d : AccSel) (v : Acc) : (setAcc s d v).instrCount = s.instrCount := by cases d <;> rfl
@[simp] theorem setAcc_budget (s : State) (d : AccSel) (v : Acc) : (setAcc s d v).budget = s.budget := by cases d <;> rfl
@[simp] theorem setAcc_len (s : State) (d : AccSel) (v : Acc) : (setAcc s d v).len = s.len := by cases d <;> rfl
@[simp] theorem setAcc_fatal (s : State) (d : AccSel) (v : Acc) : (setAcc s d v).fatal = s.fatal := by cases d <;> rfl
@[simp] theorem setAcc_xram (s : State) (d : AccSel) (v : Acc) : (setAcc s d v).xram = s.xram := by cases d <;> rfl
@[simp] theorem setAcc_yram (s : State) (d : AccSel) (v : Acc) : (setAcc s d v).yram = s.yram := by cases d <;> rfl
@[simp] theorem setAcc_pram (s : State) (d : AccSel) (v : Acc) : (setAcc s d v).pram = s.pram := by cases d <;> rfl
@[simp] theorem setAcc_mixbuffer (s : State) (d : AccSel) (v : Acc) : (setAcc s d v).mixbuffer = s.mixbuffer := by cases d <;> rfl
@[simp] theorem setAcc_periph (s : State) (d : AccSel) (v : Acc) : (setAcc s d v).periph = s.periph := by cases d <;> rfl
@[simp] theorem setAcc_dmaConfig (s : State) (d : AccSel) (v : Acc) : (setAcc s d v).dmaConfig = s.dmaConfig := by cases d <;> rfl
@[simp] theorem setAcc_dmaControl (s : State) (d : AccSel) (v : Acc) : (setAcc s d v).dmaControl = s.dmaControl := by cases d <;> rfl
@[simp] theorem setAcc_dmaStart (s : State) (d : AccSel) (v : Acc) : (setAcc s d v).dmaStart = s.dmaStart := by cases d <;> rfl
@[simp] theorem setAcc_dmaNext (s : State) (d : AccSel) (v : Acc) : (setAcc s d v).dmaNext = s.dmaNext := by cases d <;> rfl
@[simp] theorem setAcc_eol (s : State) (d : AccSel) (v : Acc) : (setAcc s d v).eol = s.eol := by cases d <;> rfl
@[simp] theorem setAcc_scratch (s : State) (d : AccSel) (v : Acc) : (setAcc s d v).scratch = s.scratch := by cases d <;> rfl
@[simp] theorem setAcc_draws (s : State) (d : AccSel) (v : Acc) : (setAcc s d v).draws = s.draws := by cases d <;> rfl

/-! ### post -/

@[simp] theorem post_pc (src : IrqSource) (s : State) : (post src s).pc = s.pc := by unfold post; (repeat' split) <;> rfl
@[simp] theorem post_x0 (src : IrqSource) (s : State) : (post src s).x0 = s.x0 := by unfold post; (repeat' split) <;> rfl
@[simp] theorem post_x1 (src : IrqSource) (s : State) : (post src s).x1 = s.x1 := by unfold post; (repeat' split) <;> rfl
@[simp] theorem post_y0 (src : IrqSource) (s : State) : (post src s).y0 = s.y0 := by unfold post; (repeat' split) <;> rfl
@[simp] theorem post_y1 (src : IrqSource) (s : State) : (post src s).y1 = s.y1 := by unfold post; (repeat' split) <;> rfl
@[simp] theorem post_a (src : IrqSource) (s : State) : (post src s).a = s.a := by unfold post; (repeat' split) <;> rfl
@[simp] theorem post_b (src : IrqSource) (s : State) : (post src s).b = s.b := by unfold post; (repeat' split) <;> rfl
@[simp] theorem post_r (src : IrqSource) (s : State) : (post src s).r = s.r := by unfold post; (repeat' split) <;> rfl
@[simp] theorem post_n (src : IrqSource) (s : State) : (post src s).n = s.n := by unfold post; (repeat' split) <;> rfl
@[simp] theorem post_m (src : IrqSource) (s : State) : (post src s).m = s.m := by unfold post; (repeat' split) <;> rfl
@[simp] theorem post_sr (src : IrqSource) (s : State) : (post src s).sr = s.sr := by unfold post; (repeat' split) <;> rfl
@[simp] theorem post_omr (src : IrqSource) (s : State) : (post src s).omr = s.omr := by unfold post; (repeat' split) <;> rfl
@[simp] theorem post_sp (src : IrqSource) (s : State) : (post src s).sp = s.sp := by unfold post; (repeat' split) <;> rfl
@[simp] theorem post_ssh (src : IrqSource) (s : State) : (post src s).ssh = s.ssh := by unfold post; (repeat' split) <;> rfl
@[simp] theorem post_ssl (src : IrqSource) (s : State) : (post src s).ssl = s.ssl := by unfold post; (repeat' split) <;> rfl
@[simp] theorem post_stackH (src : IrqSource) (s : State) : (post src s).stackH = s.stackH := by unfold post; (repeat' split) <;> rfl
@[simp] theorem post_stackL (src : IrqSource) (s : State) : (post src s).stackL = s.stackL := by unfold post; (repeat' split) <;> rfl
@[simp] theorem post_la (src : IrqSource) (s : State) : (post src s).la = s.la := by unfold post; (repeat' split) <;> rfl
@[simp] theorem post_lc (src : IrqSource) (s : State) : (post src s).lc = s.lc := by unfold post; (repeat' split) <;> rfl
@[simp] theorem post_loopRep (src : IrqSource) (s : State) : (post src s).loopRep = s.loopRep := by unfold post; (repeat' split) <;> rfl
@[simp] theorem post_pcOnRep (src : IrqSource) (s : State) : (post src s).pcOnRep = s.pcOnRep := by unfold post; (repeat' split) <;> rfl
@[simp] theorem post_lcSaved (src : IrqSource) (s : State) : (post src s).lcSaved = s.lcSaved := by unfold post; (repeat' split) <;> rfl
@[simp] theorem post_ipl (src : IrqSource) (s : State) : (post src s).ipl = s.ipl := by unfold post; (repeat' split) <;> rfl
@[simp] theorem post_interruptState (src : IrqSource) (s : State) : (post src s).interruptState = s.interruptState := by unfold post; (repeat' split) <;> rfl
@[simp] theorem post_pipelineCount (src : IrqSource) (s : State) : (post src s).pipelineCount = s.pipelineCount := by unfold post; (repeat' split) <;> rfl
@[simp] theorem post_instrFetch (src : IrqSource) (s : State) : (post src s).instrFetch = s.instrFetch := by unfold post; (repeat' split) <;> rfl
@[simp] theorem post_savePc (src : IrqSource) (s : State) : (post src s).savePc = s.savePc := by unfold post; (repeat' split) <;> rfl
@[simp] theorem post_iplToRaise (src : IrqSource) (s : State) : (post src s).iplToRaise = s.iplToRaise := by unfold post; (repeat' split) <;> rfl
@[simp] theorem post_longTaken (src : IrqSource) (s : State) : (post src s).longTaken = s.longTaken := by unfold post; (repeat' split) <;> rfl
@[simp] theorem post_instrCycle (src : IrqSource) (s : State) : (post src s).instrCycle = s.instrCycle := by unfold post; (repeat' split) <;> rfl
@[simp] theorem post_instrCount (src : IrqSource) (s : State) : (post src s).instrCount = s.instrCount := by unfold post; (repeat' split) <;> rfl
@[simp] theorem post_budget (src : IrqSource) (s : State) : (post src s).budget = s.budget := by unfold post; (repeat' split) <;> rfl
@[simp] theorem post_len (src : IrqSource) (s : State) : (post src s).len = s.len := by unfold post; (repeat' split) <;> rfl
@[simp] theorem post_fatal (src : IrqSource) (s : State) : (post src s).fatal = s.fatal := by unfold post; (repeat' split) <;> rfl
@[simp] theorem post_xram (src : IrqSource) (s : State) : (post src s).xram = s.xram := by unfold post; (repeat' split) <;> rfl
@[simp] theorem post_yram (src : IrqSource) (s : State) : (post src s).yram = s.yram := by unfold post; (repeat' split) <;> rfl
@[simp] theorem post_pram (src : IrqSource) (s : State) : (post src s).pram = s.pram := by unfold post; (repeat' split) <;> rfl
@[simp] theorem post_mixbuffer (src : IrqSource) (s : State) : (post src s).mixbuffer = s.mixbuffer := by unfold post; (repeat' split) <;> rfl
@[simp] theorem post_periph (src : IrqSource) (s : State) : (post src s).periph = s.periph := by unfold post; (repeat' split) <;> rfl
@[simp] theorem post_dmaConfig (src : IrqSource) (s : State) : (post src s).dmaConfig = s.dmaConfig := by unfold post; (repeat' split) <;> rfl
@[simp] theorem post_dmaControl (src : IrqSource) (s : State) : (post src s).dmaControl = s.dmaControl := by unfold post; (repeat' split) <;> rfl
@[simp] theorem post_dmaStart (src : IrqSource) (s : State) : (post src s).dmaStart = s.dmaStart := by unfold post; (repeat' split) <;> rfl
@[simp] theorem post_dmaNext (src : IrqSource) (s : State) : (post src s).dmaNext = s.dmaNext := by unfold post; (repeat' split) <;> rfl
@[simp] theorem post_eol (src : IrqSource) (s : State) : (post src s).eol = s.eol := by unfold post; (repeat' split) <;> rfl
@[simp] theorem post_scratch (src : IrqSource) (s : State) : (post src s).scratch = s.scratch := by unfold post; (repeat' split) <;> rfl
@[simp] theorem post_draws (src : IrqSource) (s : State) : (post src s).draws = s.draws := by unfold post; (repeat' split) <;> rfl

/-! ### refreshShadows -/

@[simp] theorem refreshShadows_pc (s : State) : (refreshShadows s).pc = s.pc := rfl
@[simp] theorem refreshShadows_x0 (s : State) : (refreshShadows s).x0 = s.x0 := rfl
@[simp] theorem refreshShadows_x1 (s : State) : (refreshShadows s).x1 = s.x1 := rfl
@[simp] theorem refreshShadows_y0 (s : State) : (refreshShadows s).y0 = s.y0 := rfl
@[simp] theorem refreshShadows_y1 (s : State) : (refreshShadows s).y1 = s.y1 := rfl
@[simp] theorem refreshShadows_a (s : State) : (refreshShadows s).a = s.a := rfl
@[simp] theorem refreshShadows_b (s : State) : (refreshShadows s).b = s.b := rfl
@[simp] theorem refreshShadows_r (s : State) : (refreshShadows s).r = s.r := rfl
@[simp] theorem refreshShadows_n (s : State) : (refreshShadows s).n = s.n := rfl
@[simp] theorem refreshShadows_m (s : State) : (refreshShadows s).m = s.m := rfl
@[simp] theorem refreshShadows_sr (s : State) : (refreshShadows s).sr = s.sr := rfl
@[simp] theorem refreshShadows_omr (s : State) : (refreshShadows s).omr = s.omr := rfl
@[simp] theorem refreshShadows_sp (s : State) : (refreshShadows s).sp = s.sp := rfl
@[simp] theorem refreshShadows_ssh (s : State) : (refreshShadows s).ssh = s.stackH[slotOf s.sp] := rfl
@[simp] theorem refreshShadows_ssl (s : State) : (refreshShadows s).ssl = s.stackL[slotOf s.sp] := rfl
@[simp] theorem refreshShadows_stackH (s : State) : (refreshShadows s).stackH = s.stackH := rfl
@[simp] theorem refreshShadows_stackL (s : State) : (refreshShadows s).stackL = s.stackL := rfl
@[simp] theorem refreshShadows_la (s : State) : (refreshShadows s).la = s.la := rfl
@[simp] theorem refreshShadows_lc (s : State) : (refreshShadows s).lc = s.lc := rfl
@[simp] theorem refreshShadows_loopRep (s : State) : (refreshShadows s).loopRep = s.loopRep := rfl
@[simp] theorem refreshShadows_pcOnRep (s : State) : (refreshShadows s).pcOnRep = s.pcOnRep := rfl
@[simp] theorem refreshShadows_lcSaved (s : State) : (refreshShadows s).lcSaved = s.lcSaved := rfl
@[simp] theorem refreshShadows_pending (s : State) : (refreshShadows s).pending = s.pending := rfl
@[simp] theorem refreshShadows_ipl (s : State) : (refreshShadows s).ipl = s.ipl := rfl
@[simp] theorem refreshShadows_pendingCount (s : State) : (refreshShadows s).pendingCount = s.pendingCount := rfl
@[simp] theorem refreshShadows_interruptState (s : State) : (refreshShadows s).interruptState = s.interruptState := rfl
@[simp] theorem refreshShadows_pipelineCount (s : State) : (refreshShadows s).pipelineCount = s.pipelineCount := rfl
@[simp] theorem refreshShadows_instrFetch (s : State) : (refreshShadows s).instrFetch = s.instrFetch := rfl
@[simp] theorem refreshShadows_savePc (s : State) : (refreshShadows s).savePc = s.savePc := rfl
@[simp] theorem refreshShadows_iplToRaise (s : State) : (refreshShadows s).iplToRaise = s.iplToRaise := rfl
@[simp] theorem refreshShadows_longTaken (s : State) : (refreshShadows s).longTaken = s.longTaken := rfl
@[simp] theorem refreshShadows_instrCycle (s : State) : (refreshShadows s).instrCycle = s.instrCycle := rfl
@[simp] theorem refreshShadows_instrCount (s : State) : (refreshShadows s).instrCount = s.instrCount := rfl
@[simp] theorem refreshShadows_budget (s : State) : (refreshShadows s).budget = s.budget := rfl
@[simp] theorem refreshShadows_len (s : State) : (refreshShadows s).len = s.len := rfl
@[simp] theorem refreshShadows_fatal (s : State) : (refreshShadows s).fatal = s.fatal := rfl
@[simp] theorem refreshShadows_xram (s : State) : (refreshShadows s).xram = s.xram := rfl
@[simp] theorem refreshShadows_yram (s : State) : (refreshShadows s).yram = s.yram := rfl
@[simp] theorem refreshShadows_pram (s : State) : (refreshShadows s).pram = s.pram := rfl
@[simp] theorem refreshShadows_mixbuffer (s : State) : (refreshShadows s).mixbuffer = s.mixbuffer := rfl
@[simp] theorem refreshShadows_periph (s : State) : (refreshShadows s).periph = s.periph := rfl
@[simp] theorem refreshShadows_dmaConfig (s : State) : (refreshShadows s).dmaConfig = s.dmaConfig := rfl
@[simp] theorem refreshShadows_dmaControl (s : State) : (refreshShadows s).dmaControl = s.dmaControl := rfl
@[simp] theorem refreshShadows_dmaStart (s : State) : (refreshShadows s).dmaStart = s.dmaStart := rfl
@[simp] theorem refreshShadows_dmaNext (s : State) : (refreshShadows s).dmaNext = s.dmaNext := rfl
@[simp] theorem refreshShadows_eol (s : State) : (refreshShadows s).eol = s.eol := rfl
@[simp] theorem refreshShadows_scratch (s : State) : (refreshShadows s).scratch = s.scratch := rfl
@[simp] theorem refreshShadows_draws (s : State) : (refreshShadows s).draws = s.draws := rfl

/-! ### writeSsl -/

@[simp] theorem writeSsl_pc (v : Word) (s : State) : (writeSsl v s).pc = s.pc := rfl
@[simp] theorem writeSsl_x0 (v : Word) (s : State) : (writeSsl v s).x0 = s.x0 := rfl
@[simp] theorem writeSsl_x1 (v : Word) (s : State) : (writeSsl v s).x1 = s.x1 := rfl
@[simp] theorem writeSsl_y0 (v : Word) (s : State) : (writeSsl v s).y0 = s.y0 := rfl
@[simp] theorem writeSsl_y1 (v : Word) (s : State) : (writeSsl v s).y1 = s.y1 := rfl
@[simp] theorem writeSsl_a (v : Word) (s : State) : (writeSsl v s).a = s.a := rfl
@[simp] theorem writeSsl_b (v : Word) (s : State) : (writeSsl v s).b = s.b := rfl
@[simp] theorem writeSsl_r (v : Word) (s : State) : (writeSsl v s).r = s.r := rfl
@[simp] theorem writeSsl_n (v : Word) (s : State) : (writeSsl v s).n = s.n := rfl
@[simp] theorem writeSsl_m (v : Word) (s : State) : (writeSsl v s).m = s.m := rfl
@[simp] theorem writeSsl_sr (v : Word) (s : State) : (writeSsl v s).sr = s.sr := rfl
@[simp] theorem writeSsl_omr (v : Word) (s : State) : (writeSsl v s).omr = s.omr := rfl
@[simp] theorem writeSsl_sp (v : Word) (s : State) : (writeSsl v s).sp = s.sp := rfl
@[simp] theorem writeSsl_ssh (v : Word) (s : State) : (writeSsl v s).ssh = s.ssh := rfl
@[simp] theorem writeSsl_ssl (v : Word) (s : State) : (writeSsl v s).ssl = v.setWidth 16 := rfl
@[simp] theorem writeSsl_stackH (v : Word) (s : State) : (writeSsl v s).stackH = s.stackH := rfl
@[simp] theorem writeSsl_stackL (v : Word) (s : State) : (writeSsl v s).stackL = s.stackL.set (slotOf s.sp) (v.setWidth 16) := rfl
@[simp] theorem writeSsl_la (v : Word) (s : State) : (writeSsl v s).la = s.la := rfl
@[simp] theorem writeSsl_lc (v : Word) (s : State) : (writeSsl v s).lc = s.lc := rfl
@[simp] theorem writeSsl_loopRep (v : Word) (s : State) : (writeSsl v s).loopRep = s.loopRep := rfl
@[simp] theorem writeSsl_pcOnRep (v : Word) (s : State) : (writeSsl v s).pcOnRep = s.pcOnRep := rfl
@[simp] theorem writeSsl_lcSaved (v : Word) (s : State) : (writeSsl v s).lcSaved = s.lcSaved := rfl
@[simp] theorem writeSsl_pending (v : Word) (s : State) : (writeSsl v s).pending = s.pending := rfl
@[simp] theorem writeSsl_ipl (v : Word) (s : State) : (writeSsl v s).ipl = s.ipl := rfl
@[simp] theorem writeSsl_pendingCount (v : Word) (s : State) : (writeSsl v s).pendingCount = s.pendingCount := rfl
@[simp] theorem writeSsl_interruptState (v : Word) (s : State) : (writeSsl v s).interruptState = s.interruptState := rfl
@[simp] theorem writeSsl_pipelineCount (v : Word) (s : State) : (writeSsl v s).pipelineCount = s.pipelineCount := rfl
@[simp] theorem writeSsl_instrFetch (v : Word) (s : State) : (writeSsl v s).instrFetch = s.instrFetch := rfl
@[simp] theorem writeSsl_savePc (v : Word) (s : State) : (writeSsl v s).savePc = s.savePc := rfl
@[simp] theorem writeSsl_iplToRaise (v : Word) (s : State) : (writeSsl v s).iplToRaise = s.iplToRaise := rfl
@[simp] theorem writeSsl_longTaken (v : Word) (s : State) : (writeSsl v s).longTaken = s.longTaken := rfl
@[simp] theorem writeSsl_instrCycle (v : Word) (s : State) : (writeSsl v s).instrCycle = s.instrCycle := rfl
@[simp] theorem writeSsl_instrCount (v : Word) (s : State) : (writeSsl v s).instrCount = s.instrCount := rfl
@[simp] theorem writeSsl_budget (v : Word) (s : State) : (writeSsl v s).budget = s.budget := rfl
@[simp] theorem writeSsl_len (v : Word) (s : State) : (writeSsl v s).len = s.len := rfl
@[simp] theorem writeSsl_fatal (v : Word) (s : State) : (writeSsl v s).fatal = s.fatal := rfl
@[simp] theorem writeSsl_xram (v : Word) (s : State) : (writeSsl v s).xram = s.xram := rfl
@[simp] theorem writeSsl_yram (v : Word) (s : State) : (writeSsl v s).yram = s.yram := rfl
@[simp] theorem writeSsl_pram (v : Word) (s : State) : (writeSsl v s).pram = s.pram := rfl
@[simp] theorem writeSsl_mixbuffer (v : Word) (s : State) : (writeSsl v s).mixbuffer = s.mixbuffer := rfl
@[simp] theorem writeSsl_periph (v : Word) (s : State) : (writeSsl v s).periph = s.periph := rfl
@[simp] theorem writeSsl_dmaConfig (v : Word) (s : State) : (writeSsl v s).dmaConfig = s.dmaConfig := rfl
@[simp] theorem writeSsl_dmaControl (v : Word) (s : State) : (writeSsl v s).dmaControl = s.dmaControl := rfl
@[simp] theorem writeSsl_dmaStart (v : Word) (s : State) : (writeSsl v s).dmaStart = s.dmaStart := rfl
@[simp] theorem writeSsl_dmaNext (v : Word) (s : State) : (writeSsl v s).dmaNext = s.dmaNext := rfl
@[simp] theorem writeSsl_eol (v : Word) (s : State) : (writeSsl v s).eol = s.eol := rfl
@[simp] theorem writeSsl_scratch (v : Word) (s : State) : (writeSsl v s).scratch = s.scratch := rfl
@[simp] theorem writeSsl_draws (v : Word) (s : State) : (writeSsl v s).draws = s.draws := rfl

/-! ### popState -/

@[simp] theorem popState_pc (s : State) : (popState s).pc = s.pc := by unfold popState postStackError; dsimp only; split <;> simp
@[simp] theorem popState_x0 (s : State) : (popState s).x0 = s.x0 := by unfold popState postStackError; dsimp only; split <;> simp
@[simp] theorem popState_x1 (s : State) : (popState s).x1 = s.x1 := by unfold popState postStackError; dsimp only; split <;> simp
@[simp] theorem popState_y0 (s : State) : (popState s).y0 = s.y0 := by unfold popState postStackError; dsimp only; split <;> simp
@[simp] theorem popState_y1 (s : State) : (popState s).y1 = s.y1 := by unfold popState postStackError; dsimp only; split <;> simp
@[simp] theorem popState_a (s : State) : (popState s).a = s.a := by unfold popState postStackError; dsimp only; split <;> simp
@[simp] theorem popState_b (s : State) : (popState s).b = s.b := by unfold popState postStackError; dsimp only; split <;> simp
@[simp] theorem popState_r (s : State) : (popState s).r = s.r := by unfold popState postStackError; dsimp only; split <;> simp
@[simp] theorem popState_n (s : State) : (popState s).n = s.n := by unfold popState postStackError; dsimp only; split <;> simp
@[simp] theorem popState_m (s : State) : (popState s).m = s.m := by unfold popState postStackError; dsimp only; split <;> simp
@[simp] theorem popState_sr (s : State) : (popState s).sr = s.sr := by unfold popState postStackError; dsimp only; split <;> simp
@[simp] theorem popState_omr (s : State) : (popState s).omr = s.omr := by unfold popState postStackError; dsimp only; split <;> simp
@[simp] theorem popState_stackH (s : State) : (popState s).stackH = s.stackH := by unfold popState postStackError; dsimp only; split <;> simp
@[simp] theorem popState_stackL (s : State) : (popState s).stackL = s.stackL := by unfold popState postStackError; dsimp only; split <;> simp
@[simp] theorem popState_la (s : State) : (popState s).la = s.la := by unfold popState postStackError; dsimp only; split <;> simp
@[simp] theorem popState_lc (s : State) : (popState s).lc = s.lc := by unfold popState postStackError; dsimp only; split <;> simp
@[simp] theorem popState_loopRep (s : State) : (popState s).loopRep = s.loopRep := by unfold popState postStackError; dsimp only; split <;> simp
@[simp] theorem popState_pcOnRep (s : State) : (popState s).pcOnRep = s.pcOnRep := by unfold popState postStackError; dsimp only; split <;> simp
@[simp] theorem popState_lcSaved (s : State) : (popState s).lcSaved = s.lcSaved := by unfold popState postStackError; dsimp only; split <;> simp
@[simp] theorem popState_ipl (s : State) : (popState s).ipl = s.ipl := by unfold popState postStackError; dsimp only; split <;> simp
@[simp] theorem popState_interruptState (s : State) : (popState s).interruptState = s.interruptState := by unfold popState postStackError; dsimp only; split <;> simp
@[simp] theorem popState_pipelineCount (s : State) : (popState s).pipelineCount = s.pipelineCount := by unfold popState postStackError; dsimp only; split <;> simp
@[simp] theorem popState_instrFetch (s : State) : (popState s).instrFetch = s.instrFetch := by unfold popState postStackError; dsimp only; split <;> simp
@[simp] theorem popState_savePc (s : State) : (popState s).savePc = s.savePc := by unfold popState postStackError; dsimp only; split <;> simp
@[simp] theorem popState_iplToRaise (s : State) : (popState s).iplToRaise = s.iplToRaise := by unfold popState postStackError; dsimp only; split <;> simp
@[simp] theorem popState_longTaken (s : State) : (popState s).longTaken = s.longTaken := by unfold popState postStackError; dsimp only; split <;> simp
@[simp] theorem popState_instrCycle (s : State) : (popState s).instrCycle = s.instrCycle := by unfold popState postStackError; dsimp only; split <;> simp
@[simp] theorem popState_instrCount (s : State) : (popState s).instrCount = s.instrCount := by unfold popState postStackError; dsimp only; split <;> simp
@[simp] theorem popState_budget (s : State) : (popState s).budget = s.budget := by unfold popState postStackError; dsimp only; split <;> simp
@[simp] theorem popState_len (s : State) : (popState s).len = s.len := by unfold popState postStackError; dsimp only; split <;> simp
@[simp] theorem popState_fatal (s : State) : (popState s).fatal = s.fatal := by unfold popState postStackError; dsimp only; split <;> simp
@[simp] theorem popState_xram (s : State) : (popState s).xram = s.xram := by unfold popState postStackError; dsimp only; split <;> simp
@[simp] theorem popState_yram (s : State) : (popState s).yram = s.yram := by unfold popState postStackError; dsimp only; split <;> simp
@[simp] theorem popState_pram (s : State) : (popState s).pram = s.pram := by unfold popState postStackError; dsimp only; split <;> simp
@[simp] theorem popState_mixbuffer (s : State) : (popState s).mixbuffer = s.mixbuffer := by unfold popState postStackError; dsimp only; split <;> simp
@[simp] theorem popState_periph (s : State) : (popState s).periph = s.periph := by unfold popState postStackError; dsimp only; split <;> simp
@[simp] theorem popState_dmaConfig (s : State) : (popState s).dmaConfig = s.dmaConfig := by unfold popState postStackError; dsimp only; split <;> simp
@[simp] theorem popState_dmaControl (s : State) : (popState s).dmaControl = s.dmaControl := by unfold popState postStackError; dsimp only; split <;> simp
@[simp] theorem popState_dmaStart (s : State) : (popState s).dmaStart = s.dmaStart := by unfold popState postStackError; dsimp only; split <;> simp
@[simp] theorem popState_dmaNext (s : State) : (popState s).dmaNext = s.dmaNext := by unfold popState postStackError; dsimp only; split <;> simp
@[simp] theorem popState_eol (s : State) : (popState s).eol = s.eol := by unfold popState postStackError; dsimp only; split <;> simp
@[simp] theorem popState_scratch (s : State) : (popState s).scratch = s.scratch := by unfold popState postStackError; dsimp only; split <;> simp
@[simp] theorem popState_draws (s : State) : (popState s).draws = s.draws := by unfold popState postStackError; dsimp only; split <;> simp

/-! ### writeSlot -/

@[simp] theorem writeSlot_pc (slot : Fin 16) (hi : BitVec 16) (lo : Option (BitVec 16)) (s : State) : (writeSlot slot hi lo s).pc = s.pc := by unfold writeSlot; (repeat' split) <;> rfl
@[simp] theorem writeSlot_x0 (slot : Fin 16) (hi : BitVec 16) (lo : Option (BitVec 16)) (s : State) : (writeSlot slot hi lo s).x0 = s.x0 := by unfold writeSlot; (repeat' split) <;> rfl
@[simp] theorem writeSlot_x1 (slot : Fin 16) (hi : BitVec 16) (lo : Option (BitVec 16)) (s : State) : (writeSlot slot hi lo s).x1 = s.x1 := by unfold writeSlot; (repeat' split) <;> rfl
@[simp] theorem writeSlot_y0 (slot : Fin 16) (hi : BitVec 16) (lo : Option (BitVec 16)) (s : State) : (writeSlot slot hi lo s).y0 = s.y0 := by unfold writeSlot; (repeat' split) <;> rfl
@[simp] theorem writeSlot_y1 (slot : Fin 16) (hi : BitVec 16) (lo : Option (BitVec 16)) (s : State) : (writeSlot slot hi lo s).y1 = s.y1 := by unfold writeSlot; (repeat' split) <;> rfl
@[simp] theorem writeSlot_a (slot : Fin 16) (hi : BitVec 16) (lo : Option (BitVec 16)) (s : State) : (writeSlot slot hi lo s).a = s.a := by unfold writeSlot; (repeat' split) <;> rfl
@[simp] theorem writeSlot_b (slot : Fin 16) (hi : BitVec 16) (lo : Option (BitVec 16)) (s : State) : (writeSlot slot hi lo s).b = s.b := by unfold writeSlot; (repeat' split) <;> rfl
@[simp] theorem writeSlot_r (slot : Fin 16) (hi : BitVec 16) (lo : Option (BitVec 16)) (s : State) : (writeSlot slot hi lo s).r = s.r := by unfold writeSlot; (repeat' split) <;> rfl
@[simp] theorem writeSlot_n (slot : Fin 16) (hi : BitVec 16) (lo : Option (BitVec 16)) (s : State) : (writeSlot slot hi lo s).n = s.n := by unfold writeSlot; (repeat' split) <;> rfl
@[simp] theorem writeSlot_m (slot : Fin 16) (hi : BitVec 16) (lo : Option (BitVec 16)) (s : State) : (writeSlot slot hi lo s).m = s.m := by unfold writeSlot; (repeat' split) <;> rfl
@[simp] theorem writeSlot_sr (slot : Fin 16) (hi : BitVec 16) (lo : Option (BitVec 16)) (s : State) : (writeSlot slot hi lo s).sr = s.sr := by unfold writeSlot; (repeat' split) <;> rfl
@[simp] theorem writeSlot_omr (slot : Fin 16) (hi : BitVec 16) (lo : Option (BitVec 16)) (s : State) : (writeSlot slot hi lo s).omr = s.omr := by unfold writeSlot; (repeat' split) <;> rfl
@[simp] theorem writeSlot_sp (slot : Fin 16) (hi : BitVec 16) (lo : Option (BitVec 16)) (s : State) : (writeSlot slot hi lo s).sp = s.sp := by unfold writeSlot; (repeat' split) <;> rfl
@[simp] theorem writeSlot_ssh (slot : Fin 16) (hi : BitVec 16) (lo : Option (BitVec 16)) (s : State) : (writeSlot slot hi lo s).ssh = s.ssh := by unfold writeSlot; (repeat' split) <;> rfl
@[simp] theorem writeSlot_ssl (slot : Fin 16) (hi : BitVec 16) (lo : Option (BitVec 16)) (s : State) : (writeSlot slot hi lo s).ssl = s.ssl := by unfold writeSlot; (repeat' split) <;> rfl
@[simp] theorem writeSlot_la (slot : Fin 16) (hi : BitVec 16) (lo : Option (BitVec 16)) (s : State) : (writeSlot slot hi lo s).la = s.la := by unfold writeSlot; (repeat' split) <;> rfl
@[simp] theorem writeSlot_lc (slot : Fin 16) (hi : BitVec 16) (lo : Option (BitVec 16)) (s : State) : (writeSlot slot hi lo s).lc = s.lc := by unfold writeSlot; (repeat' split) <;> rfl
@[simp] theorem writeSlot_loopRep (slot : Fin 16) (hi : BitVec 16) (lo : Option (BitVec 16)) (s : State) : (writeSlot slot hi lo s).loopRep = s.loopRep := by unfold writeSlot; (repeat' split) <;> rfl
@[simp] theorem writeSlot_pcOnRep (slot : Fin 16) (hi : BitVec 16) (lo : Option (BitVec 16)) (s : State) : (writeSlot slot hi lo s).pcOnRep = s.pcOnRep := by unfold writeSlot; (repeat' split) <;> rfl
@[simp] theorem writeSlot_lcSaved (slot : Fin 16) (hi : BitVec 16) (lo : Option (BitVec 16)) (s : State) : (writeSlot slot hi lo s).lcSaved = s.lcSaved := by unfold writeSlot; (repeat' split) <;> rfl
@[simp] theorem writeSlot_pending (slot : Fin 16) (hi : BitVec 16) (lo : Option (BitVec 16)) (s : State) : (writeSlot slot hi lo s).pending = s.pending := by unfold writeSlot; (repeat' split) <;> rfl
@[simp] theorem writeSlot_ipl (slot : Fin 16) (hi : BitVec 16) (lo : Option (BitVec 16)) (s : State) : (writeSlot slot hi lo s).ipl = s.ipl := by unfold writeSlot; (repeat' split) <;> rfl
@[simp] theorem writeSlot_pendingCount (slot : Fin 16) (hi : BitVec 16) (lo : Option (BitVec 16)) (s : State) : (writeSlot slot hi lo s).pendingCount = s.pendingCount := by unfold writeSlot; (repeat' split) <;> rfl
@[simp] theorem writeSlot_interruptState (slot : Fin 16) (hi : BitVec 16) (lo : Option (BitVec 16)) (s : State) : (writeSlot slot hi lo s).interruptState = s.interruptState := by unfold writeSlot; (repeat' split) <;> rfl
@[simp] theorem writeSlot_pipelineCount (slot : Fin 16) (hi : BitVec 16) (lo : Option (BitVec 16)) (s : State) : (writeSlot slot hi lo s).pipelineCount = s.pipelineCount := by unfold writeSlot; (repeat' split) <;> rfl
@[simp] theorem writeSlot_instrFetch (slot : Fin 16) (hi : BitVec 16) (lo : Option (BitVec 16)) (s : State) : (writeSlot slot hi lo s).instrFetch = s.instrFetch := by unfold writeSlot; (repeat' split) <;> rfl
@[simp] theorem writeSlot_savePc (slot : Fin 16) (hi : BitVec 16) (lo : Option (BitVec 16)) (s : State) : (writeSlot slot hi lo s).savePc = s.savePc := by unfold writeSlot; (repeat' split) <;> rfl
@[simp] theorem writeSlot_iplToRaise (slot : Fin 16) (hi : BitVec 16) (lo : Option (BitVec 16)) (s : State) : (writeSlot slot hi lo s).iplToRaise = s.iplToRaise := by unfold writeSlot; (repeat' split) <;> rfl
@[simp] theorem writeSlot_longTaken (slot : Fin 16) (hi : BitVec 16) (lo : Option (BitVec 16)) (s : State) : (writeSlot slot hi lo s).longTaken = s.longTaken := by unfold writeSlot; (repeat' split) <;> rfl
@[simp] theorem writeSlot_instrCycle (slot : Fin 16) (hi : BitVec 16) (lo : Option (BitVec 16)) (s : State) : (writeSlot slot hi lo s).instrCycle = s.instrCycle := by unfold writeSlot; (repeat' split) <;> rfl
@[simp] theorem writeSlot_instrCount (slot : Fin 16) (hi : BitVec 16) (lo : Option (BitVec 16)) (s : State) : (writeSlot slot hi lo s).instrCount = s.instrCount := by unfold writeSlot; (repeat' split) <;> rfl
@[simp] theorem writeSlot_budget (slot : Fin 16) (hi : BitVec 16) (lo : Option (BitVec 16)) (s : State) : (writeSlot slot hi lo s).budget = s.budget := by unfold writeSlot; (repeat' split) <;> rfl
@[simp] theorem writeSlot_len (slot : Fin 16) (hi : BitVec 16) (lo : Option (BitVec 16)) (s : State) : (writeSlot slot hi lo s).len = s.len := by unfold writeSlot; (repeat' split) <;> rfl
@[simp] theorem writeSlot_fatal (slot : Fin 16) (hi : BitVec 16) (lo : Option (BitVec 16)) (s : State) : (writeSlot slot hi lo s).fatal = s.fatal := by unfold writeSlot; (repeat' split) <;> rfl
@[simp] theorem writeSlot_xram (slot : Fin 16) (hi : BitVec 16) (lo : Option (BitVec 16)) (s : State) : (writeSlot slot hi lo s).xram = s.xram := by unfold writeSlot; (repeat' split) <;> rfl
@[simp] theorem writeSlot_yram (slot : Fin 16) (hi : BitVec 16) (lo : Option (BitVec 16)) (s : State) : (writeSlot slot hi lo s).yram = s.yram := by unfold writeSlot; (repeat' split) <;> rfl
@[simp] theorem writeSlot_pram (slot : Fin 16) (hi : BitVec 16) (lo : Option (BitVec 16)) (s : State) : (writeSlot slot hi lo s).pram = s.pram := by unfold writeSlot; (repeat' split) <;> rfl
@[simp] theorem writeSlot_mixbuffer (slot : Fin 16) (hi : BitVec 16) (lo : Option (BitVec 16)) (s : State) : (writeSlot slot hi lo s).mixbuffer = s.mixbuffer := by unfold writeSlot; (repeat' split) <;> rfl
@[simp] theorem writeSlot_periph (slot : Fin 16) (hi : BitVec 16) (lo : Option (BitVec 16)) (s : State) : (writeSlot slot hi lo s).periph = s.periph := by unfold writeSlot; (repeat' split) <;> rfl
@[simp] theorem writeSlot_dmaConfig (slot : Fin 16) (hi : BitVec 16) (lo : Option (BitVec 16)) (s : State) : (writeSlot slot hi lo s).dmaConfig = s.dmaConfig := by unfold writeSlot; (repeat' split) <;> rfl
@[simp] theorem writeSlot_dmaControl (slot : Fin 16) (hi : BitVec 16) (lo : Option (BitVec 16)) (s : State) : (writeSlot slot hi lo s).dmaControl = s.dmaControl := by unfold writeSlot; (repeat' split) <;> rfl
@[simp] theorem writeSlot_dmaStart (slot : Fin 16) (hi : BitVec 16) (lo : Option (BitVec 16)) (s : State) : (writeSlot slot hi lo s).dmaStart = s.dmaStart := by unfold writeSlot; (repeat' split) <;> rfl
@[simp] theorem writeSlot_dmaNext (slot : Fin 16) (hi : BitVec 16) (lo : Option (BitVec 16)) (s : State) : (writeSlot slot hi lo s).dmaNext = s.dmaNext := by unfold writeSlot; (repeat' split) <;> rfl
@[simp] theorem writeSlot_eol (slot : Fin 16) (hi : BitVec 16) (lo : Option (BitVec 16)) (s : State) : (writeSlot slot hi lo s).eol = s.eol := by unfold writeSlot; (repeat' split) <;> rfl
@[simp] theorem writeSlot_scratch (slot : Fin 16) (hi : BitVec 16) (lo : Option (BitVec 16)) (s : State) : (writeSlot slot hi lo s).scratch = s.scratch := by unfold writeSlot; (repeat' split) <;> rfl
@[simp] theorem writeSlot_draws (slot : Fin 16) (hi : BitVec 16) (lo : Option (BitVec 16)) (s : State) : (writeSlot slot hi lo s).draws = s.draws := by unfold writeSlot; (repeat' split) <;> rfl

/-! ### pushWith -/

@[simp] theorem pushWith_pc (hi : BitVec 16) (lo : Option (BitVec 16)) (s : State) : (pushWith hi lo s).pc = s.pc := by unfold pushWith postStackError; dsimp only; split <;> simp
@[simp] theorem pushWith_x0 (hi : BitVec 16) (lo : Option (BitVec 16)) (s : State) : (pushWith hi lo s).x0 = s.x0 := by unfold pushWith postStackError; dsimp only; split <;> simp
@[simp] theorem pushWith_x1 (hi : BitVec 16) (lo : Option (BitVec 16)) (s : State) : (pushWith hi lo s).x1 = s.x1 := by unfold pushWith postStackError; dsimp only; split <;> simp
@[simp] theorem pushWith_y0 (hi : BitVec 16) (lo : Option (BitVec 16)) (s : State) : (pushWith hi lo s).y0 = s.y0 := by unfold pushWith postStackError; dsimp only; split <;> simp
@[simp] theorem pushWith_y1 (hi : BitVec 16) (lo : Option (BitVec 16)) (s : State) : (pushWith hi lo s).y1 = s.y1 := by unfold pushWith postStackError; dsimp only; split <;> simp
@[simp] theorem pushWith_a (hi : BitVec 16) (lo : Option (BitVec 16)) (s : State) : (pushWith hi lo s).a = s.a := by unfold pushWith postStackError; dsimp only; split <;> simp
@[simp] theorem pushWith_b (hi : BitVec 16) (lo : Option (BitVec 16)) (s : State) : (pushWith hi lo s).b = s.b := by unfold pushWith postStackError; dsimp only; split <;> simp
@[simp] theorem pushWith_r (hi : BitVec 16) (lo : Option (BitVec 16)) (s : State) : (pushWith hi lo s).r = s.r := by unfold pushWith postStackError; dsimp only; split <;> simp
@[simp] theorem pushWith_n (hi : BitVec 16) (lo : Option (BitVec 16)) (s : State) : (pushWith hi lo s).n = s.n := by unfold pushWith postStackError; dsimp only; split <;> simp
@[simp] theorem pushWith_m (hi : BitVec 16) (lo : Option (BitVec 16)) (s : State) : (pushWith hi lo s).m = s.m := by unfold pushWith postStackError; dsimp only; split <;> simp
@[simp] theorem pushWith_sr (hi : BitVec 16) (lo : Option (BitVec 16)) (s : State) : (pushWith hi lo s).sr = s.sr := by unfold pushWith postStackError; dsimp only; split <;> simp
@[simp] theorem pushWith_omr (hi : BitVec 16) (lo : Option (BitVec 16)) (s : State) : (pushWith hi lo s).omr = s.omr := by unfold pushWith postStackError; dsimp only; split <;> simp
@[simp] theorem pushWith_la (hi : BitVec 16) (lo : Option (BitVec 16)) (s : State) : (pushWith hi lo s).la = s.la := by unfold pushWith postStackError; dsimp only; split <;> simp
@[simp] theorem pushWith_lc (hi : BitVec 16) (lo : Option (BitVec 16)) (s : State) : (pushWith hi lo s).lc = s.lc := by unfold pushWith postStackError; dsimp only; split <;> simp
@[simp] theorem pushWith_loopRep (hi : BitVec 16) (lo : Option (BitVec 16)) (s : State) : (pushWith hi lo s).loopRep = s.loopRep := by unfold pushWith postStackError; dsimp only; split <;> simp
@[simp] theorem pushWith_pcOnRep (hi : BitVec 16) (lo : Option (BitVec 16)) (s : State) : (pushWith hi lo s).pcOnRep = s.pcOnRep := by unfold pushWith postStackError; dsimp only; split <;> simp
@[simp] theorem pushWith_lcSaved (hi : BitVec 16) (lo : Option (BitVec 16)) (s : State) : (pushWith hi lo s).lcSaved = s.lcSaved := by unfold pushWith postStackError; dsimp only; split <;> simp
@[simp] theorem pushWith_ipl (hi : BitVec 16) (lo : Option (BitVec 16)) (s : State) : (pushWith hi lo s).ipl = s.ipl := by unfold pushWith postStackError; dsimp only; split <;> simp
@[simp] theorem pushWith_interruptState (hi : BitVec 16) (lo : Option (BitVec 16)) (s : State) : (pushWith hi lo s).interruptState = s.interruptState := by unfold pushWith postStackError; dsimp only; split <;> simp
@[simp] theorem pushWith_pipelineCount (hi : BitVec 16) (lo : Option (BitVec 16)) (s : State) : (pushWith hi lo s).pipelineCount = s.pipelineCount := by unfold pushWith postStackError; dsimp only; split <;> simp
@[simp] theorem pushWith_instrFetch (hi : BitVec 16) (lo : Option (BitVec 16)) (s : State) : (pushWith hi lo s).instrFetch = s.instrFetch := by unfold pushWith postStackError; dsimp only; split <;> simp
@[simp] theorem pushWith_savePc (hi : BitVec 16) (lo : Option (BitVec 16)) (s : State) : (pushWith hi lo s).savePc = s.savePc := by unfold pushWith postStackError; dsimp only; split <;> simp
@[simp] theorem pushWith_iplToRaise (hi : BitVec 16) (lo : Option (BitVec 16)) (s : State) : (pushWith hi lo s).iplToRaise = s.iplToRaise := by unfold pushWith postStackError; dsimp only; split <;> simp
@[simp] theorem pushWith_longTaken (hi : BitVec 16) (lo : Option (BitVec 16)) (s : State) : (pushWith hi lo s).longTaken = s.longTaken := by unfold pushWith postStackError; dsimp only; split <;> simp
@[simp] theorem pushWith_instrCycle (hi : BitVec 16) (lo : Option (BitVec 16)) (s : State) : (pushWith hi lo s).instrCycle = s.instrCycle := by unfold pushWith postStackError; dsimp only; split <;> simp
@[simp] theorem pushWith_instrCount (hi : BitVec 16) (lo : Option (BitVec 16)) (s : State) : (pushWith hi lo s).instrCount = s.instrCount := by unfold pushWith postStackError; dsimp only; split <;> simp
@[simp] theorem pushWith_budget (hi : BitVec 16) (lo : Option (BitVec 16)) (s : State) : (pushWith hi lo s).budget = s.budget := by unfold pushWith postStackError; dsimp only; split <;> simp
@[simp] theorem pushWith_len (hi : BitVec 16) (lo : Option (BitVec 16)) (s : State) : (pushWith hi lo s).len = s.len := by unfold pushWith postStackError; dsimp only; split <;> simp
@[simp] theorem pushWith_fatal (hi : BitVec 16) (lo : Option (BitVec 16)) (s : State) : (pushWith hi lo s).fatal = s.fatal := by unfold pushWith postStackError; dsimp only; split <;> simp
@[simp] theorem pushWith_xram (hi : BitVec 16) (lo : Option (BitVec 16)) (s : State) : (pushWith hi lo s).xram = s.xram := by unfold pushWith postStackError; dsimp only; split <;> simp
@[simp] theorem pushWith_yram (hi : BitVec 16) (lo : Option (BitVec 16)) (s : State) : (pushWith hi lo s).yram = s.yram := by unfold pushWith postStackError; dsimp only; split <;> simp
@[simp] theorem pushWith_pram (hi : BitVec 16) (lo : Option (BitVec 16)) (s : State) : (pushWith hi lo s).pram = s.pram := by unfold pushWith postStackError; dsimp only; split <;> simp
@[simp] theorem pushWith_mixbuffer (hi : BitVec 16) (lo : Option (BitVec 16)) (s : State) : (pushWith hi lo s).mixbuffer = s.mixbuffer := by unfold pushWith postStackError; dsimp only; split <;> simp
@[simp] theorem pushWith_periph (hi : BitVec 16) (lo : Option (BitVec 16)) (s : State) : (pushWith hi lo s).periph = s.periph := by unfold pushWith postStackError; dsimp only; split <;> simp
@[simp] theorem pushWith_dmaConfig (hi : BitVec 16) (lo : Option (BitVec 16)) (s : State) : (pushWith hi lo s).dmaConfig = s.dmaConfig := by unfold pushWith postStackError; dsimp only; split <;> simp
@[simp] theorem pushWith_dmaControl (hi : BitVec 16) (lo : Option (BitVec 16)) (s : State) : (pushWith hi lo s).dmaControl = s.dmaControl := by unfold pushWith postStackError; dsimp only; split <;> simp
@[simp] theorem pushWith_dmaStart (hi : BitVec 16) (lo : Option (BitVec 16)) (s : State) : (pushWith hi lo s).dmaStart = s.dmaStart := by unfold pushWith postStackError; dsimp only; split <;> simp
@[simp] theorem pushWith_dmaNext (hi : BitVec 16) (lo : Option (BitVec 16)) (s : State) : (pushWith hi lo s).dmaNext = s.dmaNext := by unfold pushWith postStackError; dsimp only; split <;> simp
@[simp] theorem pushWith_eol (hi : BitVec 16) (lo : Option (BitVec 16)) (s : State) : (pushWith hi lo s).eol = s.eol := by unfold pushWith postStackError; dsimp only; split <;> simp
@[simp] theorem pushWith_scratch (hi : BitVec 16) (lo : Option (BitVec 16)) (s : State) : (pushWith hi lo s).scratch = s.scratch := by unfold pushWith postStackError; dsimp only; split <;> simp
@[simp] theorem pushWith_draws (hi : BitVec 16) (lo : Option (BitVec 16)) (s : State) : (pushWith hi lo s).draws = s.draws := by unfold pushWith postStackError; dsimp only; split <;> simp

/-! ### The accumulators -/

@[simp] theorem getAcc_setAcc (s : State) (d : AccSel) (v : Acc) : getAcc (setAcc s d v) d = v := by cases d <;> rfl

@[simp] theorem getAcc_setSr (s : State) (d : AccSel) (v : BitVec 16) : getAcc (setSr s v) d = getAcc s d := by cases d <;> rfl

theorem getAcc_setAcc_other (s : State) (d e : AccSel) (v : Acc) (h : e ≠ d) : getAcc (setAcc s d v) e = getAcc s e := by
  cases d <;> cases e <;> first | rfl | exact absurd rfl h

end Sys2Proof.Machine
end

