-- ==== Sys2Proof/Laws/Ops.lean ====
section
/-! SUPPORT. One lemma per shared operation: what it does, said once, so that no proof unfolds it again. -/

namespace Sys2Proof.Machine

open Sys2Proof.Safety

/-! ### Outcomes -/

/-- A computation that answers a next state has succeeded with it. -/
theorem toOutcome_next {x : Except Stop State} {t : State} : toOutcome x = .next t ↔ x = .ok t := by
  cases x <;> simp [toOutcome]

/-- A computation answers a fault with the reason of its Fatal. -/
theorem toOutcome_fault {x : Except Stop State} {r : Fault} : toOutcome x = .fault r ↔ ∃ e, x = .error e ∧ e.reason = r := by
  cases x <;> simp [toOutcome]

/-- Naming the state a Fatal leaves does not change what succeeds. -/
@[simp] theorem raisedIn_ok {α : Type} {s : State} {x : Except Fault α} {a : α} : raisedIn s x = .ok a ↔ x = .ok a := by
  cases x <;> simp [raisedIn]

/-- A Fatal raised in a state leaves that state. -/
theorem raisedIn_error {α : Type} {s : State} {x : Except Fault α} {e : Stop} :
    raisedIn s x = .error e ↔ ∃ r, x = .error r ∧ e = ⟨r, s⟩ := by
  cases x <;> simp [raisedIn, eq_comm]

/-- Dropping what a Fatal leaves does not change what succeeds. -/
@[simp] theorem reasonOnly_ok {α : Type} {x : Except Stop α} {a : α} : reasonOnly x = .ok a ↔ x = .ok a := by
  cases x <;> simp [reasonOnly]

/-- Dropping what a Fatal leaves keeps its reason. -/
theorem reasonOnly_error {α : Type} {x : Except Stop α} {r : Fault} :
    reasonOnly x = .error r ↔ ∃ e, x = .error e ∧ e.reason = r := by
  cases x <;> simp [reasonOnly]

/-- A computation never answers a refusal. -/
theorem toOutcome_not_refused {x : Except Stop State} {r : Refusal} : toOutcome x ≠ .refused r := by
  cases x <;> simp [toOutcome]

/-- The first part of a sequence that succeeds has succeeded. -/
theorem bind_ok {ε α β : Type} {x : Except ε α} {f : α → Except ε β} {b : β} :
    (x >>= f) = .ok b ↔ ∃ a, x = .ok a ∧ f a = .ok b := by
  cases x <;> simp [bind, Except.bind]

/-- A sequence stops in its first part, or in the rest. -/
theorem bind_error {ε α β : Type} {x : Except ε α} {f : α → Except ε β} {e : ε} :
    (x >>= f) = .error e ↔ x = .error e ∨ ∃ a, x = .ok a ∧ f a = .error e := by
  cases x <;> simp [bind, Except.bind]

/-! ### Interrupt sources -/

/-- `post` leaves the state, or marks a source that is enabled and not yet pending. -/
theorem post_cases (src : IrqSource) (s : State) :
    post src s = s ∨
    (s.ipl[irqIndex src] ≠ .disabled ∧ s.pending[irqIndex src] = false ∧
      post src s = { s with pending := s.pending.set (irqIndex src) true, pendingCount := s.pendingCount + 1 }) := by
  unfold post
  split
  · exact .inl rfl
  split
  · exact .inl rfl
  · exact .inr ⟨by assumption, by simp_all, rfl⟩

/-! ### The hardware stack -/

/-- What a pop leaves: SP steps down, the shadows show the new slot, and a STACK_ERROR may be posted. -/
theorem popState_eq (s : State) :
    popState s = { s with
      sp := spJoin s.sp (spDown s.sp)
      ssh := s.stackH[slotOf (spJoin s.sp (spDown s.sp))]
      ssl := s.stackL[slotOf (spJoin s.sp (spDown s.sp))]
      pending := (popState s).pending
      pendingCount := (popState s).pendingCount } := by
  unfold popState postStackError
  dsimp only
  split
  · rcases post_cases .stackError s with h | ⟨-, -, h⟩ <;> simp [h, refreshShadows]
  · simp [refreshShadows]

/-- The pending sources after a pop. -/
theorem popState_pending (s : State) :
    ((popState s).pending, (popState s).pendingCount) =
      ((postStackError (spDown s.sp) s).pending, (postStackError (spDown s.sp) s).pendingCount) := by
  unfold popState
  simp

/-- What a push leaves: SP steps up, its slot is written, and the shadows show it. -/
theorem pushWith_sp (hi : BitVec 16) (lo : Option (BitVec 16)) (s : State) :
    (pushWith hi lo s).sp = spJoin s.sp (spUp s.sp) := by
  unfold pushWith
  simp

/-- The shadows show the active slot after a push. -/
theorem pushWith_shadows (hi : BitVec 16) (lo : Option (BitVec 16)) (s : State) :
    (pushWith hi lo s).ssh = (pushWith hi lo s).stackH[slotOf (pushWith hi lo s).sp] ∧
    (pushWith hi lo s).ssl = (pushWith hi lo s).stackL[slotOf (pushWith hi lo s).sp] := by
  unfold pushWith
  simp

/-- The shadows show the active slot after a pop. -/
theorem popState_shadows (s : State) : ShadowOk (popState s) := by
  constructor <;> · unfold popState; simp

/-- The slot that SP selects does not depend on its sticky bits. -/
theorem slotOf_spJoin_spUp (sp : BitVec 6) : slotOf (spJoin sp (spUp sp)) = slotOf (spUp sp) := by
  revert sp
  decide +kernel

theorem slotOf_spJoin_spDown (sp : BitVec 6) : slotOf (spJoin sp (spDown sp)) = slotOf (spDown sp) := by
  revert sp
  decide +kernel

/-- A push and a pop never clear SE or UF (R40, R42). -/
theorem spJoin_keeps_sticky (sp n : BitVec 6) : sp &&& 0x30 &&& spJoin sp n = sp &&& 0x30 := by
  revert sp n
  decide +kernel

/-! ### Registers -/

/-- A read of a register leaves the state, sets L through the limiter, or pops the stack. -/
theorem readReg_ok {r : Reg} {s t : State} {v : Word} (h : readReg r s = .ok (v, t)) :
    t = s ∨ t = setSr s (setBit s.sr srL true) ∨ (r = .ssh ∧ t = popState s) := by
  have limited : ∀ d, readLimited d s = .ok (v, t) → t = s ∨ t = setSr s (setBit s.sr srL true) := fun d h => by
    unfold readLimited at h
    split at h
    · cases h
    · rename_i sc _
      simp only [Except.ok.injEq, Prod.mk.injEq] at h
      obtain ⟨-, rfl⟩ := h
      by_cases hl : (limit24 sc (accVal s d)).2 = true
      · exact .inr (by simp [hl])
      · exact .inl (by simp [hl])
  cases r with
  | a => exact (limited .a h).imp id .inl
  | b => exact (limited .b h).imp id .inl
  | ssh =>
    cases h
    exact .inr (.inr ⟨rfl, rfl⟩)
  | reserved c => cases h
  | _ =>
    cases h
    exact .inl rfl

/-- A register that a parallel move names can be read unless the limiter meets the reserved scaling mode. -/
theorem readReg_move {r : Reg} {s : State} {sc : Scale} (hr : r.isMoveReg = true) (hs : scaleOf s.sr = .ok sc) :
    ∃ v t, readReg r s = .ok (v, t) := by
  cases r <;> first
    | exact ⟨_, _, rfl⟩
    | (simp [Reg.isMoveReg] at hr; done)
    | (simp only [readReg, readLimited, hs]; exact ⟨_, _, rfl⟩)

/-- Only a reserved code cannot be written. -/
theorem writeReg_total {r : Reg} (v : Word) (s : State) (hr : ∀ c, r ≠ .reserved c) : ∃ t, writeReg r v s = .ok t := by
  cases r <;> first | exact ⟨_, rfl⟩ | exact absurd rfl (hr _)

/-- A write of a register changes no word array, no scratch byte and no DMA register. -/
theorem writeReg_memory {r : Reg} {v : Word} {s t : State} (h : writeReg r v s = .ok t) :
    t.xram = s.xram ∧ t.yram = s.yram ∧ t.pram = s.pram ∧ t.mixbuffer = s.mixbuffer ∧ t.periph = s.periph ∧ t.scratch = s.scratch := by
  cases r <;> cases h <;> first
    | exact ⟨rfl, rfl, rfl, rfl, rfl, rfl⟩
    | simp [pushSsh]
    | (unfold writeSp; dsimp only; split <;> simp)

/-- A write of a register leaves the pc, the cycle and instruction counts and `len`. -/
theorem writeReg_control {r : Reg} {v : Word} {s t : State} (h : writeReg r v s = .ok t) :
    t.pc = s.pc ∧ t.len = s.len ∧ t.instrCycle = s.instrCycle ∧ t.instrCount = s.instrCount ∧ t.budget = s.budget ∧
    t.interruptState = s.interruptState ∧ t.loopRep = s.loopRep ∧ t.pcOnRep = s.pcOnRep := by
  cases r <;> cases h <;> first
    | exact ⟨rfl, rfl, rfl, rfl, rfl, rfl, rfl, rfl⟩
    | simp [pushSsh]
    | (unfold writeSp; dsimp only; split <;> simp)

/-! ### Memory accesses -/

/-- A read of the peripheral window leaves the state, or makes one free draw. -/
theorem readPeriph_state (a : Word) (s : State) :
    (readPeriph a s).2 = s ∨ (readPeriph a s).2 = { s with draws := s.draws + 1 } := by
  unfold readPeriph
  repeat' split
  all_goals first | exact .inl rfl | exact .inr rfl

/-- A load leaves the state, or makes one free draw. -/
theorem memLoad_ok {sp : Space} {a : Word} {s t : State} {v : Word} (h : memLoad sp a s = .ok (v, t)) :
    t = s ∨ t = { s with draws := s.draws + 1 } := by
  unfold memLoad at h
  cases sp with
  | x =>
    dsimp only at h
    split at h
    · have := readPeriph_state a s
      simp only [Except.ok.injEq] at h
      rwa [h] at this
    · split at h
      · cases h
        exact .inl rfl
      · cases h
  | y =>
    dsimp only at h
    split at h
    · cases h
      exact .inl rfl
    · cases h

/-- Storing to X below the peripheral window keeps every array canonical. -/
theorem writeXData_memoryOk {s t : State} {a v : Word} (hs : MemoryOk s) (h : writeXData s a v = .ok t) : MemoryOk t := by
  rcases writeXData_ok h with ⟨k, -, hk, rfl⟩ | ⟨k, -, hk, rfl⟩
  · exact ⟨hs.xram, hs.yram, hs.pram, Memory.write_wf v hk hs.mixbuffer, hs.periph, hs.scratch⟩
  · exact ⟨Memory.write_wf v hk hs.xram, hs.yram, hs.pram, hs.mixbuffer, hs.periph, hs.scratch⟩

theorem writeY_memoryOk {s t : State} {a v : Word} (hs : MemoryOk s) (h : writeY s a v = .ok t) : MemoryOk t := by
  obtain ⟨ha, rfl⟩ := writeY_ok h
  exact ⟨hs.xram, Memory.write_wf v ha hs.yram, hs.pram, hs.mixbuffer, hs.periph, hs.scratch⟩

theorem writeP_memoryOk {s t : State} {a v : Word} (hs : MemoryOk s) (h : writeP s a v = .ok t) : MemoryOk t := by
  obtain ⟨ha, rfl⟩ := writeP_ok h
  exact ⟨hs.xram, hs.yram, Memory.write_wf v ha hs.pram, hs.mixbuffer, hs.periph, hs.scratch⟩

/-! ### DMA -/

/-- What a DMA walk may change: the arrays, scratch memory, the next-block pointer and EOL. -/
def DmaFrame (s t : State) : Prop :=
  t = { s with
    xram := t.xram
    yram := t.yram
    pram := t.pram
    mixbuffer := t.mixbuffer
    scratch := t.scratch
    dmaNext := t.dmaNext
    eol := t.eol }

theorem DmaFrame.refl (s : State) : DmaFrame s s := rfl

theorem DmaFrame.trans {s t u : State} (h1 : DmaFrame s t) (h2 : DmaFrame t u) : DmaFrame s u := by
  unfold DmaFrame at *
  rw [h2, h1]

/-- A store through the DMA keeps the frame, and every array canonical. -/
theorem writeDsp_ok {sp : DspSpace} {s t : State} {a v : Word} (h : writeDsp sp s a v = .ok t) :
    DmaFrame s t ∧ (MemoryOk s → MemoryOk t) := by
  cases sp with
  | x =>
    refine ⟨?_, fun hs => writeXData_memoryOk hs h⟩
    rcases writeXData_ok h with ⟨k, -, -, rfl⟩ | ⟨k, -, -, rfl⟩ <;> rfl
  | y =>
    refine ⟨?_, fun hs => writeY_memoryOk hs h⟩
    obtain ⟨-, rfl⟩ := writeY_ok h
    rfl
  | p =>
    refine ⟨?_, fun hs => writeP_memoryOk hs h⟩
    obtain ⟨-, rfl⟩ := writeP_ok h
    rfl

theorem writeBlock_ok {sp : DspSpace} {s t : State} {a : Nat} {ws : List Word} (h : writeBlock sp s a ws = .ok t) :
    DmaFrame s t ∧ (MemoryOk s → MemoryOk t) := by
  induction ws generalizing s a with
  | nil =>
    cases h
    exact ⟨.refl _, id⟩
  | cons v rest ih =>
    obtain ⟨u, h1, h2⟩ := bind_ok.1 h
    rw [raisedIn_ok] at h1
    exact ⟨(writeDsp_ok h1).1.trans (ih h2).1, fun hs => (ih h2).2 ((writeDsp_ok h1).2 hs)⟩

/-- So does the part of a block that a Fatal leaves. -/
theorem writeBlock_error {sp : DspSpace} {s : State} {a : Nat} {ws : List Word} {e : Stop} (h : writeBlock sp s a ws = .error e) :
    DmaFrame s e.left ∧ (MemoryOk s → MemoryOk e.left) := by
  induction ws generalizing s a with
  | nil => cases h
  | cons v rest ih =>
    rcases bind_error.1 h with h1 | ⟨u, h1, h2⟩
    · obtain ⟨r, -, rfl⟩ := raisedIn_error.1 h1
      exact ⟨.refl _, id⟩
    · rw [raisedIn_ok] at h1
      exact ⟨(writeDsp_ok h1).1.trans (ih h2).1, fun hs => (ih h2).2 ((writeDsp_ok h1).2 hs)⟩

/-- A transfer keeps the frame, and every array canonical. -/
theorem dmaTransfer_ok {d : Descriptor} {s t : State} (h : dmaTransfer d s = .ok t) : DmaFrame s t ∧ (MemoryOk s → MemoryOk t) := by
  unfold dmaTransfer at h
  split at h
  · cases h
  · obtain ⟨saddr, -, h⟩ := bind_ok.1 h
    cases saddr with
    | none =>
      cases h
      exact ⟨.refl _, id⟩
    | some a =>
      obtain ⟨⟨sp, base⟩, -, h⟩ := bind_ok.1 h
      dsimp only at h
      split at h
      · obtain ⟨ws, -, h⟩ := bind_ok.1 (raisedIn_ok.1 h)
        cases h
        exact ⟨rfl, fun hs => ⟨hs.xram, hs.yram, hs.pram, hs.mixbuffer, hs.periph, writeBytes_wf hs.scratch⟩⟩
      · exact writeBlock_ok h

/-- A transfer's Fatal leaves the frame, and every array canonical. -/
theorem dmaTransfer_error {d : Descriptor} {s : State} {e : Stop} (h : dmaTransfer d s = .error e) :
    DmaFrame s e.left ∧ (MemoryOk s → MemoryOk e.left) := by
  unfold dmaTransfer at h
  split at h
  · cases h
    exact ⟨.refl _, id⟩
  · rcases bind_error.1 h with h | ⟨saddr, -, h⟩
    · obtain ⟨r, -, rfl⟩ := raisedIn_error.1 h
      exact ⟨.refl _, id⟩
    cases saddr with
    | none => cases h
    | some a =>
      rcases bind_error.1 h with h | ⟨⟨sp, base⟩, -, h⟩
      · obtain ⟨r, -, rfl⟩ := raisedIn_error.1 h
        exact ⟨.refl _, id⟩
      · dsimp only at h
        split at h
        · obtain ⟨r, -, rfl⟩ := raisedIn_error.1 h
          exact ⟨.refl _, id⟩
        · exact writeBlock_error h

/-- One node of a walk keeps the frame, and every array canonical. -/
theorem dmaNode_ok {s t : State} (h : dmaNode s = .ok t) : DmaFrame s t ∧ (MemoryOk s → MemoryOk t) := by
  obtain ⟨d, -, h⟩ := bind_ok.1 h
  obtain ⟨h1, h2⟩ := dmaTransfer_ok h
  exact ⟨DmaFrame.trans (t := { s with dmaNext := d.next, eol := s.eol || d.next.getLsbD dmaEol }) rfl h1, fun hs => h2 ⟨hs.xram, hs.yram, hs.pram, hs.mixbuffer, hs.periph, hs.scratch⟩⟩

/-- A node's Fatal leaves the frame, and every array canonical. -/
theorem dmaNode_error {s : State} {e : Stop} (h : dmaNode s = .error e) :
    DmaFrame s e.left ∧ (MemoryOk s → MemoryOk e.left) := by
  rcases bind_error.1 h with h | ⟨d, -, h⟩
  · obtain ⟨r, -, rfl⟩ := raisedIn_error.1 h
    exact ⟨.refl _, id⟩
  · obtain ⟨h1, h2⟩ := dmaTransfer_error h
    exact ⟨DmaFrame.trans (t := { s with dmaNext := d.next, eol := s.eol || d.next.getLsbD dmaEol }) rfl h1, fun hs => h2 ⟨hs.xram, hs.yram, hs.pram, hs.mixbuffer, hs.periph, hs.scratch⟩⟩

/-- A walk keeps the frame and every array canonical, and ends with the EOL bit of the next-block pointer set. -/
theorem dmaWalk_ok {k : Nat} {s t : State} (h : dmaWalk k s = .ok t) :
    DmaFrame s t ∧ (MemoryOk s → MemoryOk t) ∧ t.dmaNext.getLsbD dmaEol = true := by
  induction k generalizing s with
  | zero =>
    unfold dmaWalk at h
    split at h
    · cases h
      exact ⟨.refl _, id, by assumption⟩
    · cases h
  | succ k ih =>
    unfold dmaWalk at h
    split at h
    · cases h
      exact ⟨.refl _, id, by assumption⟩
    · obtain ⟨u, h1, h2⟩ := bind_ok.1 h
      obtain ⟨f1, m1⟩ := dmaNode_ok h1
      obtain ⟨f2, m2, e⟩ := ih h2
      exact ⟨f1.trans f2, fun hs => m2 (m1 hs), e⟩

/-- A walk's Fatal leaves the frame, and every array canonical (R308). -/
theorem dmaWalk_error {k : Nat} {s : State} {e : Stop} (h : dmaWalk k s = .error e) :
    DmaFrame s e.left ∧ (MemoryOk s → MemoryOk e.left) := by
  induction k generalizing s with
  | zero =>
    unfold dmaWalk at h
    split at h <;> cases h
    exact ⟨.refl _, id⟩
  | succ k ih =>
    unfold dmaWalk at h
    split at h
    · cases h
    · rcases bind_error.1 h with h | ⟨u, h1, h2⟩
      · exact dmaNode_error h
      · obtain ⟨f1, m1⟩ := dmaNode_ok h1
        obtain ⟨f2, m2⟩ := ih h2
        exact ⟨f1.trans f2, fun hs => m2 (m1 hs)⟩

theorem dmaRun_ok {s t : State} (h : dmaRun s = .ok t) : DmaFrame s t ∧ (MemoryOk s → MemoryOk t) := by
  unfold dmaRun at h
  split at h
  · exact ⟨(dmaWalk_ok h).1, (dmaWalk_ok h).2.1⟩
  · cases h
    exact ⟨.refl _, id⟩

/-- What a store to the peripheral window may change: the DMA frame and the DMA registers. -/
def PeriphFrame (s t : State) : Prop :=
  DmaFrame { s with dmaConfig := t.dmaConfig, dmaControl := t.dmaControl, dmaStart := t.dmaStart } t

theorem writePeriph_ok {a v : Word} {s t : State} (h : writePeriph a v s = .ok t) : PeriphFrame s t ∧ (MemoryOk s → MemoryOk t) := by
  have same : ∀ hs : MemoryOk s, ∀ u : State, u.xram = s.xram → u.yram = s.yram → u.pram = s.pram → u.mixbuffer = s.mixbuffer →
      u.periph = s.periph → u.scratch = s.scratch → MemoryOk u := fun hs u h1 h2 h3 h4 h5 h6 =>
    ⟨h1 ▸ hs.xram, h2 ▸ hs.yram, h3 ▸ hs.pram, h4 ▸ hs.mixbuffer, h5 ▸ hs.periph, h6 ▸ hs.scratch⟩
  unfold writePeriph at h
  split at h
  · cases h
    refine ⟨?_, fun hs => ?_⟩ <;> split
    · rfl
    · rfl
    · exact same hs _ rfl rfl rfl rfl rfl rfl
    · exact hs
  split at h
  · cases h
    exact ⟨rfl, fun hs => same hs _ rfl rfl rfl rfl rfl rfl⟩
  split at h
  · obtain ⟨c, -, h⟩ := bind_ok.1 h
    obtain ⟨f, m⟩ := dmaRun_ok h
    refine ⟨?_, fun hs => m (same hs _ rfl rfl rfl rfl rfl rfl)⟩
    unfold PeriphFrame DmaFrame
    unfold DmaFrame at f
    rw [f]
  split at h
  · cases h
    exact ⟨rfl, fun hs => same hs _ rfl rfl rfl rfl rfl rfl⟩
  split at h
  · cases h
    exact ⟨rfl, fun hs => same hs _ rfl rfl rfl rfl rfl rfl⟩
  · cases h
    exact ⟨rfl, id⟩

/-- A store of an instruction keeps the peripheral frame, and every array canonical. -/
theorem memStore_ok {sp : Space} {a v : Word} {s t : State} (h : memStore sp a v s = .ok t) :
    PeriphFrame s t ∧ (MemoryOk s → MemoryOk t) := by
  cases sp with
  | x =>
    rw [memStore, reasonOnly_ok] at h
    unfold attemptStore at h
    dsimp only at h
    split at h
    · exact writePeriph_ok h
    · rw [raisedIn_ok] at h
      refine ⟨?_, fun hs => writeXData_memoryOk hs h⟩
      rcases writeXData_ok h with ⟨k, -, -, rfl⟩ | ⟨k, -, -, rfl⟩ <;> rfl
  | y =>
    rw [memStore, reasonOnly_ok, attemptStore, raisedIn_ok] at h
    refine ⟨?_, fun hs => writeY_memoryOk hs h⟩
    obtain ⟨-, rfl⟩ := writeY_ok h
    rfl

/-! ### Effective addresses -/

/-- An effective address changes nothing but the address register it updates. -/
theorem enterEa_ok {ea : EaAddr} {s t : State} {a : Word} (h : enterEa ea s = .ok (a, t)) :
    ∃ u, useEa ea s = .ok u ∧ a = u.addr ∧
      t = if eaTakesExt ea then takeExtension (applyUpdate u.update s) else applyUpdate u.update s := by
  unfold enterEa at h
  split at h
  · rename_i u hu
    cases h
    exact ⟨u, hu, rfl, rfl⟩
  · cases h

/-! ### The two phases of a parallel move -/

/-- An ALU operation alone answers a next state exactly when its effect is defined. -/
theorem runAlu_next {f : State → Except Fault AluEffect} {s t : State} :
    runAlu f s = .next t ↔ ∃ e, f s = .ok e ∧ t = applyAlu e s := by
  unfold runAlu
  cases f s <;> simp [eq_comm]

/-- A parallel move answers a next state exactly when its reads, its ALU operation and its writes succeed. -/
theorem runMove_next {op : AluOp} {plan : State → Except Fault MovePlan} {s t : State} :
    runMove op plan s = .next t ↔ ∃ p e, plan s = .ok p ∧ aluEffect op s = .ok e ∧ commitMove e p = .ok t := by
  unfold runMove
  simp only [toOutcome_next, attemptMove, bind_ok, raisedIn_ok]
  constructor
  · rintro ⟨p, hp, e, he, h⟩
    exact ⟨p, e, hp, he, h⟩
  · rintro ⟨p, e, hp, he, h⟩
    exact ⟨p, hp, e, he, h⟩

/-- A Fatal of a parallel move comes in phase 1, where nothing is written yet, or in its writes (R220). -/
theorem attemptMove_error {op : AluOp} {plan : State → Except Fault MovePlan} {s : State} {f : Stop} :
    attemptMove op plan s = .error f ↔
      (f.left = s ∧ (plan s = .error f.reason ∨ ∃ p, plan s = .ok p ∧ aluEffect op s = .error f.reason)) ∨
      ∃ p e, plan s = .ok p ∧ aluEffect op s = .ok e ∧ commitMove e p = .error f := by
  obtain ⟨reason, left⟩ := f
  unfold attemptMove
  cases plan s <;> cases aluEffect op s <;> simp [raisedIn, bind, Except.bind, eq_comm, and_comm]

/-- What an ALU effect writes: one accumulator at most, and SR. -/
theorem applyAlu_eq (e : AluEffect) (s : State) :
    applyAlu e s = { s with a := (applyAlu e s).a, b := (applyAlu e s).b, sr := (applyAlu e s).sr } := by
  obtain ⟨acc, sr⟩ := e
  cases acc with
  | none => rfl
  | some p =>
    obtain ⟨d, v⟩ := p
    cases d <;> rfl

/-! ### The PC update and the interrupt check -/

/-- The REP branch of the PC update, case by case (R140 to R142). -/
theorem repUpdate_cases (s : State) :
    (s.loopRep = false ∧ repUpdate s = s) ∨
    (s.loopRep = true ∧ s.pcOnRep = true ∧ repUpdate s = { s with lc := if s.lc = 0 then 0x10000 else s.lc, pcOnRep := false }) ∨
    (s.loopRep = true ∧ s.pcOnRep = false ∧ decLc s.lc ≠ 0 ∧ repUpdate s = { s with lc := decLc s.lc, len := 0 }) ∨
    (s.loopRep = true ∧ s.pcOnRep = false ∧ decLc s.lc = 0 ∧ repUpdate s = { s with loopRep := false, lc := s.lcSaved.setWidth 17 }) := by
  unfold repUpdate
  split
  · split
    · exact .inr (.inl ⟨by assumption, by assumption, rfl⟩)
    · split
      · exact .inr (.inr (.inl ⟨by assumption, by simp_all, by assumption, rfl⟩))
      · exact .inr (.inr (.inr ⟨by assumption, by simp_all, by simp_all, rfl⟩))
  · exact .inl ⟨by simp_all, rfl⟩

/-- The DO branch of the PC update, case by case (R140, R143). -/
theorem loopEnd_cases (s : State) :
    (atLoopEnd s = false ∧ loopEnd s = s) ∨
    (atLoopEnd s = true ∧ decLc s.lc = 0 ∧ loopEnd s = unwindLoop { s with lc := decLc s.lc }) ∨
    (atLoopEnd s = true ∧ decLc s.lc ≠ 0 ∧ loopEnd s = { s with lc := decLc s.lc, pc := s.ssh.setWidth 24 }) := by
  unfold loopEnd
  split
  · split
    · exact .inr (.inl ⟨by assumption, by assumption, rfl⟩)
    · exact .inr (.inr ⟨by assumption, by assumption, rfl⟩)
  · exact .inl ⟨by simp_all, rfl⟩

/-- A winner taken: the latch, then the armed pipeline or the Fatal of an unimplemented vector (R334). -/
theorem takeInterrupt_ok {src : IrqSource} {s t : State} :
    takeInterrupt src s = .ok t ↔ vectorUnimplemented src = false ∧ t = armPipeline (latchInterrupt src s) := by
  cases h : vectorUnimplemented src <;> simp [takeInterrupt, h, eq_comm]

theorem takeInterrupt_error {src : IrqSource} {s : State} {e : Stop} :
    takeInterrupt src s = .error e ↔ vectorUnimplemented src = true ∧ e = ⟨.unimplementedVector, latchInterrupt src s⟩ := by
  cases h : vectorUnimplemented src <;> simp [takeInterrupt, h, eq_comm]

/-- The trace test and arbitration, case by case (R332, R333). -/
theorem traceAndArbitrate_cases (s : State) :
    let s1 := if s.sr.getLsbD srT then post .trace s else s
    (s1.pendingCount = 0 ∧ traceAndArbitrate s = .ok s1) ∨
    (s1.pendingCount ≠ 0 ∧ winner s1 = none ∧ traceAndArbitrate s = .ok s1) ∨
    (s1.pendingCount ≠ 0 ∧ ∃ i, winner s1 = some i ∧ traceAndArbitrate s = takeInterrupt i s1) := by
  intro s1
  by_cases h : s1.pendingCount = 0
  · exact .inl ⟨h, if_pos h⟩
  · have ha : traceAndArbitrate s = arbitrate s1 := if_neg h
    rw [ha, arbitrate]
    cases hw : winner s1 with
    | none => exact .inr (.inl ⟨h, rfl, rfl⟩)
    | some i => exact .inr (.inr ⟨h, i, rfl, rfl⟩)

/-- The interrupt check, case by case (R330, R331). -/
theorem interruptCheck_ok {s t : State} (h : interruptCheck s = .ok t) :
    (s.loopRep = true ∧ t = s) ∨
    (s.loopRep = false ∧ s.interruptState = .none ∧ traceAndArbitrate s = .ok t) ∨
    (s.loopRep = false ∧ s.interruptState ≠ .none ∧ pipelineStep s = .ok t) := by
  rw [interruptCheck, reasonOnly_ok] at h
  unfold attemptCheck at h
  split at h
  · cases h
    exact .inl ⟨by assumption, rfl⟩
  · have hrep : s.loopRep = false := by simp_all
    split at h
    · exact .inr (.inl ⟨hrep, by assumption, h⟩)
    · exact .inr (.inr ⟨hrep, by simp_all, h⟩)
    · exact .inr (.inr ⟨hrep, by simp_all, h⟩)

/-- One count of the pipeline, case by case (R335 to R340). -/
theorem pipelineStep_ok {s t : State} (h : pipelineStep s = .ok t) :
    (s.pipelineCount = .five ∧ t = { s with pipelineCount := .four }) ∨
    (s.pipelineCount = .four ∧ pipelineFour s = .ok t) ∨
    (s.pipelineCount = .three ∧ pipelineThree s = .ok t) ∨
    (s.pipelineCount = .two ∧ t = pipelineTwo s) ∨
    (s.pipelineCount = .one ∧ t = { s with pipelineCount := .zero }) ∨
    (s.pipelineCount = .zero ∧ traceAndArbitrate (leavePipeline s) = .ok t) := by
  unfold pipelineStep at h
  split at h <;> rename_i hc <;> simp only [hc, reduceCtorEq, false_and, true_and, false_or, or_false] <;> first
    | exact h
    | (cases h; rfl)

/-! ### The step -/

/-- The rest of a step answers a next state exactly when the execution and the check did (R130). -/
theorem finishOutcome_next {x : Host.Outcome State Fault Refusal} {t : State} (h : finishOutcome x = .next t) :
    ∃ s1 s2, x = .next s1 ∧ interruptCheck (updatePc s1) = .ok s2 ∧ t = { s2 with instrCount := s2.instrCount + 1 } := by
  cases x with
  | next s1 =>
    unfold finishOutcome finish at h
    dsimp only at h
    split at h
    · rename_i s2 h2
      cases h
      exact ⟨s1, s2, rfl, h2, rfl⟩
    · cases h
  | fault r => cases h
  | refused r => cases h

/-- What a step that answers a next state has done (R130). -/
theorem step_next {s t : State} (h : step s = .next t) :
    s.fatal = none ∧ ∃ s1 s2,
      ((∃ i, fetch s = .instr i ∧ exec i (beginInstr s) = .next s1) ∨ (fetch s = .unlisted ∧ s1 = beginInstr s)) ∧
      interruptCheck (updatePc s1) = .ok s2 ∧ t = { s2 with instrCount := s2.instrCount + 1 } := by
  unfold step at h
  split at h
  · cases h
  · rename_i hf
    refine ⟨hf, ?_⟩
    split at h
    · cases h
    · cases h
    · rename_i hu
      obtain ⟨s1, s2, he, hc, ht⟩ := finishOutcome_next h
      cases he
      exact ⟨_, s2, .inr ⟨hu, rfl⟩, hc, ht⟩
    · rename_i i hi
      obtain ⟨s1, s2, he, hc, ht⟩ := finishOutcome_next h
      exact ⟨s1, s2, .inl ⟨i, hi, he⟩, hc, ht⟩

end Sys2Proof.Machine
end

