-- ==== Sys2Proof/Laws/PerInstr.lean ====
section
/-! SUPPORT. The per-instruction family EncodeLength: an instruction is one opcode word and at most one extension
word (R90, R108). -/

namespace Sys2Proof.Laws

open Sys2Proof

/-- The words of an instruction: an opcode word and at most one extension word. -/
def EncodeLength.Statement (i : Instr) : Prop := ∃ w rest, encode i = w :: rest ∧ rest.length ≤ 1

theorem eaAddrExt_length (ea : EaAddr) : (eaAddrExt ea).length ≤ 1 := by cases ea <;> simp [eaAddrExt]

theorem eaSrcExt_length (src : EaSrc) : (eaSrcExt src).length ≤ 1 := by
  cases src with
  | addr ea => exact eaAddrExt_length ea
  | imm v => simp [eaSrcExt]

theorem eaMoveExt_length (mv : EaMove) : (eaMoveExt mv).length ≤ 1 := by
  cases mv with
  | load src => exact eaSrcExt_length src
  | store dst => exact eaAddrExt_length dst

theorem EncodeLength.nop : EncodeLength.Statement .nop := ⟨_, _, rfl, by simp⟩
theorem EncodeLength.rti : EncodeLength.Statement .rti := ⟨_, _, rfl, by simp⟩
theorem EncodeLength.illegal : EncodeLength.Statement .illegal := ⟨_, _, rfl, by simp⟩
theorem EncodeLength.trap : EncodeLength.Statement .trap := ⟨_, _, rfl, by simp⟩
theorem EncodeLength.rts : EncodeLength.Statement .rts := ⟨_, _, rfl, by simp⟩
theorem EncodeLength.wait : EncodeLength.Statement .wait := ⟨_, _, rfl, by simp⟩
theorem EncodeLength.stop : EncodeLength.Statement .stop := ⟨_, _, rfl, by simp⟩
theorem EncodeLength.enddo : EncodeLength.Statement .enddo := ⟨_, _, rfl, by simp⟩
theorem EncodeLength.andi (i : BitVec 8) (t : CtlTarget) : EncodeLength.Statement (.andi i t) := ⟨_, _, rfl, by simp⟩
theorem EncodeLength.ori (i : BitVec 8) (t : CtlTarget) : EncodeLength.Statement (.ori i t) := ⟨_, _, rfl, by simp⟩
theorem EncodeLength.movecReg (w : Dir) (r : Reg) (c : Reg) : EncodeLength.Statement (.movecReg w r c) := ⟨_, _, rfl, by simp⟩
theorem EncodeLength.movecEa (mv : EaMove) (sp : Space) (c : Reg) : EncodeLength.Statement (.movecEa mv sp c) := ⟨_, _, rfl, eaMoveExt_length mv⟩
theorem EncodeLength.movecAa (w : Dir) (aa : BitVec 6) (sp : Space) (c : Reg) : EncodeLength.Statement (.movecAa w aa sp c) := ⟨_, _, rfl, by simp⟩
theorem EncodeLength.movecImm (i : BitVec 8) (c : Reg) : EncodeLength.Statement (.movecImm i c) := ⟨_, _, rfl, by simp⟩
theorem EncodeLength.repImm (count : BitVec 12) : EncodeLength.Statement (.repImm count) := ⟨_, _, rfl, by simp⟩
theorem EncodeLength.repAa (aa : BitVec 6) (sp : Space) : EncodeLength.Statement (.repAa aa sp) := ⟨_, _, rfl, by simp⟩
theorem EncodeLength.repEa (mode : EaMode) (i : Fin 8) (sp : Space) : EncodeLength.Statement (.repEa mode i sp) := ⟨_, _, rfl, by simp⟩
theorem EncodeLength.repReg (r : Reg) : EncodeLength.Statement (.repReg r) := ⟨_, _, rfl, by simp⟩
theorem EncodeLength.doImm (count : BitVec 12) (last : Word) : EncodeLength.Statement (.doImm count last) := ⟨_, _, rfl, by simp⟩
theorem EncodeLength.doAa (aa : BitVec 6) (sp : Space) (last : Word) : EncodeLength.Statement (.doAa aa sp last) := ⟨_, _, rfl, by simp⟩
theorem EncodeLength.doEa (mode : EaMode) (i : Fin 8) (sp : Space) (last : Word) : EncodeLength.Statement (.doEa mode i sp last) := ⟨_, _, rfl, by simp⟩
theorem EncodeLength.doReg (r : Reg) (last : Word) : EncodeLength.Statement (.doReg r last) := ⟨_, _, rfl, by simp⟩
theorem EncodeLength.moveXRII (d : AccSel) (ea : EaAddr) (alu : AluOp) : EncodeLength.Statement (.moveXRII d ea alu) := ⟨_, _, rfl, eaAddrExt_length ea⟩
theorem EncodeLength.moveRYII (d : AccSel) (ea : EaAddr) (alu : AluOp) : EncodeLength.Statement (.moveRYII d ea alu) := ⟨_, _, rfl, eaAddrExt_length ea⟩
theorem EncodeLength.jmpEa (ea : EaAddr) : EncodeLength.Statement (.jmpEa ea) := ⟨_, _, rfl, eaAddrExt_length ea⟩
theorem EncodeLength.jccEa (ea : EaAddr) (cond : Cond) : EncodeLength.Statement (.jccEa ea cond) := ⟨_, _, rfl, eaAddrExt_length ea⟩
theorem EncodeLength.jsrEa (ea : EaAddr) : EncodeLength.Statement (.jsrEa ea) := ⟨_, _, rfl, eaAddrExt_length ea⟩
theorem EncodeLength.jsccEa (ea : EaAddr) (cond : Cond) : EncodeLength.Statement (.jsccEa ea cond) := ⟨_, _, rfl, eaAddrExt_length ea⟩
theorem EncodeLength.jmpAbs (addr : BitVec 12) : EncodeLength.Statement (.jmpAbs addr) := ⟨_, _, rfl, by simp⟩
theorem EncodeLength.jsrAbs (addr : BitVec 12) : EncodeLength.Statement (.jsrAbs addr) := ⟨_, _, rfl, by simp⟩
theorem EncodeLength.jccAbs (cond : Cond) (addr : BitVec 12) : EncodeLength.Statement (.jccAbs cond addr) := ⟨_, _, rfl, by simp⟩
theorem EncodeLength.jsccAbs (cond : Cond) (addr : BitVec 12) : EncodeLength.Statement (.jsccAbs cond addr) := ⟨_, _, rfl, by simp⟩
theorem EncodeLength.moveXRI (f : XSide) (d : AccSel) (g : YInput) (mv : EaMove) (alu : AluOp) : EncodeLength.Statement (.moveXRI f d g mv alu) := ⟨_, _, rfl, eaMoveExt_length mv⟩
theorem EncodeLength.moveRYI (d : AccSel) (e : XInput) (f : YSide) (mv : EaMove) (alu : AluOp) : EncodeLength.Statement (.moveRYI d e f mv alu) := ⟨_, _, rfl, eaMoveExt_length mv⟩
theorem EncodeLength.noMove (alu : AluOp) : EncodeLength.Statement (.noMove alu) := ⟨_, _, rfl, by simp⟩
theorem EncodeLength.moveUpdate (mode : UpdateMode) (i : Fin 8) (alu : AluOp) : EncodeLength.Statement (.moveUpdate mode i alu) := ⟨_, _, rfl, by simp⟩
theorem EncodeLength.moveRegReg (src : Reg) (dst : Reg) (alu : AluOp) : EncodeLength.Statement (.moveRegReg src dst alu) := ⟨_, _, rfl, by simp⟩
theorem EncodeLength.moveImm (dst : Reg) (i : BitVec 8) (alu : AluOp) : EncodeLength.Statement (.moveImm dst i alu) := ⟨_, _, rfl, by simp⟩
theorem EncodeLength.moveXYEa (sp : Space) (r : Reg) (mv : EaMove) (alu : AluOp) : EncodeLength.Statement (.moveXYEa sp r mv alu) := ⟨_, _, rfl, eaMoveExt_length mv⟩
theorem EncodeLength.moveXYAa (sp : Space) (r : Reg) (w : Dir) (aa : BitVec 6) (alu : AluOp) : EncodeLength.Statement (.moveXYAa sp r w aa alu) := ⟨_, _, rfl, by simp⟩
theorem EncodeLength.moveLEa (l : LPair) (w : Dir) (ea : EaAddr) (alu : AluOp) : EncodeLength.Statement (.moveLEa l w ea alu) := ⟨_, _, rfl, eaAddrExt_length ea⟩
theorem EncodeLength.moveLAa (l : LPair) (w : Dir) (aa : BitVec 6) (alu : AluOp) : EncodeLength.Statement (.moveLAa l w aa alu) := ⟨_, _, rfl, by simp⟩
theorem EncodeLength.moveXYDouble (wy : Dir) (my : XyMode) (e : XSide) (f : YSide) (wx : Dir) (rr : BitVec 2) (mx : XyMode) (i : Fin 8) (alu : AluOp) : EncodeLength.Statement (.moveXYDouble wy my e f wx rr mx i alu) := ⟨_, _, rfl, by simp⟩
theorem EncodeLength.aluMove : EncodeLength.Statement .aluMove := ⟨_, _, rfl, by simp⟩
theorem EncodeLength.tfrAcc (d : AccSel) : EncodeLength.Statement (.tfrAcc d) := ⟨_, _, rfl, by simp⟩
theorem EncodeLength.tfrReg (j : AluReg) (d : AccSel) : EncodeLength.Statement (.tfrReg j d) := ⟨_, _, rfl, by simp⟩
theorem EncodeLength.addr (d : AccSel) : EncodeLength.Statement (.addr d) := ⟨_, _, rfl, by simp⟩
theorem EncodeLength.tst (d : AccSel) : EncodeLength.Statement (.tst d) := ⟨_, _, rfl, by simp⟩
theorem EncodeLength.cmpAcc (d : AccSel) : EncodeLength.Statement (.cmpAcc d) := ⟨_, _, rfl, by simp⟩
theorem EncodeLength.cmpReg (j : AluReg) (d : AccSel) : EncodeLength.Statement (.cmpReg j d) := ⟨_, _, rfl, by simp⟩
theorem EncodeLength.subr (d : AccSel) : EncodeLength.Statement (.subr d) := ⟨_, _, rfl, by simp⟩
theorem EncodeLength.cmpmAcc (d : AccSel) : EncodeLength.Statement (.cmpmAcc d) := ⟨_, _, rfl, by simp⟩
theorem EncodeLength.cmpmReg (j : AluReg) (d : AccSel) : EncodeLength.Statement (.cmpmReg j d) := ⟨_, _, rfl, by simp⟩
theorem EncodeLength.addAcc (d : AccSel) : EncodeLength.Statement (.addAcc d) := ⟨_, _, rfl, by simp⟩
theorem EncodeLength.addX (d : AccSel) : EncodeLength.Statement (.addX d) := ⟨_, _, rfl, by simp⟩
theorem EncodeLength.addY (d : AccSel) : EncodeLength.Statement (.addY d) := ⟨_, _, rfl, by simp⟩
theorem EncodeLength.addReg (j : AluReg) (d : AccSel) : EncodeLength.Statement (.addReg j d) := ⟨_, _, rfl, by simp⟩
theorem EncodeLength.rnd (d : AccSel) : EncodeLength.Statement (.rnd d) := ⟨_, _, rfl, by simp⟩
theorem EncodeLength.addl (d : AccSel) : EncodeLength.Statement (.addl d) := ⟨_, _, rfl, by simp⟩
theorem EncodeLength.clr (d : AccSel) : EncodeLength.Statement (.clr d) := ⟨_, _, rfl, by simp⟩
theorem EncodeLength.subAcc (d : AccSel) : EncodeLength.Statement (.subAcc d) := ⟨_, _, rfl, by simp⟩
theorem EncodeLength.subX (d : AccSel) : EncodeLength.Statement (.subX d) := ⟨_, _, rfl, by simp⟩
theorem EncodeLength.subY (d : AccSel) : EncodeLength.Statement (.subY d) := ⟨_, _, rfl, by simp⟩
theorem EncodeLength.subReg (j : AluReg) (d : AccSel) : EncodeLength.Statement (.subReg j d) := ⟨_, _, rfl, by simp⟩
theorem EncodeLength.subl (d : AccSel) : EncodeLength.Statement (.subl d) := ⟨_, _, rfl, by simp⟩
theorem EncodeLength.notAcc (d : AccSel) : EncodeLength.Statement (.notAcc d) := ⟨_, _, rfl, by simp⟩
theorem EncodeLength.adc (j : PairSel) (d : AccSel) : EncodeLength.Statement (.adc j d) := ⟨_, _, rfl, by simp⟩
theorem EncodeLength.asr (d : AccSel) : EncodeLength.Statement (.asr d) := ⟨_, _, rfl, by simp⟩
theorem EncodeLength.lsr (d : AccSel) : EncodeLength.Statement (.lsr d) := ⟨_, _, rfl, by simp⟩
theorem EncodeLength.sbc (j : PairSel) (d : AccSel) : EncodeLength.Statement (.sbc j d) := ⟨_, _, rfl, by simp⟩
theorem EncodeLength.absAcc (d : AccSel) : EncodeLength.Statement (.absAcc d) := ⟨_, _, rfl, by simp⟩
theorem EncodeLength.ror (d : AccSel) : EncodeLength.Statement (.ror d) := ⟨_, _, rfl, by simp⟩
theorem EncodeLength.asl (d : AccSel) : EncodeLength.Statement (.asl d) := ⟨_, _, rfl, by simp⟩
theorem EncodeLength.lsl (d : AccSel) : EncodeLength.Statement (.lsl d) := ⟨_, _, rfl, by simp⟩
theorem EncodeLength.neg (d : AccSel) : EncodeLength.Statement (.neg d) := ⟨_, _, rfl, by simp⟩
theorem EncodeLength.rol (d : AccSel) : EncodeLength.Statement (.rol d) := ⟨_, _, rfl, by simp⟩
theorem EncodeLength.orReg (j : AluReg) (d : AccSel) : EncodeLength.Statement (.orReg j d) := ⟨_, _, rfl, by simp⟩
theorem EncodeLength.eorReg (j : AluReg) (d : AccSel) : EncodeLength.Statement (.eorReg j d) := ⟨_, _, rfl, by simp⟩
theorem EncodeLength.andReg (j : AluReg) (d : AccSel) : EncodeLength.Statement (.andReg j d) := ⟨_, _, rfl, by simp⟩
theorem EncodeLength.mpy (q : MulPair) (d : AccSel) (k : MulSign) : EncodeLength.Statement (.mpy q d k) := ⟨_, _, rfl, by simp⟩
theorem EncodeLength.mpyr (q : MulPair) (d : AccSel) (k : MulSign) : EncodeLength.Statement (.mpyr q d k) := ⟨_, _, rfl, by simp⟩
theorem EncodeLength.mac (q : MulPair) (d : AccSel) (k : MulSign) : EncodeLength.Statement (.mac q d k) := ⟨_, _, rfl, by simp⟩
theorem EncodeLength.macr (q : MulPair) (d : AccSel) (k : MulSign) : EncodeLength.Statement (.macr q d k) := ⟨_, _, rfl, by simp⟩

end Sys2Proof.Laws
end

