-- ==== Sys2Proof/Tests/Slice0.lean ====
section
/-! SUPPORT. The session's own tests: the WellFormed smoke tests, words written out from the spec's encodings, one or two
small steps per instruction (expected results from spec/95_test_vectors.md, its ids in the comments, or computed by
hand from the rule named), and a witness of the hypotheses of every statement. -/

namespace Sys2Proof.Tests

set_option Elab.async false

open Sys2Proof.Machine Sys2Proof.Claims Sys2Proof.Safety

/-! ### Helpers -/

/-- Words placed in P from an address on. -/
def place : State → Nat → List Word → State
  | s, _, [] => s
  | s, a, w :: rest => place { s with pram := s.pram.write a w } (a + 1) rest

/-- The state after reset, changed by f, with words at P:0. -/
def at0 (ws : List Word) (f : State → State := id) : State := place (f State.reset) 0 ws

/-- An outcome is a next state with a property. -/
def nextIs (o : Host.Outcome State Fault Refusal) (p : State → Bool) : Bool :=
  match o with
  | .next t => p t
  | .fault _ | .refused _ => false

/-- An outcome is a fault. -/
def faultIs (o : Host.Outcome State Fault Refusal) (r : Fault) : Bool :=
  match o with
  | .fault r' => r' == r
  | .next _ | .refused _ => false

/-- One step on the words, from the state after reset changed by f. -/
def runs (ws : List Word) (f : State → State) (p : State → Bool) : Bool := nextIs (step (at0 ws f)) p

/-- One step of an ALU byte with no parallel move: the final A and SR. -/
def alu (b : Nat) (f : State → State) (a : Acc) (sr : BitVec 16) : Bool :=
  nextIs (step ((f State.reset).withFetchWord 8 b)) fun t => t.a == a && t.sr == sr && t.pc == 1 && t.instrCycle == 2

def setA (a : Acc) (s : State) : State := { s with a := a }
def setB (b : Acc) (s : State) : State := { s with b := b }
def setX (x1 x0 : Word) (s : State) : State := { s with x1 := x1, x0 := x0 }
def setY (y1 y0 : Word) (s : State) : State := { s with y1 := y1, y0 := y0 }
def srIs (v : BitVec 16) (s : State) : State := { s with sr := v }
def atR (i : Fin 8) (v : Word) (s : State) : State := setR s i v
def atX (a : Nat) (v : Word) (s : State) : State := { s with xram := s.xram.write a v }
def atY (a : Nat) (v : Word) (s : State) : State := { s with yram := s.yram.write a v }
def atPc (a : Word) (s : State) : State := { s with pc := a }

/-- A stack of one entry (F2). -/
def oneFrame (pc sr : BitVec 16) (s : State) : State :=
  { s with sp := 1, stackH := s.stackH.set 1 pc, stackL := s.stackL.set 1 sr, ssh := pc, ssl := sr }

/-- The descriptor of vector M1, its control word and DSP offset as arguments. -/
def descriptor (ctl off : Word) (s : State) : State :=
  { s with
    xram := [(0x100, 0x4000), (0x101, ctl), (0x102, 2), (0x103, off)]
    yram := [(0, 0x123456), (1, 0xABCDEF)], dmaNext := 0x100 }

/-- The nodes of vectors M2 (with the control word of its second node as an argument), M19, M9 and M10. -/
def nodeM2 : Vector Word 7 := #v[0x0110, 0x0009E2, 1, 0x1800, 0, 0, 0]
def nodeM2b (ctl : Word) : Vector Word 7 := #v[0x4000, ctl, 1, 0x1801, 4, 0, 0]
def nodeM19 : Vector Word 7 := #v[0x0100, 0x0009E2, 0, 0x1800, 0, 0, 0]
def nodeM10 (last : Word) : Vector Word 7 := #v[0x4000, 0x0009C2, 2, 0x1800, 0, 0x200, last]
def listM2 (ctl : Word) : State :=
  { State.reset with
    xram := [(0x100, 0x0110), (0x101, 0x0009E2), (0x102, 1), (0x103, 0x1800), (0x110, 0x4000), (0x111, ctl), (0x112, 1), (0x113, 0x1801), (0x114, 4)]
    yram := [(0, 0x123456), (1, 0xABCDEF)], dmaNext := 0x100 }
/-- A list whose first node moves nothing and points to `next`; at 0x110 stands a block that runs into the hole of X. -/
def nodeVia (next : Word) : Vector Word 7 := #v[next, 0x0009E2, 0, 0x1800, 0, 0, 0]
def nodeHole : Vector Word 7 := #v[0x4000, 0x0009E2, 2, 0x0FFF, 0, 0, 0]
def listVia (next : Word) : State :=
  { State.reset with
    xram := [(0x100, next), (0x101, 0x0009E2), (0x103, 0x1800), (0x110, 0x4000), (0x111, 0x0009E2), (0x112, 2), (0x113, 0x0FFF)]
    dmaNext := 0x100 }
def afterM2 (ctl : Word) : State :=
  { nodeLoaded nodeM2 (started (listM2 ctl)) with scratch := [(0, 0x56), (1, 0x34), (2, 0x12), (3, 0)] }

/-! ### WellFormed: one ill-formed term for each check -/

theorem test_wf_movecReg_source : Instr.wellFormed (.movecReg .load (.reserved 0x04) .sr) = false := by decide
theorem test_wf_movecReg_control : Instr.wellFormed (.movecReg .load .x0 .x1) = false := by decide
theorem test_wf_movecReg_reserved_control : Instr.wellFormed (.movecReg .load .x0 (.reserved 0x03)) = false := by decide
theorem test_wf_movecEa : Instr.wellFormed (.movecEa (.load (.imm 0)) .x .a) = false := by decide
theorem test_wf_movecAa : Instr.wellFormed (.movecAa .store 0 .y (.r 3)) = false := by decide
theorem test_wf_movecImm : Instr.wellFormed (.movecImm 0 (.reserved 0x39)) = false := by decide
theorem test_wf_repReg : Instr.wellFormed (.repReg (.reserved 0x3F)) = false := by decide
theorem test_wf_doReg : Instr.wellFormed (.doReg (.reserved 0x10) 0) = false := by decide
theorem test_wf_moveRegReg_source : Instr.wellFormed (.moveRegReg .sr .a .move) = false := by decide
theorem test_wf_moveRegReg_destination : Instr.wellFormed (.moveRegReg .a (.m 0) .move) = false := by decide
theorem test_wf_moveImm : Instr.wellFormed (.moveImm (.reserved 0) 1 .move) = false := by decide
theorem test_wf_moveXYEa : Instr.wellFormed (.moveXYEa .x .lc (.load (.imm 0)) .move) = false := by decide
theorem test_wf_moveXYAa : Instr.wellFormed (.moveXYAa .y .ssh .load 0 .move) = false := by decide
theorem test_wf_reserved_source_admitted : Instr.wellFormed (.movecReg .load (.reserved 0x28) .sr) = true := by decide

/-! ### Decoding: words written out from the templates of R107, R110 and R175 -/

theorem test_decode_nop : decode 0b000000000000000000000000 0 = .ok .nop := by decide +kernel
theorem test_decode_rti : decode 0b000000000000000000000100 0 = .ok .rti := by decide +kernel
theorem test_decode_illegal : decode 0b000000000000000000000101 0 = .ok .illegal := by decide +kernel
theorem test_decode_trap : decode 0b000000000000000000000110 0 = .ok .trap := by decide +kernel
theorem test_decode_rts : decode 0b000000000000000000001100 0 = .ok .rts := by decide +kernel
theorem test_decode_wait : decode 0b000000000000000010000110 0 = .ok .wait := by decide +kernel
theorem test_decode_stop : decode 0b000000000000000010000111 0 = .ok .stop := by decide +kernel
theorem test_decode_enddo : decode 0b000000000000000010001100 0 = .ok .enddo := by decide +kernel
-- 00000000 iiiiiiii 101110EE
theorem test_decode_andi : decode 0b000000001111111010111001 0 = .ok (.andi 0xFE .ccr) := by decide +kernel
theorem test_decode_ori : decode 0b000000000000001111111000 0 = .ok (.ori 0x03 .mr) := by decide +kernel
-- 00000100 W1eeeeee 101ddddd; X0 = 000100, M0 = 1:00000
theorem test_decode_movecReg : decode 0b000001001100010010100000 0 = .ok (.movecReg .load .x0 (.m 0)) := by decide +kernel
theorem test_decode_movecReg_store : decode 0b000001000100010010111100 0 = .ok (.movecReg .store .x0 .ssh) := by decide +kernel
-- 00000101 W1MMMRRR 0S1ddddd; (R0) = 100000, SR = 1:11001
theorem test_decode_movecEa : decode 0b000001011110000000111001 0 = .ok (.movecEa (.load (.addr (.reg .plain 0))) .x .sr) := by decide +kernel
-- 00000101 W0aaaaaa 0S1ddddd
theorem test_decode_movecAa : decode 0b000001010010101001111111 0 = .ok (.movecAa .store 0x2A .y .lc) := by decide +kernel
theorem test_decode_movecImm : decode 0b000001010001001010100000 0 = .ok (.movecImm 0x12 (.m 0)) := by decide +kernel
-- 00000110 iiiiiiii 1010hhhh, the count hhhh : iiiiiiii
theorem test_decode_repImm : decode 0b000001100000001110101001 0 = .ok (.repImm 0x903) := by decide +kernel
theorem test_decode_repAa : decode 0b000001100001000001100000 0 = .ok (.repAa 0x10 .y) := by decide +kernel
theorem test_decode_repEa : decode 0b000001100101110100100000 0 = .ok (.repEa .postInc 5 .x) := by decide +kernel
theorem test_decode_repReg : decode 0b000001101100010000100000 0 = .ok (.repReg .x0) := by decide +kernel
theorem test_decode_doImm : decode 0b000001100000010110000001 4 = .ok (.doImm 0x105 4) := by decide +kernel
theorem test_decode_doAa : decode 0b000001100001000001000000 4 = .ok (.doAa 0x10 .y 4) := by decide +kernel
theorem test_decode_doEa : decode 0b000001100110000000000000 4 = .ok (.doEa .plain 0 .x 4) := by decide +kernel
theorem test_decode_doReg : decode 0b000001101100010000000000 4 = .ok (.doReg .x0 4) := by decide +kernel
-- 0000100d 00MMMRRR and 0000100d 10MMMRRR with the ALU byte
theorem test_decode_moveXRII : decode 0b000010000010000000010011 0 = .ok (.moveXRII .a (.reg .plain 0) (.clr .a)) := by decide +kernel
theorem test_decode_moveRYII : decode 0b000010011011000000000000 7 = .ok (.moveRYII .b (.abs 7) .move) := by decide +kernel
-- 00001010 11MMMRRR 10000000 and its relatives
theorem test_decode_jmpEa : decode 0b000010101111000010000000 0x123 = .ok (.jmpEa (.abs 0x123)) := by decide +kernel
theorem test_decode_jccEa : decode 0b000010101110000010101010 0 = .ok (.jccEa (.reg .plain 0) .eq) := by decide +kernel
theorem test_decode_jsrEa : decode 0b000010111110000010000000 0 = .ok (.jsrEa (.reg .plain 0)) := by decide +kernel
theorem test_decode_jsccEa : decode 0b000010111111101010100111 0 = .ok (.jsccEa (.reg .preDec 2) .gt) := by decide +kernel
theorem test_decode_jmpAbs : decode 0b000011000000000100000000 0 = .ok (.jmpAbs 0x100) := by decide +kernel
theorem test_decode_jsrAbs : decode 0b000011010000000100000000 0 = .ok (.jsrAbs 0x100) := by decide +kernel
theorem test_decode_jccAbs : decode 0b000011101010000000100000 0 = .ok (.jccAbs .eq 0x020) := by decide +kernel
theorem test_decode_jsccAbs : decode 0b000011111111111111111111 0 = .ok (.jsccAbs .le 0xFFF) := by decide +kernel
-- 0001ffdF W0MMMRRR and 0001deff W1MMMRRR
theorem test_decode_moveXRI : decode 0b000110111001100100000000 0 = .ok (.moveXRI .a .b .y1 (.load (.addr (.reg .postInc 1))) .move) := by decide +kernel
theorem test_decode_moveRYI : decode 0b000101010111000000000000 9 = .ok (.moveRYI .a .x1 .y1 (.store (.abs 9)) .move) := by decide +kernel
theorem test_decode_noMove : decode 0b001000000000000000010011 0 = .ok (.noMove (.clr .a)) := by decide +kernel
theorem test_decode_moveUpdate : decode 0b001000000101101100000000 0 = .ok (.moveUpdate .inc 3 .move) := by decide +kernel
-- 001000ee eeeddddd
theorem test_decode_moveRegReg : decode 0b001000010000111000000000 0 = .ok (.moveRegReg .a0 .a .move) := by decide +kernel
theorem test_decode_moveImm : decode 0b001001000100000000000000 0 = .ok (.moveImm .x0 0x40 .move) := by decide +kernel
-- 01ddSddd W1MMMRRR and W0aaaaaa; B = 01 111, Y1 = 00 111
theorem test_decode_moveXYEa : decode 0b010111111110000000000000 0 = .ok (.moveXYEa .y .b (.load (.addr (.reg .plain 0))) .move) := by decide +kernel
theorem test_decode_moveXYAa : decode 0b010001110010000000000000 0 = .ok (.moveXYAa .x .y1 .store 0x20 .move) := by decide +kernel
-- 0100L0LL W1MMMRRR and W0aaaaaa
theorem test_decode_moveLEa : decode 0b010010101110000000000000 0 = .ok (.moveLEa .ab .load (.reg .plain 0) .move) := by decide +kernel
theorem test_decode_moveLAa : decode 0b010000010000001100000000 0 = .ok (.moveLAa .b10 .store 3 .move) := by decide +kernel
-- 1wmmeeff WrrMMRRR
theorem test_decode_moveXYDouble :
    decode 0b111101101011000100000000 0 = .ok (.moveXYDouble .load .inc .x1 .a .load 1 .dec 1 .move) := by decide +kernel

/-- The ALU bytes 0JJJdOOO and 1QQQdkTT, each row with d = 1 where it has a d. -/
theorem test_decode_alu_bytes :
    [0b00000000, 0b00001001, 0b01011001, 0b00001010, 0b00001011, 0b00001101, 0b01101101, 0b00001110, 0b00001111, 0b01111111].map decodeAluByte
      = [some .move, some (.tfrAcc .b), some (.tfrReg .y0 .b), some (.addr .b), some (.tst .b), some (.cmpAcc .b), some (.cmpReg .x1 .b),
        some (.subr .b), some (.cmpmAcc .b), some (.cmpmReg .y1 .b)] ∧
    [0b00011000, 0b00101000, 0b00111000, 0b01001000, 0b00011001, 0b00011010, 0b00011011, 0b00011100, 0b00101100, 0b00111100].map decodeAluByte
      = [some (.addAcc .b), some (.addX .b), some (.addY .b), some (.addReg .x0 .b), some (.rnd .b), some (.addl .b), some (.clr .b),
        some (.subAcc .b), some (.subX .b), some (.subY .b)] ∧
    [0b01011100, 0b00011110, 0b00011111, 0b00111001, 0b00101010, 0b00101011, 0b00111101, 0b00101110, 0b00101111, 0b00111010].map decodeAluByte
      = [some (.subReg .y0 .b), some (.subl .b), some (.notAcc .b), some (.adc .y .b), some (.asr .b), some (.lsr .b), some (.sbc .y .b),
        some (.absAcc .b), some (.ror .b), some (.asl .b)] ∧
    [0b00111011, 0b00111110, 0b00111111, 0b01101010, 0b01111011, 0b01011110, 0b11001000, 0b11011101, 0b11101110, 0b10111011].map decodeAluByte
      = [some (.lsl .b), some (.neg .b), some (.rol .b), some (.orReg .x1 .b), some (.eorReg .y1 .b), some (.andReg .y0 .b),
        some (.mpy .x0y1 .b .plus), some (.mpyr .y0x0 .b .minus), some (.mac .x1y0 .b .minus), some (.macr .y1y0 .b .plus)] := by
  decide +kernel

/-- Unlisted words: D9, D12, D13, D26, D27, D36, D45, D54, V32, and a reserved 0x0000xx byte. -/
theorem test_unlisted :
    ([0x000001, 0x0000BB, 0x0000FB, 0x0AF480, 0x0AF180, 0x082004, 0x201000, 0x200004, 0x200008, 0x20000C, 0x200015, 0x20001D, 0x447400] : List Word).all
      (fun w => decide (decode w 0 = .error .unlisted)) = true := by decide +kernel

/-- The mask and the value of every row are those of its template (R93). -/
theorem test_templates :
    ((nonParallelRows ++ parallelRows).all fun r => r.mask.toNat == templateMask r.template && r.value.toNat == templateValue r.template) = true ∧
    (aluRows.all fun r => r.mask.toNat == templateMask r.template && r.value.toNat == templateValue r.template) = true := by
  decide +kernel

/-- The host's two entry points on an alu_byte row and on a two-word row. -/
theorem test_decodeTableWord :
    decodeTableWord 8 0x10 = some (.addAcc .a) ∧ decodeTableWord 24 0x200010 = some (.noMove (.addAcc .a)) ∧
    decodeTableWord 24 0x060580 = some (.doImm 5 0) ∧ decodeTableWord 48 0x000004060580 = some (.doImm 5 4) ∧
    decodeTableWord 8 0x04 = none := by decide +kernel

theorem test_withFetchWord : nextIs (step (State.reset.withFetchWord 48 0x12345644F400)) (fun t => t.x0 == 0x123456 && t.pc == 2) = true := by
  decide +kernel

/-! ### Data ALU steps (section 3 of the vectors) -/

theorem test_move : alu 0x00 (setA ⟨0, 0x400000, 0⟩) ⟨0, 0x400000, 0⟩ 0 = true := by decide +kernel -- A1
theorem test_tfr_b : alu 0x01 (setB ⟨0, 0x100000, 0⟩) ⟨0, 0x100000, 0⟩ 0 = true := by decide +kernel -- A2
theorem test_tfr_x0 : alu 0x41 (setX 0 0x800000) ⟨0xFF, 0x800000, 0⟩ 0 = true := by decide +kernel -- A3
theorem test_addr : alu 0x02 (setA ⟨0, 0x400000, 0⟩ ∘ setB ⟨0, 0x100000, 0⟩) ⟨0, 0x300000, 0⟩ 0x10 = true := by decide +kernel -- A4
theorem test_tst : alu 0x03 (setA ⟨0xFF, 0x800000, 0⟩) ⟨0xFF, 0x800000, 0⟩ 0x08 = true := by decide +kernel -- A5
theorem test_cmp_b : alu 0x05 (setA ⟨0, 0x400000, 0⟩ ∘ setB ⟨0, 0x100000, 0⟩) ⟨0, 0x400000, 0⟩ 0x10 = true := by decide +kernel -- A6
theorem test_cmp_x0 : alu 0x45 (setA ⟨0, 0x100000, 0⟩ ∘ setX 0 0x200000) ⟨0, 0x100000, 0⟩ 0x19 = true := by decide +kernel -- A7
theorem test_subr : alu 0x06 (setA ⟨0, 0x400000, 0⟩ ∘ setB ⟨0, 0x100000, 0⟩) ⟨0, 0x100000, 0⟩ 0x10 = true := by decide +kernel -- A8
theorem test_cmpm_b : alu 0x07 (setA ⟨0xFF, 0xC00000, 0⟩ ∘ setB ⟨0, 0x400000, 0⟩) ⟨0xFF, 0xC00000, 0⟩ 0x14 = true := by decide +kernel -- R183
theorem test_cmpm_x0 : alu 0x47 (setA ⟨0xFF, 0xC00000, 0⟩ ∘ setX 0 0x400000) ⟨0xFF, 0xC00000, 0⟩ 0x14 = true := by decide +kernel -- A9
theorem test_add_wraps : alu 0x10 (setA ⟨0x7F, 0xFFFFFF, 0xFFFFFF⟩ ∘ setB ⟨0, 0, 1⟩) ⟨0x80, 0, 0⟩ 0x7A = true := by decide +kernel -- A10
theorem test_add_carry : alu 0x10 (setA ⟨0xFF, 0xFFFFFF, 0xFFFFFF⟩ ∘ setB ⟨0, 0, 1⟩) ⟨0, 0, 0⟩ 0x15 = true := by decide +kernel -- A12
theorem test_add_x : alu 0x20 (setA ⟨0, 0x400000, 0⟩ ∘ setX 1 2) ⟨0, 0x400001, 2⟩ 0 = true := by decide +kernel -- A13
theorem test_add_y : alu 0x30 (setA ⟨0, 0x400000, 0⟩ ∘ setY 1 2) ⟨0, 0x400001, 2⟩ 0 = true := by decide +kernel -- A13 with Y
theorem test_add_x0 : alu 0x40 (setA ⟨0, 0x7FFFFF, 0⟩ ∘ setX 0 1) ⟨0, 0x800000, 0⟩ 0x20 = true := by decide +kernel -- A11
theorem test_rnd_tie_odd : alu 0x11 (setA ⟨0, 0x123457, 0x800000⟩) ⟨0, 0x123458, 0⟩ 0x10 = true := by decide +kernel -- A15
theorem test_rnd_scale_up : alu 0x11 (setA ⟨0, 0x123456, 0x800000⟩ ∘ srIs 0x0800) ⟨0, 0x123456, 0x800000⟩ 0x0810 = true := by decide +kernel -- A64
theorem test_addl : alu 0x12 (setA ⟨0, 0x100000, 0⟩ ∘ setB ⟨0, 1, 0⟩) ⟨0, 0x200001, 0⟩ 0x10 = true := by decide +kernel -- A18
theorem test_clr : alu 0x13 (setA ⟨0x12, 0x345678, 0x9ABCDE⟩) ⟨0, 0, 0⟩ 0x14 = true := by decide +kernel -- A19
theorem test_sub_b : alu 0x14 (setA ⟨0x80, 0, 0⟩ ∘ setB ⟨0, 0, 1⟩) ⟨0x7F, 0xFFFFFF, 0xFFFFFF⟩ 0x72 = true := by decide +kernel -- A21
theorem test_sub_x : alu 0x24 (setX 1 2) ⟨0xFF, 0xFFFFFE, 0xFFFFFE⟩ 0x19 = true := by decide +kernel -- R188
theorem test_sub_y : alu 0x34 (setY 1 2) ⟨0xFF, 0xFFFFFE, 0xFFFFFE⟩ 0x19 = true := by decide +kernel -- R188
theorem test_sub_x0 : alu 0x44 (setX 0 0x400000) ⟨0xFF, 0xC00000, 0⟩ 0x19 = true := by decide +kernel -- A20
theorem test_subl : alu 0x16 (setA ⟨0, 0x100000, 0⟩ ∘ setB ⟨0, 1, 0⟩) ⟨0, 0x1FFFFF, 0⟩ 0x10 = true := by decide +kernel -- A22
theorem test_not : alu 0x17 (setA ⟨0, 0x0F0F0F, 0⟩) ⟨0, 0xF0F0F0, 0⟩ 0x08 = true := by decide +kernel -- A23
theorem test_adc : alu 0x21 (setX 0 0xFFFFFF ∘ srIs 1) ⟨0, 1, 0⟩ 0x10 = true := by decide +kernel -- A24
theorem test_asr : alu 0x22 (setA ⟨0, 0, 3⟩) ⟨0, 0, 1⟩ 0x11 = true := by decide +kernel -- A27
theorem test_lsr : alu 0x23 (setA ⟨0xFF, 3, 0⟩) ⟨0xFF, 1, 0⟩ 0x01 = true := by decide +kernel -- A28
theorem test_sbc : alu 0x25 (setA ⟨0, 1, 0⟩ ∘ setX 0 1 ∘ srIs 1) ⟨0, 0, 0xFFFFFE⟩ 0x10 = true := by decide +kernel -- A25
theorem test_abs : alu 0x26 (setA ⟨0x80, 0, 0⟩) ⟨0x80, 0, 0⟩ 0x7A = true := by decide +kernel -- A29
theorem test_ror : alu 0x27 (setA ⟨0, 1, 0⟩ ∘ srIs 1) ⟨0, 0x800000, 0⟩ 0x09 = true := by decide +kernel -- A41
theorem test_asl : alu 0x32 (setA ⟨0x40, 0, 0⟩) ⟨0x80, 0, 0⟩ 0x7A = true := by decide +kernel -- A36
theorem test_asl_carry : alu 0x32 (setA ⟨0xC0, 0, 0⟩) ⟨0x80, 0, 0⟩ 0x39 = true := by decide +kernel -- A37
theorem test_lsl : alu 0x33 (setA ⟨0, 0x800001, 0⟩) ⟨0, 2, 0⟩ 0x01 = true := by decide +kernel -- A38
theorem test_neg : alu 0x36 (setA ⟨0, 0x400000, 0⟩) ⟨0xFF, 0xC00000, 0⟩ 0x18 = true := by decide +kernel -- A40
theorem test_rol : alu 0x37 (setA ⟨0, 0x800000, 0⟩) ⟨0, 0, 0⟩ 0x05 = true := by decide +kernel -- A42
theorem test_or : alu 0x42 (setA ⟨0, 0x0F0000, 0⟩ ∘ setX 0 0x00F000) ⟨0, 0x0FF000, 0⟩ 0 = true := by decide +kernel -- A43
theorem test_eor : alu 0x43 (setA ⟨0, 0xFFFFFF, 0⟩ ∘ setX 0 0x0F0F0F) ⟨0, 0xF0F0F0, 0⟩ 0x08 = true := by decide +kernel -- A44
theorem test_and : alu 0x46 (setA ⟨0, 0xFF00FF, 0⟩ ∘ setX 0 0x00FF00) ⟨0, 0, 0⟩ 0x04 = true := by decide +kernel -- A45
theorem test_mpy_negative : alu 0x84 (setX 0 0x400000) ⟨0xFF, 0xE00000, 0⟩ 0x18 = true := by decide +kernel -- A47
theorem test_mpy_one : alu 0x80 (setX 0 0x800000) ⟨0, 0x800000, 0⟩ 0x20 = true := by decide +kernel -- A48
theorem test_mpyr : alu 0xA1 (setX 0x400000 1) ⟨0, 0, 0⟩ 0x14 = true := by decide +kernel -- A49
theorem test_mac : alu 0x82 (setA ⟨0x7F, 0xFFFFFF, 0⟩ ∘ setX 0 0x7FFFFF) ⟨0x80, 0x7FFFFD, 2⟩ 0x6A = true := by decide +kernel -- A50
theorem test_macr : alu 0x83 (setA ⟨0, 0x100000, 0⟩ ∘ setX 0 0x400000) ⟨0, 0x300000, 0⟩ 0x10 = true := by decide +kernel -- A51
theorem test_scaling_reserved : faultIs (step (at0 [0x200040] (srIs 0x0C00))) .scalingReserved = true := by decide +kernel -- A72

/-! ### Parallel-move steps (section 4 of the vectors) -/

theorem test_noMove : runs [0x200013] (setA ⟨0x12, 0x345678, 0x9ABCDE⟩) (fun t => t.a == ⟨0, 0, 0⟩ && t.sr == 0x14) = true := by decide +kernel -- V1
theorem test_moveUpdate_wraps : runs [0x205800] (atR 0 0xFFFF) (fun t => t.r[0] == 0) = true := by decide +kernel -- V41
theorem test_moveUpdate_modulo :
    runs [0x204800] (fun s => setM (setN (setR s 0 0x22) 0 3) 0 3) (fun t => t.r[0] == 0x21) = true := by decide +kernel -- V46
theorem test_moveRegReg : runs [0x208E00] (setX 0 0x123456) (fun t => t.a == ⟨0, 0x123456, 0⟩) = true := by decide +kernel -- V3
theorem test_moveRegReg_limits : runs [0x21C400] (setA ⟨0, 0x800000, 0⟩) (fun t => t.x0 == 0x7FFFFF && t.sr == 0x40) = true := by decide +kernel -- V21
theorem test_moveImm : runs [0x2E8000] id (fun t => t.a == ⟨0xFF, 0x800000, 0⟩) = true := by decide +kernel -- V5
theorem test_moveXYEa_wins :
    runs [0x56E040] (setX 0 0x100000 ∘ atR 0 0x10 ∘ atX 0x10 0x000123) (fun t => t.a == ⟨0, 0x000123, 0⟩ && t.sr == 0x10) = true := by decide +kernel -- V20
theorem test_moveXYEa_immediate : runs [0x44F400, 0x123456] id (fun t => t.x0 == 0x123456 && t.pc == 2 && t.instrCycle == 4) = true := by decide +kernel -- V7
theorem test_moveXYEa_absolute :
    runs [0x447000, 0x000020] (setX 0 0xABCDEF) (fun t => t.xram.read 0x20 == 0xABCDEF && t.pc == 2 && t.instrCycle == 4) = true := by decide +kernel -- V22
theorem test_moveXYAa : runs [0x442000] (setX 0 0xABCDEF) (fun t => t.xram.read 0x20 == 0xABCDEF && t.pc == 1) = true := by decide +kernel -- V23
theorem test_moveXRI :
    runs [0x10A000] (setA ⟨0, 0x111111, 0⟩ ∘ atR 0 0x20 ∘ atX 0x20 0x000123) (fun t => t.x0 == 0x000123 && t.y0 == 0x111111) = true := by decide +kernel -- V8
theorem test_moveRYI :
    runs [0x18E100] (setB ⟨0, 0x222222, 0⟩ ∘ atR 1 0x30 ∘ atY 0x30 0x000456) (fun t => t.x0 == 0x222222 && t.y0 == 0x000456) = true := by decide +kernel -- V9
theorem test_moveLEa :
    runs [0x42E000] (atR 0 0x40 ∘ atX 0x40 0x7FFFFF ∘ atY 0x40 0xFFFFFF) (fun t => t.x1 == 0x7FFFFF && t.x0 == 0xFFFFFF) = true := by decide +kernel -- V10
/-- move a10,l:3: the limbs without limiting (R229). -/
theorem test_moveLAa : runs [0x400300] (setA ⟨0x12, 0x800001, 0x5⟩) (fun t => t.xram.read 3 == 0x800001 && t.yram.read 3 == 5 && t.sr == 0) = true := by
  decide +kernel
theorem test_moveXYDouble :
    runs [0xF09800] (atR 0 0x10 ∘ atR 4 0x20 ∘ atX 0x10 0x000111 ∘ atY 0x20 0x000222)
      (fun t => t.x0 == 0x000111 && t.y0 == 0x000222 && t.r[0] == 0x11 && t.r[4] == 0x21) = true := by decide +kernel -- V11
theorem test_moveXYDouble_conflict : faultIs (step (at0 [0xFA9800])) .moveConflict = true := by decide +kernel -- V31
theorem test_moveXRII :
    runs [0x082000] (setA ⟨0, 0x123456, 0⟩ ∘ setX 0 0x400000 ∘ atR 0 0x10) (fun t => t.xram.read 0x10 == 0x123456 && t.a == ⟨0, 0x400000, 0⟩) = true := by
  decide +kernel -- V12
theorem test_moveRYII :
    runs [0x09A000] (setB ⟨0, 0x000777, 0⟩ ∘ setY 0 1 ∘ atR 0 0x10) (fun t => t.yram.read 0x10 == 0x000777 && t.b == ⟨0, 1, 0⟩) = true := by
  decide +kernel -- V13
theorem test_mix_windows :
    nextIs (step (at0 [0x447000, 0x001405] (setX 0 0x00ABCD))) (fun t => readDsp .x t 0x0C05 matches .ok 0x00ABCD) = true := by decide +kernel -- V27
theorem test_unmapped_x : faultIs (step (at0 [0x44E000] (atR 0 0x1000))) .addressOutOfRange = true := by decide +kernel -- V28
theorem test_reverse_carry : runs [0x204800] (fun s => setM (setN (setR s 0 8) 0 8) 0 0) (fun t => t.r[0] == 4) = true := by decide +kernel -- V48

/-! ### Control steps (sections 5 to 7 of the vectors) -/

theorem test_nop : runs [0x000000] id (fun t => t.pc == 1 && t.instrCycle == 2) = true := by decide +kernel -- F1
theorem test_rti : runs [0x000004] (oneFrame 0x0123 0x0300) (fun t => t.pc == 0x0123 && t.sr == 0x0300 && t.sp == 0) = true := by decide +kernel -- F2
theorem test_rts : runs [0x00000C] (oneFrame 0x0011 0x0300) (fun t => t.pc == 0x11 && t.sr == 0 && t.sp == 0) = true := by decide +kernel -- F3
theorem test_illegal :
    runs [0x000005] id (fun t => t.interruptState == .disabled && t.pipelineCount == .five && t.instrFetch == some 0x3E) = true := by decide +kernel -- F31
theorem test_trap : runs [0x000006] id (fun t => t.pc == 1 && t.instrFetch == some 0x06) = true := by decide +kernel -- P4
theorem test_wait : runs [0x000086] id (fun t => t.pc == 1 && t.instrCycle == 2 && t.sr == 0) = true := by decide +kernel -- F32
theorem test_stop : runs [0x000087] id (fun t => t.pc == 1 && t.instrCycle == 2 && t.sr == 0) = true := by decide +kernel -- F32, R136
theorem test_unlisted_word :
    runs [0x000001] id (fun t => t.pc == 1 && t.instrCycle == 2 && t.sr == 0 && t.pendingCount == 0) = true := by decide +kernel -- D9, R136
/-- DO of a reserved register, and of X0, with the extension word outside P (R270, R131). -/
theorem test_extension_outside_p :
    faultIs (step (place (atPc 4095 State.reset) 4095 [0x06C000])) .reservedRegister = true ∧
    faultIs (step (place (atPc 4095 State.reset) 4095 [0x06C400])) .addressOutOfRange = true := by decide +kernel
/-- enddo two frames deep (F25). -/
theorem test_enddo :
    runs [0x00008C] (fun s => { oneFrame 0x0007 0x0009 { s with la := 3, lc := 3, sr := 0x8000 } with
        sp := 2, ssh := 2, ssl := 0, stackH := (s.stackH.set 1 7).set 2 2, stackL := s.stackL.set 1 9 })
      (fun t => t.sp == 0 && t.sr == 0 && t.la == 7 && t.lc == 9 && t.pc == 1) = true := by decide +kernel
theorem test_andi : runs [0x00FEB9] (srIs 0x030F) (fun t => t.sr == 0x030E) = true := by decide +kernel -- F4
theorem test_ori : runs [0x0003F8] id (fun t => t.sr == 0x0300) = true := by decide +kernel -- F5
theorem test_ori_s_not_writable : runs [0x0080F9] id (fun t => t.sr == 0) = true := by decide +kernel -- F6
theorem test_movecReg : runs [0x04C4A0] (setX 0 0x000FFF) (fun t => t.m[0] == 0x000FFF) = true := by decide +kernel -- F7
theorem test_movecReg_reads_ssh : runs [0x0444BC] (oneFrame 0x0042 0) (fun t => t.x0 == 0x42 && t.sp == 0) = true := by decide +kernel -- K12
theorem test_movecEa : runs [0x05E039] (atR 0 0x10 ∘ atX 0x10 0x300) (fun t => t.sr == 0x0300) = true := by decide +kernel -- F8
/-- movec lc,y:42 (R261). -/
theorem test_movecAa : runs [0x052A7F] (fun s => { s with lc := 0x1234 }) (fun t => t.yram.read 0x2A == 0x1234) = true := by decide +kernel
theorem test_movecImm : runs [0x0512A0] id (fun t => t.m[0] == 0x12) = true := by decide +kernel -- F9
theorem test_movecImm_sp : runs [0x0510BB] (fun s => { s with sp := 3 }) (fun t => t.sp == 0x10 && t.instrFetch == some 0x02) = true := by decide +kernel -- K10
theorem test_movec_reserved : faultIs (step (at0 [0x04C0A0])) .reservedRegister = true := by decide +kernel -- G7
theorem test_repImm :
    runs [0x0603A0] (fun s => { s with lc := 0x1234 }) (fun t => t.lc == 3 && t.lcSaved == 0x1234 && t.loopRep && t.pc == 1 && t.instrCycle == 4) = true := by
  decide +kernel -- F10
theorem test_repImm_zero : runs [0x0600A0] id (fun t => t.lc == 0x10000 && t.loopRep && !t.pcOnRep) = true := by decide +kernel -- F20
theorem test_repAa : runs [0x061020] (atX 0x10 0x020003) (fun t => t.lc == 3 && t.loopRep) = true := by decide +kernel -- R264
theorem test_repEa : runs [0x065820] (atR 0 0x10 ∘ atX 0x10 5) (fun t => t.lc == 5 && t.r[0] == 0x11) = true := by decide +kernel -- R265
theorem test_repReg : runs [0x06C420] (setX 0 2) (fun t => t.lc == 2 && t.loopRep) = true := by decide +kernel -- F22
theorem test_doImm :
    runs [0x060380, 0x000004] (srIs 0x14)
      (fun t => t.sp == 2 && t.ssh == 2 && t.ssl == 0x14 && t.la == 4 && t.lc == 3 && t.sr == 0x8014 && t.pc == 2 && t.instrCycle == 6) = true := by
  decide +kernel -- P1
theorem test_doAa : runs [0x061040, 9] (atY 0x10 7) (fun t => t.lc == 7 && t.la == 9 && t.sp == 2) = true := by decide +kernel -- R268
theorem test_doEa : runs [0x066000, 9] (atR 0 0x10 ∘ atX 0x10 5) (fun t => t.lc == 5 && t.pc == 2) = true := by decide +kernel -- R269
theorem test_doReg : runs [0x06C400, 9] (setX 0 6) (fun t => t.lc == 6 && t.sr == 0x8000) = true := by decide +kernel -- R270
theorem test_jmpEa : runs [0x0AF080, 0x000123] id (fun t => t.pc == 0x123 && t.instrCycle == 6) = true := by decide +kernel -- F29, G10
theorem test_jccEa : runs [0x0AD8AA] (atR 0 5) (fun t => t.pc == 1 && t.r[0] == 6) = true := by decide +kernel -- R272
theorem test_jsrEa : runs [0x0BE080] (atR 0 0x40) (fun t => t.pc == 0x40 && t.sp == 1 && t.ssh == 1) = true := by decide +kernel -- F12 at P:0
theorem test_jsccEa : runs [0x0BF0AA, 0x50] (srIs 4) (fun t => t.pc == 0x50 && t.ssh == 2 && t.ssl == 4) = true := by decide +kernel -- R274
theorem test_jmpAbs : runs [0x0C0100] id (fun t => t.pc == 0x100 && t.instrCycle == 4) = true := by decide +kernel -- F13
/-- jsr $100 at P:0xFFF pushes 0x1000 (F30). -/
theorem test_jsrAbs :
    nextIs (step (place (atPc 0xFFF State.reset) 0xFFF [0x0D0100])) (fun t => t.pc == 0x100 && t.ssh == 0x1000) = true := by decide +kernel
theorem test_jsrAbs_long :
    runs [0x0D0100] (fun s => { s with interruptState := .long, longTaken := true, instrFetch := some 0, savePc := some 9, pipelineCount := .three })
      (fun t => t.pc == 0x100 && t.sp == 0 && t.interruptState == .disabled) = true := by decide +kernel -- P5
theorem test_jccAbs : runs [0x0EA020] (srIs 4) (fun t => t.pc == 0x20) = true := by decide +kernel -- F14
theorem test_jsccAbs : runs [0x0FA020] (srIs 4) (fun t => t.pc == 0x20 && t.sp == 1 && t.ssh == 1) = true := by decide +kernel -- F27 at P:0
theorem test_rep_of_control :
    faultIs (step (at0 [0x0C0010] (fun s => { s with loopRep := true, lc := 3 }))) .repOfControl = true := by decide +kernel -- F23
/-- The last pass of a REP (F10). -/
theorem test_rep_last_pass :
    runs [0x000000] (fun s => { s with loopRep := true, lc := 1, lcSaved := 0x1234 }) (fun t => t.pc == 1 && t.lc == 0x1234 && !t.loopRep) = true := by
  decide +kernel
theorem test_push_overflow : (let t := push 3 4 { State.reset with sp := 15 }; t.sp == 0x10 && t.ssh == 0 && t.pending[2]) = true := by decide +kernel -- K5
theorem test_pop_underflow : (let t := popState State.reset; t.sp == 0x3F && t.pending[2]) = true := by decide +kernel -- K7

/-- Arbitration: I1, I3, I4. -/
def pendingPair (rcv trx : Ipl) (s : State) : State :=
  { s with ipl := (s.ipl.set 6 rcv).set 7 trx, pending := (s.pending.set 6 true).set 7 true, pendingCount := 2 }
theorem test_arbitration :
    runs [0] (pendingPair .level1 .level2) (fun t => t.instrFetch == some 0x22 && t.pending[6]) = true ∧
    runs [0] (pendingPair .level2 .level2) (fun t => t.instrFetch == some 0x20) = true ∧
    runs [0] (pendingPair .level2 .level2 ∘ srIs 0x0200) (fun t => t.instrFetch == none) = true := by decide +kernel
/-- The check of the step that lowers the mask sees the new mask (R330, R333; log entry 26): andi #$FC,mr. -/
theorem test_mask_seen :
    runs [0x00FCB8] (pendingPair .level2 .level2 ∘ srIs 0x0200) (fun t => t.sr == 0 && t.instrFetch == some 0x20) = true := by decide +kernel
theorem test_trace : runs [0] (srIs 0x2000) (fun t => t.instrFetch == some 0x04 && t.iplToRaise == 3) = true := by decide +kernel -- I9
theorem test_unimplemented_vector :
    faultIs (step (at0 [0] (fun s => { s with ipl := s.ipl.set 8 .level1, pending := s.pending.set 8 true, pendingCount := 1 })))
      .unimplementedVector = true := by decide +kernel -- I8
/-- The Fatal of an unimplemented vector leaves what R334 wrote before it. -/
theorem test_fatal_after_latch :
    (let r := callStep (at0 [0] (fun s => { s with ipl := s.ipl.set 8 .level1, pending := s.pending.set 8 true, pendingCount := 1 }))
     r.status == .fatal .unimplementedVector && !r.state.pending[8] && r.state.pendingCount == 0 && r.state.iplToRaise == 2 &&
       r.state.instrFetch == some 0x0E && r.state.interruptState == .none && r.state.pc == 1) = true := by decide +kernel
/-- Step 4 of P5: the long entry. -/
def longAt6 (s : State) : State :=
  { place s 6 [0x0D0080] with interruptState := .disabled, pipelineCount := .four, instrFetch := some 6, iplToRaise := 3, pc := 0x42 }
theorem test_long_entry :
    nextIs (step (longAt6 State.reset)) (fun t => t.pc == 6 && t.sp == 1 && t.ssh == 0x43 && t.sr == 0x0300 && t.interruptState == .long) = true := by
  decide +kernel
/-- Step 6 of P4: the fast return. -/
theorem test_fast_return :
    nextIs (step { State.reset with interruptState := .disabled, pipelineCount := .two, instrFetch := some 6, savePc := some 0x43, pc := 7 })
      (fun t => t.pc == 0x43 && t.pipelineCount == .one) = true := by decide +kernel

/-! ### DMA and host calls (section 8 of the vectors) -/

def stored (v : Word) (s : State) (p : State → Bool) : Bool :=
  match memStore .x 0xFFFFD6 v s with
  | .ok t => p t
  | .error _ => false
theorem test_dma_start :
    stored 1 (descriptor 0x0009E2 0x1800 State.reset) (fun t => t.dmaControl == 0x10 && t.eol && t.dmaNext == 0x4000 &&
      (List.range 8).map t.scratch.read == [0x56, 0x34, 0x12, 0, 0xEF, 0xCD, 0xAB, 0]) = true := by decide +kernel -- M1
theorem test_dma_format1 :
    stored 1 (descriptor 0x0005E2 0x1800 State.reset) (fun t => (List.range 4).map t.scratch.read == [0x34, 0x12, 0xCD, 0xAB]) = true := by
  decide +kernel -- M13
theorem test_dma_faults :
    (memStore .x 0xFFFFD6 1 (descriptor 0x000DE2 0x1800 State.reset) matches .error .dmaFormat) = true ∧
    (memStore .x 0xFFFFD6 1 (descriptor 0x000802 0x1800 State.reset) matches .error .dmaBufid) = true ∧
    (memStore .x 0xFFFFD6 1 (descriptor 0x0009E2 0x17FF State.reset) matches .error .dmaOffset) = true ∧
    (memStore .x 0xFFFFD6 5 State.reset matches .error .dmaAction) = true := by decide +kernel -- M14, M15, M17, M18
/-- The second node of a list is Fatal: the first node's bytes stay (R308), and outlive the fault state and a reset (R361). The
writing instruction is movec m0,x:(r0). -/
theorem test_fatal_keeps_transfers :
    (let s := atR 0 0xFFFFD6 (setM (place (listM2 0x000DE2) 0 [0x056020]) 0 1)
     let r := callStep s
     r.status == .fatal .dmaFormat && r.state.scratch == [(0, 0x56), (1, 0x34), (2, 0x12), (3, 0)] && r.state.eol && r.state.pc == 0 &&
       r.state.fatal == some .dmaFormat) = true := by decide +kernel
/-- An L move to the control register: the X part's walk stays, the Y part is Fatal (R220). -/
theorem test_fatal_in_phase_two :
    (let s := atR 0 0xFFFFD6 (setX 1 0 (place (descriptor 0x0009E2 0x1800 State.reset) 0 [0x426000]))
     let r := callStep s
     r.status == .fatal .addressOutOfRange && r.state.eol && (List.range 4).map r.state.scratch.read == [0x56, 0x34, 0x12, 0]) = true := by
  decide +kernel
theorem test_bootWord : bootWord [(0, 0x56), (1, 0x34), (2, 0x12), (3, 0xFF)] 0 = 0x123456 := by decide +kernel -- M24
theorem test_run_carries_budget : (let r := callRun State.reset 3; r.state.pc == 2 && r.state.budget == -1) = true := by decide +kernel -- G11

/-! ### Witnesses: a state and operands that meet the hypotheses of each statement, each clause at a boundary value -/

/-- EncodeThenDecode. -/
theorem witness_encode :
    Instr.wellFormed (.moveXYEa .y .b (.load (.imm 0xFFFFFF)) (.macr .y1x1 .b .minus)) = true ∧
    ∀ op, Instr.moveXYEa .y .b (.load (.imm 0xFFFFFF)) (.macr .y1x1 .b .minus) ≠ aluInstr op := by
  refine ⟨by decide, fun op => ?_⟩
  cases op <;> simp [aluInstr]

/-- DecodeThenEncode: the first and the last word, and a word with an extension. -/
theorem witness_decode :
    decode 0x000000 0 = .ok .nop ∧ decode 0xFFFFFF 0 = .ok (.moveXYDouble .load .inc .b .b .load 3 .inc 7 (.macr .y1x1 .b .minus)) ∧
    decode 0x44F400 0xFFFFFF = .ok (.moveXYEa .x .x0 (.load (.imm 0xFFFFFF)) .move) ∧ decodeAluByte 0xFF = some (.macr .y1x1 .b .minus) := by
  decide +kernel

/-- StepRunsDecodedInstruction: the last word of P, a two-word instruction, and a repeated instruction. -/
theorem witness_step_runs :
    (let s := place (atPc 4095 State.reset) 4095 [0x200013]
     s.fatal = none ∧ s.pc.toNat < 4096 ∧ decode (s.pram.read s.pc.toNat) (s.pram.read (s.pc + 1).toNat) = .ok (.noMove (.clr .a)) ∧
      hasExtension (s.pram.read s.pc.toNat) = false ∧ s.loopRep = false) ∧
    (let s := place (atPc 4094 State.reset) 4094 [0x44F400, 7]
     s.fatal = none ∧ s.pc.toNat < 4096 ∧ hasExtension (s.pram.read s.pc.toNat) = true ∧ (s.pc + 1).toNat < 4096 ∧
      decode (s.pram.read s.pc.toNat) (s.pram.read (s.pc + 1).toNat) = .ok (.moveXYEa .x .x0 (.load (.imm 7)) .move)) := by decide +kernel

theorem witness_step_runs_under_rep :
    (let s : State := { State.reset with loopRep := true, lc := 3 }
     s.fatal = none ∧ decode (s.pram.read s.pc.toNat) (s.pram.read (s.pc + 1).toNat) = .ok .nop ∧ s.loopRep = true ∧ s.pcOnRep = false) ∧
    ¬ ControlRow .nop := ⟨by decide +kernel, by simp [ControlRow]⟩

/-- StepWithoutAnInstruction, its clauses: the fault state, pc outside P, the three kinds of row with an extension word
outside P, and a word with no row whose check goes on. -/
theorem witness_step_stops :
    ({ State.reset with fatal := some .dmaOffset } : State).fatal = some .dmaOffset ∧
    4096 ≤ (atPc 4096 State.reset).pc.toNat ∧ (atPc 4096 State.reset).fatal = none ∧
    (let s := place (atPc 4095 State.reset) 4095 [0x060580]
     s.fatal = none ∧ s.pc.toNat = 4095 ∧ hasExtension (s.pram.read 4095) = true ∧ s.loopRep = false) ∧
    (hasExtension 0x06C400 = true ∧ decode 0x06C400 0 = .ok (.doReg .x0 0)) ∧
    (hasExtension 0x066000 = true ∧ decode 0x066000 0 = .ok (.doEa .plain 0 .x 0)) ∧
    (let s := at0 [0x0000BB]
     s.fatal = none ∧ s.pc.toNat < 4096 ∧ (rowMatches (s.pram.read s.pc.toNat)).length = 0 ∧
      (interruptCheck (updatePc { s with instrCycle := 2, len := 1 }) matches .ok _) = true ∧
      (interruptCheck (updatePc { s with instrCycle := 2, len := 1, pendingCount := 1, pending := s.pending.set 5 true, ipl := s.ipl.set 5 .level3 }) matches .error .unimplementedVector) = true) := by decide +kernel

/-- RepeatedControlRowIsFatal. -/
theorem witness_repeated_control :
    (let s := at0 [0x0C0010] (fun s => { s with loopRep := true, lc := 3 })
     s.fatal = none ∧ s.pc.toNat < 4096 ∧ decode (s.pram.read s.pc.toNat) (s.pram.read (s.pc + 1).toNat) = .ok (.jmpAbs 0x010) ∧
      s.loopRep = true ∧ s.pcOnRep = false) ∧ ControlRow (.jmpAbs 0x010) := ⟨by decide +kernel, by simp [ControlRow]⟩

/-- EveryStepBookkeeping and EveryStepKeepsInvariant: a state with Inv, inside a REP with LC at its widest, whose step
answers a next state. -/
def inRep : State := at0 [0x200013] (fun s => { s with loopRep := true, lc := 0x10000 })
theorem witness_every_step : Inv inRep ∧ ∃ t, step inRep = .next t where
  left := {
    memory := ⟨by decide +kernel, by decide +kernel, by decide +kernel, by decide +kernel, by decide +kernel, by decide +kernel⟩
    status := ⟨by decide +kernel, by decide +kernel⟩
    shadow := ⟨by decide +kernel, by decide +kernel⟩
    loop := ⟨by decide +kernel, by decide +kernel, by decide +kernel⟩
    pending := by unfold PendingOk; decide +kernel
    pipeline := ⟨by decide +kernel, by decide +kernel, by decide +kernel, by decide +kernel⟩
    dma := by unfold DmaOk; decide +kernel }
  right := ⟨_, rfl⟩

/-- PushThenPop: slot pointers 14, 15 and 0. -/
theorem witness_push_pop :
    (let s : State := { State.reset with sp := 14 }
     (s.sp &&& 0x0F).toNat ≤ 14 ∧ s.sp.getLsbD 4 = false) ∧
    ({ State.reset with sp := 15 } : State).sp &&& 0x0F = 0x0F ∧ State.reset.sp &&& 0x0F = 0 := by decide +kernel

/-- Every statement that asks for a scaling mode: the three modes. -/
theorem witness_scale :
    scaleOf (srIs 0x0000 State.reset).sr = .ok .none ∧ scaleOf (srIs 0x0400 State.reset).sr = .ok .down ∧
    scaleOf (srIs 0x0800 State.reset).sr = .ok .up := by decide +kernel

/-- The reserved mode, where an operation that does not read it has its effect and one that does is Fatal
(AddAndSubForms to ConvergentRounding, AddressRegisterUpdate to DoubleMoves). -/
theorem witness_mode_11 :
    (let s := srIs 0x0C00 State.reset
     s.sr &&& 0x0C00 = 0x0C00 ∧ (aluEffect (.clr .a) s matches .ok _) = true ∧ (aluEffect (.rnd .a) s matches .error .scalingReserved) = true ∧
      offsetOf s.r[0] s.m[0] (shortDisp .inc s.n[0]) = .ok 1 ∧ useEa (.reg .plain 0) s = .ok ⟨0, none⟩ ∧
      useXyMode .plain 0 s = .ok ⟨0, none⟩ ∧ readReg .x0 s = .ok (0, s)) ∧ ModeFree (.clr .a) ∧ LPair.x ∈ [LPair.a10, .b10, .x, .y] ∧
    LPair.ba ∈ [LPair.a, .b, .ab, .ba] := ⟨by decide +kernel, .inr (.inl ⟨.a, by simp⟩), by decide, by decide⟩

/-- LimiterSaturates: the two bounds in each mode, and the reserved mode. -/
theorem witness_limiter :
    ((0xFF7FFFFFFFFFFF : Word56).toInt < -extBound .none) ∧ (extBound .none ≤ (0x00800000000000 : Word56).toInt) ∧
    (-extBound .none ≤ (0xFF800000000000 : Word56).toInt ∧ (0xFF800000000000 : Word56).toInt < extBound .none) ∧
    ((0xFEFFFFFFFFFFFF : Word56).toInt < -extBound .down) ∧ (extBound .down ≤ (0x01000000000000 : Word56).toInt) ∧
    ((0xFFBFFFFFFFFFFF : Word56).toInt < -extBound .up) ∧ (extBound .up ≤ (0x00400000000000 : Word56).toInt) ∧
    (srIs 0x0C00 State.reset).sr &&& 0x0C00 = 0x0C00 := by decide +kernel

/-- StoreThenLoad: the edges of every cell range, and the addresses without a cell beside them. -/
theorem witness_cells :
    cellOf .x 0x0BFF = some (.x 0xBFF) ∧ cellOf .x 0x0C00 = some (.mix 0) ∧ cellOf .x 0x0FFF = some (.mix 1023) ∧
    cellOf .x 0x1000 = none ∧ cellOf .x 0x1400 = some (.mix 0) ∧ cellOf .x 0x17FF = some (.mix 1023) ∧ cellOf .x 0x1800 = none ∧
    cellOf .x 0xFFFF7F = none ∧ (0xFFFF7F : Word).toNat < 0xFFFF80 ∧ 0xFFFF80 ≤ (0xFFFF80 : Word).toNat ∧ cellOf .y 0x07FF = some (.y 0x7FF) ∧ cellOf .y 0x0800 = none ∧
    cellOf .p 0x0FFF = some (.p 0xFFF) ∧ cellOf .p 0x1000 = none := by decide

/-- ModifierArithmetic: the edges of the modulo range, the least k, and the largest displacement allowed. -/
theorem witness_modulo :
    (let mn : Word := 1
     1 ≤ mn.toNat ∧ mn.toNat ≤ 0x7FFFFF ∧ mn.toNat + 1 ≤ 2 ^ 1 ∧ ¬ mn.toNat + 1 ≤ 2 ^ 0) ∧
    (let mn : Word := 0x7FFFFF
     1 ≤ mn.toNat ∧ mn.toNat ≤ 0x7FFFFF ∧ mn.toNat + 1 ≤ 2 ^ 23 ∧ ¬ mn.toNat + 1 ≤ 2 ^ 22) ∧
    (let mn : Word := 3
     let rn : Word := 0x22
     ((mn.toNat : Int) + 1 < |5|) ∧ (|4| ≤ (mn.toNat : Int) + 1) ∧ rn.toNat / 2 ^ 2 * 2 ^ 2 = 0x20 ∧ rn.toNat < 0x20 + (mn.toNat + 1)) ∧
    (0x800000 ≤ (0x800000 : Word).toNat ∧ (0x800000 : Word) ≠ 0xFFFFFF) ∧ (0x800000 ≤ (0xFFFFFE : Word).toNat ∧ (0xFFFFFE : Word) ≠ 0xFFFFFF) := by
  decide +kernel

/-- ModifierArithmetic: the k of a modulus is the least one. -/
theorem witness_least_k : ∀ j, (3 : Word).toNat + 1 ≤ 2 ^ j → 2 ≤ j := by
  intro j h
  rcases j with _ | _ | j
  · exact absurd h (by decide)
  · exact absurd h (by decide)
  · omega

/-- ShiftLeftThenRight: the largest count, and a left shift that keeps its value. -/
theorem witness_shift : (55 ≤ 55) ∧ (asl56 (pack ⟨0xFF, 0xFFFFFF, 0⟩) 24).v = false ∧ (asl56 0 55).v = false := by decide +kernel

/-- AddressRegisterUpdate: an update that wraps, and the two faults. -/
theorem witness_update :
    (let s := atR 0 0xFFFF State.reset
     scaleOf s.sr = .ok .none ∧ offsetOf s.r[0] s.m[0] (shortDisp .inc s.n[0]) = .ok 0) ∧
    (let s := setM (setN State.reset 0 5) 0 3
     scaleOf s.sr = .ok .none ∧ offsetOf s.r[0] s.m[0] (shortDisp .addN s.n[0]) = .error .moduloReserved) ∧
    (let s := setM State.reset 0 0x800000
     offsetOf s.r[0] s.m[0] (shortDisp .dec s.n[0]) = .error .modifierReserved) := by decide +kernel

/-- RegisterAndImmediateMoves: the first and the last register of the field, an immediate of either kind. -/
theorem witness_move_registers : Reg.isMoveReg .x0 = true ∧ Reg.isMoveReg (.n 7) = true ∧ Reg.isMoveReg .b = true := by decide

/-- An address with an Rn update at the last word of X RAM, and its load (MemoryMoves, ClassOneMoves, LongMoves,
MovecMemory, RepStarts, DoStarts, Jumps, Calls). -/
theorem witness_address :
    (let s := atR 2 0x0BFF (srIs 0x0400 State.reset)
     scaleOf s.sr = .ok .down ∧ useEa (.reg .postInc 2) s = .ok ⟨0x0BFF, some (2, 0x0C00)⟩ ∧ memLoad .x 0x0BFF s = .ok (0, s) ∧
      cellOf .x 0x0BFF ≠ none) ∧
    (let s := State.reset
     useEa (.abs 0x17FF) s = .ok ⟨0x17FF, none⟩ ∧ memLoad .x 0x17FF s = .ok (0, s) ∧ cellOf .x 0x17FF ≠ none ∧
      useEa (.abs 0x07FF) s = .ok ⟨0x07FF, none⟩ ∧ readDsp .x s 0x07FF = .ok 0 ∧ readDsp .y s 0x07FF = .ok 0 ∧
      memLoad .y 0x07FF s = .ok (0, s) ∧ cellOf .y 0x07FF ≠ none ∧ memLoad .y (BitVec.setWidth 24 (0x3F : BitVec 6)) s = .ok (0, s)) := by
  decide +kernel

/-- MemoryMoves, ClassOneMoves, ClassTwoMoves, DoubleMoves and MovecMemory: the first and the last peripheral address as a
store's, a store there that completes and one that is Fatal. -/
theorem witness_peripheral_store :
    (let s := atR 2 0xFFFF80 State.reset
     useEa (.reg .postInc 2) s = .ok ⟨0xFFFF80, some (2, 0xFFFF81)⟩ ∧ 0xFFFF80 ≤ (0xFFFF80 : Word).toNat ∧
      memStore .x 0xFFFF80 5 s = .ok s) ∧
    (useEa (.abs 0xFFFFFF) State.reset = .ok ⟨0xFFFFFF, none⟩ ∧ 0xFFFF80 ≤ (0xFFFFFF : Word).toNat) ∧
    memStore .x 0xFFFFD6 5 State.reset = .error .dmaAction ∧
    (let s := atR 0 0xFFFFC5 (atR 4 0x0800 State.reset)
     useXyMode .plain 0 s = .ok ⟨0xFFFFC5, none⟩ ∧ useXyMode .plain (xyYIndex 0 0) s = .ok ⟨0x0800, none⟩ ∧ cellOf .y 0x0800 = none ∧
      memStore .x 0xFFFFC5 0x80 s = .ok { s with eol := false }) := by decide +kernel

/-- A load from the peripheral window. -/
theorem witness_peripheral_load :
    memLoad .x 0xFFFF80 State.reset = .ok (Config.hostPeriphRead 0 0xFFFF80, { State.reset with draws := 1 }) := rfl

/-- ClassOneMoves and ClassTwoMoves: the accumulator read. -/
theorem witness_accumulator_read : readReg (accReg .b) State.reset = .ok (0, State.reset) := by decide +kernel

/-- DoubleMoves: the conflict, and the two addresses with their reads. -/
theorem witness_double :
    (let s := atR 0 0x0BFF (atR 4 0x07FF State.reset)
     scaleOf s.sr = .ok .none ∧ useXyMode .inc 0 s = .ok ⟨0x0BFF, some (0, 0x0C00)⟩ ∧
      useXyMode .dec (xyYIndex 0 0) s = .ok ⟨0x07FF, some (4, 0x07FE)⟩ ∧ memLoad .x 0x0BFF s = .ok (0, s) ∧ memLoad .y 0x07FF s = .ok (0, s) ∧
      readReg (ySideReg .b) s = .ok (0, s) ∧ readReg (xSideReg .a) s = .ok (0, s) ∧ cellOf .x 0x0BFF ≠ none ∧ cellOf .y 0x07FF ≠ none) ∧
    (XSide.b = .b ∧ YSide.b = .b) ∧ ¬ (XSide.a = .a ∧ YSide.b = .a ∨ XSide.a = .b ∧ YSide.b = .b) := by decide +kernel

/-- IllegalAndTrapPostTheirSource: disabled, already pending, and neither. -/
theorem witness_post :
    (let s : State := { State.reset with ipl := State.reset.ipl.set 1 .disabled }
     s.ipl[(1 : Fin 12)] = .disabled) ∧
    (let s : State := { State.reset with pending := State.reset.pending.set 4 true }
     s.pending[(4 : Fin 12)] = true) ∧
    (State.reset.ipl[(4 : Fin 12)] ≠ .disabled ∧ State.reset.pending[(4 : Fin 12)] = false) ∧
    State.reset.pendingCount = State.reset.pending.toList.count true := by decide +kernel

/-- MovecRegisterAndImmediate and MovecMemory: a read that limits, a read that pops, and the reserved codes. -/
theorem witness_movec :
    (∃ v s1, readReg .a (setA ⟨0x7F, 0, 0⟩ State.reset) = .ok (v, s1)) ∧ (∃ v s1, readReg .ssh State.reset = .ok (v, s1)) ∧
    (∀ k, Reg.sr ≠ .reserved k) ∧ (Reg.reserved 0x00 = .reserved 0x00) ∧
    (∃ v s1, readReg .lc (addressed (some (0, 1)) false State.reset) = .ok (v, s1)) := by
  refine ⟨⟨_, _, rfl⟩, ⟨_, _, rfl⟩, ?_, rfl, ⟨_, _, rfl⟩⟩
  intro k h
  cases h

/-- Jumps and Calls: a condition that holds and one that does not. -/
theorem witness_conditions : condHolds .eq (srIs 4 State.reset).sr = true ∧ condHolds .eq State.reset.sr = false := by decide

/-- RepPcUpdates: the passes of a count of 3 and of the primed count, inside a DO loop too, the last pass, the REP's own
update, and rep #3 and rep #0 over a NOP at the end of P. -/
theorem witness_rep :
    (let s : State := { State.reset with loopRep := true, lc := 3 }
     s.loopRep = true ∧ s.pcOnRep = false ∧ s.sr.getLsbD srLF = false ∧ s.lc.toNat ≤ 0x10000 ∧ 2 < s.lc.toNat ∧ 3 = s.lc.toNat) ∧
    (({ State.reset with loopRep := true, lc := 0x10000 } : State).lc.toNat ≤ 0x10000) ∧
    (let s : State := { State.reset with loopRep := true, pcOnRep := true }
     s.loopRep = true ∧ s.pcOnRep = true) ∧
    (let s : State := { State.reset with loopRep := true, lc := 3, sr := 0x8000, la := 0, pc := 0 }
     s.sr.getLsbD srLF = true ∧ s.pc.toNat ≠ s.la.toNat + 1 ∧ (s.lc.setWidth 16 - 1 : BitVec 16) ≠ 0) ∧
    (({ State.reset with loopRep := true, lc := 1 } : State).lc.setWidth 16 - 1 : BitVec 16) = 0 ∧
    (let s := place (atPc 4094 State.reset) 4094 [0x0603A0]
     s.fatal = none ∧ s.loopRep = false ∧ s.interruptState = .none ∧ s.pendingCount = 0 ∧ s.sr.getLsbD srT = false ∧
      s.sr.getLsbD srLF = false ∧ (s.pc + 1).toNat < 4096 ∧ s.pc.toNat < 4096 ∧
      decode (s.pram.read s.pc.toNat) 0 = .ok (.repImm 3) ∧ s.pram.read (s.pc + 1).toNat = 0) ∧ decode 0x0600A0 0 = .ok (.repImm 0) := by
  decide +kernel

/-- LoopEndTest: before the end, at the end with passes left, and at the last pass. -/
theorem witness_loop_end :
    (let s : State := { State.reset with len := 1 }
     s.loopRep = false ∧ s.sr.getLsbD srLF = false) ∧
    (let s : State := { State.reset with len := 1, pc := 4, la := 4, lc := 3, sr := 0x8000 }
     s.sr.getLsbD srLF = true ∧ (s.pc + BitVec.ofNat 24 s.len).toNat = s.la.toNat + 1 ∧ (s.lc.setWidth 16 - 1 : BitVec 16) ≠ 0) ∧
    (let s : State := { State.reset with len := 1, pc := 0xFFFF, la := 0xFFFF, lc := 1, sr := 0x8000 }
     s.sr.getLsbD srLF = true ∧ (s.pc + BitVec.ofNat 24 s.len).toNat = s.la.toNat + 1 ∧ (s.lc.setWidth 16 - 1 : BitVec 16) = 0) := by
  decide +kernel

/-- WinnerArmsThePipeline: the idle check with nothing pending, with no winner, with a winner, and with T set. -/
theorem witness_idle_check :
    (State.reset.loopRep = false ∧ State.reset.interruptState = .none ∧ State.reset.sr.getLsbD srT = false ∧ State.reset.pendingCount = 0) ∧
    (let s := pendingPair .level2 .level2 (srIs 0x0200 State.reset)
     s.pendingCount ≠ 0 ∧ winner s = none) ∧
    (let s := pendingPair .level1 .level2 State.reset
     s.pendingCount ≠ 0 ∧ winner s = some .hostTrx) ∧
    (let s := post .trace (srIs 0x2000 State.reset)
     s.pendingCount ≠ 0 ∧ winner s = some .trace) := by decide +kernel

/-- ArbitrationWinner: a level-3 winner, a maskable winner, and none; WinnerArmsThePipeline: either kind of vector. -/
theorem witness_arbitration :
    winner { pendingPair .level2 .level2 State.reset with pending := State.reset.pending.set 2 true } = some .stackError ∧
    winner (pendingPair .level1 .level2 State.reset) = some .hostTrx ∧
    winner (pendingPair .level2 .level2 (srIs 0x0200 State.reset)) = none ∧ (srIs 0x0200 (pendingPair .level2 .level2 State.reset)).pending[(6 : Fin 12)] = true ∧
    (let s : State := { State.reset with pending := State.reset.pending.set 5 true, ipl := State.reset.ipl.set 5 .level1 }
     s.pending[irqIndex .hostCommand] = true ∧ s.ipl[irqIndex .hostCommand] ≠ .disabled) := by decide +kernel

/-- LongInterruptEntry and FastInterruptReturn: counts 5 to 1, the JSR forms and another word, the last word of P. -/
theorem witness_pipeline :
    (let s := longAt6 State.reset
     s.loopRep = false ∧ s.interruptState ≠ .none ∧ s.instrFetch = some 6 ∧ s.pipelineCount = .four ∧ (6 : Word).toNat < 4096 ∧
      s.pram.read 6 &&& 0xFFF000 = 0x0D0000 ∧ (0x0BE080 : Word) &&& 0xFFC0FF = 0x0BC080 ∧
      ¬ ((0x0FA020 : Word) &&& 0xFFF000 = 0x0D0000 ∨ (0x0FA020 : Word) &&& 0xFFC0FF = 0x0BC080)) ∧
    (let s : State := { longAt6 State.reset with pipelineCount := .three, savePc := some 0x42, pc := 7 }
     s.pipelineCount = .three ∧ s.savePc = some 0x42 ∧ s.pc = 6 + 1 ∧ s.pc.toNat < 4096) ∧
    (let s : State := { longAt6 State.reset with pipelineCount := .two, savePc := some 0xFFFFFF, pc := 8, longTaken := false }
     s.pipelineCount = .two ∧ s.savePc = some 0xFFFFFF ∧ s.pc = 6 + 2 ∧ s.longTaken = false) ∧
    ({ longAt6 State.reset with pipelineCount := .five } : State).pipelineCount = .five ∧
    ({ longAt6 State.reset with pipelineCount := .one } : State).pipelineCount = .one ∧
    (let s : State := { State.reset with interruptState := .long }
     s.interruptState = .long ∧ useEa (.abs 0xFFF) s = .ok ⟨0xFFF, none⟩) := by decide +kernel

/-- CheckDuringRepAndTrace. -/
theorem witness_check :
    (State.reset.loopRep = false ∧ State.reset.interruptState = .none ∧ State.reset.sr.getLsbD srT = false ∧ State.reset.pendingCount = 0) ∧
    (srIs 0x2000 State.reset).sr.getLsbD srT = true ∧
    (let s : State := { longAt6 State.reset with pipelineCount := .zero }
     s.loopRep = false ∧ s.interruptState ≠ .none ∧ s.pipelineCount = .zero) := by decide +kernel

/-- DmaControlActions: each action, the quiet cases, and walks that complete after START, UNFREEZE and action 0. -/
theorem witness_dma_actions :
    (5 ≤ ((5 : Word) &&& 7).toNat) ∧ (5 ≤ ((7 : Word) &&& 7).toNat) ∧ ((0xFFFFFC : Word) &&& 7).toNat ≤ 4 ∧ ((0xFFFFFA : Word) &&& 7 = 2) ∧
    (actedControl 2 0x10).getLsbD 4 = false ∧ (actedControl 1 0x08).getLsbD 3 = true ∧ (0x4100 : Word).getLsbD 14 = true ∧
    (actedControl 1 0x20 = 0x10 ∧ actedControl 4 0x18 = 0x10 ∧ actedControl 0 0x10 = 0x10) ∧
    stored 1 (descriptor 0x0009E2 0x1800 State.reset) (fun _ => true) = true ∧
    stored 4 { descriptor 0x0009E2 0x1800 State.reset with dmaControl := 0x18 } (fun t => t.eol && t.dmaControl == 0x10) = true ∧ -- M5
    stored 0 { descriptor 0x0009E2 0x1800 State.reset with dmaControl := 0x10 } (fun t => t.eol) = true := by decide +kernel -- M6

/-- DmaWalkMovesItsNodes: the two nodes of M2, the node of M1, a skipped and an unskipped node of buffer-id 0xE. -/
theorem witness_dma_nodes :
    NodeAt (listM2 0x0009E2) nodeM2 ∧ NodeReady nodeM2 ∧ NodeMoves nodeM2 (nodeLoaded nodeM2 (started (listM2 0x0009E2))) (afterM2 0x0009E2) ∧
    NodeAt (afterM2 0x0009E2) (nodeM2b 0x0009E2) ∧ NodeReady (nodeM2b 0x0009E2) ∧ NodeReady (nodeM10 7) ∧ NodeReady (nodeM10 8) := by
  refine ⟨by unfold NodeAt; decide +kernel, ⟨.full24, rfl, .inr ⟨.y, 0, 0, .inr (by decide), by simp [DmaRange, nodeM2], ?_⟩⟩, ?_,
    by unfold NodeAt; decide +kernel, ⟨.full24, rfl, .inr ⟨.y, 1, 4, .inr (by decide), by simp [DmaRange, nodeM2b], ?_⟩⟩,
    ⟨.full24, rfl, .inl (by unfold NodeSkipped; decide)⟩, ⟨.full24, rfl, .inr ⟨.y, 0, 0x200, .inl (by decide), by simp [DmaRange, nodeM10], ?_⟩⟩⟩
  · decide +kernel
  · exact ⟨rfl, .full24, rfl, .inr ⟨.y, 0, 0, .inr (by decide), by simp [DmaRange, nodeM2],
      fun _ => ⟨fun _ _ => rfl, by decide +kernel, by decide +kernel⟩, fun h => absurd h (by decide)⟩⟩
  · decide +kernel
  · decide +kernel

/-- DmaWalkMovesItsNodes: the Fatal reasons of a node, a second node that is Fatal, the list that points to itself, a block
that runs into the hole of X, and a descriptor there. -/
theorem witness_dma_fatal :
    NodeFatal #v[0x4000, 0x000DE2, 2, 0x1800, 0, 0, 0] .dmaFormat ∧ NodeFatal #v[0x4000, 0x000802, 2, 0x1800, 0, 0, 0] .dmaBufid ∧
    NodeFatal #v[0x4000, 0x0009E2, 2, 0x17FF, 0, 0, 0] .dmaOffset ∧ NodeFatal (nodeM2b 0x000DE2) .dmaFormat ∧
    NodeAt (afterM2 0x000DE2) (nodeM2b 0x000DE2) ∧ NodeReady nodeM19 ∧ nodeM19[0] &&& 0x3FFF = (0x100 : Word) &&& 0x3FFF ∧
    DmaRange 0x0FFF 2 .x 0x0FFF ∧ cellOf .x (BitVec.ofNat 24 (0x0FFF + 1)) = none ∧ cellOf .x (BitVec.ofNat 24 (0x0FFA + 6)) = none := by
  refine ⟨.inl (by decide), .inr ⟨.full24, rfl, .inl (by decide)⟩, .inr ⟨.full24, rfl, .inr ⟨⟨0, .inr (by decide)⟩, ?_, rfl⟩⟩, .inl (by decide),
    by unfold NodeAt; decide +kernel, ⟨.full24, rfl, .inr ⟨.y, 0, 0, .inr (by decide), by simp [DmaRange, nodeM19], ?_⟩⟩, by decide,
    by simp [DmaRange], by decide, by decide⟩
  · intro sp base h
    simp [DmaRange] at h
  · intro k hk
    simp [nodeM19] at hk

/-- DmaWalkMovesItsNodes: a second node whose block runs into the hole of X, and one whose descriptor does. -/
theorem witness_dma_second_fatal :
    (∀ next ∈ [(0x0110 : Word), 0x0FFA], NodeAt (listVia next) (nodeVia next) ∧ NodeReady (nodeVia next) ∧ (nodeVia next)[0].getLsbD 14 = false ∧
      NodeMoves (nodeVia next) (nodeLoaded (nodeVia next) (started (listVia next))) (nodeLoaded (nodeVia next) (started (listVia next)))) ∧
    NodeAt (nodeLoaded (nodeVia 0x0110) (started (listVia 0x0110))) nodeHole ∧ nodeFormat nodeHole = some .full24 ∧
    NodeScratch .full24 nodeHole 0 ∧ DmaRange nodeHole[3].toNat nodeHole[2].toNat .x 0x0FFF ∧ 1 < nodeHole[2].toNat ∧
    cellOf .x (BitVec.ofNat 24 (0x0FFF + 1)) = none ∧ cellOf .x (BitVec.ofNat 24 (((nodeVia 0x0FFA)[0] &&& 0x3FFF).toNat + 6)) = none := by
  refine ⟨?_, by unfold NodeAt; decide +kernel, rfl, .inr (by decide), by simp [DmaRange, nodeHole], by decide, by decide, by decide⟩
  intro next h
  simp only [List.mem_cons, List.not_mem_nil, or_false] at h
  have hr : DmaRange 0x1800 0 .y 0 := by simp [DmaRange]
  rcases h with rfl | rfl <;>
    exact ⟨by unfold NodeAt; decide +kernel, ⟨.full24, rfl, .inr ⟨.y, 0, 0, .inr (by decide), hr, fun k hk => absurd hk (Nat.not_lt_zero k)⟩⟩,
      by decide, rfl, .full24, rfl,
      .inr ⟨.y, 0, 0, .inr (by decide), hr, fun _ => ⟨fun _ _ => rfl, rfl, rfl⟩, fun hd => absurd hd (by decide)⟩⟩

/-- DmaItemsRoundTrip: a block that ends at the last word of Y, and the empty block. -/
theorem witness_dma_items :
    readBlock .y (atY 0x7FF 0xABCDEF State.reset) 0x7FE 2 = .ok [0, 0xABCDEF] ∧ readBlock .p State.reset 0xFFFFFF 0 = .ok [] := by decide +kernel

/-- PeripheralRegisters: the two ends of the host's addresses. -/
theorem witness_host_addresses :
    (0xFFFF80 ≤ (0xFFFF80 : Word).toNat ∧ (0xFFFF80 : Word) ∉ [0xFFFFC5, 0xFFFFD4, 0xFFFFD5, 0xFFFFD6, (0xFFFFD7 : Word)]) ∧
    (0xFFFF80 ≤ (0xFFFFFF : Word).toNat ∧ (0xFFFFFF : Word) ∉ [0xFFFFC5, 0xFFFFD4, 0xFFFFD5, 0xFFFFD6, (0xFFFFD7 : Word)]) := by decide

/-- HostCalls: either side of the fault state, the first id past the sources, a Fatal step, and a store to the DMA control
register whose walk is Fatal. -/
theorem witness_host_calls :
    State.reset.fatal = none ∧ ({ State.reset with fatal := some .badSource } : State).fatal = some .badSource ∧ 12 ≤ 12 ∧
    faultIs (step (atPc 4096 State.reset)) .addressOutOfRange = true ∧
    (let s := atR 0 0xFFFFD6 (setM (place (listM2 0x000DE2) 0 [0x056020]) 0 1)
     s.fatal = none ∧ decode (s.pram.read s.pc.toNat) 0 = .ok (.movecEa (.store (.reg .plain 0)) .x (.m 0)) ∧ s.pc.toNat < 4096 ∧
      s.r[(0 : Fin 8)] = 0xFFFFD6 ∧ readReg (.m 0) { s with instrCycle := 2, len := 1 } = .ok (1, { s with instrCycle := 2, len := 1 }) ∧
      (attemptStore .x 0xFFFFD6 1 { s with instrCycle := 2, len := 1 } matches .error _) = true) ∧
    (readDsp .x State.reset 0x17FF = .ok 0 ∧ cellOf .x 0xFFFF7F = none ∧ cellOf .p 0x1000 = none) ∧
    (let s : State := { State.reset with budget := -3 }
     s.budget + (3 : Nat) ≤ 0 ∧ 0 < s.budget + (4 : Nat)) ∧
    (nextIs (step { State.reset with budget := 1 }) fun t => t.instrCycle == 2) = true := by decide +kernel

end Sys2Proof.Tests
end

section
/-! PROOFS. The machine's state (spec/10_state.md): the invariant of every step, the hardware stack, the registers, reset.
First the rules of the shared operations, then the instructions, then the statements. -/

namespace Sys2Proof.Proofs

open Sys2Proof Sys2Proof.Machine Sys2Proof.Safety Sys2Proof.Claims

/-! ### Bits outside a mask -/

theorem and_and_eq_zero {n : Nat} {v m : BitVec n} (h : v &&& m = 0) (w : BitVec n) : v &&& w &&& m = 0 := by
  rw [BitVec.and_assoc, BitVec.and_comm w, ← BitVec.and_assoc, h]
  exact BitVec.zero_and

theorem or_and_eq_zero {n : Nat} {v w m : BitVec n} (hv : v &&& m = 0) (hw : w &&& m = 0) : (v ||| w) &&& m = 0 := by
  rw [BitVec.and_or_distrib_right, hv, hw]
  exact BitVec.or_zero

/-- Writing a bit that m does not hold writes no bit of m. -/
theorem setBit_and_eq_zero {n i : Nat} {v m : BitVec n} (h : v &&& m = 0) (hi : BitVec.twoPow n i &&& m = 0) (b : Bool) :
    setBit v i b &&& m = 0 := by
  cases b with
  | false => exact and_and_eq_zero h _
  | true => exact or_and_eq_zero h hi

/-! ### The writable bits of SR and OMR (R28, R29) -/

/-- A value that SR can hold: no bit outside its write mask. -/
def SrMasked (v : BitVec 16) : Prop := v &&& ~~~ Config.srRwMask = 0

theorem srMasked_maskSr (v : BitVec 16) : SrMasked (maskSr v) := by
  rw [SrMasked, maskSr, BitVec.and_assoc, show Config.srRwMask &&& ~~~ Config.srRwMask = 0#16 by decide, BitVec.and_zero]
  rfl

theorem SrMasked.and {v : BitVec 16} (h : SrMasked v) (w : BitVec 16) : SrMasked (v &&& w) := and_and_eq_zero h w

theorem SrMasked.or {v w : BitVec 16} (hv : SrMasked v) (hw : SrMasked w) : SrMasked (v ||| w) := or_and_eq_zero hv hw

/-- Writing a writable bit keeps SR masked. -/
theorem SrMasked.setBit {v : BitVec 16} {i : Nat} (h : SrMasked v) (hi : SrMasked (.twoPow 16 i)) (b : Bool) :
    SrMasked (setBit v i b) := setBit_and_eq_zero h hi b

theorem srMasked_bitL : SrMasked (.twoPow 16 srL) := by unfold SrMasked; decide

theorem srMasked_bitLF : SrMasked (.twoPow 16 srLF) := by unfold SrMasked; decide

theorem omr_maskOmr (v : BitVec 8) : maskOmr v &&& ~~~ Config.omrRwMask = 0 := by
  rw [maskOmr, BitVec.and_assoc, show Config.omrRwMask &&& ~~~ Config.omrRwMask = 0#8 by decide, BitVec.and_zero]
  rfl

/-! ### The bits above CCR -/

/-- Two values of SR agree above CCR, in bits 7 to 15 (R27). -/
def SameAboveCcr (u v : BitVec 16) : Prop := v &&& 0xFF80#16 = u &&& 0xFF80#16

theorem SameAboveCcr.setBit {u v : BitVec 16} {i : Nat} (h : SameAboveCcr u v) (hi : i < 7) (b : Bool) :
    SameAboveCcr u (setBit v i b) := by
  have hbit : BitVec.twoPow 16 i &&& 0xFF80#16 = 0#16 ∧ ~~~ BitVec.twoPow 16 i &&& 0xFF80#16 = 0xFF80#16 := by
    interval_cases i <;> decide
  cases b with
  | false => rw [SameAboveCcr, ← h]; simp [Machine.setBit, BitVec.and_assoc, hbit.2]
  | true => rw [SameAboveCcr, ← h]; simp [Machine.setBit, BitVec.and_or_distrib_right, hbit.1]

theorem SameAboveCcr.masked {u v : BitVec 16} (h : SameAboveCcr u v) (hu : SrMasked u) : SrMasked v := by
  have hm : ~~~ Config.srRwMask = 0xFF80#16 &&& ~~~ Config.srRwMask := by decide
  rw [SrMasked, hm, ← BitVec.and_assoc, h, BitVec.and_assoc, ← hm, hu]

theorem SameAboveCcr.eunz {u v : BitVec 16} (sc : Scale) (r : Word56) (h : SameAboveCcr u v) : SameAboveCcr u (withEunz sc r v) :=
  (((h.setBit (by decide) _).setBit (by decide) _).setBit (by decide) _).setBit (by decide) _

theorem SameAboveCcr.overflow {u v : BitVec 16} (b : Bool) (h : SameAboveCcr u v) : SameAboveCcr u (withV b v) :=
  (h.setBit (by decide) _).setBit (by decide) _

theorem SameAboveCcr.carry {u v : BitVec 16} (b : Bool) (h : SameAboveCcr u v) : SameAboveCcr u (withC b v) :=
  h.setBit (by decide) _

theorem SameAboveCcr.logic {u v : BitVec 16} (d : Word) (h : SameAboveCcr u v) : SameAboveCcr u (withLogic d v) :=
  ((h.setBit (by decide) _).setBit (by decide) _).setBit (by decide) _

theorem SameAboveCcr.clr {u v : BitVec 16} (h : SameAboveCcr u v) : SameAboveCcr u (clrFlags v) :=
  ((((h.setBit (by decide) _).setBit (by decide) _).setBit (by decide) _).setBit (by decide) _).setBit (by decide) _

/-! ### What an ALU operation writes to SR -/

theorem arithEffect_sr {d : AccSel} {x : Res56} {s : State} {e : AluEffect} (h : arithEffect d x s = .ok e) :
    SameAboveCcr s.sr e.sr := by
  unfold arithEffect at h
  split at h <;> cases h
  exact ((SameAboveCcr.eunz _ _ rfl).overflow _).carry _

theorem arithNoCarry_sr {d : AccSel} {f : Scale → Res56} {s : State} {e : AluEffect} (h : arithNoCarry d f s = .ok e) :
    SameAboveCcr s.sr e.sr := by
  unfold arithNoCarry at h
  split at h <;> cases h
  exact (SameAboveCcr.eunz _ _ rfl).overflow _

theorem compareEffect_sr {x : Res56} {s : State} {e : AluEffect} (h : compareEffect x s = .ok e) : SameAboveCcr s.sr e.sr := by
  unfold compareEffect at h
  split at h <;> cases h
  exact ((SameAboveCcr.eunz _ _ rfl).overflow _).carry _

theorem compareNoCarry_sr {x : Res56} {s : State} {e : AluEffect} (h : compareNoCarry x s = .ok e) : SameAboveCcr s.sr e.sr := by
  unfold compareNoCarry at h
  split at h <;> cases h
  exact (SameAboveCcr.eunz _ _ rfl).overflow _

theorem logicEffect_sr {d : AccSel} {m : Word} {sr : BitVec 16} {s : State} {e : AluEffect} (hsr : SameAboveCcr s.sr sr)
    (h : logicEffect d m sr s = .ok e) : SameAboveCcr s.sr e.sr := by
  cases h
  exact hsr.logic m

/-- An ALU operation writes no bit of SR above CCR (R172, R174, R176). -/
theorem aluEffect_sr {op : AluOp} {s : State} {e : AluEffect} (h : aluEffect op s = .ok e) : SameAboveCcr s.sr e.sr := by
  cases op with
  | move | tfrAcc d | tfrReg j d => cases h; rfl
  | clr d => cases h; exact SameAboveCcr.clr rfl
  | tst d => exact compareNoCarry_sr h
  | cmpAcc d | cmpReg j d | cmpmAcc d | cmpmReg j d => exact compareEffect_sr h
  | addr d | subr d | addAcc d | addX d | addY d | addReg j d | addl d | subAcc d | subX d | subY d | subReg j d | subl d
  | adc j d | sbc j d | asr d | asl d => exact arithEffect_sr h
  | rnd d | absAcc d | neg d | mpy q d k | mpyr q d k | mac q d k | macr q d k => exact arithNoCarry_sr h
  | notAcc d | orReg j d | eorReg j d | andReg j d => exact logicEffect_sr rfl h
  | lsr d | ror d | lsl d | rol d => exact logicEffect_sr (SameAboveCcr.carry _ rfl) h

/-! ### The count of pending sources (R37, R326) -/

/-- Setting a source's bit moves the count of pending sources by the change of that bit. -/
theorem count_set (p : Vector Bool 12) (i : Fin 12) (b : Bool) :
    (p.set i b).toList.count true = p.toList.count true - (if p[i] then 1 else 0) + (if b then 1 else 0) := by
  rw [Vector.count_toList, Vector.count_toList, Vector.count_set]
  simp

theorem pendingOk_post {s : State} (src : IrqSource) (h : PendingOk s) : PendingOk (post src s) := by
  rcases post_cases src s with he | ⟨-, hp, he⟩
  · rwa [he]
  · rw [he, PendingOk, count_set, hp, ← show s.pendingCount = _ from h]
    rfl

theorem pendingOk_latchInterrupt {s : State} {src : IrqSource} (h : PendingOk s) (hp : s.pending[irqIndex src] = true) :
    PendingOk (latchInterrupt src s) := by
  show s.pendingCount - 1 = _
  rw [show s.pendingCount = _ from h, latchInterrupt, count_set, hp]
  rfl

/-- The scan's winner is a pending source, or the winner it started from (R333). -/
theorem scanSources_pending {s : State} {l : List IrqSource} {win : Option IrqSource} {best : Int} {i : IrqSource}
    (hwin : ∀ j, win = some j → s.pending[irqIndex j] = true) (h : scanSources s l win best = some i) :
    s.pending[irqIndex i] = true := by
  induction l generalizing win best with
  | nil => exact hwin i h
  | cons j rest ih =>
    have hj : s.pending[irqIndex j] = true → ∀ k, some j = some k → s.pending[irqIndex k] = true := by
      rintro hj k ⟨⟩
      exact hj
    unfold scanSources at h
    split at h
    · split at h
      · cases h
        assumption
      split at h
      · exact ih (hj (by assumption)) h
      · exact ih hwin h
    · exact ih hwin h

theorem winner_pending {s : State} {i : IrqSource} (h : winner s = some i) : s.pending[irqIndex i] = true :=
  scanSources_pending (fun _ hj => absurd hj (by simp)) h

end Sys2Proof.Proofs
end

section
/-! PROOFS. The invariant inside a step, and what the operations over registers, stack and memory do to it. -/

namespace Sys2Proof.Proofs

open Sys2Proof Sys2Proof.Machine Sys2Proof.Safety Sys2Proof.Claims

/-! ### The parts of the invariant, by the fields they read -/

theorem memoryOk_congr {s t : State} (h : MemoryOk s)
    (e : t.xram = s.xram ∧ t.yram = s.yram ∧ t.pram = s.pram ∧ t.mixbuffer = s.mixbuffer ∧ t.periph = s.periph ∧
      t.scratch = s.scratch) : MemoryOk t := by
  obtain ⟨hx, hy, hp, hm, hf, hs⟩ := e
  exact ⟨hx ▸ h.xram, hy ▸ h.yram, hp ▸ h.pram, hm ▸ h.mixbuffer, hf ▸ h.periph, hs ▸ h.scratch⟩

theorem statusOk_congr {s t : State} (h : StatusOk s) (e : t.sr = s.sr ∧ t.omr = s.omr) : StatusOk t :=
  ⟨e.1 ▸ h.sr, e.2 ▸ h.omr⟩

theorem shadowOk_congr {s t : State} (h : ShadowOk s)
    (e : t.ssh = s.ssh ∧ t.ssl = s.ssl ∧ t.stackH = s.stackH ∧ t.stackL = s.stackL ∧ t.sp = s.sp) : ShadowOk t := by
  obtain ⟨hh, hl, hH, hL, hsp⟩ := e
  constructor
  · simpa only [hh, hH, hsp] using h.ssh
  · simpa only [hl, hL, hsp] using h.ssl

theorem pendingOk_congr {s t : State} (h : PendingOk s) (e : t.pendingCount = s.pendingCount ∧ t.pending = s.pending) :
    PendingOk t := by
  rw [PendingOk, e.1, e.2]
  exact h

theorem pipelineOk_congr {s t : State} (h : PipelineOk s)
    (e : t.interruptState = s.interruptState ∧ t.pipelineCount = s.pipelineCount ∧ t.instrFetch = s.instrFetch ∧
      t.savePc = s.savePc ∧ t.longTaken = s.longTaken) : PipelineOk t := by
  obtain ⟨hi, hc, hf, hs, hl⟩ := e
  constructor
  · rw [hi, hc, hf, hs, hl]; exact h.idle
  · rw [hi, hf]; exact h.fetch
  · rw [hi, hc, hs]; exact h.save
  · rw [hi, hl]; exact h.long

/-- LC and the REP flags inside a step. With `first` the instruction may have been a REP, whose own PC update, which ends
its first pass, is still to come (R141). -/
structure LoopDuring (first : Bool) (s : State) : Prop where
  firstPass : s.pcOnRep = true → first = true ∧ s.loopRep = true
  lcBound : s.lc.toNat ≤ 0x10000
  lcWide : s.lc = 0x10000 → s.loopRep = true

theorem LoopDuring.congr {first : Bool} {s t : State} (h : LoopDuring first s)
    (e : t.pcOnRep = s.pcOnRep ∧ t.loopRep = s.loopRep ∧ t.lc = s.lc) : LoopDuring first t := by
  obtain ⟨hp, hr, hl⟩ := e
  constructor
  · rw [hp, hr]; exact h.firstPass
  · rw [hl]; exact h.lcBound
  · rw [hl, hr]; exact h.lcWide

/-- A 16-bit value in LC is in bounds, in a REP or outside one (R32). -/
theorem LoopDuring.of_lc {first : Bool} {t : State} (v : BitVec 16) (hl : t.lc = v.setWidth 17)
    (hp : t.pcOnRep = true → first = true ∧ t.loopRep = true) : LoopDuring first t := by
  have hv : t.lc.toNat < 0x10000 := by rw [hl, BitVec.toNat_setWidth]; omega
  refine ⟨hp, by omega, fun hw => ?_⟩
  rw [hw] at hv
  exact absurd hv (by decide)

/-- The invariant as it stands inside a step. -/
structure InvDuring (first : Bool) (s : State) : Prop where
  memory : MemoryOk s
  status : StatusOk s
  shadow : ShadowOk s
  loop : LoopDuring first s
  pending : PendingOk s
  pipeline : PipelineOk s
  dma : DmaOk s

/-- Between steps no REP waits for its own PC update. -/
theorem invDuring_false_iff {s : State} : InvDuring false s ↔ Inv s := by
  constructor
  · intro h
    have hp : s.pcOnRep = false := Bool.eq_false_iff.2 fun hp => absurd (h.loop.firstPass hp).1 (by decide)
    exact ⟨h.memory, h.status, h.shadow, ⟨hp, h.loop.lcBound, h.loop.lcWide⟩, h.pending, h.pipeline, h.dma⟩
  · intro h
    have hp : s.pcOnRep = true → false = true ∧ s.loopRep = true := fun hp => absurd (h.loop.firstPassOver ▸ hp) (by decide)
    exact ⟨h.memory, h.status, h.shadow, ⟨hp, h.loop.lcBound, h.loop.lcWide⟩, h.pending, h.pipeline, h.dma⟩

theorem InvDuring.weaken {s : State} (h : InvDuring false s) : InvDuring true s :=
  ⟨h.memory, h.status, h.shadow, ⟨fun hp => ⟨rfl, (h.loop.firstPass hp).2⟩, h.loop.lcBound, h.loop.lcWide⟩, h.pending,
    h.pipeline, h.dma⟩

/-- Only fields that the invariant does not read differ. -/
def OnlyUnguarded (s t : State) : Prop :=
  t = { s with
    pc := t.pc, x0 := t.x0, x1 := t.x1, y0 := t.y0, y1 := t.y1, a := t.a, b := t.b, r := t.r, n := t.n, m := t.m
    la := t.la, lcSaved := t.lcSaved, ipl := t.ipl, iplToRaise := t.iplToRaise
    instrCycle := t.instrCycle, instrCount := t.instrCount, budget := t.budget, len := t.len, fatal := t.fatal
    dmaConfig := t.dmaConfig, dmaStart := t.dmaStart, dmaNext := t.dmaNext, eol := t.eol, draws := t.draws }

/-- Only pc, `len`, the cycle charge and the registers of a REP differ. -/
def OnlyLoop (s t : State) : Prop :=
  t = { s with
    pc := t.pc, len := t.len, instrCycle := t.instrCycle
    lc := t.lc, lcSaved := t.lcSaved, loopRep := t.loopRep, pcOnRep := t.pcOnRep }

/-- Only pc and the interrupt pipeline differ. -/
def OnlyPipeline (s t : State) : Prop :=
  t = { s with
    pc := t.pc, interruptState := t.interruptState, pipelineCount := t.pipelineCount
    instrFetch := t.instrFetch, savePc := t.savePc, longTaken := t.longTaken }

section
variable {first : Bool} {s t : State}

theorem InvDuring.unguarded (h : InvDuring first s) (e : OnlyUnguarded s t) : InvDuring first t := by
  rw [e]
  exact ⟨memoryOk_congr h.memory ⟨rfl, rfl, rfl, rfl, rfl, rfl⟩, statusOk_congr h.status ⟨rfl, rfl⟩,
    shadowOk_congr h.shadow ⟨rfl, rfl, rfl, rfl, rfl⟩, h.loop.congr ⟨rfl, rfl, rfl⟩, pendingOk_congr h.pending ⟨rfl, rfl⟩,
    pipelineOk_congr h.pipeline ⟨rfl, rfl, rfl, rfl, rfl⟩, h.dma⟩

theorem InvDuring.reloop {second : Bool} (h : InvDuring first s) (e : OnlyLoop s t) (hl : LoopDuring second t) :
    InvDuring second t := by
  refine ⟨?_, ?_, ?_, hl, ?_, ?_, ?_⟩ <;> rw [e]
  · exact memoryOk_congr h.memory ⟨rfl, rfl, rfl, rfl, rfl, rfl⟩
  · exact statusOk_congr h.status ⟨rfl, rfl⟩
  · exact shadowOk_congr h.shadow ⟨rfl, rfl, rfl, rfl, rfl⟩
  · exact pendingOk_congr h.pending ⟨rfl, rfl⟩
  · exact pipelineOk_congr h.pipeline ⟨rfl, rfl, rfl, rfl, rfl⟩
  · exact h.dma

theorem InvDuring.repipe (h : InvDuring first s) (e : OnlyPipeline s t) (hp : PipelineOk t) : InvDuring first t := by
  refine ⟨?_, ?_, ?_, ?_, ?_, hp, ?_⟩ <;> rw [e]
  · exact memoryOk_congr h.memory ⟨rfl, rfl, rfl, rfl, rfl, rfl⟩
  · exact statusOk_congr h.status ⟨rfl, rfl⟩
  · exact shadowOk_congr h.shadow ⟨rfl, rfl, rfl, rfl, rfl⟩
  · exact h.loop.congr ⟨rfl, rfl, rfl⟩
  · exact pendingOk_congr h.pending ⟨rfl, rfl⟩
  · exact h.dma

/-! ### Registers -/

theorem InvDuring.setR (h : InvDuring first s) (i : Fin 8) (v : Word) : InvDuring first (setR s i v) := h.unguarded rfl

theorem InvDuring.setAcc (h : InvDuring first s) (d : AccSel) (v : Acc) : InvDuring first (setAcc s d v) := by
  cases d <;> exact h.unguarded rfl

theorem InvDuring.jumpTo (h : InvDuring first s) (a : Word) : InvDuring first (jumpTo s a) := h.unguarded rfl

theorem InvDuring.addCycles (h : InvDuring first s) (n : Nat) : InvDuring first (addCycles s n) := h.unguarded rfl

theorem InvDuring.takeExtension (h : InvDuring first s) : InvDuring first (takeExtension s) := h.unguarded rfl

theorem InvDuring.setSr (h : InvDuring first s) {v : BitVec 16} (hv : SrMasked v) : InvDuring first (setSr s v) :=
  ⟨memoryOk_congr h.memory (by simp), ⟨hv, h.status.omr⟩, shadowOk_congr h.shadow (by simp), h.loop.congr (by simp),
    pendingOk_congr h.pending (by simp), pipelineOk_congr h.pipeline (by simp), h.dma⟩

/-- Setting one writable bit of SR. -/
theorem InvDuring.setSrBit (h : InvDuring first s) {i : Nat} (hi : SrMasked (.twoPow 16 i)) (b : Bool) :
    InvDuring first (Machine.setSr s (setBit s.sr i b)) := h.setSr (SrMasked.setBit h.status.sr hi b)

theorem InvDuring.setOmr (h : InvDuring first s) (v : BitVec 8) : InvDuring first { s with omr := maskOmr v } :=
  ⟨memoryOk_congr h.memory (by simp), ⟨h.status.sr, omr_maskOmr v⟩, shadowOk_congr h.shadow (by simp), h.loop.congr (by simp),
    pendingOk_congr h.pending (by simp), pipelineOk_congr h.pipeline (by simp), h.dma⟩

theorem InvDuring.setLc (h : InvDuring first s) (v : BitVec 16) : InvDuring first { s with lc := v.setWidth 17 } :=
  h.reloop rfl (.of_lc v rfl h.loop.firstPass)

/-! ### Interrupt sources and the hardware stack -/

theorem InvDuring.post (h : InvDuring first s) (src : IrqSource) : InvDuring first (post src s) :=
  ⟨memoryOk_congr h.memory (by simp), statusOk_congr h.status (by simp), shadowOk_congr h.shadow (by simp),
    h.loop.congr (by simp), pendingOk_post src h.pending, pipelineOk_congr h.pipeline (by simp), by simpa [DmaOk] using h.dma⟩

theorem pendingOk_postStackError (n : BitVec 6) (h : PendingOk s) : PendingOk (postStackError n s) := by
  unfold postStackError
  split
  · exact pendingOk_post _ h
  · exact h

theorem InvDuring.popState (h : InvDuring first s) : InvDuring first (popState s) := by
  have hp : (Machine.popState s).pendingCount = _ ∧ (Machine.popState s).pending = _ :=
    (Prod.mk.inj (popState_pending s)).symm
  exact ⟨memoryOk_congr h.memory (by simp), statusOk_congr h.status (by simp), popState_shadows s, h.loop.congr (by simp),
    pendingOk_congr (pendingOk_postStackError _ h.pending) hp, pipelineOk_congr h.pipeline (by simp),
    by simpa [DmaOk] using h.dma⟩

/-- The pending sources after a push. -/
theorem pushWith_pending (hi : BitVec 16) (lo : Option (BitVec 16)) (s : State) :
    (pushWith hi lo s).pendingCount = (postStackError (spUp s.sp) s).pendingCount ∧
    (pushWith hi lo s).pending = (postStackError (spUp s.sp) s).pending := by
  simp [pushWith]

theorem InvDuring.pushWith (h : InvDuring first s) (hi : BitVec 16) (lo : Option (BitVec 16)) :
    InvDuring first (pushWith hi lo s) :=
  ⟨memoryOk_congr h.memory (by simp), statusOk_congr h.status (by simp),
    ⟨(pushWith_shadows hi lo s).1, (pushWith_shadows hi lo s).2⟩, h.loop.congr (by simp), pendingOk_congr (pendingOk_postStackError _ h.pending) (pushWith_pending hi lo s),
    pipelineOk_congr h.pipeline (by simp), by simpa [DmaOk] using h.dma⟩

/-- Moving SP and loading the shadows from its slot. -/
theorem InvDuring.setSp (h : InvDuring first s) (v : BitVec 6) : InvDuring first (refreshShadows { s with sp := v }) :=
  ⟨memoryOk_congr h.memory (by simp), statusOk_congr h.status (by simp), ⟨rfl, rfl⟩, h.loop.congr (by simp),
    pendingOk_congr h.pending (by simp), pipelineOk_congr h.pipeline (by simp), h.dma⟩

theorem InvDuring.writeSp (h : InvDuring first s) (v : Word) : InvDuring first (writeSp v s) := by
  unfold Machine.writeSp
  dsimp only
  split
  · exact (h.post _).setSp _
  · exact h.setSp _

theorem InvDuring.writeSsl (h : InvDuring first s) (v : Word) : InvDuring first (writeSsl v s) :=
  ⟨memoryOk_congr h.memory (by simp), statusOk_congr h.status (by simp), ⟨by simpa using h.shadow.ssh, by simp⟩,
    h.loop.congr (by simp), pendingOk_congr h.pending (by simp), pipelineOk_congr h.pipeline (by simp), h.dma⟩

theorem InvDuring.unwindLoop (h : InvDuring first s) : InvDuring first (unwindLoop s) := by
  have h2 := h.popState.setSrBit srMasked_bitLF (s.ssl.getLsbD srLF)
  exact (h2.popState.setLc _).unguarded rfl

/-! ### Register operands -/

/-- A read of a register keeps the invariant, the pop of SSH and the limiter's L included (R34). -/
theorem InvDuring.readReg {r : Reg} {v : Word} (h : InvDuring first s) (hr : readReg r s = .ok (v, t)) : InvDuring first t := by
  rcases readReg_ok hr with rfl | rfl | ⟨-, rfl⟩
  · exact h
  · exact h.setSrBit srMasked_bitL true
  · exact h.popState

/-- A write of a register keeps the invariant (R33). -/
theorem InvDuring.writeReg {r : Reg} {v : Word} (h : InvDuring first s) (hw : writeReg r v s = .ok t) : InvDuring first t := by
  cases r <;> cases hw
  case sr => exact h.setSr (srMasked_maskSr _)
  case omr => exact h.setOmr _
  case sp => exact h.writeSp v
  case ssh => exact h.pushWith _ _
  case ssl => exact h.writeSsl v
  case lc => exact h.setLc _
  all_goals exact h.unguarded rfl

/-! ### Memory -/

theorem InvDuring.memLoad {sp : Space} {a v : Word} (h : InvDuring first s) (hl : memLoad sp a s = .ok (v, t)) :
    InvDuring first t := by
  rcases memLoad_ok hl with rfl | rfl
  · exact h
  · exact h.unguarded rfl

/-- The actions write the three status bits only (R294). -/
theorem dmaAction_masked {v c d : Word} (hc : c &&& ~~~ (0x38 : Word) = 0) (h : dmaAction v c = .ok d) :
    d &&& ~~~ (0x38 : Word) = 0 := by
  unfold dmaAction at h
  split at h <;> cases h
  · exact hc
  · exact setBit_and_eq_zero (setBit_and_eq_zero hc (by decide) _) (by decide) _
  · exact setBit_and_eq_zero (setBit_and_eq_zero hc (by decide) _) (by decide) _
  · exact setBit_and_eq_zero hc (by decide) _
  · exact setBit_and_eq_zero hc (by decide) _

/-- A store leaves the DMA control register, or gives it what an action of R294 makes of it. -/
theorem writePeriph_dmaControl {a v : Word} (h : writePeriph a v s = .ok t) :
    t.dmaControl = s.dmaControl ∨ dmaAction v s.dmaControl = .ok t.dmaControl := by
  unfold writePeriph at h
  split at h
  · cases h
    split <;> exact .inl rfl
  split at h
  · cases h
    exact .inl rfl
  split at h
  · obtain ⟨c, hc, hr⟩ := bind_ok.1 h
    have hd : t.dmaControl = c := congrArg State.dmaControl (dmaRun_ok hr).1
    rw [hd]
    exact .inr (raisedIn_ok.1 hc)
  (repeat' split at h) <;> cases h <;> exact .inl rfl

theorem dmaOk_attemptStore {sp : Space} {a v : Word} (h : DmaOk s) (hw : attemptStore sp a v s = .ok t) : DmaOk t := by
  cases sp with
  | x =>
    unfold attemptStore at hw
    dsimp only at hw
    split at hw
    · rcases writePeriph_dmaControl hw with he | ha
      · rw [DmaOk, he]
        exact h
      · exact dmaAction_masked h ha
    · rcases writeXData_ok (raisedIn_ok.1 hw) with ⟨k, -, -, rfl⟩ | ⟨k, -, -, rfl⟩ <;> exact h
  | y =>
    obtain ⟨-, rfl⟩ := writeY_ok (raisedIn_ok.1 hw)
    exact h

/-- A store of an instruction keeps the invariant, the DMA walk it may start included (R308). -/
theorem InvDuring.attemptStore {sp : Space} {a v : Word} (h : InvDuring first s) (hw : attemptStore sp a v s = .ok t) :
    InvDuring first t := by
  obtain ⟨hf, hm⟩ := memStore_ok (reasonOnly_ok.2 hw)
  have hd := dmaOk_attemptStore h.dma hw
  refine ⟨hm h.memory, ?_, ?_, ?_, ?_, ?_, hd⟩
  all_goals rw [hf]
  · exact statusOk_congr h.status ⟨rfl, rfl⟩
  · exact shadowOk_congr h.shadow ⟨rfl, rfl, rfl, rfl, rfl⟩
  · exact h.loop.congr ⟨rfl, rfl, rfl⟩
  · exact pendingOk_congr h.pending ⟨rfl, rfl⟩
  · exact pipelineOk_congr h.pipeline ⟨rfl, rfl, rfl, rfl, rfl⟩

/-! ### Effective addresses -/

theorem InvDuring.applyUpdate (h : InvDuring first s) (u : Option (Fin 8 × Word)) : InvDuring first (applyUpdate u s) := by
  cases u with
  | none => exact h
  | some p => exact h.setR _ _

theorem InvDuring.enterEa {ea : EaAddr} {a : Word} (h : InvDuring first s) (he : enterEa ea s = .ok (a, t)) :
    InvDuring first t := by
  obtain ⟨u, -, -, rfl⟩ := enterEa_ok he
  split
  · exact (h.applyUpdate _).takeExtension
  · exact h.applyUpdate _

end

end Sys2Proof.Proofs
end

section
/-! PROOFS. Every instruction keeps the invariant: the two phases of a parallel move, program control, the dispatch. -/

namespace Sys2Proof.Proofs

open Sys2Proof Sys2Proof.Machine Sys2Proof.Safety Sys2Proof.Claims

section
variable {first : Bool} {s t : State}

/-! ### The reads of a parallel move (R220, phase 1) -/

theorem InvDuring.readMoves {l : List (Reg × Reg)} {ws : List MoveWrite} (h : InvDuring first s)
    (hr : readMoves l s = .ok (ws, t)) : InvDuring first t := by
  induction l generalizing s ws with
  | nil =>
    cases hr
    exact h
  | cons p rest ih =>
    obtain ⟨⟨v, s1⟩, h1, hr⟩ := bind_ok.1 hr
    obtain ⟨⟨ws', s2⟩, h2, hr⟩ := bind_ok.1 hr
    cases hr
    exact ih (h.readReg h1) h2

theorem InvDuring.planEa {sp : Space} {r : Reg} {mv : EaMove} {others : List (Reg × Reg)} {p : EaPlan} (h : InvDuring first s)
    (hp : planEa sp r mv others s = .ok p) : InvDuring first p.state := by
  unfold Machine.planEa at hp
  split at hp
  · obtain ⟨⟨ws, s1⟩, h1, hp⟩ := bind_ok.1 hp
    cases hp
    exact h.readMoves h1
  · obtain ⟨u, -, hp⟩ := bind_ok.1 hp
    obtain ⟨⟨ws, s1⟩, h1, hp⟩ := bind_ok.1 hp
    obtain ⟨⟨v, s2⟩, h2, hp⟩ := bind_ok.1 hp
    cases hp
    exact (h.readMoves h1).memLoad h2
  · obtain ⟨u, -, hp⟩ := bind_ok.1 hp
    obtain ⟨⟨v, s1⟩, h1, hp⟩ := bind_ok.1 hp
    obtain ⟨⟨ws, s2⟩, h2, hp⟩ := bind_ok.1 hp
    cases hp
    exact (h.readReg h1).readMoves h2

/-- Reading the two registers of an L pair, one after the other. -/
theorem InvDuring.readBoth {hi lo : Reg} {x : (Word × Word) × State} (h : InvDuring first s)
    (hr : (do
      let (v, s1) ← Machine.readReg hi s
      let (w, s2) ← Machine.readReg lo s1
      .ok ((v, w), s2) : Except Fault ((Word × Word) × State)) = .ok x) : InvDuring first x.2 := by
  obtain ⟨⟨v, s1⟩, h1, hr⟩ := bind_ok.1 hr
  obtain ⟨⟨w, s2⟩, h2, hr⟩ := bind_ok.1 hr
  cases hr
  exact (h.readReg h1).readReg h2

theorem InvDuring.readPair {l : LPair} {x : (Word × Word) × State} (h : InvDuring first s) (hr : readPair l s = .ok x) :
    InvDuring first x.2 := by
  cases l
  case a | b =>
    simp only [Machine.readPair] at hr
    split at hr <;> cases hr
    dsimp only
    split
    · exact h.setSrBit srMasked_bitL true
    · exact h
  all_goals exact h.readBoth hr

theorem InvDuring.planLong {l : LPair} {w : Dir} {a : Word} {us : List (Fin 8 × Word)} {ext : Bool} {p : MovePlan}
    (h : InvDuring first s) (hp : planLong l w a us ext s = .ok p) : InvDuring first p.state := by
  cases w with
  | load =>
    obtain ⟨⟨hi, s1⟩, h1, hp⟩ := bind_ok.1 hp
    obtain ⟨⟨lo, s2⟩, h2, hp⟩ := bind_ok.1 hp
    cases hp
    exact (h.memLoad h1).memLoad h2
  | store =>
    obtain ⟨⟨v, s1⟩, h1, hp⟩ := bind_ok.1 hp
    cases hp
    exact h.readPair h1

theorem InvDuring.xySource {w : Dir} {r : Reg} {v : Word} (h : InvDuring first s) (hx : xySource w r s = .ok (v, t)) :
    InvDuring first t := by
  cases w with
  | store => exact h.readReg hx
  | load =>
    cases hx
    exact h

theorem InvDuring.xyWrite {w : Dir} {sp : Space} {r : Reg} {a v : Word} {m : MoveWrite} (h : InvDuring first s)
    (hx : xyWrite w sp r a v s = .ok (m, t)) : InvDuring first t := by
  cases w with
  | store =>
    cases hx
    exact h
  | load =>
    obtain ⟨⟨x, s1⟩, h1, hx⟩ := bind_ok.1 hx
    cases hx
    exact h.memLoad h1

/-! ### The writes of a parallel move (R220, phase 2) -/

/-- An ALU effect over the state at the start of the instruction, written to the state that the reads left. -/
theorem InvDuring.applyAlu {op : AluOp} {e : AluEffect} {s0 : State} (h : InvDuring first s) (h0 : SrMasked s0.sr)
    (he : aluEffect op s0 = .ok e) : InvDuring first (applyAlu e s) := by
  have hsr : SrMasked e.sr := (aluEffect_sr he).masked h0
  have hbit : ∀ b, SrMasked (setBit e.sr srL b) := fun b => hsr.setBit srMasked_bitL b
  unfold Machine.applyAlu
  split
  · exact (h.setAcc _ _).setSr (hbit _)
  · exact h.setSr (hbit _)

theorem InvDuring.applyUpdates {us : List (Fin 8 × Word)} (h : InvDuring first s) : InvDuring first (applyUpdates us s) := by
  induction us generalizing s with
  | nil => exact h
  | cons u rest ih => exact ih (h.setR u.1 u.2)

theorem InvDuring.applyWrites {ws : List MoveWrite} (h : InvDuring first s) (hw : applyWrites ws s = .ok t) :
    InvDuring first t := by
  induction ws generalizing s with
  | nil =>
    cases hw
    exact h
  | cons w rest ih =>
    obtain ⟨s1, h1, hw⟩ := bind_ok.1 hw
    refine ih ?_ hw
    cases w with
    | reg r v => exact h.writeReg (raisedIn_ok.1 h1)
    | mem sp a v => exact h.attemptStore h1

/-- A parallel move keeps the invariant where its reads do. -/
theorem InvDuring.runMove {op : AluOp} {plan : State → Except Fault MovePlan} (h : InvDuring first s)
    (hplan : ∀ p, plan s = .ok p → InvDuring first p.state) (hm : runMove op plan s = .next t) : InvDuring first t := by
  obtain ⟨p, e, hp, he, hc⟩ := runMove_next.1 hm
  have h1 := ((hplan p hp).applyAlu h.status.sr he).applyUpdates (us := p.updates)
  unfold commitMove at hc
  dsimp only at hc
  split at hc
  · exact h1.takeExtension.applyWrites hc
  · exact h1.applyWrites hc

/-- An ALU operation alone keeps the invariant. -/
theorem InvDuring.runAlu (h : InvDuring first s) (op : AluOp) (hm : runAlu (aluEffect op) s = .next t) : InvDuring first t := by
  obtain ⟨e, he, rfl⟩ := runAlu_next.1 hm
  exact h.applyAlu h.status.sr he

/-! ### The move classes -/

theorem InvDuring.planMoveXYAa {sp : Space} {r : Reg} {w : Dir} {aa : BitVec 6} {p : MovePlan} (h : InvDuring first s)
    (hp : planMoveXYAa sp r w aa s = .ok p) : InvDuring first p.state := by
  cases w with
  | load =>
    obtain ⟨⟨v, s1⟩, h1, hp⟩ := bind_ok.1 hp
    cases hp
    exact h.memLoad h1
  | store =>
    obtain ⟨⟨v, s1⟩, h1, hp⟩ := bind_ok.1 hp
    cases hp
    exact h.readReg h1

theorem InvDuring.planMoveRegReg {src dst : Reg} {p : MovePlan} (h : InvDuring first s) (hp : planMoveRegReg src dst s = .ok p) :
    InvDuring first p.state := by
  obtain ⟨⟨ws, s1⟩, h1, hp⟩ := bind_ok.1 hp
  cases hp
  exact h.readMoves h1

theorem InvDuring.planMoveUpdate {mode : UpdateMode} {i : Fin 8} {p : MovePlan} (h : InvDuring first s)
    (hp : planMoveUpdate mode i s = .ok p) : InvDuring first p.state := by
  obtain ⟨u, -, hp⟩ := bind_ok.1 hp
  cases hp
  exact h

theorem InvDuring.planMoveXYDouble {wy : Dir} {my : XyMode} {e : XSide} {f : YSide} {wx : Dir} {rr : BitVec 2} {mx : XyMode}
    {i : Fin 8} {p : MovePlan} (h : InvDuring first s) (hp : planMoveXYDouble wy my e f wx rr mx i s = .ok p) :
    InvDuring first p.state := by
  unfold Machine.planMoveXYDouble at hp
  split at hp
  · cases hp
  obtain ⟨ux, -, hp⟩ := bind_ok.1 hp
  obtain ⟨uy, -, hp⟩ := bind_ok.1 hp
  obtain ⟨⟨vx, s1⟩, h1, hp⟩ := bind_ok.1 hp
  obtain ⟨⟨vy, s2⟩, h2, hp⟩ := bind_ok.1 hp
  obtain ⟨⟨px, s3⟩, h3, hp⟩ := bind_ok.1 hp
  obtain ⟨⟨py, s4⟩, h4, hp⟩ := bind_ok.1 hp
  cases hp
  exact (((h.xySource h1).xySource h2).xyWrite h3).xyWrite h4

/-- The plans made of one memory part and register parts beside it, in either order of their writes. -/
theorem InvDuring.planOfEa {sp : Space} {r : Reg} {mv : EaMove} {others : List (Reg × Reg)} {order : EaPlan → MovePlan}
    (horder : ∀ q, (order q).state = q.state) (h : InvDuring first s) {p : MovePlan}
    (hp : (do
      let q ← Machine.planEa sp r mv others s
      .ok (order q) : Except Fault MovePlan) = .ok p) : InvDuring first p.state := by
  obtain ⟨q, hq, hp⟩ := bind_ok.1 hp
  cases hp
  rw [horder]
  exact h.planEa hq

theorem InvDuring.planMoveLEa {l : LPair} {w : Dir} {ea : EaAddr} {p : MovePlan} (h : InvDuring first s)
    (hp : planMoveLEa l w ea s = .ok p) : InvDuring first p.state := by
  obtain ⟨u, -, hp⟩ := bind_ok.1 hp
  exact h.planLong hp

/-! ### Program control -/

theorem InvDuring.push (h : InvDuring first s) (a b : Word) : InvDuring first (push a b s) := h.pushWith _ _

theorem InvDuring.takeJump (h : InvDuring first s) (a : Word) : InvDuring first (takeJump a s) := (h.jumpTo a).addCycles _

theorem InvDuring.skipJump (h : InvDuring first s) : InvDuring first (skipJump s) := h.addCycles _

theorem InvDuring.callAlways (h : InvDuring first s) (a len : Word) : InvDuring first (callAlways a len s) :=
  (h.push _ _).takeJump a

/-- A JSR after a long entry hands LONG over to DISABLED; the latches stay (R273). -/
theorem InvDuring.callTo (h : InvDuring first s) (a len : Word) : InvDuring first (callTo a len s) := by
  unfold Machine.callTo
  split
  · rename_i hl
    have hn : s.interruptState ≠ .none := by simp [hl]
    have hpipe : PipelineOk { s with interruptState := .disabled } :=
      ⟨by simp, fun _ => h.pipeline.fetch hn, fun _ => h.pipeline.save hn, by simp⟩
    have hd : InvDuring first { s with interruptState := .disabled } := h.repipe rfl hpipe
    exact hd.takeJump a
  · exact (h.push _ _).takeJump a

theorem InvDuring.returnFromInterrupt (h : InvDuring first s) : InvDuring first (returnFromInterrupt s) :=
  (h.popState.setSr (srMasked_maskSr _)).jumpTo _

theorem InvDuring.returnFromSubroutine (h : InvDuring first s) : InvDuring first (returnFromSubroutine s) := h.popState.jumpTo _

/-- REP marks its own PC update as still to come, with a 16-bit count in LC (R263). -/
theorem InvDuring.startRep (h : InvDuring first s) (count : BitVec 16) : InvDuring true (startRep count s) :=
  h.reloop rfl (.of_lc count rfl fun _ => ⟨rfl, rfl⟩)

/-- DO saves the outer loop and pc on the stack and sets LF, with a 16-bit count in LC (R267). -/
theorem InvDuring.startDo (h : InvDuring first s) (count : BitVec 16) (last : Word) : InvDuring first (startDo count last s) := by
  have h1 : InvDuring first { saveLoop s with la := last.setWidth 16 } :=
    (h.push (s.la.setWidth 24) (s.lc.setWidth 24)).unguarded rfl
  have h2 := (h1.push ((saveLoop s).pc + 2) ((saveLoop s).sr.setWidth 24)).setSrBit srMasked_bitLF true
  exact (h2.setLc count).unguarded rfl

theorem InvDuring.countAa {aa : BitVec 6} {sp : Space} {v : Word} (h : InvDuring first s) (hc : countAa aa sp s = .ok (v, t)) :
    InvDuring first t := h.memLoad (raisedIn_ok.1 hc)

theorem InvDuring.countEa {mode : EaMode} {i : Fin 8} {sp : Space} {v : Word} (h : InvDuring first s)
    (hc : countEa mode i sp s = .ok (v, t)) : InvDuring first t := by
  obtain ⟨⟨a, s1⟩, h1, hc⟩ := bind_ok.1 hc
  exact (h.enterEa (raisedIn_ok.1 h1)).memLoad (raisedIn_ok.1 hc)

theorem InvDuring.countReg {r : Reg} {v : Word} (h : InvDuring first s) (hc : countReg r s = .ok (v, t)) : InvDuring first t :=
  h.readReg (raisedIn_ok.1 hc)

/-! ### MOVEC -/

theorem InvDuring.copyReg {src dst : Reg} (h : InvDuring first s) (hc : copyReg src dst s = .ok t) : InvDuring first t := by
  obtain ⟨⟨v, s1⟩, h1, hc⟩ := bind_ok.1 hc
  exact (h.readReg (raisedIn_ok.1 h1)).writeReg (raisedIn_ok.1 hc)

theorem InvDuring.loadReg {sp : Space} {a : Word} {c : Reg} (h : InvDuring first s) (hl : loadReg sp a c s = .ok t) :
    InvDuring first t := by
  obtain ⟨⟨v, s1⟩, h1, hl⟩ := bind_ok.1 hl
  exact (h.memLoad (raisedIn_ok.1 h1)).writeReg (raisedIn_ok.1 hl)

theorem InvDuring.storeReg {sp : Space} {a : Word} {c : Reg} (h : InvDuring first s) (hs : storeReg sp a c s = .ok t) :
    InvDuring first t := by
  obtain ⟨⟨v, s1⟩, h1, hs⟩ := bind_ok.1 hs
  exact (h.readReg (raisedIn_ok.1 h1)).attemptStore hs

theorem InvDuring.attemptMovecReg {w : Dir} {r c : Reg} (h : InvDuring first s) (hm : attemptMovecReg w r c s = .ok t) :
    InvDuring first t := by
  cases w <;> exact h.copyReg hm

theorem InvDuring.attemptMovecEa {mv : EaMove} {sp : Space} {c : Reg} (h : InvDuring first s) (hm : attemptMovecEa mv sp c s = .ok t) :
    InvDuring first t := by
  unfold Machine.attemptMovecEa at hm
  split at hm
  · exact h.takeExtension.writeReg (raisedIn_ok.1 hm)
  · obtain ⟨⟨a, s1⟩, h1, hm⟩ := bind_ok.1 hm
    exact (h.enterEa (raisedIn_ok.1 h1)).loadReg hm
  · obtain ⟨⟨a, s1⟩, h1, hm⟩ := bind_ok.1 hm
    exact (h.enterEa (raisedIn_ok.1 h1)).storeReg hm

theorem InvDuring.attemptMovecAa {w : Dir} {aa : BitVec 6} {sp : Space} {c : Reg} (h : InvDuring first s)
    (hm : attemptMovecAa w aa sp c s = .ok t) : InvDuring first t := by
  cases w with
  | load => exact h.loadReg hm
  | store => exact h.storeReg hm

end

/-! ### The dispatch -/

/-- Every instruction that answers a next state keeps the invariant, up to the PC update of a REP. -/
theorem InvDuring.exec {i : Instr} {s t : State} (h : InvDuring true s) (he : exec i s = .next t) : InvDuring true t := by
  cases i with
  | nop | wait | stop => cases he; exact h
  | rti => cases he; exact h.returnFromInterrupt.addCycles _
  | illegal => cases he; exact h.post _
  | trap => cases he; exact h.post _
  | rts => cases he; exact h.returnFromSubroutine.addCycles _
  | enddo => cases he; exact h.unwindLoop
  | andi k target =>
    cases target with
    | mr | ccr => cases he; exact h.setSr (srMasked_maskSr _)
    | omr => cases he; exact h.setOmr _
  | ori k target =>
    cases target with
    | mr | ccr => cases he; exact h.setSr (srMasked_maskSr _)
    | omr => cases he; exact h.setOmr _
  | movecReg w r c => exact h.attemptMovecReg (toOutcome_next.1 he)
  | movecEa mv sp c => exact h.attemptMovecEa (toOutcome_next.1 he)
  | movecAa w aa sp c => exact h.attemptMovecAa (toOutcome_next.1 he)
  | movecImm k c => exact h.writeReg (raisedIn_ok.1 (toOutcome_next.1 he))
  | repImm count => cases he; exact h.startRep _
  | repAa aa sp =>
    obtain ⟨⟨v, s1⟩, h1, he⟩ := bind_ok.1 (toOutcome_next.1 he)
    cases he
    exact (h.countAa h1).startRep _
  | repEa mode k sp =>
    obtain ⟨⟨v, s1⟩, h1, he⟩ := bind_ok.1 (toOutcome_next.1 he)
    cases he
    exact (h.countEa h1).startRep _
  | repReg r =>
    obtain ⟨⟨v, s1⟩, h1, he⟩ := bind_ok.1 (toOutcome_next.1 he)
    cases he
    exact (h.countReg h1).startRep _
  | doImm count last => cases he; exact h.startDo _ _
  | doAa aa sp last =>
    obtain ⟨⟨v, s1⟩, h1, he⟩ := bind_ok.1 (toOutcome_next.1 he)
    cases he
    exact (h.countAa h1).startDo _ _
  | doEa mode k sp last =>
    obtain ⟨⟨v, s1⟩, h1, he⟩ := bind_ok.1 (toOutcome_next.1 he)
    cases he
    exact (h.countEa h1).startDo _ _
  | doReg r last =>
    obtain ⟨⟨v, s1⟩, h1, he⟩ := bind_ok.1 (toOutcome_next.1 he)
    cases he
    exact (h.countReg h1).startDo _ _
  | jmpEa ea =>
    obtain ⟨⟨a, s1⟩, h1, he⟩ := bind_ok.1 (toOutcome_next.1 he)
    cases he
    exact (h.enterEa (raisedIn_ok.1 h1)).takeJump _
  | jccEa ea cond =>
    obtain ⟨⟨a, s1⟩, h1, he⟩ := bind_ok.1 (toOutcome_next.1 he)
    have hs1 := h.enterEa (raisedIn_ok.1 h1)
    cases he
    split
    · exact hs1.takeJump _
    · exact hs1.skipJump
  | jsrEa ea =>
    obtain ⟨⟨a, s1⟩, h1, he⟩ := bind_ok.1 (toOutcome_next.1 he)
    cases he
    exact (h.enterEa (raisedIn_ok.1 h1)).callTo _ _
  | jsccEa ea cond =>
    obtain ⟨⟨a, s1⟩, h1, he⟩ := bind_ok.1 (toOutcome_next.1 he)
    have hs1 := h.enterEa (raisedIn_ok.1 h1)
    cases he
    split
    · exact hs1.callAlways _ _
    · exact hs1.skipJump
  | jmpAbs a => cases he; exact h.takeJump _
  | jsrAbs a => cases he; exact h.callTo _ _
  | jccAbs cond a =>
    cases he
    split
    · exact h.takeJump _
    · exact h.skipJump
  | jsccAbs cond a =>
    cases he
    split
    · exact h.callAlways _ _
    · exact h.skipJump
  | moveXRII d ea alu => exact h.runMove (fun _ hp => h.planOfEa (fun _ => rfl) hp) he
  | moveRYII d ea alu => exact h.runMove (fun _ hp => h.planOfEa (fun _ => rfl) hp) he
  | moveXRI f d g mv alu => exact h.runMove (fun _ hp => h.planOfEa (fun _ => rfl) hp) he
  | moveRYI d e f mv alu => exact h.runMove (fun _ hp => h.planOfEa (fun _ => rfl) hp) he
  | moveXYEa sp r mv alu => exact h.runMove (fun _ hp => h.planOfEa (fun _ => rfl) hp) he
  | noMove alu => exact h.runMove (fun _ hp => by cases hp; exact h) he
  | moveImm dst k alu => exact h.runMove (fun _ hp => by cases hp; exact h) he
  | moveUpdate mode k alu => exact h.runMove (fun _ hp => h.planMoveUpdate hp) he
  | moveRegReg src dst alu => exact h.runMove (fun _ hp => h.planMoveRegReg hp) he
  | moveXYAa sp r w aa alu => exact h.runMove (fun _ hp => h.planMoveXYAa hp) he
  | moveLEa l w ea alu => exact h.runMove (fun _ hp => h.planMoveLEa hp) he
  | moveLAa l w aa alu => exact h.runMove (fun _ hp => h.planLong hp) he
  | moveXYDouble wy my e f wx rr mx k alu => exact h.runMove (fun _ hp => h.planMoveXYDouble hp) he
  | aluMove => exact h.runAlu .move he
  | tfrAcc d => exact h.runAlu (.tfrAcc d) he
  | tfrReg j d => exact h.runAlu (.tfrReg j d) he
  | addr d => exact h.runAlu (.addr d) he
  | tst d => exact h.runAlu (.tst d) he
  | cmpAcc d => exact h.runAlu (.cmpAcc d) he
  | cmpReg j d => exact h.runAlu (.cmpReg j d) he
  | subr d => exact h.runAlu (.subr d) he
  | cmpmAcc d => exact h.runAlu (.cmpmAcc d) he
  | cmpmReg j d => exact h.runAlu (.cmpmReg j d) he
  | addAcc d => exact h.runAlu (.addAcc d) he
  | addX d => exact h.runAlu (.addX d) he
  | addY d => exact h.runAlu (.addY d) he
  | addReg j d => exact h.runAlu (.addReg j d) he
  | rnd d => exact h.runAlu (.rnd d) he
  | addl d => exact h.runAlu (.addl d) he
  | clr d => exact h.runAlu (.clr d) he
  | subAcc d => exact h.runAlu (.subAcc d) he
  | subX d => exact h.runAlu (.subX d) he
  | subY d => exact h.runAlu (.subY d) he
  | subReg j d => exact h.runAlu (.subReg j d) he
  | subl d => exact h.runAlu (.subl d) he
  | notAcc d => exact h.runAlu (.notAcc d) he
  | adc j d => exact h.runAlu (.adc j d) he
  | asr d => exact h.runAlu (.asr d) he
  | lsr d => exact h.runAlu (.lsr d) he
  | sbc j d => exact h.runAlu (.sbc j d) he
  | absAcc d => exact h.runAlu (.absAcc d) he
  | ror d => exact h.runAlu (.ror d) he
  | asl d => exact h.runAlu (.asl d) he
  | lsl d => exact h.runAlu (.lsl d) he
  | neg d => exact h.runAlu (.neg d) he
  | rol d => exact h.runAlu (.rol d) he
  | orReg j d => exact h.runAlu (.orReg j d) he
  | eorReg j d => exact h.runAlu (.eorReg j d) he
  | andReg j d => exact h.runAlu (.andReg j d) he
  | mpy q d k => exact h.runAlu (.mpy q d k) he
  | mpyr q d k => exact h.runAlu (.mpyr q d k) he
  | mac q d k => exact h.runAlu (.mac q d k) he
  | macr q d k => exact h.runAlu (.macr q d k) he

end Sys2Proof.Proofs
end

section
/-! PROOFS. The PC update and the interrupt check keep the invariant, and with the instructions so does every step. -/

namespace Sys2Proof.Proofs

open Sys2Proof Sys2Proof.Machine Sys2Proof.Safety Sys2Proof.Claims

section
variable {first : Bool} {s t : State}

/-! ### The PC update -/

/-- The REP branch ends the first pass of a REP, which alone may put 0x10000 into LC, and gives back the saved 16-bit LC
when the passes are over (R141, R142). -/
theorem InvDuring.repUpdate (h : InvDuring true s) : InvDuring false (repUpdate s) := by
  rcases repUpdate_cases s with ⟨hr, he⟩ | ⟨hr, -, he⟩ | ⟨-, hp, -, he⟩ | ⟨-, hp, -, he⟩ <;> rw [he]
  · exact h.reloop rfl ⟨fun hp => absurd (h.loop.firstPass hp).2 (by simp [hr]), h.loop.lcBound, h.loop.lcWide⟩
  · refine h.reloop rfl ⟨fun hp => absurd hp (by simp), ?_, fun _ => hr⟩
    dsimp only
    split
    · decide
    · exact h.loop.lcBound
  · exact h.reloop rfl (.of_lc _ rfl fun hp' => absurd (hp.symm.trans hp') (by decide))
  · exact h.reloop rfl (.of_lc _ rfl fun hp' => absurd (hp.symm.trans hp') (by decide))

theorem InvDuring.loopEnd (h : InvDuring first s) : InvDuring first (loopEnd s) := by
  rcases loopEnd_cases s with ⟨-, he⟩ | ⟨-, -, he⟩ | ⟨-, -, he⟩ <;> rw [he]
  · exact h
  · exact (h.setLc _).unwindLoop
  · exact (h.setLc _).unguarded rfl

theorem InvDuring.updatePc (h : InvDuring true s) : InvDuring false (updatePc s) :=
  (h.repUpdate.unguarded (t := advancePc (Machine.repUpdate s)) rfl).loopEnd

/-! ### Taking an interrupt -/

/-- A pending source leaves the count, and the pipeline starts at count 5 with its vector latched (R334). -/
theorem InvDuring.armPipeline {src : IrqSource} (h : InvDuring first s) (hp : s.pending[irqIndex src] = true) :
    InvDuring first (armPipeline (latchInterrupt src s)) :=
  ⟨memoryOk_congr h.memory ⟨rfl, rfl, rfl, rfl, rfl, rfl⟩, statusOk_congr h.status ⟨rfl, rfl⟩,
    shadowOk_congr h.shadow ⟨rfl, rfl, rfl, rfl, rfl⟩, h.loop.congr ⟨rfl, rfl, rfl⟩,
    pendingOk_congr (pendingOk_latchInterrupt h.pending hp) ⟨rfl, rfl⟩,
    ⟨(nomatch ·), fun _ => rfl, fun _ h5 => absurd rfl h5, (nomatch ·)⟩, h.dma⟩

theorem InvDuring.traceAndArbitrate (h : InvDuring first s) (ha : traceAndArbitrate s = .ok t) : InvDuring first t := by
  have h1 : InvDuring first (if s.sr.getLsbD srT then Machine.post .trace s else s) := by
    split
    · exact h.post _
    · exact h
  rcases traceAndArbitrate_cases s with ⟨-, he⟩ | ⟨-, -, he⟩ | ⟨-, i, hw, he⟩ <;> rw [he] at ha
  · cases ha
    exact h1
  · cases ha
    exact h1
  · obtain ⟨-, rfl⟩ := takeInterrupt_ok.1 ha
    exact h1.armPipeline (winner_pending hw)

/-! ### The pipeline -/

theorem srMasked_level (level : BitVec 2) : SrMasked (level.setWidth 16 <<< 8) := by
  unfold SrMasked
  revert level
  decide

/-- A long entry keeps the latches, and writes writable bits of SR only (R338). -/
theorem InvDuring.longEntry (h : InvDuring first s) (hn : s.interruptState ≠ .none) (saved : Word) :
    InvDuring first (longEntry saved s) := by
  have hpipe : PipelineOk { s with interruptState := .long, longTaken := true } :=
    ⟨(nomatch ·), fun _ => h.pipeline.fetch hn, fun _ => h.pipeline.save hn, fun _ => rfl⟩
  have hlong : InvDuring first { s with interruptState := .long, longTaken := true } := h.repipe rfl hpipe
  have h1 := hlong.push saved (s.sr.setWidth 24)
  exact h1.setSr ((SrMasked.and h1.status.sr _).or (srMasked_level _))

/-- The inspection of a vector word leaves the state, or enters a long interrupt with the saved pc (R336, R338). -/
theorem inspectVector_ok (h : inspectVector s = .ok t) : t = s ∨ ∃ saved, t = longEntry saved s := by
  unfold inspectVector at h
  split at h
  · cases h
  split at h <;> cases h
  · exact .inr ⟨_, rfl⟩
  · exact .inl rfl
  · exact .inl rfl

/-- The inspection keeps the invariant and the saved pc, and the pipeline stays in progress. -/
theorem InvDuring.inspectVector (h : InvDuring first s) (hn : s.interruptState ≠ .none) (hv : inspectVector s = .ok t) :
    InvDuring first t ∧ t.interruptState ≠ .none ∧ t.savePc = s.savePc := by
  rcases inspectVector_ok hv with rfl | ⟨saved, rfl⟩
  · exact ⟨h, hn, rfl⟩
  · exact ⟨h.longEntry hn saved, by simp [Machine.longEntry, Machine.push], by simp [Machine.longEntry, Machine.push]⟩

/-- A pipeline in progress may count on once a pc is saved. -/
theorem InvDuring.setCount (h : InvDuring first s) (hn : s.interruptState ≠ .none) (hs : s.savePc.isSome) (c : PipelineCount) :
    InvDuring first { s with pipelineCount := c } :=
  h.repipe rfl ⟨fun hi => absurd hi hn, h.pipeline.fetch, fun _ _ _ => hs, h.pipeline.long⟩

theorem InvDuring.pipelineFour (h : InvDuring first s) (hn : s.interruptState ≠ .none) (hp : pipelineFour s = .ok t) :
    InvDuring first t := by
  have hsaved : ∀ a, InvDuring first { s with savePc := some s.pc, pc := a } := fun a =>
    h.repipe rfl ⟨fun hi => absurd hi hn, h.pipeline.fetch, fun _ _ _ => rfl, h.pipeline.long⟩
  unfold Machine.pipelineFour at hp
  split at hp
  · cases hp
    exact (hsaved s.pc).setCount hn rfl .three
  · obtain ⟨s1, h1, hp⟩ := bind_ok.1 hp
    cases hp
    obtain ⟨hs1, hn1, hsave⟩ := (hsaved _).inspectVector hn h1
    exact hs1.setCount hn1 (by rw [hsave]; rfl) .three

theorem InvDuring.pipelineThree (h : InvDuring first s) (hn : s.interruptState ≠ .none) (hs : s.savePc.isSome)
    (hp : pipelineThree s = .ok t) : InvDuring first t := by
  unfold Machine.pipelineThree at hp
  split at hp
  · cases hp
    exact h.setCount hn hs .two
  split at hp
  · obtain ⟨s1, h1, hp⟩ := bind_ok.1 hp
    cases hp
    obtain ⟨hs1, hn1, hsave⟩ := h.inspectVector hn h1
    exact hs1.setCount hn1 (hsave ▸ hs) .two
  · cases hp
    exact h.setCount hn hs .two

/-- The fast return changes pc and the count only (R339). -/
theorem pipelineTwo_eq (s : State) : pipelineTwo s = { s with pc := (pipelineTwo s).pc, pipelineCount := .one } := by
  unfold Machine.pipelineTwo
  split
  · split <;> rfl
  · rfl
  · rfl

theorem InvDuring.leavePipeline (h : InvDuring first s) (hc : s.pipelineCount = .zero) : InvDuring first (leavePipeline s) :=
  h.repipe rfl ⟨fun _ => ⟨rfl, rfl, hc, rfl⟩, fun hn => absurd rfl hn, fun hn => absurd rfl hn, (nomatch ·)⟩

theorem InvDuring.pipelineStep (h : InvDuring first s) (hn : s.interruptState ≠ .none) (hp : pipelineStep s = .ok t) :
    InvDuring first t := by
  have saved : s.pipelineCount ≠ .five → s.pipelineCount ≠ .four → s.savePc.isSome := h.pipeline.save hn
  rcases pipelineStep_ok hp with ⟨-, rfl⟩ | ⟨-, hp⟩ | ⟨hc, hp⟩ | ⟨hc, rfl⟩ | ⟨hc, rfl⟩ | ⟨hc, hp⟩
  · exact h.repipe rfl ⟨fun hi => absurd hi hn, h.pipeline.fetch, fun _ _ h4 => absurd rfl h4, h.pipeline.long⟩
  · exact h.pipelineFour hn hp
  · exact h.pipelineThree hn (saved (by simp [hc]) (by simp [hc])) hp
  · rw [pipelineTwo_eq]
    exact (h.setCount hn (saved (by simp [hc]) (by simp [hc])) .one).unguarded rfl
  · exact h.setCount hn (saved (by simp [hc]) (by simp [hc])) .zero
  · exact (h.leavePipeline hc).traceAndArbitrate hp

theorem InvDuring.interruptCheck (h : InvDuring first s) (hc : interruptCheck s = .ok t) : InvDuring first t := by
  rcases interruptCheck_ok hc with ⟨-, rfl⟩ | ⟨-, -, ha⟩ | ⟨-, hn, hp⟩
  · exact h
  · exact h.traceAndArbitrate ha
  · exact h.pipelineStep hn hp

end

/-! ### The statements -/

/-- Settles O11: the instruction keeps the invariant up to the PC update of a REP, the PC update restores it, and the
interrupt check keeps it. -/
theorem everyStepKeepsInvariant : Obligations.EveryStepKeepsInvariant := by
  intro s t hs h
  obtain ⟨-, s1, s2, hrun, hcheck, rfl⟩ := step_next h
  have hbegin : InvDuring true (beginInstr s) := (invDuring_false_iff.2 hs).weaken.unguarded rfl
  have hexec : InvDuring true s1 := by
    rcases hrun with ⟨i, -, he⟩ | ⟨-, rfl⟩
    · exact hbegin.exec he
    · exact hbegin
  exact invDuring_false_iff.1 ((hexec.updatePc.interruptCheck hcheck).unguarded rfl)

/-- Settles O10: every array of the reset state is empty, and its registers are literals. -/
theorem invariantHoldsAtReset : Obligations.InvariantHoldsAtReset where
  memory := ⟨Memory.empty_wf _, Memory.empty_wf _, Memory.empty_wf _, Memory.empty_wf _, Memory.empty_wf _, List.Pairwise.nil⟩
  status := ⟨by decide, by decide⟩
  shadow := ⟨by decide, by decide⟩
  loop := ⟨rfl, by decide, fun hw => absurd hw (by decide)⟩
  pending := by unfold PendingOk; decide
  pipeline := ⟨fun _ => ⟨rfl, rfl, rfl, rfl⟩, fun hn => absurd rfl hn, fun hn => absurd rfl hn, (nomatch ·)⟩
  dma := by unfold DmaOk; decide

end Sys2Proof.Proofs
end

section
/-! PROOFS. The hardware stack (R30, R31, R40 to R43): push, pop and the write of SP, each in one equation per case. -/

namespace Sys2Proof.Proofs

open Sys2Proof Sys2Proof.Machine Sys2Proof.Safety Sys2Proof.Claims

/-! ### The stack pointer -/

theorem slotOf_eq (sp : BitVec 6) : slotOf sp = (sp.setWidth 4).toFin := by
  revert sp
  decide +kernel

/-- SP[3:0] = 15 is the one value from which a push overflows: SE, and slot 0 (R40). -/
theorem spUp_full {sp : BitVec 6} (h : sp &&& 0x0F = 0x0F) : (spUp sp).getLsbD 4 = true ∧ slotOf (spUp sp) = 0 := by
  revert sp
  decide +kernel

theorem spUp_room {sp : BitVec 6} (h : sp &&& 0x0F ≠ 0x0F) : (spUp sp).getLsbD 4 = false ∧ slotOf (spUp sp) ≠ 0 := by
  revert sp
  decide +kernel

/-- SP[3:0] = 0 is the one value from which a pop underflows (R42). -/
theorem spDown_bit4 (sp : BitVec 6) : (spDown sp).getLsbD 4 = decide (sp &&& 0x0F = 0) := by
  revert sp
  decide +kernel

/-- Stepping up and down again gives SP back where neither step meets a boundary (R43). -/
theorem spJoin_down_up {sp : BitVec 6} (hroom : (sp &&& 0x0F).toNat ≤ 14) (hse : sp.getLsbD 4 = false) :
    spJoin (spJoin sp (spUp sp)) (spDown (spJoin sp (spUp sp))) = sp := by
  revert sp
  decide +kernel

/-- A push that has room does not leave SP[3:0] = 0, so the pop after it does not underflow. -/
theorem spJoin_up_ne_zero {sp : BitVec 6} (hroom : (sp &&& 0x0F).toNat ≤ 14) : spJoin sp (spUp sp) &&& 0x0F ≠ 0 := by
  revert sp
  decide +kernel

theorem spJoin_up_full {sp : BitVec 6} (h : sp &&& 0x0F = 0x0F) : spJoin sp (spUp sp) = (sp &&& 0x20) ||| 0x10 := by
  revert sp
  decide +kernel

theorem spJoin_down_empty {sp : BitVec 6} (h : sp &&& 0x0F = 0) : spJoin sp (spDown sp) = 0x3F := by
  revert sp
  decide +kernel

/-! ### Push -/

theorem postStackError_room {s : State} (h : s.sp &&& 0x0F ≠ 0x0F) : postStackError (spUp s.sp) s = s := by
  rw [postStackError, (spUp_room h).1, Bool.and_false]
  rfl

theorem postStackError_full {s : State} (h : s.sp &&& 0x0F = 0x0F) :
    postStackError (spUp s.sp) s = if s.sp.getLsbD 4 then s else post .stackError s := by
  rw [postStackError, (spUp_full h).1]
  cases s.sp.getLsbD 4 <;> rfl

/-- A push with room writes its slot, shows it in the shadows and posts nothing; a push of SSH alone leaves row 1. -/
theorem pushWith_room {s : State} (hi : BitVec 16) (lo : Option (BitVec 16)) (h : s.sp &&& 0x0F ≠ 0x0F) :
    pushWith hi lo s = { s with
      sp := spJoin s.sp (spUp s.sp)
      stackH := s.stackH.set (slotOf (spUp s.sp)) hi
      stackL := lo.elim s.stackL (s.stackL.set (slotOf (spUp s.sp)) ·)
      ssh := hi
      ssl := lo.getD s.stackL[slotOf (spUp s.sp)] } := by
  simp only [pushWith, postStackError_room h]
  cases lo <;> simp [writeSlot, (spUp_room h).2, refreshShadows, slotOf_spJoin_spUp]

/-- A push at SP[3:0] = 15 fills slot 0 and the shadows with zeros, and posts STACK_ERROR if SE was clear. -/
theorem pushWith_full {s : State} (hi : BitVec 16) (lo : Option (BitVec 16)) (h : s.sp &&& 0x0F = 0x0F) :
    pushWith hi lo s = { (if s.sp.getLsbD 4 then s else post .stackError s) with
      sp := spJoin s.sp (spUp s.sp), stackH := s.stackH.set 0 0, stackL := s.stackL.set 0 0, ssh := 0, ssl := 0 } := by
  have hslot : slotOf (spJoin s.sp (spUp s.sp)) = 0 := (slotOf_spJoin_spUp _).trans (spUp_full h).2
  simp only [pushWith, postStackError_full h, (spUp_full h).2]
  split <;> simp [writeSlot, refreshShadows, hslot]

/-- A push is that of R40. -/
theorem push_eq_pushed (a b : Word) (s : State) : push a b s = pushed (a.setWidth 16) (b.setWidth 16) s := by
  by_cases h : s.sp &&& 0x0F = 0x0F
  · rw [push, pushWith_full _ _ h, pushed, if_pos h]
    rfl
  · rw [push, pushWith_room _ _ h, pushed, if_neg h]
    simp only [slotOf_eq]
    rfl

/-- A push of SSH alone is that of R41. -/
theorem pushSsh_eq_pushedHigh (a : Word) (s : State) : pushSsh a s = pushedHigh (a.setWidth 16) s := by
  by_cases h : s.sp &&& 0x0F = 0x0F
  · rw [pushSsh, pushWith_full _ _ h, pushedHigh, if_pos h, pushed, if_pos h]
    rfl
  · rw [pushSsh, pushWith_room _ _ h, pushedHigh, if_neg h]
    simp only [slotOf_eq]
    rfl

/-! ### Pop, and the write of SP -/

theorem postStackError_down (s : State) :
    postStackError (spDown s.sp) s = if s.sp &&& 0x0F = 0 ∧ s.sp.getLsbD 4 = false then post .stackError s else s := by
  rw [postStackError, spDown_bit4]
  by_cases h : s.sp &&& 0x0F = 0 <;> cases s.sp.getLsbD 4 <;> simp

/-- A pop is that of R42. -/
theorem popState_eq_popped (s : State) : popState s = popped s := by
  rw [popState, popped, postStackError_down]
  split <;> simp only [refreshShadows, slotOf_eq, post_stackH, post_stackL] <;> rfl

/-- A write of SP is that of R33. -/
theorem writeSp_eq_pointed (v : Word) (s : State) : writeSp v s = pointed (v.setWidth 6) s := by
  have hslot : slotOf (v.setWidth 6 &&& 0x30) = 0 := by
    generalize v.setWidth 6 = w
    revert w
    decide +kernel
  unfold writeSp pointed
  dsimp only
  split
  · simp only [refreshShadows, hslot, post_stackH, post_stackL]
    rfl
  · simp only [refreshShadows, slotOf_eq]

/-! ### The statement -/

/-- Settles O12, from the equations of push and pop. -/
theorem pushThenPop : Obligations.PushThenPop := by
  intro s a b
  refine ⟨push_eq_pushed a b s, by rw [pop, popState_eq_popped], fun hroom hse => ?_, fun hfull => ?_, fun hempty => ?_⟩
  · have hne : s.sp &&& 0x0F ≠ 0x0F := fun h => by rw [h] at hroom; exact absurd hroom (by decide)
    have hsp : (push a b s).sp = spJoin s.sp (spUp s.sp) := pushWith_sp _ _ _
    have hpend : (popState (push a b s)).pending = (push a b s).pending := by
      rw [(Prod.mk.inj (popState_pending _)).1, postStackError_down, if_neg]
      rw [hsp]
      exact fun h => spJoin_up_ne_zero hroom h.1
    refine ⟨?_, ?_, ?_⟩
    · rw [pop, push, pushWith_room _ _ hne]
      rfl
    · show (popState (push a b s)).sp = s.sp
      rw [popState_eq]
      simp only [hsp]
      exact spJoin_down_up hroom hse
    · show (popState (push a b s)).pending = s.pending
      rw [hpend, push, pushWith_room _ _ hne]
  · rw [push, pushWith_full _ _ hfull]
    refine ⟨spJoin_up_full hfull, rfl, rfl, ?_⟩
    dsimp only
    split <;> rfl
  · refine ⟨?_, ?_⟩
    · rw [popState_eq]
      exact spJoin_down_empty hempty
    · rw [(Prod.mk.inj (popState_pending _)).1, postStackError_down]
      cases s.sp.getLsbD 4 with
      | false => rw [if_pos ⟨hempty, rfl⟩]; rfl
      | true => rw [if_neg (by simp)]; rfl

end Sys2Proof.Proofs
end

section
/-! PROOFS. Reads and writes of the registers by their codes (R23, R33, R34). -/

namespace Sys2Proof.Proofs

open Sys2Proof Sys2Proof.Machine Sys2Proof.Safety Sys2Proof.Claims

/-- The packed accumulator as a signed number: its limbs stand at bits 48, 24 and 0 (R160). -/
theorem toInt_pack (x : Acc) : (pack x).toInt = x.ext.toInt * 2 ^ 48 + x.mid.toNat * 2 ^ 24 + x.lo.toNat := by
  rw [pack, BitVec.toInt_append, BitVec.toInt_append, if_neg (by decide), if_neg (by decide)]
  ring

/-- The extension limb of a word's sign is -1 or 0, and the word over it its signed value. -/
theorem toInt_signExt8 (v : Word) : (signExt8 v).toInt * 2 ^ 24 + v.toNat = v.toInt := by
  rw [BitVec.toInt_eq_msb_cond v, signExt8]
  cases v.msb with
  | true => rw [if_pos rfl, if_pos rfl, show (0xFF : BitVec 8).toInt = -1 by decide]; omega
  | false => rw [if_neg (by decide), if_neg (by decide), show (0x00 : BitVec 8).toInt = 0 by decide]; omega

/-- A word written to A or B counts 2^24 of the packed value (R33). -/
theorem toInt_pack_accOfWord (v : Word) : (pack (accOfWord v)).toInt = v.toInt * 2 ^ 24 := by
  rw [toInt_pack, ← toInt_signExt8 v]
  simp only [accOfWord, show (0 : Word).toNat = 0 from rfl]
  ring

/-- Settles O13: each code's write is its equation; SP and SSH go through the stack's. -/
theorem registerWriteRules : Obligations.RegisterWriteRules := by
  intro s v
  refine ⟨fun d => ?_, rfl, rfl, rfl, rfl, rfl, rfl, rfl, rfl, rfl, rfl, fun i => ⟨rfl, rfl, rfl⟩, rfl, rfl, ?_, ?_, rfl, rfl, rfl,
    fun c => rfl⟩
  · cases d <;> exact ⟨_, rfl, toInt_pack_accOfWord v, rfl⟩
  · rw [writeReg, writeSp_eq_pointed]
  · rw [writeReg, pushSsh_eq_pushedHigh]

/-- A limited read outside scaling mode 11, with the sticky L (R173). -/
theorem readLimited_eq {s : State} {sc : Scale} (d : AccSel) (h : scaleOf s.sr = .ok sc) :
    readLimited d s = .ok ((limit24 sc (accVal s d)).1, limited (limit24 sc (accVal s d)).2 s) := by
  rw [readLimited, h]
  rfl

theorem toInt_extendExt (e : BitVec 8) : (extendExt e).toInt = e.toInt := BitVec.toInt_signExtend_of_le (by decide)

/-- Settles O14: A and B are read through the limiter, SSH through the pop, every other code as it stands. -/
theorem registerReadRules : Obligations.RegisterReadRules := by
  intro s
  refine ⟨fun d sc h => ?_, rfl, rfl, rfl, rfl, rfl, rfl, rfl, rfl, fun i => ⟨rfl, rfl, rfl⟩, rfl, rfl, rfl, rfl, rfl, rfl, ?_,
    ⟨_, rfl, toInt_extendExt _⟩, ⟨_, rfl, toInt_extendExt _⟩, fun c => rfl⟩
  · cases d <;> exact readLimited_eq _ h
  · rw [readReg, popState_eq_popped]

end Sys2Proof.Proofs
end

section
/-! PROOFS. Reset (R45, R361), and the steps that run no instruction (R39, R64, R131, R136). -/

namespace Sys2Proof.Proofs

open Sys2Proof Sys2Proof.Machine Sys2Proof.Safety Sys2Proof.Claims

/-! ### Reset -/

/-- The reset values stand whatever the memories hold. -/
theorem resetState_withMemory (x y p m f : Memory) (sc : Scratch) (k : Nat) :
    ResetState { State.reset with xram := x, yram := y, pram := p, mixbuffer := m, periph := f, scratch := sc, draws := k } := by
  have hipl : ∀ src, iplResetVector[irqIndex src] = Config.iplReset src := fun src => by cases src <;> rfl
  have hpending : ∀ src, (Vector.replicate 12 false)[irqIndex src] = false := fun src => by cases src <;> rfl
  have hconst : ∀ {n : Nat} {α : Type} (v : α) (i : Fin n), (Vector.replicate n v)[i] = v :=
    fun _ i => Vector.getElem_replicate i.isLt
  exact ⟨rfl, rfl, hconst _, hipl, hpending, rfl, rfl, rfl, rfl, rfl, rfl, rfl, hconst _, hconst _, rfl, rfl, rfl, rfl, rfl, rfl,
    fun i => ⟨hconst _ i, hconst _ i⟩, rfl, rfl, rfl, rfl, rfl, rfl, rfl, rfl, rfl, rfl, rfl, rfl, rfl, rfl, rfl, rfl, rfl, rfl⟩

/-- Settles O9: both resets are the reset state with memories of their own. -/
theorem resetValues : Obligations.ResetValues :=
  ⟨resetState_withMemory [] [] [] [] [] [] 0, fun _ => ⟨resetState_withMemory .., rfl⟩, fun _ => ⟨rfl, rfl, rfl, rfl, rfl⟩⟩

/-! ### Rows and their extension words -/

/-- A word with an extension matches one row. -/
theorem decode_of_hasExtension {w : Word} (h : hasExtension w = true) :
    ∃ r ∈ rowsFor w, ∀ e, decode w e = .ok (r.build w e) := by
  unfold hasExtension at h
  split at h
  · rename_i r hr
    refine ⟨r, ?_, fun e => by rw [decode, hr]⟩
    unfold lookupRow at hr
    split at hr <;> cases hr
    rename_i hm
    have hr : r ∈ rowMatches w := by rw [hm]; exact List.mem_singleton_self r
    exact (List.mem_filter.1 hr).1
  · cases h

theorem decode_of_no_row {w : Word} (h : rowMatches w = []) (e : Word) : decode w e = .error .unlisted := by
  rw [decode, lookupRow, h]

/-- The DO rows take the loop's last address from the extension word, whatever it is. -/
theorem row_build_do_last {row : Row} {w w' e : Word} (h : row ∈ rowsFor w') :
    (∀ r last, row.build w e = .doReg r last → e = last) ∧
    (∀ mode k sp last, row.build w e = .doEa mode k sp last → e = last) := by
  revert row
  unfold rowsFor
  split
  · simp [nonParallelRows]
  · simp [parallelRows]

/-! ### The fetch -/

/-- The rows that a REP may not repeat (R144). -/
theorem forbiddenUnderRep_iff (i : Instr) : forbiddenUnderRep i = true ↔ ControlRow i := by
  cases i <;> simp [forbiddenUnderRep, ControlRow]

theorem readP_inside {s : State} {a : Word} (h : a.toNat < 4096) : readP s a = .ok (s.pram.read a.toNat) := if_pos h

theorem readP_outside {s : State} {a : Word} (h : 4096 ≤ a.toNat) : readP s a = .error .addressOutOfRange :=
  if_neg (Nat.not_lt.2 h)

theorem fetch_outside {s : State} (h : 4096 ≤ s.pc.toNat) : fetch s = .fault .addressOutOfRange := by
  rw [fetch, readP_outside h]

theorem fetch_unlisted {s : State} (h : s.pc.toNat < 4096) (hrow : rowMatches (s.pram.read s.pc.toNat) = []) :
    fetch s = .unlisted := by
  simp only [fetch, readP_inside h, decode_of_no_row hrow]

/-- At the last word of P an extension word lies outside P. -/
theorem fetch_truncated {s : State} {i : Instr} (h : s.pc.toNat = 4095) (hext : hasExtension (s.pram.read s.pc.toNat) = true)
    (hi : decode (s.pram.read s.pc.toNat) 0 = .ok i) (hrep : s.loopRep = true → s.pcOnRep = false → ¬ ControlRow i) :
    fetch s = .truncated i := by
  have hnext : 4096 ≤ (s.pc + 1).toNat := by
    rw [BitVec.toNat_add, h]
    decide
  have hallowed : (repeating s && forbiddenUnderRep i) = false := by
    rw [Bool.and_eq_false_imp, repeating, Bool.and_eq_true, Bool.not_eq_true']
    rintro ⟨hl, hp⟩
    exact Bool.eq_false_iff.2 fun hf => hrep hl hp ((forbiddenUnderRep_iff i).1 hf)
  simp only [fetch, readP_inside (show s.pc.toNat < 4096 by omega), hi, hallowed, fetchExtension, hext, if_true, readP_outside hnext]
  rfl

/-! ### An extension word outside P -/

theorem xCell_error {a : Word} {r : Fault} (h : xCell a = .error r) : r = .addressOutOfRange := by
  unfold xCell at h
  (repeat' split at h) <;> cases h <;> rfl

theorem memLoad_error {sp : Space} {a : Word} {s : State} {r : Fault} (h : memLoad sp a s = .error r) :
    r = .addressOutOfRange := by
  cases sp with
  | x =>
    simp only [memLoad] at h
    split at h
    · cases h
    split at h <;> cases h
    rename_i he
    unfold readXData at he
    split at he <;> cases he
    exact xCell_error (by assumption)
  | y =>
    simp only [memLoad, readY] at h
    split at h <;> cases h
    rename_i he
    split at he <;> cases he
    rfl

/-- DO from a register reads its count, and with it meets the count's Fatal, before its extension word. -/
theorem truncated_doReg (r : Reg) (last : Word) (s : State) :
    (∀ x, readReg r s = .ok x → (truncated (.doReg r last) s).reason = .addressOutOfRange) ∧
    (∀ f, readReg r s = .error f → (truncated (.doReg r last) s).reason = f) := by
  simp only [truncated, doCount, countReg]
  constructor <;> intro _ h <;> rw [h] <;> rfl

/-- DO from memory meets the Fatal of its address first; the Fatal of a word that does not exist has the same reason as
that of the extension word. -/
theorem truncated_doEa (mode : EaMode) (k : Fin 8) (sp : Space) (last : Word) (s : State) :
    (∀ u, useEa (.reg mode k) s = .ok u → (truncated (.doEa mode k sp last) s).reason = .addressOutOfRange) ∧
    (∀ f, useEa (.reg mode k) s = .error f → (truncated (.doEa mode k sp last) s).reason = f) := by
  simp only [truncated, doCount]
  constructor
  · intro u hu
    have hcount : countEa mode k sp s = raisedIn (applyUpdate u.update s) (memLoad sp u.addr (applyUpdate u.update s)) := by
      rw [countEa, enterEa, hu]
      rfl
    rw [hcount]
    cases hl : memLoad sp u.addr (applyUpdate u.update s) with
    | ok x => rfl
    | error f => exact memLoad_error hl
  · intro f hf
    rw [countEa, enterEa, hf]
    rfl

/-- Every other row meets no Fatal before its extension word but that of an address outside the memory. -/
theorem truncated_other {i : Instr} (s : State) (hreg : ∀ r last, i ≠ .doReg r last)
    (hea : ∀ mode k sp last, i ≠ .doEa mode k sp last) :
    (truncated i s).reason = .addressOutOfRange := by
  cases i with
  | doReg r last => exact absurd rfl (hreg r last)
  | doEa mode k sp last => exact absurd rfl (hea mode k sp last)
  | doAa aa sp last =>
    simp only [truncated, doCount, countAa]
    cases hl : memLoad sp (shortAddr aa) s with
    | ok x => rfl
    | error r => exact memLoad_error hl
  | _ => rfl

/-! ### The statement -/

/-- Settles O6: the fetch decides which of the four cases it is. -/
theorem stepWithoutAnInstruction : Obligations.StepWithoutAnInstruction := by
  intro s w t
  refine ⟨fun r hf => by rw [step, hf], fun hf hpc => by rw [step, hf, fetch_outside hpc], fun hf hpc hext hrep => ?_,
    fun hf hpc hrow => ?_⟩
  · obtain ⟨row, hmem, hdec⟩ := decode_of_hasExtension hext
    have hstep : step s = .fault (truncated (row.build w 0) t).reason := by
      rw [step, hf, fetch_truncated hpc hext (hdec 0) (hrep _ (hdec 0))]
      rfl
    obtain ⟨hreg, hea⟩ := row_build_do_last (w := w) (e := 0) hmem
    rw [hstep, show decode w 0 = .ok (row.build w 0) from hdec 0]
    refine ⟨fun r hr => ?_, fun mode k sp hd => ?_, fun hr hd => ?_⟩
    · rw [Except.ok.inj hr]
      cases hread : readReg r t with
      | ok x => rw [(truncated_doReg r 0 t).1 x hread]
      | error f => rw [(truncated_doReg r 0 t).2 f hread]
    · rw [Except.ok.inj hd]
      cases huse : useEa (.reg mode k) t with
      | ok u => rw [(truncated_doEa mode k sp 0 t).1 u huse]
      | error f => rw [(truncated_doEa mode k sp 0 t).2 f huse]
    · rw [truncated_other t (fun r last hb => hr r ?_) (fun mode k sp last hb => hd mode k sp ?_)]
      · rw [hb, hreg r last hb]
      · rw [hb, hea mode k sp last hb]
  · have hstep : step s = finish t := by
      rw [step, hf, fetch_unlisted hpc hrow]
      rfl
    rw [hstep, finish]
    exact ⟨fun u hu => by rw [hu], fun r hr => by rw [hr]⟩

end Sys2Proof.Proofs
end

section
/-! PROOFS. Memory (spec/20_memory.md): every access to P, X or Y goes through the storage cell its address selects
(R62 to R64), and an address that selects none is Fatal (R65). -/

namespace Sys2Proof.Proofs

open Sys2Proof Sys2Proof.Machine Sys2Proof.Safety Sys2Proof.Claims

/-! ### The storage cells -/

/-- The word a storage cell holds. -/
def readCell (s : State) : Cell → Word
  | .p k => s.pram.read k
  | .x k => s.xram.read k
  | .y k => s.yram.read k
  | .mix k => s.mixbuffer.read k

/-- The state after a store to a storage cell. -/
def writeCell (s : State) (v : Word) : Cell → State
  | .p k => { s with pram := s.pram.write k v }
  | .x k => { s with xram := s.xram.write k v }
  | .y k => { s with yram := s.yram.write k v }
  | .mix k => { s with mixbuffer := s.mixbuffer.write k v }

@[simp] theorem readCell_writeCell_self (s : State) (c : Cell) (v : Word) : readCell (writeCell s v c) c = v := by
  cases c <;> exact Memory.read_write_self _ _ v

/-- Two cells of one array have two indices; cells of two arrays share nothing. -/
theorem readCell_writeCell_other (s : State) {c d : Cell} (v : Word) (h : d ≠ c) :
    readCell (writeCell s v c) d = readCell s d := by
  cases c with
  | p k =>
    cases d with
    | p j => exact Memory.read_write_other _ v fun e => h (congrArg Cell.p e)
    | _ => rfl
  | x k =>
    cases d with
    | x j => exact Memory.read_write_other _ v fun e => h (congrArg Cell.x e)
    | _ => rfl
  | y k =>
    cases d with
    | y j => exact Memory.read_write_other _ v fun e => h (congrArg Cell.y e)
    | _ => rfl
  | mix k =>
    cases d with
    | mix j => exact Memory.read_write_other _ v fun e => h (congrArg Cell.mix e)
    | _ => rfl

/-- A store to a cell changes the word arrays alone. -/
theorem writeCell_frame (s : State) (c : Cell) (v : Word) :
    writeCell s v c = { s with
      pram := (writeCell s v c).pram, xram := (writeCell s v c).xram, yram := (writeCell s v c).yram,
      mixbuffer := (writeCell s v c).mixbuffer } := by
  cases c <;> rfl

@[simp] theorem writeCell_scratch (s : State) (c : Cell) (v : Word) : (writeCell s v c).scratch = s.scratch := by
  cases c <;> rfl

@[simp] theorem writeCell_periph (s : State) (c : Cell) (v : Word) : (writeCell s v c).periph = s.periph := by
  cases c <;> rfl

/-! ### The cell an access selects -/

/-- The cell that an X address of the model's decode selects. -/
def xStorage : XCell → Cell
  | .mix k => .mix k
  | .ram k => .x k

/-- The X decode selects the cell of R62; at or above PERIPH_BASE there is none. -/
theorem cellOf_x_eq (a : Word) : cellOf .x a = (xCell a).toOption.map xStorage := by
  rw [cellOf, xCell]
  by_cases hp : Config.periphBase ≤ a.toNat
  · have hbase : Config.periphBase = 0xFFFF80 := rfl
    rw [if_pos hp, if_neg (by omega), if_neg (by omega), if_neg (by omega)]
    rfl
  · rw [if_neg hp]
    simp only [apply_ite Except.toOption, apply_ite (Option.map xStorage)]
    rfl

/-- What an access does with the cell its address selects: Fatal where there is none (R65). -/
def atCell {α : Type} (c : Option Cell) (f : Cell → α) : Except Fault α :=
  match c with
  | some c => .ok (f c)
  | none => .error .addressOutOfRange

/-- An array of one range answers inside it, and is Fatal outside. -/
theorem atCell_range {α : Type} (a size : Nat) (c : Cell) (f : Cell → α) :
    atCell (if a < size then some c else none) f = if a < size then .ok (f c) else .error .addressOutOfRange := by
  split_ifs <;> rfl

/-- A read of P, X or Y answers the word of the address's cell. -/
theorem readDsp_eq (sp : DspSpace) (s : State) (a : Word) : readDsp sp s a = atCell (cellOf sp a) (readCell s) := by
  cases sp with
  | x =>
    rw [readDsp, readXData, cellOf_x_eq]
    cases hx : xCell a with
    | ok c => cases c <;> rfl
    | error r => rw [xCell_error hx]; rfl
  | y => exact (atCell_range a.toNat 2048 (.y a.toNat) (readCell s)).symm
  | p => exact (atCell_range a.toNat 4096 (.p a.toNat) (readCell s)).symm

/-- A write to P, X or Y stores in the address's cell. -/
theorem writeDsp_eq (sp : DspSpace) (s : State) (a v : Word) :
    writeDsp sp s a v = atCell (cellOf sp a) (writeCell s v) := by
  cases sp with
  | x =>
    rw [writeDsp, writeXData, cellOf_x_eq]
    cases hx : xCell a with
    | ok c => cases c <;> rfl
    | error r => rw [xCell_error hx]; rfl
  | y => exact (atCell_range a.toNat 2048 (.y a.toNat) (writeCell s v)).symm
  | p => exact (atCell_range a.toNat 4096 (.p a.toNat) (writeCell s v)).symm

theorem readDsp_of_cell {sp : DspSpace} {a : Word} {c : Cell} (s : State) (h : cellOf sp a = some c) :
    readDsp sp s a = .ok (readCell s c) := by
  rw [readDsp_eq, h, atCell]

theorem readDsp_of_no_cell {sp : DspSpace} {a : Word} (s : State) (h : cellOf sp a = none) :
    readDsp sp s a = .error .addressOutOfRange := by
  rw [readDsp_eq, h, atCell]

theorem writeDsp_of_cell {sp : DspSpace} {a : Word} {c : Cell} (s : State) (v : Word) (h : cellOf sp a = some c) :
    writeDsp sp s a v = .ok (writeCell s v c) := by
  rw [writeDsp_eq, h, atCell]

theorem writeDsp_of_no_cell {sp : DspSpace} {a : Word} (s : State) (v : Word) (h : cellOf sp a = none) :
    writeDsp sp s a v = .error .addressOutOfRange := by
  rw [writeDsp_eq, h, atCell]

/-- A store to the cell of an address is read back there, and nowhere else. -/
theorem onlyCell_writeCell {sp : DspSpace} {a : Word} {c : Cell} (s : State) (v : Word) (h : cellOf sp a = some c) :
    OnlyCell sp a v s (writeCell s v c) := by
  refine ⟨?_, fun sp' a' hne => ?_, fun b => by rw [writeCell_scratch], writeCell_periph s c v⟩
  · rw [readDsp_of_cell _ h, readCell_writeCell_self]
  · cases hd : cellOf sp' a' with
    | none => rw [readDsp_of_no_cell _ hd, readDsp_of_no_cell _ hd]
    | some d =>
      have hdc : d ≠ c := fun e => hne (by rw [hd, h, e])
      rw [readDsp_of_cell _ hd, readDsp_of_cell _ hd, readCell_writeCell_other s v hdc]

/-- The two mix windows select the same cells (R62). -/
theorem cellOf_mix_windows {k : Nat} (hk : k < 1024) :
    cellOf .x (BitVec.ofNat 24 (0x0C00 + k)) = some (.mix k) ∧ cellOf .x (BitVec.ofNat 24 (0x1400 + k)) = some (.mix k) := by
  have h0 : (BitVec.ofNat 24 (0x0C00 + k)).toNat = 0x0C00 + k := by rw [BitVec.toNat_ofNat]; omega
  have h1 : (BitVec.ofNat 24 (0x1400 + k)).toNat = 0x1400 + k := by rw [BitVec.toNat_ofNat]; omega
  constructor
  · rw [cellOf, h0, if_pos (by omega), Nat.add_sub_cancel_left]
  · rw [cellOf, h1, if_neg (by omega), if_pos (by omega), Nat.add_sub_cancel_left]

/-! ### The accesses of an instruction -/

/-- Outside the peripheral window an instruction loads what the DMA reads (R66). -/
theorem memLoad_eq_readDsp {isp : Space} {a : Word} (s : State) (h : isp = .x → a.toNat < 0xFFFF80) :
    memLoad isp a s = (readDsp (dsp isp) s a).map (·, s) := by
  cases isp with
  | x =>
    have hbelow : ¬ Config.periphBase ≤ a.toNat := Nat.not_le.2 (h rfl)
    rw [memLoad, if_neg hbelow, dsp, readDsp]
    cases readXData s a <;> rfl
  | y =>
    rw [memLoad, dsp, readDsp]
    cases readY s a <;> rfl

/-- Outside the peripheral window an instruction stores as the DMA writes (R66). -/
theorem memStore_eq_writeDsp {isp : Space} {a : Word} (s : State) (v : Word) (h : isp = .x → a.toNat < 0xFFFF80) :
    memStore isp a v s = writeDsp (dsp isp) s a v := by
  have reason (x : Except Fault State) : reasonOnly (raisedIn s x) = x := by cases x <;> rfl
  cases isp with
  | x =>
    have hbelow : ¬ Config.periphBase ≤ a.toNat := Nat.not_le.2 (h rfl)
    rw [memStore, attemptStore, if_neg hbelow, reason]
    rfl
  | y =>
    rw [memStore, attemptStore, reason]
    rfl

theorem memLoad_peripheral {a : Word} (s : State) (h : 0xFFFF80 ≤ a.toNat) : memLoad .x a s = .ok (readPeriph a s) := if_pos h

theorem memStore_peripheral {a : Word} (s : State) (v : Word) (h : 0xFFFF80 ≤ a.toNat) :
    memStore .x a v s = reasonOnly (writePeriph a v s) :=
  congrArg reasonOnly (if_pos h)

/-! ### The statement -/

/-- Settles O16: an access is decided by the cell its address selects, and an instruction's agrees with the DMA's outside
the peripheral window. -/
theorem storeThenLoad : Obligations.StoreThenLoad := by
  intro s sp a v
  refine ⟨fun hcell => ?_, fun hnone _ => ⟨writeDsp_of_no_cell s v hnone, readDsp_of_no_cell s hnone⟩, fun isp hx => ?_,
    fun hp => ⟨memLoad_peripheral s hp, memStore_peripheral s v hp⟩, fun k hk => ?_⟩
  · obtain ⟨c, hc⟩ := Option.ne_none_iff_exists'.1 hcell
    exact ⟨writeCell s v c, writeDsp_of_cell s v hc, onlyCell_writeCell s v hc, writeCell_frame s c v⟩
  · rw [memLoad_eq_readDsp s hx, memStore_eq_writeDsp s v hx]
    refine ⟨fun hcell => ?_, fun hnone => ?_⟩
    · obtain ⟨c, hc⟩ := Option.ne_none_iff_exists'.1 hcell
      rw [readDsp_of_cell s hc, writeDsp_of_cell s v hc]
      exact ⟨⟨_, rfl, rfl⟩, _, rfl, rfl⟩
    · rw [readDsp_of_no_cell s hnone, writeDsp_of_no_cell s v hnone]
      exact ⟨rfl, rfl⟩
  · obtain ⟨h0, h1⟩ := cellOf_mix_windows hk
    rw [readDsp_of_cell s h0, readDsp_of_cell s h1, h0, h1]
    exact ⟨rfl, rfl⟩

end Sys2Proof.Proofs
end

section
/-! PROOFS. Instruction encoding (spec/30_encoding.md). First bit fields of a word built by concatenation, and templates
(R93); then the operands' codes, a field at a time; then the rows, and the two directions of the round trip. -/

namespace Sys2Proof.Proofs

open Sys2Proof Sys2Proof.Machine Sys2Proof.Safety Sys2Proof.Claims

/-! ### Bit fields -/

theorem fieldAt_append_low {m n lo len : Nat} (x : BitVec m) (y : BitVec n) (h : lo + len ≤ n) :
    fieldAt (x ++ y) lo len = fieldAt y lo len :=
  BitVec.extractLsb'_append_eq_of_add_le h

theorem fieldAt_append_high {m n lo len : Nat} (x : BitVec m) (y : BitVec n) (h : n ≤ lo) :
    fieldAt (x ++ y) lo len = fieldAt x (lo - n) len :=
  BitVec.extractLsb'_append_eq_of_le h

@[simp] theorem fieldAt_all {n : Nat} (x : BitVec n) : fieldAt x 0 n = x := BitVec.extractLsb'_eq_self

theorem fieldAt_append_left {m n : Nat} (x : BitVec m) (y : BitVec n) : fieldAt (x ++ y) n m = x :=
  BitVec.extractLsb'_append_eq_left

theorem fieldAt_append_right {m n : Nat} (x : BitVec m) (y : BitVec n) : fieldAt (x ++ y) 0 n = y :=
  BitVec.extractLsb'_append_eq_right

@[simp] theorem fieldAt_ofNat (n v lo len : Nat) :
    fieldAt (BitVec.ofNat n v) lo len = BitVec.ofNat len ((v % 2 ^ n) >>> lo) := by
  rw [fieldAt, BitVec.extractLsb', BitVec.toNat_ofNat]

theorem fieldAt_fieldAt {n lo len lo' len' : Nat} (w : BitVec n) (h : lo' + len' ≤ len) :
    fieldAt (fieldAt w lo len) lo' len' = fieldAt w (lo + lo') len' := by
  ext i hi
  simp [fieldAt, show lo' + i < len by omega, Nat.add_assoc]

/-- Two equal bit patterns. The width is an implicit argument here, so that a rule about `++` applies however the sum of
the widths is written. -/
def SameBits {n : Nat} (x w : BitVec n) : Prop := x = w

theorem sameBits_append {m n : Nat} (x : BitVec m) (y : BitVec n) (w : BitVec (m + n)) :
    SameBits (x ++ y) w ↔ SameBits x (fieldAt w n m) ∧ SameBits y (fieldAt w 0 n) := by
  constructor
  · rintro rfl
    exact ⟨(fieldAt_append_left x y).symm, (fieldAt_append_right x y).symm⟩
  · rintro ⟨rfl, rfl⟩
    exact BitVec.extractLsb'_append_extractLsb'

theorem cons_eq_cons_iff (x w : Word) (l l' : List Word) : x :: l = w :: l' ↔ SameBits x w ∧ l = l' := by
  rw [List.cons.injEq, SameBits]

/-! ### Templates (R93) -/

/-- A word agrees with a template: its bits under the mask are the match value. -/
def Fits {n : Nat} (w mask value : BitVec n) : Prop := w &&& mask = value

theorem fits_append {m n : Nat} (x : BitVec m) (y : BitVec n) (k v : BitVec (m + n)) :
    Fits (x ++ y) k v ↔ Fits x (fieldAt k n m) (fieldAt v n m) ∧ Fits y (fieldAt k 0 n) (fieldAt v 0 n) := by
  have hk : fieldAt k n m ++ fieldAt k 0 n = k := BitVec.extractLsb'_append_extractLsb'
  have hand : (x ++ y) &&& k = (x &&& fieldAt k n m) ++ (y &&& fieldAt k 0 n) := by
    rw [← BitVec.and_append, hk]
  rw [Fits, hand]
  exact sameBits_append _ _ v

/-- A field of literals holds what the template says. -/
theorem Fits.fieldAt_eq {n : Nat} {w k v : BitVec n} (h : Fits w k v) {lo len : Nat}
    (hk : fieldAt k lo len = BitVec.allOnes len) : fieldAt w lo len = fieldAt v lo len := by
  calc fieldAt w lo len = fieldAt w lo len &&& fieldAt k lo len := by rw [hk, BitVec.and_allOnes]
    _ = fieldAt (w &&& k) lo len := BitVec.extractLsb'_and.symm
    _ = fieldAt v lo len := by rw [h]

/-- A template without operands fits one word. -/
theorem Fits.eq_of_full {w k v : Word} (h : Fits w k v) (hk : k = 0xFFFFFF#24) : w = v := by
  calc w = w &&& 0xFFFFFF#24 := (BitVec.and_allOnes (x := w)).symm
    _ = v := by rw [← hk, h]

/-- Two templates that one word fits agree where both have literals. -/
theorem Fits.agree {n : Nat} {w k₁ v₁ k₂ v₂ : BitVec n} (h₁ : Fits w k₁ v₁) (h₂ : Fits w k₂ v₂) :
    v₁ &&& k₂ = v₂ &&& k₁ := by
  rw [← h₁, ← h₂, BitVec.and_assoc, BitVec.and_comm k₁, ← BitVec.and_assoc]

end Sys2Proof.Proofs
end

section
/-! PROOFS. The operands' codes (R21, R96 to R106, R175): each field is read back from its bits, and gives its bits back. -/

namespace Sys2Proof.Proofs

open Sys2Proof Sys2Proof.Machine Sys2Proof.Safety Sys2Proof.Claims

/-! ### Short fields -/

@[simp] theorem accOf_accBit (d : AccSel) : accOf (accBit d) = d := by cases d <;> rfl
@[simp] theorem spaceOf_spaceBit (s : Space) : spaceOf (spaceBit s) = s := by cases s <;> rfl
@[simp] theorem dirOf_dirBit (w : Dir) : dirOf (dirBit w) = w := by cases w <;> rfl
@[simp] theorem xInputOf_xInputBit (e : XInput) : xInputOf (xInputBit e) = e := by cases e <;> rfl
@[simp] theorem yInputOf_yInputBit (f : YInput) : yInputOf (yInputBit f) = f := by cases f <;> rfl
@[simp] theorem xSideOf_xSideBits (f : XSide) : xSideOf (xSideBits f) = f := by cases f <;> rfl
@[simp] theorem ySideOf_ySideBits (f : YSide) : ySideOf (ySideBits f) = f := by cases f <;> rfl
@[simp] theorem updateModeOf_updateModeBits (m : UpdateMode) : updateModeOf (updateModeBits m) = m := by cases m <;> rfl
@[simp] theorem xyModeOf_xyModeBits (m : XyMode) : xyModeOf (xyModeBits m) = m := by cases m <;> rfl
@[simp] theorem lPairOf_lPairBits (l : LPair) : lPairOf (lPairBits l) = l := by cases l <;> rfl
@[simp] theorem condOf_condBits (c : Cond) : condOf (condBits c) = c := by cases c <;> rfl
@[simp] theorem ctlTargetOf_ctlTargetBits (t : CtlTarget) : ctlTargetOf (ctlTargetBits t) = t := by cases t <;> rfl
@[simp] theorem eaModeOf_eaModeBits (m : EaMode) : eaModeOf (eaModeBits m) = m := by cases m <;> rfl

@[simp] theorem accBit_accOf (f : BitVec 1) : accBit (accOf f) = f := by revert f; decide
@[simp] theorem spaceBit_spaceOf (f : BitVec 1) : spaceBit (spaceOf f) = f := by revert f; decide
@[simp] theorem dirBit_dirOf (f : BitVec 1) : dirBit (dirOf f) = f := by revert f; decide
@[simp] theorem xInputBit_xInputOf (f : BitVec 1) : xInputBit (xInputOf f) = f := by revert f; decide
@[simp] theorem yInputBit_yInputOf (f : BitVec 1) : yInputBit (yInputOf f) = f := by revert f; decide
@[simp] theorem xSideBits_xSideOf (f : BitVec 2) : xSideBits (xSideOf f) = f := by revert f; decide
@[simp] theorem ySideBits_ySideOf (f : BitVec 2) : ySideBits (ySideOf f) = f := by revert f; decide
@[simp] theorem updateModeBits_updateModeOf (f : BitVec 2) : updateModeBits (updateModeOf f) = f := by revert f; decide
@[simp] theorem xyModeBits_xyModeOf (f : BitVec 2) : xyModeBits (xyModeOf f) = f := by revert f; decide
@[simp] theorem lPairBits_lPairOf (f : BitVec 3) : lPairBits (lPairOf f) = f := by revert f; decide
@[simp] theorem condBits_condOf (f : BitVec 4) : condBits (condOf f) = f := by revert f; decide

@[simp] theorem ctlTargetBits_ne_three (t : CtlTarget) : ctlTargetBits t ≠ 3#2 := by cases t <;> decide
theorem ctlTargetBits_ctlTargetOf {f : BitVec 2} (h : f ≠ 3#2) : ctlTargetBits (ctlTargetOf f) = f := by revert f; decide

@[simp] theorem indexOf_indexBits (i : Fin 8) : indexOf (indexBits i) = i := rfl
@[simp] theorem indexBits_indexOf (f : BitVec 3) : indexBits (indexOf f) = f := rfl

/-! ### Fields in two parts -/

theorem count_split (c : BitVec 12) : (countHigh c ++ countLow c : BitVec 12) = c := BitVec.extractLsb'_append_extractLsb'
theorem moveField_split (f : BitVec 5) : (fieldAt f 3 2 ++ fieldAt f 0 3 : BitVec 5) = f := BitVec.extractLsb'_append_extractLsb'
theorem lField_split (f : BitVec 3) : (fieldAt f 2 1 ++ fieldAt f 0 2 : BitVec 3) = f := BitVec.extractLsb'_append_extractLsb'

@[simp] theorem countHigh_countOf (w : Word) : countHigh (countOf w) = fieldAt w 0 4 := fieldAt_append_left _ _
@[simp] theorem countLow_countOf (w : Word) : countLow (countOf w) = fieldAt w 8 8 := fieldAt_append_right _ _
@[simp] theorem fieldAt_xyRegBits_high (w : Word) : fieldAt (xyRegBits w) 3 2 = fieldAt w 20 2 := fieldAt_append_left _ _
@[simp] theorem fieldAt_xyRegBits_low (w : Word) : fieldAt (xyRegBits w) 0 3 = fieldAt w 16 3 := fieldAt_append_right _ _
@[simp] theorem fieldAt_lBits_high (w : Word) : fieldAt (lBits w) 2 1 = fieldAt w 19 1 := fieldAt_append_left _ _
@[simp] theorem fieldAt_lBits_low (w : Word) : fieldAt (lBits w) 0 2 = fieldAt w 16 2 := fieldAt_append_right _ _

/-! ### Registers (R21, R104) -/

@[simp] theorem regCode_regOfCode (c : BitVec 6) : regCode (regOfCode c) = c := by revert c; decide
@[simp] theorem codeOk_regOfCode (c : BitVec 6) : (regOfCode c).codeOk = true := by revert c; decide

theorem regOfCode_regCode {r : Reg} (h : r.codeOk = true) : regOfCode (regCode r) = r := by
  cases r with
  | r i | n i | m i => revert i; decide
  | reserved c => revert c; decide
  | _ => rfl

@[simp] theorem regBits5_controlRegOf (f : BitVec 5) : regBits5 (controlRegOf f) = f := by revert f; decide
@[simp] theorem isControlReg_controlRegOf (f : BitVec 5) : (controlRegOf f).isControlReg = true := by revert f; decide

theorem controlRegOf_regBits5 {r : Reg} (h : r.isControlReg = true) : controlRegOf (regBits5 r) = r := by
  cases r with
  | m i => revert i; decide
  | reserved c => revert c; decide
  | sr | omr | sp | ssh | ssl | la | lc => rfl
  | _ => cases h

@[simp] theorem regBits5_moveRegOf (f : BitVec 5) : regBits5 (moveRegOf f) = f := by revert f; decide
@[simp] theorem isMoveReg_moveRegOf (f : BitVec 5) : (moveRegOf f).isMoveReg = moveRegOk f := by revert f; decide

theorem moveRegOf_regBits5 {r : Reg} (h : r.isMoveReg = true) : moveRegOf (regBits5 r) = r := by
  cases r with
  | r i | n i => revert i; decide
  | x0 | x1 | y0 | y1 | a0 | b0 | a2 | b2 | a1 | b1 | a | b => rfl
  | _ => cases h

theorem moveRegOk_regBits5 {r : Reg} (h : r.isMoveReg = true) : moveRegOk (regBits5 r) = true := by
  rw [← isMoveReg_moveRegOf, moveRegOf_regBits5 h, h]

/-- A field that names a register has one of its leading three bits set (R110). -/
theorem moveRegOk_leading {f : BitVec 5} (h : moveRegOk f = true) : fieldAt f 2 3 ≠ 0 := by revert f; decide

/-! ### Effective addresses (R100) -/

/-- The word that a decoder takes for the extension: the one after the opcode word, 0 where there is none. -/
def extensionOf (rest : List Word) : Word := rest.headD 0

@[simp] theorem extensionOf_singleton (e : Word) : extensionOf [e] = e := rfl

@[simp] theorem fieldAt_eaRegBits_mode (mode : EaMode) (i : Fin 8) : fieldAt (eaRegBits mode i) 3 3 = eaModeBits mode :=
  fieldAt_append_left _ _

@[simp] theorem fieldAt_eaRegBits_index (mode : EaMode) (i : Fin 8) : fieldAt (eaRegBits mode i) 0 3 = indexBits i :=
  fieldAt_append_right _ _

@[simp] theorem eaIsReg_eaRegBits (mode : EaMode) (i : Fin 8) : eaIsReg (eaRegBits mode i) = true := by
  rw [eaIsReg, fieldAt_eaRegBits_mode]
  cases mode <;> rfl

/-- A register mode is none of the forms of MMM = 110. -/
theorem forms_of_eaIsReg {f : BitVec 6} (h : eaIsReg f = true) :
    eaIsAbs f = false ∧ eaIsImm f = false ∧ eaIsReserved f = false := by
  revert f; decide

/-- An address that is not absolute is a register mode. -/
theorem eaIsReg_of_eaIsAddr {f : BitVec 6} (h : eaIsAddr f = true) (habs : eaIsAbs f = false) : eaIsReg f = true := by
  revert f; decide

theorem eaRegBits_of_eaIsReg {f : BitVec 6} (h : eaIsReg f = true) :
    eaRegBits (eaModeOf (fieldAt f 3 3)) (indexOf (fieldAt f 0 3)) = f := by
  revert f; decide

/-- The mode and the register number of MMMRRR, read from the word. -/
theorem eaRegBits_of_word {w : Word} (h : eaIsReg (fieldAt w 8 6) = true) :
    eaRegBits (eaModeOf (fieldAt w 11 3)) (indexOf (fieldAt w 8 3)) = fieldAt w 8 6 := by
  have hmode : fieldAt (fieldAt w 8 6) 3 3 = fieldAt w 11 3 := fieldAt_fieldAt w (by decide)
  have hindex : fieldAt (fieldAt w 8 6) 0 3 = fieldAt w 8 3 := fieldAt_fieldAt w (by decide)
  rw [← hmode, ← hindex, eaRegBits_of_eaIsReg h]

/-- The bits of an address are an address form, and the absolute one if it has an extension word. -/
theorem eaAddrBits_forms (ea : EaAddr) :
    eaIsAbs (eaAddrBits ea) = !(eaAddrExt ea).isEmpty ∧ eaIsImm (eaAddrBits ea) = false ∧
      eaIsReserved (eaAddrBits ea) = false := by
  cases ea with
  | reg mode i => exact forms_of_eaIsReg (eaIsReg_eaRegBits mode i)
  | abs e => exact ⟨rfl, rfl, by rw [eaAddrBits]; decide⟩

/-- The bits of a source are not reserved, and the absolute or the immediate form if it has an extension word. -/
theorem eaSrcBits_forms (src : EaSrc) :
    (eaIsAbs (eaSrcBits src) || eaIsImm (eaSrcBits src)) = !(eaSrcExt src).isEmpty ∧
      eaIsReserved (eaSrcBits src) = false := by
  cases src with
  | addr ea =>
    obtain ⟨habs, himm, hres⟩ := eaAddrBits_forms ea
    rw [eaSrcBits, eaSrcExt, habs, himm, hres, Bool.or_false]
    exact ⟨rfl, rfl⟩
  | imm v => exact ⟨rfl, by rw [eaSrcBits]; decide⟩

@[simp] theorem eaIsAbs_eaAddrBits (ea : EaAddr) : eaIsAbs (eaAddrBits ea) = !(eaAddrExt ea).isEmpty := (eaAddrBits_forms ea).1

@[simp] theorem eaIsAddr_eaAddrBits (ea : EaAddr) : eaIsAddr (eaAddrBits ea) = true := by
  obtain ⟨-, himm, hres⟩ := eaAddrBits_forms ea
  rw [eaIsAddr, himm, hres]
  rfl

@[simp] theorem eaNeedsExt_eaMoveBits (mv : EaMove) :
    (eaIsAbs (eaMoveBits mv) || eaIsImm (eaMoveBits mv)) = !(eaMoveExt mv).isEmpty := by
  cases mv with
  | load src => exact (eaSrcBits_forms src).1
  | store ea => exact (eaSrcBits_forms (.addr ea)).1

@[simp] theorem eaMoveOk_eaMoveBits (mv : EaMove) : eaMoveOk (dirBit (eaMoveDir mv)) (eaMoveBits mv) = true := by
  cases mv with
  | load src =>
    rw [eaMoveOk, eaMoveBits, (eaSrcBits_forms src).2]
    rfl
  | store ea =>
    obtain ⟨-, himm, hres⟩ := eaAddrBits_forms ea
    rw [eaMoveOk, eaMoveBits, himm, hres, Bool.and_false]
    rfl

@[simp] theorem eaAddrOf_eaAddrBits (ea : EaAddr) : eaAddrOf (eaAddrBits ea) (extensionOf (eaAddrExt ea)) = ea := by
  cases ea with
  | reg mode i =>
    rw [eaAddrOf, eaIsAbs_eaAddrBits]
    simp [eaAddrBits, eaAddrExt]
  | abs e => rfl

@[simp] theorem eaSrcOf_eaSrcBits (src : EaSrc) : eaSrcOf (eaSrcBits src) (extensionOf (eaSrcExt src)) = src := by
  cases src with
  | addr ea =>
    obtain ⟨-, himm, -⟩ := eaAddrBits_forms ea
    rw [eaSrcOf, eaSrcBits, himm]
    exact congrArg EaSrc.addr (eaAddrOf_eaAddrBits ea)
  | imm v => rfl

@[simp] theorem eaMoveOf_eaMoveBits (mv : EaMove) :
    eaMoveOf (dirBit (eaMoveDir mv)) (eaMoveBits mv) (extensionOf (eaMoveExt mv)) = mv := by
  cases mv with
  | load src => exact congrArg EaMove.load (eaSrcOf_eaSrcBits src)
  | store ea => exact congrArg EaMove.store (eaAddrOf_eaAddrBits ea)

theorem eaAddrBits_eaAddrOf {f : BitVec 6} (h : eaIsAddr f = true) (e : Word) : eaAddrBits (eaAddrOf f e) = f := by
  rw [eaAddrOf]
  split
  · next habs => exact (beq_iff_eq.1 habs).symm
  · next habs => exact eaRegBits_of_eaIsReg (eaIsReg_of_eaIsAddr h (Bool.eq_false_iff.2 habs))

theorem eaAddrExt_eaAddrOf (f : BitVec 6) (e : Word) : eaAddrExt (eaAddrOf f e) = if eaIsAbs f then [e] else [] := by
  rw [eaAddrOf]
  split <;> rfl

theorem eaSrcBits_eaSrcOf {f : BitVec 6} (h : eaIsReserved f = false) (e : Word) : eaSrcBits (eaSrcOf f e) = f := by
  rw [eaSrcOf]
  split
  · next himm => exact (beq_iff_eq.1 himm).symm
  · next himm => exact eaAddrBits_eaAddrOf (by rw [eaIsAddr, h, Bool.eq_false_iff.2 himm]; rfl) e

theorem eaSrcExt_eaSrcOf (f : BitVec 6) (e : Word) : eaSrcExt (eaSrcOf f e) = if eaIsAbs f || eaIsImm f then [e] else [] := by
  rw [eaSrcOf]
  split
  · next himm => rw [himm, Bool.or_true]; rfl
  · next himm => rw [Bool.eq_false_iff.2 himm, Bool.or_false]; exact eaAddrExt_eaAddrOf f e

@[simp] theorem eaMoveDir_eaMoveOf (b : BitVec 1) (f : BitVec 6) (e : Word) : eaMoveDir (eaMoveOf b f e) = dirOf b := by
  rw [eaMoveOf]
  cases dirOf b <;> rfl

/-- Of a store no immediate, of either direction no reserved form. -/
theorem eaMoveOk_iff (b : BitVec 1) (f : BitVec 6) :
    eaMoveOk b f = true ↔ eaIsReserved f = false ∧ (dirOf b = .store → eaIsImm f = false) := by
  revert f b; decide

theorem eaMoveBits_eaMoveOf {b : BitVec 1} {f : BitVec 6} (h : eaMoveOk b f = true) (e : Word) :
    eaMoveBits (eaMoveOf b f e) = f := by
  obtain ⟨hres, himm⟩ := (eaMoveOk_iff b f).1 h
  rw [eaMoveOf]
  cases hb : dirOf b with
  | load => exact eaSrcBits_eaSrcOf hres e
  | store => exact eaAddrBits_eaAddrOf (by rw [eaIsAddr, hres, himm hb]; rfl) e

theorem eaMoveExt_eaMoveOf {b : BitVec 1} {f : BitVec 6} (h : eaMoveOk b f = true) (e : Word) :
    eaMoveExt (eaMoveOf b f e) = if eaIsAbs f || eaIsImm f then [e] else [] := by
  rw [eaMoveOf]
  cases hb : dirOf b with
  | load => exact eaSrcExt_eaSrcOf f e
  | store =>
    rw [((eaMoveOk_iff b f).1 h).2 hb, Bool.or_false]
    exact eaAddrExt_eaAddrOf f e

/-- The extension word of an address, by the word's own rule. -/
theorem eaAddrExt_of_word (w e : Word) : eaAddrExt (eaAddrOf (fieldAt w 8 6) e) = if eaNeedsAbs w then [e] else [] :=
  eaAddrExt_eaAddrOf _ e

theorem eaMoveExt_of_word {w : Word} {b : BitVec 1} (h : eaMoveOk b (fieldAt w 8 6) = true) (e : Word) :
    eaMoveExt (eaMoveOf b (fieldAt w 8 6) e) = if eaNeedsExt w then [e] else [] :=
  eaMoveExt_eaMoveOf h e

/-! ### The data-ALU byte (R175) -/

/-- An operation is read back from its byte, at every value of its operands. -/
theorem decodeAluByte_encodeAluOp (op : AluOp) : decodeAluByte (encodeAluOp op) = some op := by
  cases op with
  | move => decide +kernel
  | tfrAcc d | addr d | tst d | cmpAcc d | subr d | cmpmAcc d | addAcc d | addX d | addY d | rnd d | addl d | clr d | subAcc d
  | subX d | subY d | subl d | notAcc d | asr d | lsr d | absAcc d | ror d | asl d | lsl d | neg d | rol d =>
    cases d <;> decide +kernel
  | tfrReg j d | cmpReg j d | cmpmReg j d | addReg j d | subReg j d | orReg j d | eorReg j d | andReg j d | adc j d | sbc j d =>
    cases j <;> cases d <;> decide +kernel
  | mpy q d k | mpyr q d k | mac q d k | macr q d k => cases q <;> cases d <;> cases k <;> decide +kernel

theorem encodeAluOp_of_decodeAluByte {b : Byte} {op : AluOp} (h : decodeAluByte b = some op) : encodeAluOp op = b := by
  have hbytes : ∀ b : Byte, (decodeAluByte b).all (encodeAluOp · == b) = true := by decide +kernel
  have hb := hbytes b
  rw [h] at hb
  exact beq_iff_eq.1 hb

/-- A word with a defined ALU byte holds the byte of its operation. -/
theorem encodeAluOp_aluOf {w : Word} (h : aluDefined w = true) : encodeAluOp (aluOf w) = fieldAt w 0 8 := by
  obtain ⟨op, hop⟩ := Option.isSome_iff_exists.1 h
  rw [aluOf, hop]
  exact encodeAluOp_of_decodeAluByte hop

end Sys2Proof.Proofs
end

section
/-! PROOFS. The rows (R92, R94): no word matches two, so a row that accepts a word is the one the lookup finds. -/

namespace Sys2Proof.Proofs

open Sys2Proof Sys2Proof.Machine Sys2Proof.Safety Sys2Proof.Claims

theorem length_filter_le_one {α : Type} {p : α → Bool} {l : List α} (h : l.Pairwise fun a b => p a = true → p b = false) :
    (l.filter p).length ≤ 1 := by
  have hf := h.sublist (List.filter_sublist (p := p))
  cases hl : l.filter p with
  | nil => simp
  | cons a l₁ =>
    cases l₁ with
    | nil => simp
    | cons b l₂ =>
      have ha : p a = true := List.of_mem_filter (l := l) (by rw [hl]; simp)
      have hb : p b = true := List.of_mem_filter (l := l) (by rw [hl]; simp)
      rw [hl] at hf
      have hnb : p b = false := List.rel_of_pairwise_cons hf List.mem_cons_self ha
      exact absurd hb (Bool.eq_false_iff.1 hnb)

/-! ### The ALU rows -/

theorem aluRows_disagree : aluRows.Pairwise fun r s => r.value &&& s.mask ≠ s.value &&& r.mask := by decide +kernel

theorem aluMatches_length (b : Byte) : (aluMatches b).length ≤ 1 := by
  refine length_filter_le_one (aluRows_disagree.imp fun hne hr => ?_)
  exact Bool.eq_false_iff.2 fun hs => hne (Fits.agree (beq_iff_eq.1 hr) (beq_iff_eq.1 hs))

/-! ### The word rows -/

/-- The word rows of the opcode table. -/
def wordRows : List Row := nonParallelRows ++ parallelRows

theorem accepts_iff (r : Row) (w : Word) : r.accepts w = true ↔ Fits w r.mask r.value ∧ r.pred w = true := by
  rw [Row.accepts, Bool.and_eq_true, beq_iff_eq, Fits]

/-- The leading bits of the register fields of a parallel row, by the row's place in the table (R110). The row's predicate
asks that in each of them a bit be set. -/
def leadingBits : Nat → List Word
  | 4 => [0x038000, 0x001C00]  -- MOVE reg, reg
  | 5 => [0x1C0000]            -- MOVE #xx, reg
  | 6 | 7 => [0x340000]        -- MOVE X/Y, ea and aa
  | _ => []

/-- A row has only literals 0 at some of these masks. -/
def zeroAt (r : Row) (masks : List Word) : Bool := masks.any fun m => r.mask &&& m == m && r.value &&& m == 0

theorem nonParallelRows_disagree : nonParallelRows.Pairwise fun r s => r.value &&& s.mask ≠ s.value &&& r.mask := by
  decide +kernel

/-- Two parallel rows have literals that differ, or the one's are 0 where the other's register has its leading bits. -/
theorem parallelRows_disagree (i j : Fin parallelRows.length) (h : i < j) :
    parallelRows[i].value &&& parallelRows[j].mask ≠ parallelRows[j].value &&& parallelRows[i].mask ∨
      zeroAt parallelRows[i] (leadingBits j) = true ∨ zeroAt parallelRows[j] (leadingBits i) = true := by
  revert i j
  decide +kernel

theorem lt_of_fits_nonParallel {r : Row} (h : r ∈ nonParallelRows) {w : Word} (hw : Fits w r.mask r.value) :
    w.toNat < 0x100000 := by
  have hrow : ∀ r ∈ nonParallelRows, fieldAt r.mask 20 4 = BitVec.allOnes 4 ∧ fieldAt r.value 20 4 = 0 := by
    decide +kernel
  obtain ⟨hmask, hvalue⟩ := hrow r h
  have htop : w.toNat / 2 ^ 20 % 2 ^ 4 = 0 := by
    rw [← Nat.shiftRight_eq_div_pow]
    exact congrArg BitVec.toNat ((hw.fieldAt_eq hmask).trans hvalue)
  omega

theorem le_of_fits_parallel {r : Row} (h : r ∈ parallelRows) {w : Word} (hw : Fits w r.mask r.value) : 0x100000 ≤ w.toNat := by
  have hrow : ∀ r ∈ parallelRows, 0x100000 ≤ r.value.toNat := by decide +kernel
  calc 0x100000 ≤ r.value.toNat := hrow r h
    _ = (w &&& r.mask).toNat := by rw [show w &&& r.mask = r.value from hw]
    _ ≤ w.toNat := by rw [BitVec.toNat_and]; exact Nat.and_le_left

/-- A row that accepts a word stands in the word's part of the table (R92). -/
theorem mem_rowsFor {r : Row} (h : r ∈ wordRows) {w : Word} (hw : Fits w r.mask r.value) : r ∈ rowsFor w := by
  rw [rowsFor]
  rcases List.mem_append.1 h with h | h
  · rwa [if_pos (lt_of_fits_nonParallel h hw)]
  · rwa [if_neg (Nat.not_lt.2 (le_of_fits_parallel h hw))]

theorem mem_rows_of_mem_rowsFor {r : Row} {w : Word} (h : r ∈ rowsFor w) : r ∈ wordRows := by
  rw [rowsFor] at h
  split at h
  · exact List.mem_append_left _ h
  · exact List.mem_append_right _ h

/-- A register field inside the word: the mask of its leading bits. -/
theorem and_ne_zero_of_moveRegOk {w m : Word} {lo : Nat} (hm : fieldAt m (lo + 2) 3 = BitVec.allOnes 3)
    (h : moveRegOk (fieldAt w lo 5) = true) : w &&& m ≠ 0 := by
  intro h0
  refine moveRegOk_leading h ?_
  rw [fieldAt_fieldAt w (by decide), Fits.fieldAt_eq h0 hm]
  exact BitVec.extractLsb'_zero

/-- The register field of an X or Y memory move lies in two parts of the word. -/
theorem and_ne_zero_of_moveRegOk_xy {w : Word} (h : moveRegOk (xyRegBits w) = true) : w &&& 0x340000 ≠ 0 := by
  intro h0
  have hparts : ∀ (a : BitVec 2) (b : BitVec 3), a = 0 → fieldAt b 2 1 = 0 → fieldAt (a ++ b) 2 3 = 0 := by decide
  refine moveRegOk_leading h (hparts _ _ ?_ ?_)
  · exact Fits.fieldAt_eq h0 (by decide)
  · rw [fieldAt_fieldAt w (by decide)]
    exact Fits.fieldAt_eq h0 (by decide)

/-- A word that meets the row's predicate has one of the leading bits of each register field set. -/
theorem and_leadingBits_ne_zero {j : Fin parallelRows.length} {w : Word} (h : parallelRows[j].pred w = true) :
    ∀ m ∈ leadingBits j, w &&& m ≠ 0 := by
  unfold leadingBits
  split
  · next hj =>
    obtain rfl : j = ⟨4, by decide⟩ := Fin.ext hj
    obtain ⟨hregs, -⟩ := Bool.and_eq_true_iff.1 h
    obtain ⟨hsrc, hdst⟩ := Bool.and_eq_true_iff.1 hregs
    simp only [List.forall_mem_cons]
    exact ⟨and_ne_zero_of_moveRegOk (by decide) hsrc, and_ne_zero_of_moveRegOk (by decide) hdst, List.forall_mem_nil _⟩
  · next hj =>
    obtain rfl : j = ⟨5, by decide⟩ := Fin.ext hj
    obtain ⟨hdst, -⟩ := Bool.and_eq_true_iff.1 h
    exact List.forall_mem_singleton.2 (and_ne_zero_of_moveRegOk (by decide) hdst)
  · next hj =>
    obtain rfl : j = ⟨6, by decide⟩ := Fin.ext hj
    obtain ⟨hregs, -⟩ := Bool.and_eq_true_iff.1 h
    obtain ⟨hreg, -⟩ := Bool.and_eq_true_iff.1 hregs
    exact List.forall_mem_singleton.2 (and_ne_zero_of_moveRegOk_xy hreg)
  · next hj =>
    obtain rfl : j = ⟨7, by decide⟩ := Fin.ext hj
    obtain ⟨hreg, -⟩ := Bool.and_eq_true_iff.1 h
    exact List.forall_mem_singleton.2 (and_ne_zero_of_moveRegOk_xy hreg)
  · exact List.forall_mem_nil _

theorem zeroAt_false {i j : Fin parallelRows.length} {w : Word} (hi : Fits w parallelRows[i].mask parallelRows[i].value)
    (hj : parallelRows[j].pred w = true) : zeroAt parallelRows[i] (leadingBits j) = false := by
  rw [zeroAt, List.any_eq_false]
  intro m hm h0
  rw [Bool.and_eq_true, beq_iff_eq, beq_iff_eq] at h0
  obtain ⟨hmask, hvalue⟩ := h0
  apply and_leadingBits_ne_zero hj m hm
  rw [← hmask, ← BitVec.and_assoc, show w &&& parallelRows[i].mask = _ from hi, hvalue]

theorem rowMatches_length (w : Word) : (rowMatches w).length ≤ 1 := by
  refine length_filter_le_one (p := fun r : Row => r.accepts w) ?_
  rw [rowsFor]
  split
  · refine nonParallelRows_disagree.imp fun {r s} hdiffer hr => Bool.eq_false_iff.2 fun hs => ?_
    obtain ⟨hfit, -⟩ := (accepts_iff r w).1 hr
    obtain ⟨hfit', -⟩ := (accepts_iff s w).1 hs
    exact hdiffer (hfit.agree hfit')
  · refine List.pairwise_iff_get.2 fun i j hlt hr => Bool.eq_false_iff.2 fun hs => ?_
    obtain ⟨hfit, hpred⟩ := (accepts_iff parallelRows[i] w).1 hr
    obtain ⟨hfit', hpred'⟩ := (accepts_iff parallelRows[j] w).1 hs
    rcases parallelRows_disagree i j hlt with hdiffer | hzero | hzero
    · exact hdiffer (hfit.agree hfit')
    · exact absurd hzero (Bool.eq_false_iff.1 (zeroAt_false hfit hpred'))
    · exact absurd hzero (Bool.eq_false_iff.1 (zeroAt_false hfit' hpred))

/-- A row that accepts a word is the one the lookup finds. -/
theorem lookupRow_of_accepts {r : Row} (hr : r ∈ wordRows) {w : Word} (hw : Fits w r.mask r.value)
    (hp : r.pred w = true) : lookupRow w = .ok r := by
  have hmem : r ∈ rowMatches w := List.mem_filter.2 ⟨mem_rowsFor hr hw, (accepts_iff r w).2 ⟨hw, hp⟩⟩
  obtain ⟨r', hone⟩ := List.length_eq_one_iff.1 (Nat.le_antisymm (rowMatches_length w) (List.length_pos_of_mem hmem))
  rw [hone, List.mem_singleton] at hmem
  rw [lookupRow, hone, hmem]

/-- The row that the lookup finds accepts the word. -/
theorem accepts_of_lookupRow {r : Row} {w : Word} (h : lookupRow w = .ok r) :
    r ∈ wordRows ∧ Fits w r.mask r.value ∧ r.pred w = true := by
  unfold lookupRow at h
  split at h <;> cases h
  next hone =>
    have hmem : r ∈ rowMatches w := by rw [hone]; exact List.mem_singleton_self r
    obtain ⟨hrow, hacc⟩ := List.mem_filter.1 hmem
    exact ⟨mem_rows_of_mem_rowsFor hrow, (accepts_iff r w).1 hacc⟩

theorem hasExtension_of_lookupRow {r : Row} {w : Word} (h : lookupRow w = .ok r) : hasExtension w = r.ext w := by
  rw [hasExtension, h]

theorem decode_of_lookupRow {r : Row} {w : Word} (h : lookupRow w = .ok r) (e : Word) : decode w e = .ok (r.build w e) := by
  rw [decode, h]

/-- Settles O1: two rows of one part of the table disagree, and so do two ALU rows; the bytes without a row are listed. -/
theorem noWordMatchesTwoRows : Obligations.NoWordMatchesTwoRows :=
  ⟨rowMatches_length, aluMatches_length, by decide +kernel⟩

end Sys2Proof.Proofs
end

section
/-! PROOFS. The round trip of decoding and encoding (R93, R94, R107, R108, R110). Both directions go through the fields
of the row of an instruction. -/

namespace Sys2Proof.Proofs

open Sys2Proof Sys2Proof.Machine Sys2Proof.Safety Sys2Proof.Claims

/-! ### From an instruction to its words and back -/

/-- The row of the opcode table that holds an instruction's word. -/
def rowOf : Instr → Row
  | .nop => nonParallelRows[0]
  | .rti => nonParallelRows[1]
  | .illegal => nonParallelRows[2]
  | .trap => nonParallelRows[3]
  | .rts => nonParallelRows[4]
  | .wait => nonParallelRows[5]
  | .stop => nonParallelRows[6]
  | .enddo => nonParallelRows[7]
  | .andi .. => nonParallelRows[8]
  | .ori .. => nonParallelRows[9]
  | .movecReg .. => nonParallelRows[10]
  | .movecEa .. => nonParallelRows[11]
  | .movecAa .. => nonParallelRows[12]
  | .movecImm .. => nonParallelRows[13]
  | .repImm .. => nonParallelRows[14]
  | .repAa .. => nonParallelRows[15]
  | .repEa .. => nonParallelRows[16]
  | .repReg .. => nonParallelRows[17]
  | .doImm .. => nonParallelRows[18]
  | .doAa .. => nonParallelRows[19]
  | .doEa .. => nonParallelRows[20]
  | .doReg .. => nonParallelRows[21]
  | .moveXRII .. => nonParallelRows[22]
  | .moveRYII .. => nonParallelRows[23]
  | .jmpEa .. => nonParallelRows[24]
  | .jccEa .. => nonParallelRows[25]
  | .jsrEa .. => nonParallelRows[26]
  | .jsccEa .. => nonParallelRows[27]
  | .jmpAbs .. => nonParallelRows[28]
  | .jsrAbs .. => nonParallelRows[29]
  | .jccAbs .. => nonParallelRows[30]
  | .jsccAbs .. => nonParallelRows[31]
  | .moveXRI .. => parallelRows[0]
  | .moveRYI .. => parallelRows[1]
  | .moveUpdate .. => parallelRows[3]
  | .moveRegReg .. => parallelRows[4]
  | .moveImm .. => parallelRows[5]
  | .moveXYEa .. => parallelRows[6]
  | .moveXYAa .. => parallelRows[7]
  | .moveLEa .. => parallelRows[8]
  | .moveLAa .. => parallelRows[9]
  | .moveXYDouble .. => parallelRows[10]
  | _ => parallelRows[2]  -- noMove, and an alu_byte row as an instruction of its own (log entry 12)

theorem rowOf_mem (i : Instr) : rowOf i ∈ wordRows := by
  rw [wordRows, List.mem_append]
  cases i <;> simp only [rowOf, List.getElem_mem, true_or, or_true]

theorem encodeLength (i : Instr) : Laws.EncodeLength.Statement i := by
  cases i <;> exact ⟨_, _, rfl, by simp [Laws.eaAddrExt_length, Laws.eaMoveExt_length]⟩

section
variable {i : Instr} {w : Word} {rest : List Word}

/-- The literals of the row stand in the word. -/
theorem encode_fits (h : encode i = w :: rest) : Fits w (rowOf i).mask (rowOf i).value := by
  cases i <;> obtain ⟨rfl, rfl⟩ := List.cons.inj h
  all_goals
    simp only [rowOf, nonParallelRows, parallelRows, List.getElem_cons_succ, List.getElem_cons_zero, noMoveWord, fits_append]
    simp [Fits]

/-- The operands meet the row's predicate, the row takes an extension word where the encoding has one, and it reads back
every operand. The word of an alu_byte row holds its operation. -/
theorem encode_read (hwf : i.wellFormed = true) (h : encode i = w :: rest) :
    (rowOf i).pred w = true ∧ (rowOf i).ext w = !rest.isEmpty ∧
      ((rowOf i).build w (extensionOf rest) = i ∨ i = aluInstr (aluOf w)) := by
  cases i <;> obtain ⟨rfl, rfl⟩ := List.cons.inj h
  all_goals
    simp only [Instr.wellFormed, Bool.and_eq_true] at hwf
    -- the row reads the fields that the word was put together from
    simp (disch := decide) only [rowOf, nonParallelRows, parallelRows, List.getElem_cons_succ, List.getElem_cons_zero,
      noMoveWord, eaBits, wBit, eaNeedsExt, eaNeedsAbs, xyRegBits, lBits, countOf, aluDefined, aluOf, aluByteOf,
      fieldAt_append_low, fieldAt_append_high, Nat.reduceSub, fieldAt_all, moveField_split, lField_split, count_split]
    -- each operand's code is read back
    simp [always, never, decodeAluByte_encodeAluOp, aluInstr, regOfCode_regCode, controlRegOf_regBits5, moveRegOk_regBits5,
      moveRegOf_regBits5, hwf]

end

/-- The words of an instruction decode as its row builds. -/
theorem wordsDecode_of_row {r : Row} {w : Word} {rest : List Word} (hlookup : lookupRow w = .ok r) (hext : r.ext w = !rest.isEmpty)
    (hlen : rest.length ≤ 1) : wordsDecode (w :: rest) = some (r.build w (extensionOf rest)) := by
  have hhas : hasExtension w = !rest.isEmpty := (hasExtension_of_lookupRow hlookup).trans hext
  match rest, hlen with
  | [], _ => simp only [wordsDecode, hhas, decode_of_lookupRow hlookup]; rfl
  | [e], _ => simp only [wordsDecode, hhas, decode_of_lookupRow hlookup]; rfl

theorem wordsDecode_encode {i : Instr} (hwf : i.wellFormed = true) (halu : ∀ op, i ≠ aluInstr op) :
    wordsDecode (encode i) = some i := by
  obtain ⟨w, rest, henc, hlen⟩ := encodeLength i
  obtain ⟨hpred, hext, hbuild⟩ := encode_read hwf henc
  have hlookup : lookupRow w = .ok (rowOf i) := lookupRow_of_accepts (rowOf_mem i) (encode_fits henc) hpred
  rw [henc, wordsDecode_of_row hlookup hext hlen, hbuild.resolve_right (halu _)]

/-- Settles O2: each instruction is read back by its row, and an alu_byte row has the word of no parallel move. -/
theorem encodeThenDecode : Obligations.EncodeThenDecode := by
  refine ⟨fun i => wordsDecode_encode, fun op => ⟨decodeAluByte_encodeAluOp op, ?_⟩⟩
  have henc : encode (aluInstr op) = encode (.noMove op) := by cases op <;> rfl
  rw [henc]
  exact wordsDecode_encode rfl fun op' => by cases op' <;> nofun

/-! ### From a word to its instruction and back -/

/-- What a row builds can be held by a word. -/
theorem wellFormed_build : ∀ r ∈ wordRows, ∀ w e, r.pred w = true → (r.build w e).wellFormed = true := by
  simp only [wordRows, nonParallelRows, parallelRows, List.cons_append, List.nil_append, List.forall_mem_cons, Bool.and_eq_true]
  simp +contextual [Instr.wellFormed]

/-- A row builds an instruction whose words are those it is built from: its literals are the template's, and each operand's
bits are the word's field. -/
theorem encode_of_build : ∀ r ∈ wordRows, ∀ w e, Fits w r.mask r.value → r.pred w = true →
    encode (r.build w e) = w :: if r.ext w then [e] else [] := by
  simp only [wordRows, nonParallelRows, parallelRows, List.cons_append, List.nil_append, List.forall_mem_cons, List.not_mem_nil,
    false_imp_iff, implies_true, and_true, eaBits, wBit, Bool.and_eq_true, bne_iff_ne]
  and_intros
  all_goals
    intro w e hw hp
    -- the words agree field by field
    simp only [encode, cons_eq_cons_iff, sameBits_append, noMoveWord]
    -- a literal is the template's, and an operand's bits are the field it was read from
    simp [SameBits, fieldAt_fieldAt, hw.fieldAt_eq, hw.eq_of_full, always, never, hp, ctlTargetBits_ctlTargetOf, eaRegBits_of_word,
      eaAddrBits_eaAddrOf, eaAddrExt_of_word, eaMoveBits_eaMoveOf, eaMoveExt_of_word, encodeAluOp_aluOf]

/-- Settles O3: the row that a word matches builds an instruction with the word's own bits. -/
theorem decodeThenEncode : Obligations.DecodeThenEncode := by
  refine ⟨fun w e i h => ?_, fun b op => encodeAluOp_of_decodeAluByte⟩
  unfold decode at h
  split at h <;> cases h
  next r hlookup =>
    obtain ⟨hmem, hw, hp⟩ := accepts_of_lookupRow hlookup
    rw [hasExtension_of_lookupRow hlookup]
    exact ⟨wellFormed_build r hmem w e hp, encode_of_build r hmem w e hw hp⟩

end Sys2Proof.Proofs
end

section
/-! PROOFS. Address modifiers (R103), condition codes (R106), and words of the decoder vectors. -/

namespace Sys2Proof.Proofs

open Sys2Proof Sys2Proof.Machine Sys2Proof.Safety Sys2Proof.Claims

/-! ### Address modifier arithmetic (R103) -/

/-- The modulo wrap: one modulus less at or above the block, one modulus more below it. -/
def wrapAddress (base modulus t : Int) : Int :=
  let t' := if base + modulus ≤ t then t - modulus else t
  if t' < base then t' + modulus else t'

/-- An address at most one modulus away from the block is wrapped into it. -/
theorem wrapAddress_mem {base modulus t : Int} (hlow : base - modulus ≤ t) (hhigh : t < base + 2 * modulus) :
    base ≤ wrapAddress base modulus t ∧ wrapAddress base modulus t < base + modulus := by
  simp only [wrapAddress]
  split_ifs <;> omega

theorem wrapAddress_congr (base modulus t : Int) : modulus ∣ wrapAddress base modulus t - t := by
  simp only [wrapAddress]
  split_ifs
  · exact ⟨0, by ring⟩
  · exact ⟨-1, by ring⟩
  · exact ⟨1, by ring⟩
  · exact ⟨0, by ring⟩

/-- `moduloBits` is the least k with 2^k at least Mn + 1. -/
theorem moduloBits_eq {mn : Word} (hpos : 1 ≤ mn.toNat) {k : Nat} (hk : mn.toNat + 1 ≤ 2 ^ k)
    (hleast : ∀ j, mn.toNat + 1 ≤ 2 ^ j → k ≤ j) : moduloBits mn = k := by
  have hle : k ≤ moduloBits mn := hleast _ Nat.lt_log2_self
  have hlt : Nat.log2 mn.toNat < k := (Nat.log2_lt (Nat.one_le_iff_ne_zero.1 hpos)).2 hk
  rw [moduloBits] at hle ⊢
  omega

/-- The block that holds an address lies inside the address space. -/
theorem block_le (rn : Word) {k : Nat} (hk : k ≤ 24) : rn.toNat / 2 ^ k * 2 ^ k + 2 ^ k ≤ 2 ^ 24 := by
  have hsplit : 2 ^ 24 = 2 ^ (24 - k) * 2 ^ k := by rw [← Nat.pow_add, Nat.sub_add_cancel hk]
  have hlt : rn.toNat / 2 ^ k < 2 ^ (24 - k) := (Nat.div_lt_iff_lt_mul (by positivity)).2 (hsplit ▸ rn.isLt)
  calc rn.toNat / 2 ^ k * 2 ^ k + 2 ^ k = (rn.toNat / 2 ^ k + 1) * 2 ^ k := by ring
    _ ≤ 2 ^ 24 := hsplit ▸ Nat.mul_le_mul_right _ hlt

theorem toNat_ofInt_of_range {z : Int} (h0 : 0 ≤ z) (h : z < 2 ^ 24) : ((BitVec.ofInt 24 z).toNat : Int) = z := by
  rw [BitVec.toNat_ofInt, Int.toNat_of_nonneg (Int.emod_nonneg _ (by decide))]
  exact Int.emod_eq_of_lt h0 (by exact_mod_cast h)

theorem offsetOf_linear (rn : Word) (d : Int) : offsetOf rn 0xFFFFFF d = .ok (BitVec.ofInt 24 (rn.toNat + d)) := rfl

theorem offsetOf_reverse (rn : Word) (d : Int) :
    offsetOf rn 0 d = .ok (rev24 (rev24 rn + rev24 (BitVec.ofInt 24 d))) := rfl

theorem offsetOf_reserved {mn : Word} (h : 0x800000 ≤ mn.toNat) (hne : mn ≠ 0xFFFFFF) (rn : Word) (d : Int) :
    offsetOf rn mn d = .error .modifierReserved := by
  have h0 : mn ≠ 0 := by rintro rfl; exact absurd h (by decide)
  rw [offsetOf, if_neg hne, if_neg h0, if_neg (by omega)]

section
variable {mn : Word} {k : Nat} (hpos : 1 ≤ mn.toNat) (hmax : mn.toNat ≤ 0x7FFFFF) (hk : mn.toNat + 1 ≤ 2 ^ k)
  (hleast : ∀ j, mn.toNat + 1 ≤ 2 ^ j → k ≤ j)
include hpos hmax hk hleast

/-- The modulo case: the fault, or the wrapped address. -/
theorem offsetOf_modulo (rn : Word) (d : Int) :
    offsetOf rn mn d = if (mn.toNat : Int) + 1 < |d| then .error .moduloReserved
      else .ok (BitVec.ofInt 24 (wrapAddress (rn.toNat / 2 ^ k * 2 ^ k : Nat) (mn.toNat + 1) (rn.toNat + d))) := by
  have hlinear : mn ≠ 0xFFFFFF := by rintro rfl; exact absurd hmax (by decide)
  have hreverse : mn ≠ 0 := by rintro rfl; exact absurd hpos (by decide)
  rw [offsetOf, if_neg hlinear, if_neg hreverse, if_pos hmax, moduloOffset, moduloBits_eq hpos hk hleast, ← Int.natCast_natAbs]
  rfl

/-- Where Rn lies in its block, so does the wrapped address, and it is Rn + d up to a modulus. -/
theorem offsetOf_modulo_mem {rn : Word} {d : Int} (hd : |d| ≤ (mn.toNat : Int) + 1)
    (hin : rn.toNat < rn.toNat / 2 ^ k * 2 ^ k + (mn.toNat + 1)) :
    ∃ u, offsetOf rn mn d = .ok u ∧ rn.toNat / 2 ^ k * 2 ^ k ≤ u.toNat ∧
      u.toNat < rn.toNat / 2 ^ k * 2 ^ k + (mn.toNat + 1) ∧
      ((u.toNat : Int) - rn.toNat - d) % (mn.toNat + 1) = 0 := by
  have hbase : rn.toNat / 2 ^ k * 2 ^ k ≤ rn.toNat := Nat.div_mul_le_self _ _
  have hblock := block_le rn ((hleast 23 (by omega)).trans (by decide : 23 ≤ 24))
  have hcongr := wrapAddress_congr (rn.toNat / 2 ^ k * 2 ^ k : Nat) (mn.toNat + 1) (rn.toNat + d)
  rw [offsetOf_modulo hpos hmax hk hleast, if_neg (not_lt.2 hd)]
  generalize rn.toNat / 2 ^ k * 2 ^ k = base at *
  obtain ⟨hdlow, hdhigh⟩ := abs_le.1 hd
  obtain ⟨hlow, hhigh⟩ := wrapAddress_mem (base := base) (modulus := mn.toNat + 1) (t := rn.toNat + d) (by omega) (by omega)
  have hu := toNat_ofInt_of_range (z := wrapAddress base (mn.toNat + 1) (rn.toNat + d)) (by omega) (by omega)
  refine ⟨_, rfl, by omega, by omega, ?_⟩
  rw [hu, sub_sub]
  exact Int.emod_eq_zero_of_dvd hcongr

end

/-- Settles O17: one lemma for each of the four ranges of Mn. -/
theorem modifierArithmetic : Obligations.ModifierArithmetic := by
  intro rn mn d
  refine ⟨?_, fun hpos hmax k base hk hleast hbase => ?_, ?_, fun h hne => offsetOf_reserved h hne rn d⟩
  · rintro rfl
    exact offsetOf_linear rn d
  · subst hbase
    refine ⟨fun hd => ?_, fun hd => ⟨?_, offsetOf_modulo_mem hpos hmax hk hleast hd⟩⟩
    · rw [offsetOf_modulo hpos hmax hk hleast, if_pos hd]
    · rw [offsetOf_modulo hpos hmax hk hleast, if_neg (not_lt.2 hd)]
      rfl
  · rintro rfl
    exact ⟨_, offsetOf_reverse rn d, BitVec.reverse_reverse_eq⟩

/-! ### Condition codes (R106) -/

/-- Settles O48: the field's sixteen values, each by its equation. -/
theorem conditionCodes : Obligations.ConditionCodes := by
  intro sr
  exact ⟨rfl, rfl, rfl, rfl, rfl, rfl, rfl, rfl, rfl, rfl, rfl, rfl, rfl, rfl, rfl, rfl⟩

/-! ### Words of the decoder vectors -/

/-- Settles O4: seventeen fixed words, each evaluated. -/
theorem sampleWordsDecode : Obligations.SampleWordsDecode := by
  unfold Obligations.SampleWordsDecode
  decide +kernel

end Sys2Proof.Proofs
end

section
/-! PROOFS. Dispatch (spec/40_dispatch.md). First the fetch: the instruction that a step finds, and the rows that a REP
may not repeat (R131, R144). -/

namespace Sys2Proof.Proofs

open Sys2Proof Sys2Proof.Machine Sys2Proof.Safety Sys2Proof.Claims

/-! ### What a row builds, and its extension word -/

/-- A row that takes no extension word builds its instruction from the opcode word alone (R91, R108). -/
theorem row_build_of_no_extension : ∀ r ∈ wordRows, ∀ w e e', r.ext w = false → r.build w e = r.build w e' := by
  simp only [wordRows, nonParallelRows, parallelRows, List.cons_append, List.nil_append, List.forall_mem_cons]
  simp +contextual [always, eaNeedsExt, eaNeedsAbs, eaMoveOf, eaSrcOf, eaAddrOf]

/-- Whether a REP may repeat a row is told from the opcode word alone (R144). -/
theorem forbiddenUnderRep_build : ∀ r ∈ wordRows, ∀ w e e',
    forbiddenUnderRep (r.build w e) = forbiddenUnderRep (r.build w e') := by
  simp [wordRows, nonParallelRows, parallelRows, forbiddenUnderRep]

/-- A word that decodes matches a row of the table. -/
theorem decode_ok {w e : Word} {i : Instr} (h : decode w e = .ok i) : ∃ r ∈ wordRows, lookupRow w = .ok r ∧ i = r.build w e := by
  unfold decode at h
  split at h <;> cases h
  next r hr => exact ⟨r, (accepts_of_lookupRow hr).1, hr, rfl⟩

/-! ### The fetch of a word that decodes -/

section
variable {s : State} {i : Instr} (hpc : s.pc.toNat < 4096)
  (hi : decode (s.pram.read s.pc.toNat) (s.pram.read (s.pc + 1).toNat) = .ok i)
include hpc hi

/-- R144 is decided before an extension word is read (log entry 7). -/
theorem fetch_repOfControl (hloop : s.loopRep = true) (hpass : s.pcOnRep = false) (hcontrol : ControlRow i) :
    fetch s = .fault .repOfControl := by
  obtain ⟨r, hmem, hrow, rfl⟩ := decode_ok hi
  have hforbidden : forbiddenUnderRep (r.build (s.pram.read s.pc.toNat) 0) = true :=
    (forbiddenUnderRep_build r hmem _ _ _).trans ((forbiddenUnderRep_iff _).2 hcontrol)
  simp only [fetch, readP_inside hpc, decode_of_lookupRow hrow, repeating, hloop, hpass, hforbidden]
  rfl

/-- The step finds the instruction that the words at pc decode to. -/
theorem fetch_instr (hext : hasExtension (s.pram.read s.pc.toNat) = true → (s.pc + 1).toNat < 4096)
    (hrep : s.loopRep = true → s.pcOnRep = false → ¬ ControlRow i) : fetch s = .instr i := by
  obtain ⟨r, hmem, hrow, rfl⟩ := decode_ok hi
  have hallowed : (repeating s && forbiddenUnderRep (r.build (s.pram.read s.pc.toNat) 0)) = false := by
    rw [Bool.and_eq_false_imp, repeating, Bool.and_eq_true, Bool.not_eq_true']
    rintro ⟨hl, hp⟩
    rw [forbiddenUnderRep_build r hmem _ _ (s.pram.read (s.pc + 1).toNat)]
    exact Bool.eq_false_iff.2 fun hf => hrep hl hp ((forbiddenUnderRep_iff _).1 hf)
  simp only [fetch, readP_inside hpc, decode_of_lookupRow hrow, hallowed, fetchExtension]
  cases htaken : hasExtension (s.pram.read s.pc.toNat) with
  | true => simp only [readP_inside (hext htaken)]; rfl
  | false =>
    rw [hasExtension_of_lookupRow hrow] at htaken
    have hbuild := row_build_of_no_extension r hmem _ 0 (s.pram.read (s.pc + 1).toNat) htaken
    exact congrArg Fetched.instr hbuild

end

/-! ### The rest of a step -/

/-- The rest of a step, once the fetch has found an instruction (R130). -/
theorem step_of_fetch_instr {s : State} {i : Instr} (hfatal : s.fatal = none) (hfetch : fetch s = .instr i) :
    step s = finishOutcome (exec i (beginInstr s)) := by
  rw [step, hfatal, hfetch]

/-- The rest of a step whose execution and interrupt check both answer a state (R130). -/
theorem step_of_exec {s s1 s2 : State} {i : Instr} (hfatal : s.fatal = none) (hfetch : fetch s = .instr i)
    (hexec : exec i (beginInstr s) = .next s1) (hcheck : interruptCheck (updatePc s1) = .ok s2) :
    step s = .next { s2 with instrCount := s2.instrCount + 1 } := by
  rw [step_of_fetch_instr hfatal hfetch, hexec, finishOutcome, finish, hcheck]

theorem beginInstr_eq (s : State) : beginInstr s = { s with instrCycle := 2, len := 1 } := rfl

/-! ### The statements -/

/-- Settles O7: the fetch of such a word is the fault. -/
theorem repeatedControlRowIsFatal : Obligations.RepeatedControlRowIsFatal := by
  intro s i hfatal hpc hi hloop hpass hcontrol
  rw [step, hfatal, fetch_repOfControl hpc hi hloop hpass hcontrol]

/-- Settles O5: the fetch finds the instruction, and the rest of the step is `finishOutcome`. -/
theorem stepRunsDecodedInstruction : Obligations.StepRunsDecodedInstruction := by
  intro s i hfatal hpc hi hext hrep
  rw [step_of_fetch_instr hfatal (fetch_instr hpc hi hext hrep), beginInstr_eq]
  cases exec i { s with instrCycle := 2, len := 1 } <;> rfl

end Sys2Proof.Proofs
end

section
/-! PROOFS. The PC update (R138 to R143): the end of a DO loop, and the passes of a REP. -/

namespace Sys2Proof.Proofs

open Sys2Proof Sys2Proof.Machine Sys2Proof.Safety Sys2Proof.Claims

/-! ### The end of a DO loop -/

/-- LC counts down modulo 2^16 (R140). -/
theorem decLc_eq (lc : BitVec 17) : decLc lc = (lc.setWidth 16 - 1 : BitVec 16).setWidth 17 := by
  have hlow : (lc - 1).setWidth 16 = (lc.setWidth 16 - 1 : BitVec 16) := by bv_omega
  rw [decLc, hlow]

theorem decLc_eq_zero_iff (lc : BitVec 17) : decLc lc = 0 ↔ (lc.setWidth 16 - 1 : BitVec 16) = 0 := by
  rw [decLc_eq]
  generalize (lc.setWidth 16 - 1 : BitVec 16) = count
  constructor <;> intro h <;> bv_omega

/-- Only LF is taken from a popped SR (R140, R256). -/
theorem setBit_srLF (sr p : BitVec 16) : setBit sr srLF (p.getLsbD srLF) = loopFlagFrom sr p := by
  have hbit : p &&& 0x8000 = if p.getLsbD srLF then 0x8000 else 0 := BitVec.and_twoPow p srLF
  rw [loopFlagFrom, hbit]
  cases p.getLsbD srLF with
  | false => exact (BitVec.or_zero).symm
  | true =>
    apply BitVec.eq_of_getLsbD_eq
    intro i hi
    interval_cases i <;> simp [setBit, srLF]

/-- Two pops end a DO loop as R140 and R256 have it. -/
theorem unwindLoop_eq_loopPopped (s : State) : unwindLoop s = loopPopped s := by
  simp only [unwindLoop, loopPopped, popState_eq_popped, setBit_srLF]
  rfl

theorem atLoopEnd_iff (s : State) : atLoopEnd s = true ↔ s.sr.getLsbD srLF = true ∧ s.pc.toNat = s.la.toNat + 1 := by
  rw [atLoopEnd, Bool.and_eq_true, beq_iff_eq]

/-- The loop-end test of the PC update is that of R140 and R143. -/
theorem loopEnd_eq_loopTested (s : State) : loopEnd s = loopTested s := by
  rcases loopEnd_cases s with ⟨hat, he⟩ | ⟨hat, hlc, he⟩ | ⟨hat, hlc, he⟩ <;> rw [he]
  · rw [loopTested, if_neg fun h => absurd ((atLoopEnd_iff s).2 h) (by simp [hat])]
  · rw [loopTested, if_pos ((atLoopEnd_iff s).1 hat), if_pos ((decLc_eq_zero_iff _).1 hlc), unwindLoop_eq_loopPopped, hlc]
  · rw [loopTested, if_pos ((atLoopEnd_iff s).1 hat), if_neg fun h => hlc ((decLc_eq_zero_iff _).2 h), decLc_eq]

theorem updatePc_eq (s : State) : updatePc s = loopTested (advancePc (repUpdate s)) := loopEnd_eq_loopTested _

section
variable {s : State}

/-! ### The three outcomes of the loop-end test (R143) -/

theorem loopTested_before (h : s.sr.getLsbD srLF = true → s.pc.toNat ≠ s.la.toNat + 1) : loopTested s = s :=
  if_neg fun hend => h hend.1 hend.2

theorem loopTested_again (hLF : s.sr.getLsbD srLF = true) (hpc : s.pc.toNat = s.la.toNat + 1)
    (hcount : (s.lc.setWidth 16 - 1 : BitVec 16) ≠ 0) :
    loopTested s = { s with lc := (s.lc.setWidth 16 - 1 : BitVec 16).setWidth 17, pc := s.ssh.setWidth 24 } := by
  rw [loopTested, if_pos ⟨hLF, hpc⟩, if_neg hcount]

theorem loopTested_last (hLF : s.sr.getLsbD srLF = true) (hpc : s.pc.toNat = s.la.toNat + 1)
    (hcount : (s.lc.setWidth 16 - 1 : BitVec 16) = 0) : loopTested s = loopPopped { s with lc := 0 } := by
  rw [loopTested, if_pos ⟨hLF, hpc⟩, if_pos hcount]

/-! ### The PC update outside a REP, of a REP, and of its passes (R140 to R142) -/

theorem updatePc_outside (hloop : s.loopRep = false) :
    updatePc s = loopTested { s with pc := s.pc + BitVec.ofNat 24 s.len } := by
  have hrep : repUpdate s = s := if_neg (by simp [hloop])
  rw [updatePc_eq, hrep, advancePc]

theorem updatePc_first (hloop : s.loopRep = true) (hfirst : s.pcOnRep = true) :
    updatePc s = loopTested { s with
      lc := if s.lc = 0 then 0x10000 else s.lc, pcOnRep := false, pc := s.pc + BitVec.ofNat 24 s.len } := by
  rw [updatePc_eq, repUpdate, if_pos hloop, if_pos hfirst, advancePc]

/-- A pass that is not the last holds pc: the length is 0. -/
theorem updatePc_pass (hloop : s.loopRep = true) (hfirst : s.pcOnRep = false)
    (hcount : (s.lc.setWidth 16 - 1 : BitVec 16) ≠ 0) :
    updatePc s = loopTested { s with lc := (s.lc.setWidth 16 - 1 : BitVec 16).setWidth 17, len := 0 } := by
  have hlc : decLc s.lc ≠ 0 := fun h => hcount ((decLc_eq_zero_iff _).1 h)
  have hrep : repUpdate s = { s with lc := (s.lc.setWidth 16 - 1 : BitVec 16).setWidth 17, len := 0 } := by
    rw [repUpdate, if_pos hloop, if_neg (by simp [hfirst]), if_pos hlc, decLc_eq]
  rw [updatePc_eq, hrep, advancePc]
  simp

theorem updatePc_lastPass (hloop : s.loopRep = true) (hfirst : s.pcOnRep = false)
    (hcount : (s.lc.setWidth 16 - 1 : BitVec 16) = 0) :
    updatePc s = loopTested { s with
      loopRep := false, lc := s.lcSaved.setWidth 17, pc := s.pc + BitVec.ofNat 24 s.len } := by
  have hlc : ¬ decLc s.lc ≠ 0 := not_not.2 ((decLc_eq_zero_iff _).2 hcount)
  rw [updatePc_eq, repUpdate, if_pos hloop, if_neg (by simp [hfirst]), if_neg hlc, advancePc]

end

/-- Settles O50: outside a REP the PC update is the advance and the loop-end test, whose three outcomes these are. -/
theorem loopEndTest : Obligations.LoopEndTest := by
  intro s hloop s1 count
  rw [updatePc_outside hloop]
  refine ⟨fun h => loopTested_before fun hLF => h.resolve_left (by simp [hLF]), fun hLF hpc hcount => ?_, fun hLF hpc hcount => ?_⟩
  · exact loopTested_again hLF hpc hcount
  · exact loopTested_last hLF hpc hcount

/-! ### The passes of a REP -/

/-- With passes left LC counts down, from 0x10000 as from a 16-bit count, and pc stays; the loop-end test of a surrounding
DO meets it only just past the loop's last address. -/
theorem updatePc_passes_left {s : State} (hloop : s.loopRep = true) (hfirst : s.pcOnRep = false) (hmax : s.lc.toNat ≤ 0x10000)
    (hleft : 1 < s.lc.toNat) (hpc : s.sr.getLsbD srLF = true → s.pc.toNat ≠ s.la.toNat + 1) :
    updatePc s = { s with lc := s.lc - 1, len := 0 } := by
  have hcount : (s.lc.setWidth 16 - 1 : BitVec 16) ≠ 0 := by bv_omega
  have hlc : (s.lc.setWidth 16 - 1 : BitVec 16).setWidth 17 = s.lc - 1 := by bv_omega
  rw [updatePc_pass hloop hfirst hcount, hlc]
  exact loopTested_before hpc

theorem updatePc_passes_over {s : State} (hloop : s.loopRep = true) (hfirst : s.pcOnRep = false) (hlast : s.lc.toNat = 1) :
    updatePc s = loopTested { s with
      loopRep := false, lc := s.lcSaved.setWidth 17, pc := s.pc + BitVec.ofNat 24 s.len } :=
  updatePc_lastPass hloop hfirst (by bv_omega)

/-- k passes, while one more is left: LC counts down and pc stays. -/
theorem passes_left {s : State} (n k : Nat) (hloop : s.loopRep = true) (hfirst : s.pcOnRep = false) (hmax : s.lc.toNat ≤ 0x10000)
    (hpc : s.sr.getLsbD srLF = true → s.pc.toNat ≠ s.la.toNat + 1) (hk : k < s.lc.toNat) :
    (passes n k s).pc = s.pc ∧ (passes n k s).loopRep = true ∧ (passes n k s).lc.toNat = s.lc.toNat - k := by
  induction k generalizing s with
  | zero => exact ⟨rfl, hloop, rfl⟩
  | succ k ih =>
    have hlc : (s.lc - 1).toNat = s.lc.toNat - 1 := by bv_omega
    rw [passes, updatePc_passes_left (s := { s with len := n }) hloop hfirst hmax (by dsimp only; omega) hpc]
    obtain ⟨hpc', hloop', hlc'⟩ := ih (s := { s with lc := s.lc - 1, len := 0 }) hloop hfirst (by dsimp only; omega) hpc
      (by dsimp only; omega)
    exact ⟨hpc', hloop', hlc'.trans (by dsimp only; omega)⟩

/-- The pass that uses LC up is an ordinary update, with LC restored. -/
theorem passes_all {s : State} (n k : Nat) (hloop : s.loopRep = true) (hfirst : s.pcOnRep = false) (hmax : s.lc.toNat ≤ 0x10000)
    (hpc : s.sr.getLsbD srLF = true → s.pc.toNat ≠ s.la.toNat + 1) (hk : s.lc.toNat = k + 1) :
    passes n (k + 1) s = loopTested { s with
      loopRep := false, lc := s.lcSaved.setWidth 17, len := n, pc := s.pc + BitVec.ofNat 24 n } := by
  induction k generalizing s with
  | zero => exact updatePc_passes_over (s := { s with len := n }) hloop hfirst hk
  | succ k ih =>
    have hlc : (s.lc - 1).toNat = k + 1 := by bv_omega
    rw [passes, updatePc_passes_left (s := { s with len := n }) hloop hfirst hmax (by dsimp only; omega) hpc]
    exact ih (s := { s with lc := s.lc - 1, len := 0 }) hloop hfirst (by dsimp only; omega) hpc hlc

end Sys2Proof.Proofs
end

section
/-! PROOFS. A repeated NOP, step by step (R141, R142): the REP, the passes that hold pc, the last pass. -/

namespace Sys2Proof.Proofs

open Sys2Proof Sys2Proof.Machine Sys2Proof.Safety Sys2Proof.Claims

/-! ### Where the interrupt check does nothing -/

/-- No interrupt is in progress or pending, and no trace is asked for. -/
structure Idle (s : State) : Prop where
  state : s.interruptState = .none
  pending : s.pendingCount = 0
  trace : s.sr.getLsbD srT = false

/-- The check does nothing during a REP (R331). -/
theorem interruptCheck_repeating {s : State} (h : s.loopRep = true) : interruptCheck s = .ok s := by
  rw [interruptCheck, attemptCheck, if_pos h]
  rfl

theorem interruptCheck_idle {s : State} (hloop : s.loopRep = false) (h : Idle s) : interruptCheck s = .ok s := by
  have hrep : ¬ s.loopRep = true := by simp [hloop]
  have hnoTrace : (if s.sr.getLsbD srT then post .trace s else s) = s := if_neg (by simp [h.trace])
  rw [interruptCheck, attemptCheck, if_neg hrep, h.state]
  simp only [traceAndArbitrate, hnoTrace, h.pending, if_true]
  rfl

/-- A step that ends inside a REP. -/
theorem step_repeating {s s1 s2 : State} {i : Instr} (hfatal : s.fatal = none) (hfetch : fetch s = .instr i)
    (hexec : exec i (beginInstr s) = .next s1) (hpc : updatePc s1 = s2) (hloop : s2.loopRep = true) :
    step s = .next { s2 with instrCount := s2.instrCount + 1 } :=
  step_of_exec hfatal hfetch hexec (by rw [hpc, interruptCheck_repeating hloop])

/-- A step that ends outside a REP, where the interrupt check has nothing to do. -/
theorem step_idle {s s1 s2 : State} {i : Instr} (hfatal : s.fatal = none) (hfetch : fetch s = .instr i)
    (hexec : exec i (beginInstr s) = .next s1) (hpc : updatePc s1 = s2) (hloop : s2.loopRep = false) (hidle : Idle s2) :
    step s = .next { s2 with instrCount := s2.instrCount + 1 } :=
  step_of_exec hfatal hfetch hexec (by rw [hpc, interruptCheck_idle hloop hidle])

/-! ### NOP -/

theorem decode_zero (e : Word) : decode 0 e = .ok .nop :=
  decode_of_lookupRow (lookupRow_of_accepts (rowOf_mem .nop) (encode_fits (i := .nop) rfl) rfl) e

theorem hasExtension_zero : hasExtension 0 = false := by decide +kernel

/-- Outside a DO loop the loop-end test never applies. -/
theorem notPastEnd {s : State} (h : s.sr.getLsbD srLF = false) : s.sr.getLsbD srLF = true → s.pc.toNat ≠ s.la.toNat + 1 :=
  fun hLF => absurd (hLF.symm.trans h) (by decide)

/-- A REP is in its passes over a NOP, outside a DO loop, and the interrupt check has nothing to do. -/
structure RepeatsNop (s : State) : Prop where
  fatal : s.fatal = none
  loop : s.loopRep = true
  first : s.pcOnRep = false
  bound : s.lc.toNat ≤ 0x10000
  outside : s.sr.getLsbD srLF = false
  idle : Idle s
  inside : s.pc.toNat < 4096
  word : s.pram.read s.pc.toNat = 0

namespace RepeatsNop
variable {s : State} (h : RepeatsNop s)
include h

theorem fetch_nop : fetch s = .instr .nop := by
  refine fetch_instr h.inside ?_ ?_ ?_
  · rw [h.word]
    exact decode_zero _
  · rw [h.word, hasExtension_zero]
    nofun
  · simp [ControlRow]

/-- A pass with another one left holds pc. -/
theorem step_left (hleft : 1 < s.lc.toNat) :
    step s = .next { s with lc := s.lc - 1, len := 0, instrCycle := 2, instrCount := s.instrCount + 1 } := by
  have hpc := updatePc_passes_left (s := beginInstr s) h.loop h.first h.bound hleft (notPastEnd h.outside)
  exact step_repeating h.fatal h.fetch_nop rfl hpc h.loop

/-- The last pass restores LC and moves on. -/
theorem step_last (hlast : s.lc.toNat = 1) :
    step s = .next { s with
      loopRep := false, lc := s.lcSaved.setWidth 17, pc := s.pc + 1, len := 1, instrCycle := 2
      instrCount := s.instrCount + 1 } := by
  have hpc := (updatePc_passes_over (s := beginInstr s) h.loop h.first hlast).trans (loopTested_before (notPastEnd h.outside))
  exact step_idle h.fatal h.fetch_nop rfl hpc rfl ⟨h.idle.state, h.idle.pending, h.idle.trace⟩

theorem after_pass (hleft : 1 < s.lc.toNat) :
    RepeatsNop { s with lc := s.lc - 1, len := 0, instrCycle := 2, instrCount := s.instrCount + 1 } where
  fatal := h.fatal
  loop := h.loop
  first := h.first
  bound := by have := h.bound; bv_omega
  outside := h.outside
  idle := ⟨h.idle.state, h.idle.pending, h.idle.trace⟩
  inside := h.inside
  word := h.word

end RepeatsNop

/-! ### The run -/

theorem run_of_step {s t : State} (h : step s = .next t) (k : Nat) :
    Sys2Proof.core.run (k + 1) s = Sys2Proof.core.run k t := by
  have hcore : Sys2Proof.core.step s = .next t := h
  simp only [Host.Core.run, hcore]

/-- The passes of a repeated NOP, as many as LC says. -/
theorem RepeatsNop.run {s : State} {k : Nat} (h : RepeatsNop s) (hk : s.lc.toNat = k + 1) :
    ∃ t : State, Sys2Proof.core.run (k + 1) s = .next t ∧ t.pc = s.pc + 1 ∧ t.lc = s.lcSaved.setWidth 17 ∧
      t.loopRep = false ∧ t.instrCount = s.instrCount + (k + 1) := by
  induction k generalizing s with
  | zero => exact ⟨_, run_of_step (h.step_last hk) 0, rfl, rfl, rfl, rfl⟩
  | succ k ih =>
    have hleft : 1 < s.lc.toNat := by omega
    obtain ⟨t, hrun, hpc, hlc, hloop, hcount⟩ := ih (h.after_pass hleft) (by dsimp only; bv_omega)
    exact ⟨t, (run_of_step (h.step_left hleft) _).trans hrun, hpc, hlc, hloop, hcount.trans (by dsimp only; omega)⟩

/-- The count that the REP's own PC update leaves in LC (R141, C4). -/
theorem primed_toNat (c : BitVec 12) :
    (if ((c.setWidth 16).setWidth 17 : BitVec 17) = 0 then 0x10000 else (c.setWidth 16).setWidth 17 : BitVec 17).toNat =
      if c = 0 then 65536 else c.toNat := by
  have hzero : ((c.setWidth 16).setWidth 17 : BitVec 17) = 0 ↔ c = 0 := by constructor <;> intro h <;> bv_omega
  simp only [hzero]
  split
  · rfl
  · bv_omega

/-- The state after the step of a REP #c: LC saved and primed, pc on the repeated instruction (R141, R263). -/
def repEntered (c : BitVec 12) (s : State) : State :=
  { s with
    lcSaved := s.lc.setWidth 16
    lc := if ((c.setWidth 16).setWidth 17 : BitVec 17) = 0 then 0x10000 else (c.setWidth 16).setWidth 17
    loopRep := true, pcOnRep := false, pc := s.pc + 1, len := 1, instrCycle := 4, instrCount := s.instrCount + 1 }

theorem step_repImm {s : State} {c : BitVec 12} (hfatal : s.fatal = none) (hfetch : fetch s = .instr (.repImm c))
    (hLF : s.sr.getLsbD srLF = false) : step s = .next (repEntered c s) := by
  have hpc := (updatePc_first (s := startRep (c.setWidth 16) (beginInstr s)) rfl rfl).trans (loopTested_before (notPastEnd hLF))
  exact step_repeating hfatal hfetch rfl hpc rfl

/-- REP #c over a NOP: one step for the REP and one for each pass. -/
theorem run_repImm_nop {s : State} {c : BitVec 12} (hfatal : s.fatal = none) (hloop : s.loopRep = false) (hidle : Idle s)
    (hLF : s.sr.getLsbD srLF = false) (hpc : s.pc.toNat < 4096) (hnext : (s.pc + 1).toNat < 4096)
    (hrep : decode (s.pram.read s.pc.toNat) 0 = .ok (.repImm c)) (hnop : s.pram.read (s.pc + 1).toNat = 0)
    {count : Nat} (hcount : count = if c = 0 then 65536 else c.toNat) :
    ∃ t : State, Sys2Proof.core.run (count + 1) s = .next t ∧ t.pc = s.pc + 2 ∧ t.lc = (s.lc.setWidth 16).setWidth 17 ∧
      t.loopRep = false ∧ t.instrCount = s.instrCount + count + 1 := by
  have hfetch : fetch s = .instr (.repImm c) :=
    fetch_instr hpc (hnop.symm ▸ hrep) (fun _ => hnext) fun hl => absurd (hl.symm.trans hloop) (by decide)
  have hlc : (repEntered c s).lc.toNat = count := (primed_toNat c).trans hcount.symm
  have hrange : 0 < count ∧ count ≤ 0x10000 := by rw [hcount]; split <;> bv_omega
  have hentered : RepeatsNop (repEntered c s) :=
    ⟨hfatal, rfl, rfl, hlc.trans_le hrange.2, hLF, ⟨hidle.state, hidle.pending, hidle.trace⟩, hnext, hnop⟩
  obtain ⟨k, rfl⟩ := Nat.exists_eq_succ_of_ne_zero hrange.1.ne'
  obtain ⟨t, hrun, htpc, htlc, htloop, htcount⟩ := hentered.run hlc
  refine ⟨t, (run_of_step (step_repImm hfatal hfetch hLF) _).trans hrun, htpc.trans ?_, htlc, htloop, htcount.trans ?_⟩
  · show s.pc + 1 + 1 = s.pc + 2
    rw [BitVec.add_assoc]
    rfl
  · show s.instrCount + 1 + (k + 1) = s.instrCount + (k + 1) + 1
    omega

/-- Settles O49: the updates of a REP case by case, its passes by induction on their number, and the run of a repeated NOP. -/
theorem repPcUpdates : Obligations.RepPcUpdates := by
  refine ⟨fun s hloop => ⟨updatePc_first hloop, fun hfirst => ⟨updatePc_pass hloop hfirst, updatePc_lastPass hloop hfirst⟩⟩,
    fun s n k hloop hfirst hmax hpc => ⟨passes_left n k hloop hfirst hmax hpc, fun hpos hk => ?_⟩, ?_⟩
  · obtain ⟨j, rfl⟩ := Nat.exists_eq_succ_of_ne_zero hpos.ne'
    exact passes_all n j hloop hfirst hmax hpc hk.symm
  · intro s c hfatal hloop hstate hpending htrace hLF hnext hpc hrep hnop
    exact run_repImm_nop hfatal hloop ⟨hstate, hpending, htrace⟩ hLF hpc hnext hrep hnop rfl

end Sys2Proof.Proofs
end

section
/-! PROOFS. The books of a step (R130, R147): its charge, the instruction count, and the fields that no step writes. First
the shared operations, then the instructions, the PC update and the interrupt check. -/

namespace Sys2Proof.Proofs

open Sys2Proof Sys2Proof.Machine Sys2Proof.Safety Sys2Proof.Claims

/-- What every part of a step keeps: the charge only grows, and the instruction count, the levels of the sources, the
peripheral shadow, the budget and the fault state stay (R147, R328, R44). -/
structure KeepsBooks (s t : State) : Prop where
  cycles : s.instrCycle ≤ t.instrCycle
  count : t.instrCount = s.instrCount
  ipl : t.ipl = s.ipl
  periph : t.periph = s.periph
  budget : t.budget = s.budget
  fatal : t.fatal = s.fatal

/-- No field of the books differs. -/
def SameBooks (s t : State) : Prop :=
  t.instrCycle = s.instrCycle ∧ t.instrCount = s.instrCount ∧ t.ipl = s.ipl ∧ t.periph = s.periph ∧ t.budget = s.budget ∧
  t.fatal = s.fatal

section
variable {s0 s t : State}

theorem KeepsBooks.refl (s : State) : KeepsBooks s s := ⟨le_rfl, rfl, rfl, rfl, rfl, rfl⟩

/-- An update that writes no field of the books. -/
theorem KeepsBooks.same (h : KeepsBooks s0 s) (e : SameBooks s t := by exact ⟨rfl, rfl, rfl, rfl, rfl, rfl⟩) :
    KeepsBooks s0 t := by
  obtain ⟨hcycles, hcount, hipl, hperiph, hbudget, hfatal⟩ := e
  exact ⟨hcycles ▸ h.cycles, hcount.trans h.count, hipl.trans h.ipl, hperiph.trans h.periph, hbudget.trans h.budget,
    hfatal.trans h.fatal⟩

/-! ### Registers, stack, memory -/

theorem KeepsBooks.addCycles (h : KeepsBooks s0 s) (n : Nat) : KeepsBooks s0 (addCycles s n) :=
  ⟨h.cycles.trans (Nat.le_add_right _ _), h.count, h.ipl, h.periph, h.budget, h.fatal⟩

theorem KeepsBooks.setSr (h : KeepsBooks s0 s) (v : BitVec 16) : KeepsBooks s0 (setSr s v) := h.same

theorem KeepsBooks.takeExtension (h : KeepsBooks s0 s) : KeepsBooks s0 (takeExtension s) := (h.addCycles _).same

theorem KeepsBooks.post (h : KeepsBooks s0 s) (src : IrqSource) : KeepsBooks s0 (post src s) := h.same (by simp [SameBooks])

theorem KeepsBooks.popState (h : KeepsBooks s0 s) : KeepsBooks s0 (popState s) := h.same (by simp [SameBooks])

theorem KeepsBooks.pushWith (h : KeepsBooks s0 s) (hi : BitVec 16) (lo : Option (BitVec 16)) :
    KeepsBooks s0 (pushWith hi lo s) := h.same (by simp [SameBooks])

theorem KeepsBooks.push (h : KeepsBooks s0 s) (a b : Word) : KeepsBooks s0 (push a b s) := h.pushWith _ _

theorem KeepsBooks.unwindLoop (h : KeepsBooks s0 s) : KeepsBooks s0 (unwindLoop s) :=
  (h.popState.setSr _).popState.same

/-- A write of a register charges nothing (R33). -/
theorem KeepsBooks.writeReg {r : Reg} {v : Word} (h : KeepsBooks s0 s) (hw : writeReg r v s = .ok t) : KeepsBooks s0 t := by
  cases r <;> cases hw
  case sp => unfold writeSp; dsimp only; split <;> exact h.same (by simp [SameBooks])
  case ssh => exact h.pushWith _ _
  all_goals exact h.same

theorem KeepsBooks.readReg {r : Reg} {v : Word} (h : KeepsBooks s0 s) (hr : readReg r s = .ok (v, t)) : KeepsBooks s0 t := by
  rcases readReg_ok hr with rfl | rfl | ⟨-, rfl⟩
  · exact h
  · exact h.same
  · exact h.popState

theorem KeepsBooks.memLoad {sp : Space} {a v : Word} (h : KeepsBooks s0 s) (hl : memLoad sp a s = .ok (v, t)) :
    KeepsBooks s0 t := by
  rcases memLoad_ok hl with rfl | rfl
  · exact h
  · exact h.same

/-- A store writes no field of the books, nor does the DMA walk it may start (R68, R308). -/
theorem KeepsBooks.attemptStore {sp : Space} {a v : Word} (h : KeepsBooks s0 s) (hw : attemptStore sp a v s = .ok t) :
    KeepsBooks s0 t := by
  rw [(memStore_ok (reasonOnly_ok.2 hw)).1]
  exact h.same

theorem KeepsBooks.applyUpdate (h : KeepsBooks s0 s) (u : Option (Fin 8 × Word)) : KeepsBooks s0 (applyUpdate u s) := by
  cases u with
  | none => exact h
  | some p => exact h.same

theorem KeepsBooks.enterEa {ea : EaAddr} {a : Word} (h : KeepsBooks s0 s) (he : enterEa ea s = .ok (a, t)) : KeepsBooks s0 t := by
  obtain ⟨u, -, -, rfl⟩ := enterEa_ok he
  split
  · exact (h.applyUpdate _).takeExtension
  · exact h.applyUpdate _

/-! ### Parallel moves -/

theorem KeepsBooks.readMoves {l : List (Reg × Reg)} {ws : List MoveWrite} (h : KeepsBooks s0 s)
    (hr : readMoves l s = .ok (ws, t)) : KeepsBooks s0 t := by
  induction l generalizing s ws with
  | nil => cases hr; exact h
  | cons p rest ih =>
    obtain ⟨⟨v, s1⟩, h1, hr⟩ := bind_ok.1 hr
    obtain ⟨⟨ws', s2⟩, h2, hr⟩ := bind_ok.1 hr
    cases hr
    exact ih (h.readReg h1) h2

theorem KeepsBooks.planEa {sp : Space} {r : Reg} {mv : EaMove} {others : List (Reg × Reg)} {p : EaPlan} (h : KeepsBooks s0 s)
    (hp : planEa sp r mv others s = .ok p) : KeepsBooks s0 p.state := by
  unfold Machine.planEa at hp
  split at hp
  · obtain ⟨⟨ws, s1⟩, h1, hp⟩ := bind_ok.1 hp
    cases hp
    exact h.readMoves h1
  · obtain ⟨u, -, hp⟩ := bind_ok.1 hp
    obtain ⟨⟨ws, s1⟩, h1, hp⟩ := bind_ok.1 hp
    obtain ⟨⟨v, s2⟩, h2, hp⟩ := bind_ok.1 hp
    cases hp
    exact (h.readMoves h1).memLoad h2
  · obtain ⟨u, -, hp⟩ := bind_ok.1 hp
    obtain ⟨⟨v, s1⟩, h1, hp⟩ := bind_ok.1 hp
    obtain ⟨⟨ws, s2⟩, h2, hp⟩ := bind_ok.1 hp
    cases hp
    exact (h.readReg h1).readMoves h2

/-- The plans made of one memory part and register parts beside it, in either order of their writes. -/
theorem KeepsBooks.planOfEa {sp : Space} {r : Reg} {mv : EaMove} {others : List (Reg × Reg)} {order : EaPlan → MovePlan}
    (horder : ∀ q, (order q).state = q.state) (h : KeepsBooks s0 s) {p : MovePlan}
    (hp : (Machine.planEa sp r mv others s >>= fun q => .ok (order q)) = .ok p) : KeepsBooks s0 p.state := by
  obtain ⟨q, hq, hp⟩ := bind_ok.1 hp
  cases hp
  rw [horder]
  exact h.planEa hq

theorem KeepsBooks.planMoveUpdate {mode : UpdateMode} {i : Fin 8} {p : MovePlan} (h : KeepsBooks s0 s)
    (hp : planMoveUpdate mode i s = .ok p) : KeepsBooks s0 p.state := by
  obtain ⟨u, -, hp⟩ := bind_ok.1 hp
  cases hp
  exact h

theorem KeepsBooks.planMoveRegReg {src dst : Reg} {p : MovePlan} (h : KeepsBooks s0 s) (hp : planMoveRegReg src dst s = .ok p) :
    KeepsBooks s0 p.state := by
  obtain ⟨⟨ws, s1⟩, h1, hp⟩ := bind_ok.1 hp
  cases hp
  exact h.readMoves h1

theorem KeepsBooks.planMoveXYAa {sp : Space} {r : Reg} {w : Dir} {aa : BitVec 6} {p : MovePlan} (h : KeepsBooks s0 s)
    (hp : planMoveXYAa sp r w aa s = .ok p) : KeepsBooks s0 p.state := by
  cases w <;> (obtain ⟨⟨v, s1⟩, h1, hp⟩ := bind_ok.1 hp; cases hp)
  case load => exact h.memLoad h1
  case store => exact h.readReg h1

/-- Reading the two registers of an L pair, one after the other. -/
theorem KeepsBooks.readBoth {hi lo : Reg} {x : (Word × Word) × State} (h : KeepsBooks s0 s)
    (hr : (do
      let (v, s1) ← Machine.readReg hi s
      let (w, s2) ← Machine.readReg lo s1
      .ok ((v, w), s2) : Except Fault ((Word × Word) × State)) = .ok x) : KeepsBooks s0 x.2 := by
  obtain ⟨⟨v, s1⟩, h1, hr⟩ := bind_ok.1 hr
  obtain ⟨⟨w, s2⟩, h2, hr⟩ := bind_ok.1 hr
  cases hr
  exact (h.readReg h1).readReg h2

theorem KeepsBooks.readPair {l : LPair} {x : (Word × Word) × State} (h : KeepsBooks s0 s) (hr : readPair l s = .ok x) :
    KeepsBooks s0 x.2 := by
  cases l
  case a | b =>
    simp only [Machine.readPair] at hr
    split at hr <;> cases hr
    dsimp only
    split
    · exact h.setSr _
    · exact h
  all_goals exact h.readBoth hr

theorem KeepsBooks.planLong {l : LPair} {w : Dir} {a : Word} {us : List (Fin 8 × Word)} {ext : Bool} {p : MovePlan}
    (h : KeepsBooks s0 s) (hp : planLong l w a us ext s = .ok p) : KeepsBooks s0 p.state := by
  cases w with
  | load =>
    obtain ⟨⟨hi, s1⟩, h1, hp⟩ := bind_ok.1 hp
    obtain ⟨⟨lo, s2⟩, h2, hp⟩ := bind_ok.1 hp
    cases hp
    exact (h.memLoad h1).memLoad h2
  | store =>
    obtain ⟨⟨v, s1⟩, h1, hp⟩ := bind_ok.1 hp
    cases hp
    exact h.readPair h1

theorem KeepsBooks.planMoveLEa {l : LPair} {w : Dir} {ea : EaAddr} {p : MovePlan} (h : KeepsBooks s0 s)
    (hp : planMoveLEa l w ea s = .ok p) : KeepsBooks s0 p.state := by
  obtain ⟨u, -, hp⟩ := bind_ok.1 hp
  exact h.planLong hp

theorem KeepsBooks.xySource {w : Dir} {r : Reg} {v : Word} (h : KeepsBooks s0 s) (hx : xySource w r s = .ok (v, t)) :
    KeepsBooks s0 t := by
  cases w with
  | store => exact h.readReg hx
  | load => cases hx; exact h

theorem KeepsBooks.xyWrite {w : Dir} {sp : Space} {r : Reg} {a v : Word} {m : MoveWrite} (h : KeepsBooks s0 s)
    (hx : xyWrite w sp r a v s = .ok (m, t)) : KeepsBooks s0 t := by
  cases w with
  | store => cases hx; exact h
  | load =>
    obtain ⟨⟨x, s1⟩, h1, hx⟩ := bind_ok.1 hx
    cases hx
    exact h.memLoad h1

theorem KeepsBooks.planMoveXYDouble {wy : Dir} {my : XyMode} {e : XSide} {f : YSide} {wx : Dir} {rr : BitVec 2} {mx : XyMode}
    {i : Fin 8} {p : MovePlan} (h : KeepsBooks s0 s) (hp : planMoveXYDouble wy my e f wx rr mx i s = .ok p) :
    KeepsBooks s0 p.state := by
  unfold Machine.planMoveXYDouble at hp
  split at hp
  · cases hp
  obtain ⟨ux, -, hp⟩ := bind_ok.1 hp
  obtain ⟨uy, -, hp⟩ := bind_ok.1 hp
  obtain ⟨⟨vx, s1⟩, h1, hp⟩ := bind_ok.1 hp
  obtain ⟨⟨vy, s2⟩, h2, hp⟩ := bind_ok.1 hp
  obtain ⟨⟨px, s3⟩, h3, hp⟩ := bind_ok.1 hp
  obtain ⟨⟨py, s4⟩, h4, hp⟩ := bind_ok.1 hp
  cases hp
  exact (((h.xySource h1).xySource h2).xyWrite h3).xyWrite h4

theorem KeepsBooks.applyAlu (h : KeepsBooks s0 s) (e : AluEffect) : KeepsBooks s0 (applyAlu e s) := by
  rw [applyAlu_eq]
  exact h.same

theorem KeepsBooks.applyUpdates (h : KeepsBooks s0 s) (us : List (Fin 8 × Word)) : KeepsBooks s0 (applyUpdates us s) := by
  induction us generalizing s with
  | nil => exact h
  | cons u rest ih => exact ih h.same

theorem KeepsBooks.applyWrites {ws : List MoveWrite} (h : KeepsBooks s0 s) (hw : applyWrites ws s = .ok t) :
    KeepsBooks s0 t := by
  induction ws generalizing s with
  | nil => cases hw; exact h
  | cons w rest ih =>
    obtain ⟨s1, h1, hw⟩ := bind_ok.1 hw
    refine ih ?_ hw
    cases w with
    | reg r v => exact h.writeReg (raisedIn_ok.1 h1)
    | mem sp a v => exact h.attemptStore h1

/-- A parallel move keeps the books where its reads do; an extension word adds to the charge. -/
theorem KeepsBooks.runMove {op : AluOp} {plan : State → Except Fault MovePlan} (hplan : ∀ p, plan s = .ok p → KeepsBooks s0 p.state)
    (hm : runMove op plan s = .next t) : KeepsBooks s0 t := by
  obtain ⟨p, e, hp, -, hc⟩ := runMove_next.1 hm
  have h1 := ((hplan p hp).applyAlu e).applyUpdates p.updates
  unfold commitMove at hc
  dsimp only at hc
  split at hc
  · exact h1.takeExtension.applyWrites hc
  · exact h1.applyWrites hc

theorem KeepsBooks.runAlu {f : State → Except Fault AluEffect} (h : KeepsBooks s0 s) (hm : runAlu f s = .next t) :
    KeepsBooks s0 t := by
  obtain ⟨e, -, rfl⟩ := runAlu_next.1 hm
  exact h.applyAlu e

/-! ### Program control -/

theorem KeepsBooks.takeJump (h : KeepsBooks s0 s) (a : Word) : KeepsBooks s0 (takeJump a s) :=
  KeepsBooks.addCycles (s := jumpTo s a) h.same _

theorem KeepsBooks.skipJump (h : KeepsBooks s0 s) : KeepsBooks s0 (skipJump s) := h.addCycles _

theorem KeepsBooks.callAlways (h : KeepsBooks s0 s) (a len : Word) : KeepsBooks s0 (callAlways a len s) :=
  (h.push _ _).takeJump a

theorem KeepsBooks.callTo (h : KeepsBooks s0 s) (a len : Word) : KeepsBooks s0 (callTo a len s) := by
  unfold Machine.callTo
  split
  · exact KeepsBooks.takeJump (s := { s with interruptState := .disabled }) h.same a
  · exact (h.push _ _).takeJump a

theorem KeepsBooks.startRep (h : KeepsBooks s0 s) (count : BitVec 16) : KeepsBooks s0 (startRep count s) :=
  (h.addCycles _).same

theorem KeepsBooks.startDo (h : KeepsBooks s0 s) (count : BitVec 16) (last : Word) : KeepsBooks s0 (startDo count last s) := by
  have hsaved : KeepsBooks s0 { saveLoop s with la := last.setWidth 16 } := (h.push (s.la.setWidth 24) (s.lc.setWidth 24)).same
  have hpushed := hsaved.push ((saveLoop s).pc + 2) ((saveLoop s).sr.setWidth 24)
  unfold Machine.startDo
  dsimp only
  generalize Machine.push _ _ { saveLoop s with la := last.setWidth 16 } = s2 at hpushed ⊢
  exact KeepsBooks.addCycles hpushed.same _

theorem KeepsBooks.countAa {aa : BitVec 6} {sp : Space} {v : Word} (h : KeepsBooks s0 s) (hc : countAa aa sp s = .ok (v, t)) :
    KeepsBooks s0 t := h.memLoad (raisedIn_ok.1 hc)

theorem KeepsBooks.countEa {mode : EaMode} {i : Fin 8} {sp : Space} {v : Word} (h : KeepsBooks s0 s)
    (hc : countEa mode i sp s = .ok (v, t)) : KeepsBooks s0 t := by
  obtain ⟨⟨a, s1⟩, h1, hc⟩ := bind_ok.1 hc
  exact (h.enterEa (raisedIn_ok.1 h1)).memLoad (raisedIn_ok.1 hc)

theorem KeepsBooks.countReg {r : Reg} {v : Word} (h : KeepsBooks s0 s) (hc : countReg r s = .ok (v, t)) : KeepsBooks s0 t :=
  h.readReg (raisedIn_ok.1 hc)

/-! ### MOVEC -/

theorem KeepsBooks.copyReg {src dst : Reg} (h : KeepsBooks s0 s) (hc : copyReg src dst s = .ok t) : KeepsBooks s0 t := by
  obtain ⟨⟨v, s1⟩, h1, hc⟩ := bind_ok.1 hc
  exact (h.readReg (raisedIn_ok.1 h1)).writeReg (raisedIn_ok.1 hc)

theorem KeepsBooks.loadReg {sp : Space} {a : Word} {c : Reg} (h : KeepsBooks s0 s) (hl : loadReg sp a c s = .ok t) :
    KeepsBooks s0 t := by
  obtain ⟨⟨v, s1⟩, h1, hl⟩ := bind_ok.1 hl
  exact (h.memLoad (raisedIn_ok.1 h1)).writeReg (raisedIn_ok.1 hl)

theorem KeepsBooks.storeReg {sp : Space} {a : Word} {c : Reg} (h : KeepsBooks s0 s) (hs : storeReg sp a c s = .ok t) :
    KeepsBooks s0 t := by
  obtain ⟨⟨v, s1⟩, h1, hs⟩ := bind_ok.1 hs
  exact (h.readReg (raisedIn_ok.1 h1)).attemptStore hs

theorem KeepsBooks.attemptMovecEa {mv : EaMove} {sp : Space} {c : Reg} (h : KeepsBooks s0 s)
    (hm : attemptMovecEa mv sp c s = .ok t) : KeepsBooks s0 t := by
  unfold Machine.attemptMovecEa at hm
  split at hm
  · exact h.takeExtension.writeReg (raisedIn_ok.1 hm)
  · obtain ⟨⟨a, s1⟩, h1, hm⟩ := bind_ok.1 hm
    exact (h.enterEa (raisedIn_ok.1 h1)).loadReg hm
  · obtain ⟨⟨a, s1⟩, h1, hm⟩ := bind_ok.1 hm
    exact (h.enterEa (raisedIn_ok.1 h1)).storeReg hm

/-! ### The dispatch -/

/-- Every instruction that answers a next state keeps the books. -/
theorem KeepsBooks.exec {i : Instr} (h : KeepsBooks s0 s) (he : exec i s = .next t) : KeepsBooks s0 t := by
  cases i with
  | nop | wait | stop => cases he; exact h
  | illegal | trap => cases he; exact h.post _
  | rti | rts => cases he; exact (h.popState.addCycles _).same
  | enddo => cases he; exact h.unwindLoop
  | andi k target | ori k target => cases target <;> (cases he; exact h.same)
  | movecReg w r c => cases w <;> exact h.copyReg (toOutcome_next.1 he)
  | movecEa mv sp c => exact h.attemptMovecEa (toOutcome_next.1 he)
  | movecAa w aa sp c =>
    cases w with
    | load => exact h.loadReg (toOutcome_next.1 he)
    | store => exact h.storeReg (toOutcome_next.1 he)
  | movecImm k c => exact h.writeReg (raisedIn_ok.1 (toOutcome_next.1 he))
  | repImm count => cases he; exact h.startRep _
  | repAa aa sp =>
    obtain ⟨⟨v, s1⟩, h1, he⟩ := bind_ok.1 (toOutcome_next.1 he)
    cases he
    exact (h.countAa h1).startRep _
  | repEa mode k sp =>
    obtain ⟨⟨v, s1⟩, h1, he⟩ := bind_ok.1 (toOutcome_next.1 he)
    cases he
    exact (h.countEa h1).startRep _
  | repReg r =>
    obtain ⟨⟨v, s1⟩, h1, he⟩ := bind_ok.1 (toOutcome_next.1 he)
    cases he
    exact (h.countReg h1).startRep _
  | doImm count last => cases he; exact h.startDo _ _
  | doAa aa sp last =>
    obtain ⟨⟨v, s1⟩, h1, he⟩ := bind_ok.1 (toOutcome_next.1 he)
    cases he
    exact (h.countAa h1).startDo _ _
  | doEa mode k sp last =>
    obtain ⟨⟨v, s1⟩, h1, he⟩ := bind_ok.1 (toOutcome_next.1 he)
    cases he
    exact (h.countEa h1).startDo _ _
  | doReg r last =>
    obtain ⟨⟨v, s1⟩, h1, he⟩ := bind_ok.1 (toOutcome_next.1 he)
    cases he
    exact (h.countReg h1).startDo _ _
  | jmpEa ea =>
    obtain ⟨⟨a, s1⟩, h1, he⟩ := bind_ok.1 (toOutcome_next.1 he)
    cases he
    exact (h.enterEa (raisedIn_ok.1 h1)).takeJump _
  | jccEa ea cond =>
    obtain ⟨⟨a, s1⟩, h1, he⟩ := bind_ok.1 (toOutcome_next.1 he)
    have hs1 := h.enterEa (raisedIn_ok.1 h1)
    cases he
    split
    · exact hs1.takeJump _
    · exact hs1.skipJump
  | jsrEa ea =>
    obtain ⟨⟨a, s1⟩, h1, he⟩ := bind_ok.1 (toOutcome_next.1 he)
    cases he
    exact (h.enterEa (raisedIn_ok.1 h1)).callTo _ _
  | jsccEa ea cond =>
    obtain ⟨⟨a, s1⟩, h1, he⟩ := bind_ok.1 (toOutcome_next.1 he)
    have hs1 := h.enterEa (raisedIn_ok.1 h1)
    cases he
    split
    · exact hs1.callAlways _ _
    · exact hs1.skipJump
  | jmpAbs a => cases he; exact h.takeJump _
  | jsrAbs a => cases he; exact h.callTo _ _
  | jccAbs cond a =>
    cases he
    split
    · exact h.takeJump _
    · exact h.skipJump
  | jsccAbs cond a =>
    cases he
    split
    · exact h.callAlways _ _
    · exact h.skipJump
  | moveXRII | moveRYII | moveXRI | moveRYI | moveXYEa => exact .runMove (fun _ hp => h.planOfEa (fun _ => rfl) hp) he
  | noMove | moveImm => exact .runMove (fun _ hp => by cases hp; exact h) he
  | moveUpdate => exact .runMove (fun _ hp => h.planMoveUpdate hp) he
  | moveRegReg => exact .runMove (fun _ hp => h.planMoveRegReg hp) he
  | moveXYAa => exact .runMove (fun _ hp => h.planMoveXYAa hp) he
  | moveLEa => exact .runMove (fun _ hp => h.planMoveLEa hp) he
  | moveLAa => exact .runMove (fun _ hp => h.planLong hp) he
  | moveXYDouble => exact .runMove (fun _ hp => h.planMoveXYDouble hp) he
  | _ =>
    -- the rows left are the data ALU operations with no parallel move (R221)
    simp only [Machine.exec] at he
    exact h.runAlu he

/-! ### The PC update -/

theorem KeepsBooks.repUpdate (h : KeepsBooks s0 s) : KeepsBooks s0 (repUpdate s) := by
  rcases repUpdate_cases s with ⟨-, he⟩ | ⟨-, -, he⟩ | ⟨-, -, -, he⟩ | ⟨-, -, -, he⟩ <;> (rw [he]; exact h.same)

theorem KeepsBooks.loopEnd (h : KeepsBooks s0 s) : KeepsBooks s0 (loopEnd s) := by
  rcases loopEnd_cases s with ⟨-, he⟩ | ⟨-, -, he⟩ | ⟨-, -, he⟩ <;> rw [he]
  · exact h
  · exact KeepsBooks.unwindLoop (s := { s with lc := decLc s.lc }) h.same
  · exact h.same

theorem KeepsBooks.updatePc (h : KeepsBooks s0 s) : KeepsBooks s0 (updatePc s) :=
  KeepsBooks.loopEnd (s := advancePc (Machine.repUpdate s)) h.repUpdate.same

/-! ### The interrupt check -/

theorem KeepsBooks.traceAndArbitrate (h : KeepsBooks s0 s) (ha : traceAndArbitrate s = .ok t) : KeepsBooks s0 t := by
  have h1 : KeepsBooks s0 (if s.sr.getLsbD srT then Machine.post .trace s else s) := by
    split
    · exact h.post _
    · exact h
  rcases traceAndArbitrate_cases s with ⟨-, he⟩ | ⟨-, -, he⟩ | ⟨-, i, -, he⟩ <;> rw [he] at ha
  · cases ha
    exact h1
  · cases ha
    exact h1
  · obtain ⟨-, rfl⟩ := takeInterrupt_ok.1 ha
    exact h1.same

theorem KeepsBooks.inspectVector (h : KeepsBooks s0 s) (hv : inspectVector s = .ok t) : KeepsBooks s0 t := by
  rcases inspectVector_ok hv with rfl | ⟨saved, rfl⟩
  · exact h
  · exact (KeepsBooks.push (s := { s with interruptState := .long, longTaken := true }) h.same saved (s.sr.setWidth 24)).same

theorem KeepsBooks.pipelineFour (h : KeepsBooks s0 s) (hp : pipelineFour s = .ok t) : KeepsBooks s0 t := by
  unfold Machine.pipelineFour at hp
  split at hp
  · cases hp
    exact h.same
  · obtain ⟨s1, h1, hp⟩ := bind_ok.1 hp
    cases hp
    exact (KeepsBooks.inspectVector h.same h1).same

theorem KeepsBooks.pipelineThree (h : KeepsBooks s0 s) (hp : pipelineThree s = .ok t) : KeepsBooks s0 t := by
  unfold Machine.pipelineThree at hp
  split at hp
  · cases hp
    exact h.same
  split at hp
  · obtain ⟨s1, h1, hp⟩ := bind_ok.1 hp
    cases hp
    exact (h.inspectVector h1).same
  · cases hp
    exact h.same

theorem KeepsBooks.pipelineStep (h : KeepsBooks s0 s) (hp : pipelineStep s = .ok t) : KeepsBooks s0 t := by
  rcases pipelineStep_ok hp with ⟨-, rfl⟩ | ⟨-, hp⟩ | ⟨-, hp⟩ | ⟨-, rfl⟩ | ⟨-, rfl⟩ | ⟨-, hp⟩
  · exact h.same
  · exact h.pipelineFour hp
  · exact h.pipelineThree hp
  · rw [pipelineTwo_eq]
    exact h.same
  · exact h.same
  · exact KeepsBooks.traceAndArbitrate (s := leavePipeline s) h.same hp

theorem KeepsBooks.interruptCheck (h : KeepsBooks s0 s) (hc : interruptCheck s = .ok t) : KeepsBooks s0 t := by
  rcases interruptCheck_ok hc with ⟨-, rfl⟩ | ⟨-, -, ha⟩ | ⟨-, -, hp⟩
  · exact h
  · exact h.traceAndArbitrate ha
  · exact h.pipelineStep hp

end

/-- Settles O8: a step starts with the charge 2, each of its parts keeps the books, and it counts itself at its end. -/
theorem everyStepBookkeeping : Obligations.EveryStepBookkeeping := by
  intro s t h
  obtain ⟨-, s1, s2, hrun, hcheck, rfl⟩ := step_next h
  have hexec : KeepsBooks (beginInstr s) s1 := by
    rcases hrun with ⟨i, -, he⟩ | ⟨-, rfl⟩
    · exact (KeepsBooks.refl _).exec he
    · exact .refl _
  have hbooks : KeepsBooks (beginInstr s) s2 := hexec.updatePc.interruptCheck hcheck
  exact ⟨hbooks.cycles, congrArg (· + 1) hbooks.count, hbooks.ipl, hbooks.periph, hbooks.budget, hbooks.fatal⟩

end Sys2Proof.Proofs
end

section
/-! PROOFS. The arithmetic unit (R160 to R169, R171): each primitive against exact integers. A result is the 56-bit pattern
of an integer, and overflow is that integer outside the signed range. -/

namespace Sys2Proof.Proofs

open Sys2Proof Sys2Proof.Machine Sys2Proof.Safety Sys2Proof.Claims

/-! ### Patterns of integers -/

@[simp] theorem pattern_toInt (x : Word56) : pattern x.toInt = x := BitVec.ofInt_toInt

theorem pattern_toNat (x : Word56) : pattern x.toNat = x := by
  rw [pattern, BitVec.ofInt_natCast, BitVec.ofNat_toNat, BitVec.setWidth_eq]

@[simp] theorem pattern_add (y z : Int) : pattern (y + z) = pattern y + pattern z := BitVec.ofInt_add y z

@[simp] theorem pattern_neg (z : Int) : pattern (-z) = -pattern z := BitVec.ofInt_neg

@[simp] theorem pattern_sub (y z : Int) : pattern (y - z) = pattern y - pattern z := by
  rw [Int.sub_eq_add_neg, pattern_add, pattern_neg, BitVec.sub_eq_add_neg]

/-- An integer that does not overflow is the value of its pattern. -/
theorem toInt_pattern {z : Int} (h : overflows z = false) : (pattern z).toInt = z := by
  simp only [overflows, decide_eq_false_iff_not] at h
  exact BitVec.toInt_ofInt_eq_self (by decide) (by omega) (by omega)

/-- The value of a pattern differs from its integer by a multiple of 2^56. -/
theorem toInt_pattern_mod (z : Int) : ∃ j, (pattern z).toInt = z + 2 ^ 56 * j := by
  have h := Int.bmod_add_bdiv z (2 ^ 56)
  rw [pattern, BitVec.toInt_ofInt]
  exact ⟨-Int.bdiv z (2 ^ 56), by omega⟩

/-- Two integers a multiple of 2^56 apart have one pattern. -/
theorem pattern_add_mul (z j : Int) : pattern (z + 2 ^ 56 * j) = pattern z := by
  have h : pattern (2 ^ 56 * j) = 0 := by
    rw [pattern, BitVec.ofInt_mul, show BitVec.ofInt 56 (2 ^ 56) = 0 by decide]
    exact BitVec.zero_mul
  rw [pattern_add, h]
  exact BitVec.add_zero _

/-! ### Add and subtract (R164, R165) -/

@[simp] theorem add56_r (a b : Word56) : (add56 a b).r = a + b := by
  simp [add56, BitVec.ofNat_add]

@[simp] theorem sub56_r (a b : Word56) : (sub56 a b).r = a - b := by
  show pattern (a.toNat - b.toNat) = a - b
  rw [pattern_sub, pattern_toNat, pattern_toNat]

@[simp] theorem add56_c (a b : Word56) : (add56 a b).c = decide (2 ^ 56 ≤ a.toNat + b.toNat) := rfl

@[simp] theorem sub56_c (a b : Word56) : (sub56 a b).c = decide (a.toNat < b.toNat) := rfl

/-- "Operands same sign, result differs" says that the sum leaves the signed range. -/
@[simp] theorem add56_v (a b : Word56) : (add56 a b).v = overflows (a.toInt + b.toInt) := by
  calc (add56 a b).v = a.saddOverflow b := by
        rw [BitVec.saddOverflow_eq, ← add56_r]
        rfl
    _ = overflows (a.toInt + b.toInt) := by
        rw [BitVec.saddOverflow, overflows]
        simp [or_comm]

@[simp] theorem sub56_v (a b : Word56) : (sub56 a b).v = overflows (a.toInt - b.toInt) := by
  calc (sub56 a b).v = a.ssubOverflow b := by
        rw [BitVec.ssubOverflow_eq, ← sub56_r]
        show (a.msb != b.msb && (sub56 a b).r.msb != a.msb) = _
        cases a.msb <;> cases b.msb <;> simp
    _ = overflows (a.toInt - b.toInt) := by
        rw [BitVec.ssubOverflow, overflows]
        simp [or_comm]

/-- Settles O18, from the equations of the result, the carry and the overflow. -/
theorem adderAndSubtractor : Obligations.AdderAndSubtractor := by
  intro a b
  refine ⟨?_, by simp, add56_v a b, ?_, by simp, sub56_v a b, by simp⟩
  · rw [add56_r, BitVec.toNat_add]
  · rw [sub56_r, BitVec.toNat_sub]
    omega

/-! ### Shifts (R167, R168) -/

theorem toInt_sshiftRight_eq_div (a : Word56) (n : Nat) : (a.sshiftRight n).toInt = a.toInt / 2 ^ n := by
  rw [BitVec.toInt_sshiftRight, Int.shiftRight_eq_div_pow]
  norm_cast

/-- Bits 55 to `lo` all hold the sign exactly where the value lies in [-2^lo, 2^lo). -/
theorem signBits_iff (a : Word56) {lo : Nat} (hlo : lo ≤ 55) :
    (∀ k, lo ≤ k → k ≤ 55 → a.getLsbD k = a.msb) ↔ -2 ^ lo ≤ a.toInt ∧ a.toInt < 2 ^ lo := by
  have hpos : (0 : Int) < 2 ^ lo := by positivity
  calc (∀ k, lo ≤ k → k ≤ 55 → a.getLsbD k = a.msb)
      ↔ a.sshiftRight lo = .fill 56 a.msb := by
        constructor
        · intro h
          apply BitVec.eq_of_getLsbD_eq
          intro i hi
          rw [BitVec.getLsbD_sshiftRight, BitVec.getLsbD_fill]
          split
          · simp [hi, h (lo + i) (by omega) (by omega)]
          · simp [hi]
        · intro h k hk hk'
          have hbit := congrArg (·.getLsbD (k - lo)) h
          rw [BitVec.getLsbD_sshiftRight, BitVec.getLsbD_fill, show lo + (k - lo) = k by omega, if_pos (by omega)] at hbit
          simpa only [show k - lo < 56 by omega, not_le_of_gt, decide_true, decide_false, Bool.not_false, Bool.true_and,
            Bool.and_true] using hbit
    _ ↔ a.toInt / 2 ^ lo = if a.toInt < 0 then -1 else 0 := by
        rw [← BitVec.toInt_inj, toInt_sshiftRight_eq_div, BitVec.msb_eq_toInt]
        by_cases h : a.toInt < 0 <;> simp [h, BitVec.fill]
    _ ↔ -2 ^ lo ≤ a.toInt ∧ a.toInt < 2 ^ lo := by
        rw [Int.ediv_eq_iff_of_pos hpos]
        split <;> omega

@[simp] theorem asr56_r (a : Word56) (n : Nat) : (asr56 a n).r = pattern (a.toInt / 2 ^ n) := rfl

theorem asl56_r (a : Word56) (n : Nat) : (asl56 a n).r = pattern (a.toInt * 2 ^ n) := by
  have hpow : BitVec.twoPow 56 n = pattern (2 ^ n) := by
    have hnat : pattern ((2 ^ n : Nat) : Int) = BitVec.ofNat 56 (2 ^ n) := BitVec.ofInt_natCast 56 (2 ^ n)
    rw [← BitVec.toNat_inj, BitVec.toNat_twoPow, ← BitVec.toNat_ofNat, ← hnat]
    push_cast
    rfl
  calc a <<< n = a * BitVec.twoPow 56 n := BitVec.shiftLeft_eq_mul_twoPow a n
    _ = pattern (a.toInt * 2 ^ n) := by rw [pattern, BitVec.ofInt_mul, BitVec.ofInt_toInt, hpow, pattern]

/-- No bit differs from the new sign exactly where bits 55 to 55-n all hold the old one. -/
theorem highBitsDiffer_eq_false {a : Word56} {n : Nat} (hn : n ≤ 55) :
    highBitsDiffer a n (a.getLsbD (55 - n)) = false ↔ ∀ k, 55 - n ≤ k → k ≤ 55 → a.getLsbD k = a.msb := by
  have hmsb : a.msb = a.getLsbD 55 := BitVec.msb_eq_getLsbD_last a
  simp only [highBitsDiffer, List.any_eq_false, List.mem_range, bne_iff_ne, ne_eq, not_not, hmsb]
  constructor
  · intro h k hk hk'
    have hk1 := h (55 - k) (by omega)
    have h0 := h 0 (by omega)
    rw [show 55 - (55 - k) = k by omega] at hk1
    rw [hk1, ← h0]
  · intro h k hk
    rw [h (55 - k) (by omega) (by omega), h (55 - n) (by omega) (by omega)]

/-- A shift left overflows where a bit it shifts out, or the new sign, is not the old sign. -/
theorem asl56_v (a : Word56) {n : Nat} (hn : n ≤ 55) : (asl56 a n).v = overflows (a.toInt * 2 ^ n) := by
  have hnew : (asl56 a n).r.msb = a.getLsbD (55 - n) := by
    rw [BitVec.msb_eq_getLsbD_last]
    simp [asl56, show ¬ 55 < n by omega, show 55 - n < 56 by omega]
  have hdiffer : (asl56 a n).v = highBitsDiffer a n (a.getLsbD (55 - n)) := by
    show (n != 0 && highBitsDiffer a n (asl56 a n).r.msb) = _
    rw [hnew]
    rcases n with _ | n
    · simp [highBitsDiffer]
    · rfl
  have hpow : (2 : Int) ^ 55 = 2 ^ (55 - n) * 2 ^ n := by rw [← pow_add, show 55 - n + n = 55 by omega]
  have hpos : (0 : Int) < 2 ^ n := by positivity
  have hrange : highBitsDiffer a n (a.getLsbD (55 - n)) = false ↔ overflows (a.toInt * 2 ^ n) = false := by
    rw [highBitsDiffer_eq_false hn, signBits_iff a (by omega), overflows, decide_eq_false_iff_not, not_or, not_lt, not_le, hpow,
      mul_lt_mul_iff_left₀ hpos, ← neg_mul, mul_le_mul_iff_left₀ hpos]
  rw [hdiffer]
  exact Bool.eq_iff_iff.2 (not_iff_not.1 (by simpa using hrange))

/-- Settles O19: a shift left that does not overflow is the exact product, which the shift right divides again. -/
theorem shiftLeftThenRight : Obligations.ShiftLeftThenRight := by
  intro a n hn
  refine ⟨asr56_r a n, ?_, rfl, ?_, ?_, asl56_v a hn, fun h => ?_⟩
  · cases n <;> rfl
  · rw [← Nat.shiftLeft_eq]
    exact BitVec.toNat_shiftLeft
  · cases n <;> rfl
  · rw [asl56_v a hn] at h
    rw [asr56_r, asl56_r, toInt_pattern h, Int.mul_ediv_cancel _ (by positivity), pattern_toInt]

/-! ### Magnitudes and products (R166, R169) -/

@[simp] theorem abs56_r (a : Word56) : (abs56 a).r = magnitude a := by
  show (if a.msb then (sub56 0 a).r else a) = pattern |a.toInt|
  rw [BitVec.msb_eq_toInt]
  by_cases h : a.toInt < 0
  · rw [abs_of_neg h, pattern_neg, pattern_toInt, sub56_r]
    simp [h]
  · rw [abs_of_nonneg (not_lt.1 h), pattern_toInt]
    simp [h]

/-- The one value without a magnitude is -2^55. -/
theorem abs56_v (a : Word56) : (abs56 a).v = decide (a.toInt = -2 ^ 55) := by
  show (a == BitVec.ofNat 56 (2 ^ 55)) = _
  rw [Bool.beq_eq_decide_eq]
  exact decide_eq_decide.2 BitVec.toInt_inj.symm

theorem product_eq (s : State) (q : MulPair) (k : MulSign) : product s q k = pattern (exactProduct s q k) := by
  unfold product exactProduct mul56
  cases k with
  | plus => rfl
  | minus =>
    dsimp only
    rw [sub56_r, pattern_neg]
    exact BitVec.zero_sub _

/-- Twice a product of two 24-bit numbers is at most 2^47 in magnitude, so a multiply loses nothing. -/
theorem overflows_exactProduct (s : State) (q : MulPair) (k : MulSign) : overflows (exactProduct s q k) = false := by
  have bound : ∀ x : Word, |x.toInt| ≤ 2 ^ 23 := fun x => abs_le.2 ⟨x.le_toInt, x.toInt_lt.le⟩
  have hp : |2 * (mulOperands s q).1.toInt * (mulOperands s q).2.toInt| ≤ 2 * 2 ^ 23 * 2 ^ 23 := by
    rw [abs_mul, abs_mul, abs_two]
    gcongr <;> exact bound _
  obtain ⟨hlow, hhigh⟩ := abs_le.1 hp
  rw [overflows, decide_eq_false_iff_not]
  cases k <;> simp only [exactProduct] <;> omega

/-! ### Convergent rounding (R171) -/

/-- The 56-bit mask of bits n-1 to 0. -/
def lowMask (n : Nat) : Word56 := BitVec.ofNat 56 (2 ^ n - 1)

theorem getElem_lowMask (n : Nat) {i : Nat} (hi : i < 56) : (lowMask n)[i] = decide (i < n) := by
  rw [← BitVec.getLsbD_eq_getElem, lowMask, BitVec.getLsbD_ofNat, Nat.testBit_two_pow_sub_one]
  simp [hi]

/-- Clearing the low n bits rounds down to a multiple of 2^n. -/
theorem and_not_lowMask (a : Word56) (n : Nat) : a &&& ~~~ lowMask n = pattern (a.toInt / 2 ^ n * 2 ^ n) := by
  calc a &&& ~~~ lowMask n = a.sshiftRight n <<< n := by
        apply BitVec.eq_of_getLsbD_eq
        intro i hi
        by_cases hn : i < n
        · simp [getElem_lowMask, hi, hn]
        · simp [getElem_lowMask, BitVec.getElem_sshiftRight, hi, hn, show n + (i - n) = i by omega]
    _ = pattern (a.toInt / 2 ^ n * 2 ^ n) := by
        rw [← toInt_sshiftRight_eq_div, ← asl56_r]
        rfl

theorem and_lowMask_eq_zero_iff (a : Word56) {n : Nat} (hn : n ≤ 56) : a &&& lowMask n = 0 ↔ a.toInt % 2 ^ n = 0 := by
  have hmod : a.toInt % 2 ^ n = (a.toNat : Int) % 2 ^ n := by
    have h56 : a.toInt % 2 ^ 56 = (a.toNat : Int) % 2 ^ 56 := by
      rw [BitVec.toInt_eq_toNat_cond]
      split <;> omega
    rw [← Int.emod_emod_of_dvd a.toInt (pow_dvd_pow 2 hn), h56, Int.emod_emod_of_dvd _ (pow_dvd_pow 2 hn)]
  have hlt : 2 ^ n - 1 < 2 ^ 56 := by
    have := Nat.pow_le_pow_right (n := 2) (by decide) hn
    omega
  rw [hmod, ← BitVec.toNat_inj, BitVec.toNat_and, lowMask, BitVec.toNat_ofNat, Nat.mod_eq_of_lt hlt,
    Nat.and_two_pow_sub_one_eq_mod]
  show a.toNat % 2 ^ n = 0 ↔ _
  norm_cast

/-- Clearing bit n as well. -/
theorem and_not_lowMask_succ (a : Word56) (n : Nat) :
    a &&& ~~~ lowMask n &&& ~~~ BitVec.ofNat 56 (2 ^ n) = a &&& ~~~ lowMask (n + 1) := by
  apply BitVec.eq_of_getLsbD_eq
  intro i hi
  have hbit : (BitVec.ofNat 56 (2 ^ n))[i] = decide (n = i) := by
    rw [← BitVec.getLsbD_eq_getElem, BitVec.getLsbD_ofNat, Nat.testBit_two_pow]
    simp [hi]
  have hsucc : (!decide (i < n) && !decide (n = i)) = !decide (i < n + 1) := by
    rw [← Bool.not_or, ← Bool.decide_or]
    exact congrArg (!·) (decide_eq_decide.2 (by omega))
  simp only [BitVec.getLsbD_eq_getElem hi, BitVec.getElem_and, BitVec.getElem_not, getElem_lowMask, hbit, Bool.and_assoc, hsucc]

/-- Adding the half and rounding down, to an even multiple where the sum is a multiple, is rounding to the nearest and
the even one on a tie; also from a sum that has wrapped. -/
theorem roundDown_eq_nearestEven (sc : Scale) {y z j : Int} (h : y = z + 2 ^ tieBit sc + 2 ^ 56 * j) :
    (if y % 2 ^ (tieBit sc + 1) = 0 then y / 2 ^ (tieBit sc + 2) * 2 ^ (tieBit sc + 2)
      else y / 2 ^ (tieBit sc + 1) * 2 ^ (tieBit sc + 1)) = nearestEven (tieBit sc) z + 2 ^ 56 * j := by
  cases sc <;> simp only [tieBit, nearestEven] at h ⊢ <;> split_ifs <;> omega

theorem roundBit_eq_tieBit (sc : Scale) : roundBit sc = tieBit sc := by cases sc <;> rfl

/-- Rounding is to the nearest multiple of the mode's unit, ties to even, modulo 2^56. -/
theorem rnd56_r (sc : Scale) (a : Word56) : (rnd56 sc a).r = pattern (nearestEven (tieBit sc) a.toInt) := by
  have hk : tieBit sc + 1 ≤ 56 := by cases sc <;> decide
  have hhalf : BitVec.ofNat 56 (2 ^ tieBit sc) = pattern (2 ^ tieBit sc) := by cases sc <;> rfl
  have hsum : (add56 a (BitVec.ofNat 56 (2 ^ tieBit sc))).r = pattern (a.toInt + 2 ^ tieBit sc) := by
    rw [add56_r, pattern_add, pattern_toInt, hhalf]
  obtain ⟨j, hj⟩ := toInt_pattern_mod (a.toInt + 2 ^ tieBit sc)
  rw [← hsum] at hj
  rw [rnd56, roundBit_eq_tieBit]
  show (if _ &&& lowMask _ = 0 then _ &&& ~~~ lowMask _ &&& _ else _ &&& ~~~ lowMask _) = _
  rw [and_not_lowMask_succ, and_not_lowMask, and_not_lowMask, ← apply_ite pattern]
  simp only [and_lowMask_eq_zero_iff _ hk]
  rw [roundDown_eq_nearestEven sc hj, pattern_add_mul]

theorem rnd56_v (sc : Scale) (a : Word56) : (rnd56 sc a).v = overflows (a.toInt + 2 ^ tieBit sc) := by
  rw [rnd56, roundBit_eq_tieBit]
  calc (roundAt (tieBit sc) a).v = overflows (a.toInt + (BitVec.ofNat 56 (2 ^ tieBit sc)).toInt) := add56_v _ _
    _ = overflows (a.toInt + 2 ^ tieBit sc) := by cases sc <;> rfl

end Sys2Proof.Proofs
end

section
/-! PROOFS. The flags and the limiter (R27, R170 to R174): what each flag function writes to a bit of SR, and when the
extension is in use. -/

namespace Sys2Proof.Proofs

open Sys2Proof Sys2Proof.Machine Sys2Proof.Safety Sys2Proof.Claims

/-! ### One bit of a word -/

theorem getLsbD_setBit {n : Nat} (w : BitVec n) {i : Nat} (hi : i < n) (v : Bool) (k : Nat) :
    (setBit w i v).getLsbD k = if k = i then v else w.getLsbD k := by
  by_cases hn : k < n
  · cases v <;> by_cases hk : k = i <;> simp [setBit, hn, hk, BitVec.getElem_twoPow, hi]
  · simp [BitVec.getLsbD_of_ge _ k (not_lt.1 hn), show k ≠ i by omega]

/-- Writing a bit as it stands changes nothing. -/
theorem setBit_eq_self {n : Nat} {w : BitVec n} {i : Nat} {v : Bool} (hi : i < n) (h : w.getLsbD i = v) : setBit w i v = w := by
  apply BitVec.eq_of_getLsbD_eq
  intro k _
  rw [getLsbD_setBit w hi]
  split
  · simp_all
  · rfl

/-- Two values of SR that agree above CCR agree in each bit there. -/
theorem SameAboveCcr.getLsbD {u v : BitVec 16} (h : SameAboveCcr u v) {k : Nat} (hk : 7 ≤ k) : v.getLsbD k = u.getLsbD k := by
  by_cases hk' : k < 16
  · have hbit := congrArg (·.getLsbD k) h
    have hmask : (0xFF80#16).getLsbD k = true := by interval_cases k <;> rfl
    simpa only [BitVec.getLsbD_and, hmask, Bool.and_true] using hbit
  · rw [BitVec.getLsbD_of_ge _ _ (by omega), BitVec.getLsbD_of_ge _ _ (by omega)]

/-! ### The scaling mode (R170) -/

theorem scaleOf_reserved {sr : BitVec 16} (h : sr &&& 0x0C00 = 0x0C00) : scaleOf sr = .error .scalingReserved := by
  have hmode : fieldAt sr 10 2 = fieldAt 0x0C00#16 10 2 := Fits.fieldAt_eq h (by decide)
  rw [scaleOf, hmode]
  rfl

/-! ### The flags of a result (R172) -/

theorem topEqual_iff (r : Word56) {lo : Nat} (hlo : lo ≤ 55) :
    topEqual r lo = true ↔ -2 ^ lo ≤ r.toInt ∧ r.toInt < 2 ^ lo := by
  rw [← signBits_iff r hlo, topEqual, List.all_eq_true]
  constructor
  · intro h k hk hk'
    have hbit := h (k - lo) (List.mem_range.2 (by omega))
    rwa [show lo + (k - lo) = k by omega, beq_iff_eq] at hbit
  · intro h k hk
    have := List.mem_range.1 hk
    exact beq_iff_eq.2 (h (lo + k) (by omega) (by omega))

/-- The extension is in use where the value leaves the bound of the scaling mode. -/
theorem flagE_eq (sc : Scale) (r : Word56) : flagE sc r = decide (r.toInt < -extBound sc ∨ extBound sc ≤ r.toInt) := by
  have outside : ∀ lo : Nat, lo ≤ 55 → (!topEqual r lo) = decide (r.toInt < -2 ^ lo ∨ 2 ^ lo ≤ r.toInt) := fun lo hlo => by
    rw [Bool.eq_iff_iff, Bool.not_eq_true', ← Bool.not_eq_true, topEqual_iff r hlo, decide_eq_true_iff]
    omega
  cases sc <;> exact outside _ (by decide)

theorem flagU_eq (sc : Scale) (r : Word56) : flagU sc r = (r.getLsbD (normBit sc) == r.getLsbD (normBit sc - 1)) := by
  cases sc <;> rfl

theorem getLsbD_withC (c : Bool) (sr : BitVec 16) (k : Nat) : (withC c sr).getLsbD k = if k = srC then c else sr.getLsbD k :=
  getLsbD_setBit sr (by decide) c k

/-- L is sticky: it takes V, and is never cleared. -/
theorem getLsbD_withV (v : Bool) (sr : BitVec 16) (k : Nat) :
    (withV v sr).getLsbD k = if k = srL then sr.getLsbD srL || v else if k = srV then v else sr.getLsbD k := by
  rw [withV, getLsbD_setBit _ (by decide), getLsbD_setBit _ (by decide)]

theorem getLsbD_withEunz (sc : Scale) (r : Word56) (sr : BitVec 16) (k : Nat) :
    (withEunz sc r sr).getLsbD k =
      if k = srZ then r == 0 else if k = srN then r.msb else if k = srU then flagU sc r else if k = srE then flagE sc r
      else sr.getLsbD k := by
  rw [withEunz, getLsbD_setBit _ (by decide), getLsbD_setBit _ (by decide), getLsbD_setBit _ (by decide),
    getLsbD_setBit _ (by decide)]

theorem getLsbD_withLogic (m : Word) (sr : BitVec 16) (k : Nat) :
    (withLogic m sr).getLsbD k =
      if k = srV then false else if k = srZ then m == 0 else if k = srN then m.msb else sr.getLsbD k := by
  rw [withLogic, getLsbD_setBit _ (by decide), getLsbD_setBit _ (by decide), getLsbD_setBit _ (by decide)]

/-- "Flags: E U N Z of r, V, C" (R176), bit by bit. -/
theorem arithFlags_withC (sc : Scale) (r : Word56) (c v : Bool) (sr : BitVec 16) :
    ArithFlags sc r c v sr (withC c (withV v (withEunz sc r sr))) where
  ext := by rw [getLsbD_withC, getLsbD_withV, getLsbD_withEunz _ _ _ srE]; exact flagE_eq sc r
  unnormalized := by rw [getLsbD_withC, getLsbD_withV, getLsbD_withEunz _ _ _ srU]; exact flagU_eq sc r
  negative := by rw [getLsbD_withC, getLsbD_withV, getLsbD_withEunz _ _ _ srN]; exact BitVec.msb_eq_toInt (x := r)
  zero := by
    rw [getLsbD_withC, getLsbD_withV, getLsbD_withEunz _ _ _ srZ]
    exact (Bool.beq_eq_decide_eq r 0).trans (decide_eq_decide.2 BitVec.toInt_inj.symm)
  overflow := by rw [getLsbD_withC, getLsbD_withV]; rfl
  carry := by rw [getLsbD_withC]; rfl
  limit := by rw [getLsbD_withC, getLsbD_withV, getLsbD_withEunz]; rfl
  rest _ hk := (((SameAboveCcr.eunz sc r rfl).overflow v).carry c).getLsbD hk

/-! ### The limiter (R173) -/

/-- A field of an accumulator is the value divided by the field's place. -/
theorem fieldAt_eq_ofInt (a : Word56) (lo : Nat) {len : Nat} (h : lo + len ≤ 56) :
    fieldAt a lo len = BitVec.ofInt len (a.toInt / 2 ^ lo) := by
  calc fieldAt a lo len = (a.sshiftRight lo).setWidth len := by
        apply BitVec.eq_of_getLsbD_eq
        intro i hi
        simp [fieldAt, BitVec.getElem_sshiftRight, hi, show i < 56 by omega, show lo + i < 56 by omega]
    _ = (a.sshiftRight lo).signExtend len := (BitVec.signExtend_eq_setWidth_of_le _ (by omega)).symm
    _ = BitVec.ofInt len (a.toInt / 2 ^ lo) := by rw [BitVec.signExtend, toInt_sshiftRight_eq_div]

/-- The low word in scaling mode 10: the field from bit 0 with a zero below it. -/
theorem fieldAt_append_zero_eq_ofInt (a : Word56) : (fieldAt a 0 23 ++ 0#1 : BitVec 24) = BitVec.ofInt 24 (a.toInt * 2) := by
  calc (fieldAt a 0 23 ++ 0#1 : BitVec 24) = fieldAt a 0 24 <<< 1 := by
        apply BitVec.eq_of_getLsbD_eq
        intro i hi
        rw [BitVec.getLsbD_append, BitVec.getLsbD_shiftLeft]
        rcases i with _ | i
        · rfl
        · have hlt : i + 1 < 24 := hi
          simp only [fieldAt, BitVec.getLsbD_extractLsb']
          simp [hlt, show i < 23 by omega, show i < 24 by omega]
    _ = BitVec.ofInt 24 (a.toInt * 2) := by
        rw [fieldAt_eq_ofInt a 0 (by decide), BitVec.shiftLeft_eq_mul_twoPow, BitVec.ofInt_mul, pow_zero, Int.ediv_one]
        rfl

theorem limit24_saturated (sc : Scale) {a : Word56} (h : flagE sc a = true) :
    limit24 sc a = (if a.msb then 0x800000 else 0x7FFFFF, true) := if_pos h

theorem limit48_saturated (sc : Scale) {a : Word56} (h : flagE sc a = true) :
    limit48 sc a = (if a.msb then (0x800000, 0x000000) else (0x7FFFFF, 0xFFFFFF), true) := if_pos h

/-- The bit of the accumulator that is bit 0 of a limited word. -/
def limitedLsb : Scale → Nat
  | .none => 24
  | .down => 25
  | .up => 23

theorem limit24_inRange (sc : Scale) {a : Word56} (h : flagE sc a = false) :
    limit24 sc a = (BitVec.ofInt 24 (a.toInt / 2 ^ limitedLsb sc), false) := by
  have hfield : limit24 sc a = (fieldAt a (limitedLsb sc) 24, false) := by
    cases sc <;> exact if_neg (Bool.not_eq_true _ ▸ h)
  rw [hfield, fieldAt_eq_ofInt a _ (by cases sc <;> decide)]

theorem limit48_inRange (sc : Scale) {a : Word56} (h : flagE sc a = false) :
    limit48 sc a =
      ((BitVec.ofInt 24 (a.toInt / 2 ^ limitedLsb sc), BitVec.ofInt 24 (a.toInt * 2 / 2 ^ (limitedLsb sc - 23))), false) := by
  have hne : ¬ flagE sc a = true := Bool.not_eq_true _ ▸ h
  have hhigh : fieldAt a (limitedLsb sc) 24 = BitVec.ofInt 24 (a.toInt / 2 ^ limitedLsb sc) :=
    fieldAt_eq_ofInt a _ (by cases sc <;> decide)
  rw [← hhigh]
  cases sc with
  | none =>
    rw [show a.toInt * 2 / 2 ^ (limitedLsb .none - 23) = a.toInt / 2 ^ 0 by simp only [limitedLsb]; omega,
      ← fieldAt_eq_ofInt a 0 (by decide)]
    exact if_neg hne
  | down =>
    rw [show a.toInt * 2 / 2 ^ (limitedLsb .down - 23) = a.toInt / 2 ^ 1 by simp only [limitedLsb]; omega,
      ← fieldAt_eq_ofInt a 1 (by decide)]
    exact if_neg hne
  | up =>
    rw [show a.toInt * 2 / 2 ^ (limitedLsb .up - 23) = a.toInt * 2 by simp only [limitedLsb]; omega,
      ← fieldAt_append_zero_eq_ofInt]
    exact if_neg hne

theorem readReg_acc {s : State} {sc : Scale} (d : AccSel) (h : scaleOf s.sr = .ok sc) :
    readReg (accReg d) s = .ok ((limit24 sc (accVal s d)).1, limited (limit24 sc (accVal s d)).2 s) := by
  cases d <;> exact readLimited_eq _ h

theorem readReg_acc_reserved {s : State} (d : AccSel) (h : s.sr &&& 0x0C00 = 0x0C00) :
    readReg (accReg d) s = .error .scalingReserved := by
  have hread : readLimited d s = .error .scalingReserved := by rw [readLimited, scaleOf_reserved h]
  cases d <;> exact hread

/-- A saturating read sets bit 6 of SR, and no other bit. -/
theorem getLsbD_limited (sat : Bool) (s : State) (k : Nat) :
    (limited sat s).sr.getLsbD k = (s.sr.getLsbD k || (decide (k = 6) && sat)) := by
  cases sat with
  | false => simp [limited]
  | true =>
    show (s.sr ||| BitVec.twoPow 16 6).getLsbD k = _
    rw [BitVec.getLsbD_or, BitVec.getLsbD_twoPow, Bool.and_true]
    exact congrArg _ (decide_eq_decide.2 eq_comm)

/-- Settles O15: the extension is in use outside the mode's bound, where the sign gives the extreme; a read that
saturates sets bit 6. -/
theorem limiterSaturates : Obligations.LimiterSaturates := by
  refine ⟨fun sc a => ?_, fun s d sc h => ⟨_, readReg_acc d h, ?_, fun k => getLsbD_limited _ s k⟩,
    fun s d h => readReg_acc_reserved d h⟩
  · have hpos : 0 < extBound sc := by cases sc <;> decide
    dsimp only
    refine ⟨fun h => ?_, fun h => ?_, fun h h' => ?_⟩
    · have hE : flagE sc a = true := by rw [flagE_eq]; exact decide_eq_true (.inl h)
      have hneg : a.msb = true := by rw [BitVec.msb_eq_toInt]; exact decide_eq_true (by omega)
      rw [limit24_saturated sc hE, limit48_saturated sc hE, hneg]
      exact ⟨rfl, rfl⟩
    · have hE : flagE sc a = true := by rw [flagE_eq]; exact decide_eq_true (.inr h)
      have hneg : a.msb = false := by rw [BitVec.msb_eq_toInt]; exact decide_eq_false (by omega)
      rw [limit24_saturated sc hE, limit48_saturated sc hE, hneg]
      exact ⟨rfl, rfl⟩
    · have hE : flagE sc a = false := by rw [flagE_eq]; exact decide_eq_false (by omega)
      rw [limit24_inRange sc hE, limit48_inRange sc hE]
      cases sc <;> exact ⟨rfl, rfl, rfl, rfl⟩
  · cases (limit24 sc (accVal s d)).2 <;> rfl

end Sys2Proof.Proofs
end

section
/-! PROOFS. The data-ALU operations as instructions (R175 to R207, R221): an operation that answers an effect completes with
it, so each statement is about the integers behind the effect's result, carry and overflow. -/

namespace Sys2Proof.Proofs

open Sys2Proof Sys2Proof.Machine Sys2Proof.Safety Sys2Proof.Claims

/-! ### The instruction of an operation (R221) -/

theorem exec_aluInstr (op : AluOp) (s : State) : exec (aluInstr op) s = runAlu (aluEffect op) s := by
  cases op <;> rfl

theorem exec_aluInstr_of_ok {op : AluOp} {s : State} {e : AluEffect} (h : aluEffect op s = .ok e) :
    exec (aluInstr op) s = .next (applyAlu e s) := by
  rw [exec_aluInstr, runAlu, h]

theorem exec_aluInstr_of_error {op : AluOp} {s : State} {r : Fault} (h : aluEffect op s = .error r) :
    exec (aluInstr op) s = .fault r := by
  rw [exec_aluInstr, runAlu, h]

/-! ### Writing an effect (R220, phase 2) -/

/-- An effect does not clear L where SR has it set. -/
def KeepsL (e : AluEffect) (s : State) : Prop := s.sr.getLsbD srL = true → e.sr.getLsbD srL = true

theorem setBit_srL_or {sr old : BitVec 16} (h : old.getLsbD srL = true → sr.getLsbD srL = true) :
    setBit sr srL (sr.getLsbD srL || old.getLsbD srL) = sr :=
  setBit_eq_self (by decide) (by cases hold : old.getLsbD srL <;> simp_all)

/-- An effect on an accumulator that keeps L is written as it stands. -/
theorem applyAlu_some {d : AccSel} {v : Acc} {sr : BitVec 16} {s : State} (h : KeepsL ⟨some (d, v), sr⟩ s) :
    applyAlu ⟨some (d, v), sr⟩ s = setSr (setAcc s d v) sr := by
  show setSr (setAcc s d v) (setBit sr srL (sr.getLsbD srL || s.sr.getLsbD srL)) = _
  rw [setBit_srL_or h]

theorem applyAlu_none {sr : BitVec 16} {s : State} (h : KeepsL ⟨none, sr⟩ s) : applyAlu ⟨none, sr⟩ s = setSr s sr := by
  show setSr s (setBit sr srL (sr.getLsbD srL || s.sr.getLsbD srL)) = _
  rw [setBit_srL_or h]

theorem pack_unpack (v : Word56) : pack (unpack v) = v := by
  have hext : fieldAt v 48 8 = fieldAt (fieldAt v 24 32) 24 8 := (fieldAt_fieldAt v (show 24 + 8 ≤ 32 by decide)).symm
  have hmid : fieldAt v 24 24 = fieldAt (fieldAt v 24 32) 0 24 := (fieldAt_fieldAt v (show 0 + 24 ≤ 32 by decide)).symm
  have hhigh : (fieldAt v 48 8 ++ fieldAt v 24 24 : BitVec 32) = fieldAt v 24 32 := by
    rw [hext, hmid]
    exact BitVec.extractLsb'_append_extractLsb'
  show (fieldAt v 48 8 ++ fieldAt v 24 24 ++ fieldAt v 0 24 : BitVec 56) = v
  rw [hhigh]
  exact BitVec.extractLsb'_append_extractLsb'

/-- A state that holds the same word arrays and scratch bytes reads the same memory. -/
theorem sameMemory_of_arrays {s t : State} (hp : t.pram = s.pram) (hx : t.xram = s.xram) (hy : t.yram = s.yram)
    (hmix : t.mixbuffer = s.mixbuffer) (hscratch : t.scratch = s.scratch) (hperiph : t.periph = s.periph) : SameMemory s t := by
  refine ⟨fun sp a => ?_, fun a => by rw [hscratch], hperiph⟩
  have hcell : readCell t = readCell s := by
    funext c
    cases c <;> simp only [readCell, hp, hx, hy, hmix]
  rw [readDsp_eq, readDsp_eq, hcell]

theorem sameMemory_setSr (s : State) (v : BitVec 16) : SameMemory s (setSr s v) := sameMemory_of_arrays rfl rfl rfl rfl rfl rfl

theorem sameMemory_setSr_setAcc (s : State) (d : AccSel) (x : Acc) (v : BitVec 16) : SameMemory s (setSr (setAcc s d x) v) := by
  apply sameMemory_of_arrays <;> simp

/-! ### The scaling mode of an operation (R170, R176) -/

theorem arithEffect_ok {s : State} {sc : Scale} (h : scaleOf s.sr = .ok sc) (d : AccSel) (x : Res56) :
    arithEffect d x s = .ok (writeEffect d x.r (withC x.c (withV x.v (withEunz sc x.r s.sr)))) := by
  rw [arithEffect, h]

/-- An operation that keeps C writes the C that SR holds. -/
theorem withC_withV_withEunz_self (sc : Scale) (r : Word56) (v : Bool) (sr : BitVec 16) :
    withC (sr.getLsbD srC) (withV v (withEunz sc r sr)) = withV v (withEunz sc r sr) :=
  setBit_eq_self (by decide) (by rw [getLsbD_withV, getLsbD_withEunz _ _ _ srC]; rfl)

theorem arithNoCarry_eq {s : State} {sc : Scale} (h : scaleOf s.sr = .ok sc) (d : AccSel) (f : Scale → Res56) :
    arithNoCarry d f s = arithEffect d ⟨(f sc).r, s.sr.getLsbD srC, (f sc).v⟩ s := by
  rw [arithEffect_ok h, withC_withV_withEunz_self, arithNoCarry, h]

theorem compareEffect_ok {s : State} {sc : Scale} (h : scaleOf s.sr = .ok sc) (x : Res56) :
    compareEffect x s = .ok ⟨none, withC x.c (withV x.v (withEunz sc x.r s.sr))⟩ := by
  rw [compareEffect, h]

theorem compareNoCarry_eq {s : State} {sc : Scale} (h : scaleOf s.sr = .ok sc) (x : Res56) :
    compareNoCarry x s = compareEffect ⟨x.r, s.sr.getLsbD srC, x.v⟩ s := by
  rw [compareEffect_ok h, withC_withV_withEunz_self, compareNoCarry, h]

theorem arithEffect_error {s : State} {r : Fault} (h : scaleOf s.sr = .error r) (d : AccSel) (x : Res56) :
    arithEffect d x s = .error r := by rw [arithEffect, h]

theorem arithNoCarry_error {s : State} {r : Fault} (h : scaleOf s.sr = .error r) (d : AccSel) (f : Scale → Res56) :
    arithNoCarry d f s = .error r := by rw [arithNoCarry, h]

theorem compareEffect_error {s : State} {r : Fault} (h : scaleOf s.sr = .error r) (x : Res56) :
    compareEffect x s = .error r := by rw [compareEffect, h]

theorem compareNoCarry_error {s : State} {r : Fault} (h : scaleOf s.sr = .error r) (x : Res56) :
    compareNoCarry x s = .error r := by rw [compareNoCarry, h]

/-- Every operation but MOVE, TFR, CLR and those of the middle limb is Fatal where the scaling mode is. -/
theorem aluEffect_error_of_scaleOf {op : AluOp} {s : State} {r : Fault} (hop : ¬ ModeFree op) (h : scaleOf s.sr = .error r) :
    aluEffect op s = .error r := by
  cases op with
  | move | tfrAcc d | tfrReg j d | clr d | notAcc d | lsr d | lsl d | ror d | rol d | orReg j d | eorReg j d | andReg j d =>
    simp [ModeFree] at hop
  | tst d => exact compareNoCarry_error h _
  | cmpAcc d | cmpReg j d | cmpmAcc d | cmpmReg j d => exact compareEffect_error h _
  | addr d | subr d | addAcc d | addX d | addY d | addReg j d | addl d | subAcc d | subX d | subY d | subReg j d | subl d
  | adc j d | sbc j d | asr d | asl d => exact arithEffect_error h d _
  | rnd d | absAcc d | neg d | mpy q d k | mpyr q d k | mac q d k | macr q d k => exact arithNoCarry_error h d _

theorem fatalInMode11_map {s : State} (ops : List AluOp) (hops : ∀ op ∈ ops, ¬ ModeFree op) :
    FatalInMode11 (ops.map aluInstr) s := by
  intro hmode i hi
  obtain ⟨op, hop, rfl⟩ := List.mem_map.1 hi
  exact exec_aluInstr_of_error (aluEffect_error_of_scaleOf (hops op hop) (scaleOf_reserved hmode))

/-! ### Operations that complete -/

section
variable {s : State} {sc : Scale}

/-- An operation with the effect "E U N Z, V, C, D written" completes with its result, carry and overflow. -/
theorem computes_of_arithEffect (op : AluOp) {d : AccSel} {x : Res56} (hsc : scaleOf s.sr = .ok sc)
    (h : aluEffect op s = arithEffect d x s) : Computes (aluInstr op) s d sc x.r x.c x.v := by
  have hflags := arithFlags_withC sc x.r x.c x.v s.sr
  have hexec := exec_aluInstr_of_ok (h.trans (arithEffect_ok hsc d x))
  rw [writeEffect, applyAlu_some fun hL => by rw [hflags.limit, hL, Bool.true_or]] at hexec
  refine ⟨_, hexec, ?_, hflags, by simp, sameMemory_setSr_setAcc s d _ _⟩
  rw [accVal, getAcc_setSr, getAcc_setAcc, pack_unpack]

/-- An operation with the effect "E U N Z, V, D written" keeps C. -/
theorem computes_of_arithNoCarry (op : AluOp) {d : AccSel} {f : Scale → Res56} (hsc : scaleOf s.sr = .ok sc)
    (h : aluEffect op s = arithNoCarry d f s) : Computes (aluInstr op) s d sc (f sc).r (s.sr.getLsbD srC) (f sc).v :=
  computes_of_arithEffect op hsc (h.trans (arithNoCarry_eq hsc d f))

/-- An operation with the effect "E U N Z of r, V, C", no write. -/
theorem compares_of_compareEffect (op : AluOp) {x : Res56} (hsc : scaleOf s.sr = .ok sc)
    (h : aluEffect op s = compareEffect x s) : Compares (aluInstr op) s sc x.r x.c x.v := by
  have hflags := arithFlags_withC sc x.r x.c x.v s.sr
  have hexec := exec_aluInstr_of_ok (h.trans (compareEffect_ok hsc x))
  rw [applyAlu_none fun hL => by rw [hflags.limit, hL, Bool.true_or]] at hexec
  exact ⟨_, hexec, hflags, rfl, sameMemory_setSr s _⟩

theorem adds_of_arithEffect (op : AluOp) {d : AccSel} {x y : Word56} (hsc : scaleOf s.sr = .ok sc)
    (h : aluEffect op s = arithEffect d (add56 x y) s) : Adds (aluInstr op) s d sc x y := by
  simpa [Adds] using computes_of_arithEffect op hsc h

theorem subtracts_of_arithEffect (op : AluOp) {d : AccSel} {x y : Word56} (hsc : scaleOf s.sr = .ok sc)
    (h : aluEffect op s = arithEffect d (sub56 x y) s) : Subtracts (aluInstr op) s d sc x y := by
  simpa [Subtracts] using computes_of_arithEffect op hsc h

theorem comparesDifference_of_compareEffect (op : AluOp) {x y : Word56} (hsc : scaleOf s.sr = .ok sc)
    (h : aluEffect op s = compareEffect (sub56 x y) s) : ComparesDifference (aluInstr op) s sc x y := by
  simpa [ComparesDifference] using compares_of_compareEffect op hsc h

end

/-! ### Sums, differences and compares -/

/-- Settles O20: each form is one use of the adder or the subtractor on D and its source. -/
theorem addAndSubForms : Obligations.AddAndSubForms := by
  intro s d j
  refine ⟨fatalInMode11_map [.addAcc d, .addX d, .addY d, .addReg j d, .subAcc d, .subX d, .subY d, .subReg j d]
    (by simp [ModeFree]), fun sc hsc => ⟨?_, ?_, ?_, ?_, ?_, ?_, ?_, ?_⟩⟩
  · exact adds_of_arithEffect (.addAcc d) hsc rfl
  · exact adds_of_arithEffect (.addX d) hsc rfl
  · exact adds_of_arithEffect (.addY d) hsc rfl
  · exact adds_of_arithEffect (.addReg j d) hsc rfl
  · exact subtracts_of_arithEffect (.subAcc d) hsc rfl
  · exact subtracts_of_arithEffect (.subX d) hsc rfl
  · exact subtracts_of_arithEffect (.subY d) hsc rfl
  · exact subtracts_of_arithEffect (.subReg j d) hsc rfl

/-- Settles O21: TST keeps C, and the others are subtractions without a write. -/
theorem compareForms : Obligations.CompareForms := by
  intro s d j
  refine ⟨fatalInMode11_map [.tst d, .cmpAcc d, .cmpReg j d, .cmpmAcc d, .cmpmReg j d] (by simp [ModeFree]),
    fun sc hsc => ⟨?_, ?_, ?_, ?_, ?_⟩⟩
  · exact compares_of_compareEffect (.tst d) hsc (compareNoCarry_eq hsc ⟨accVal s d, false, false⟩)
  · exact comparesDifference_of_compareEffect (.cmpAcc d) hsc rfl
  · exact comparesDifference_of_compareEffect (.cmpReg j d) hsc rfl
  · exact comparesDifference_of_compareEffect (.cmpmAcc d) hsc (by rw [← abs56_r, ← abs56_r]; rfl)
  · exact comparesDifference_of_compareEffect (.cmpmReg j d) hsc (by rw [← abs56_r, ← abs56_r]; rfl)

/-! ### Halving and doubling -/

theorem asr56_one_r (a : Word56) : (asr56 a 1).r = pattern (a.toInt / 2) := by rw [asr56_r, pow_one]

theorem asl56_one_r (a : Word56) : (asl56 a 1).r = pattern (2 * a.toInt) := by rw [asl56_r, pow_one, mul_comm]

theorem asl56_one_v (a : Word56) : (asl56 a 1).v = overflows (2 * a.toInt) := by
  rw [asl56_v a (by decide), pow_one, mul_comm]

/-- Settles O22: the half and the double are the shifts by one, and the V of the doubling is ORed in. -/
theorem halvingAndDoublingForms : Obligations.HalvingAndDoublingForms := by
  intro s d
  refine ⟨fatalInMode11_map [.addr d, .subr d, .addl d, .subl d] (by simp [ModeFree]), fun sc hsc => ⟨?_, ?_, ?_, ?_⟩⟩
  · exact adds_of_arithEffect (.addr d) hsc (by rw [← asr56_one_r]; rfl)
  · exact subtracts_of_arithEffect (.subr d) hsc (by rw [← asr56_one_r]; rfl)
  · rw [← asl56_one_r, ← asl56_one_v, pattern_add, pattern_toInt, pattern_toInt, ← add56_r, ← add56_v]
    exact computes_of_arithEffect (.addl d) hsc rfl
  · rw [← asl56_one_r, ← asl56_one_v, pattern_sub, pattern_toInt, pattern_toInt, ← sub56_r, ← sub56_v]
    exact computes_of_arithEffect (.subl d) hsc rfl

/-- Settles O24: ASL and ASR are the shifts by one; ABS and NEG fail on -2^55 alone. -/
theorem unaryForms : Obligations.UnaryForms := by
  intro s d
  refine ⟨fatalInMode11_map [.asl d, .asr d, .absAcc d, .neg d] (by simp [ModeFree]), fun sc hsc => ⟨?_, ?_, ?_, ?_⟩⟩
  · rw [← asl56_one_r, ← asl56_one_v, BitVec.msb_eq_getLsbD_last]
    exact computes_of_arithEffect (.asl d) hsc rfl
  · rw [← asr56_one_r]
    exact computes_of_arithEffect (.asr d) hsc rfl
  · rw [← abs56_r, ← abs56_v]
    exact computes_of_arithNoCarry (.absAcc d) hsc rfl
  · have hr : (sub56 0 (accVal s d)).r = pattern (-(accVal s d).toInt) := by simp
    have hv : (sub56 0 (accVal s d)).v = decide ((accVal s d).toInt = -2 ^ 55) := by
      have hlow := (accVal s d).le_toInt
      have hhigh := (accVal s d).toInt_lt
      rw [sub56_v, overflows, show (0 : Word56).toInt = 0 from rfl]
      exact decide_eq_decide.2 (by omega)
    rw [← hr, ← hv]
    exact computes_of_arithNoCarry (.neg d) hsc rfl

/-! ### Add and subtract with carry -/

theorem carryVal_eq (c : Bool) : carryVal c = pattern ((if c then 1 else 0 : Nat) : Int) := by cases c <;> rfl

theorem toNat_carryVal (c : Bool) : (carryVal c).toNat = if c then 1 else 0 := by cases c <;> rfl

theorem toInt_carryVal (c : Bool) : (carryVal c).toInt = ((if c then 1 else 0 : Nat) : Int) := by cases c <;> rfl

theorem addCarry_r (a b : Word56) (c : Bool) : (addCarry a b c).r = pattern (a.toInt + b.toInt + (if c then 1 else 0 : Nat)) := by
  rw [pattern_add, pattern_add, pattern_toInt, pattern_toInt, ← carryVal_eq]
  simp [addCarry]

/-- At most one of the two steps carries. -/
theorem addCarry_c (a b : Word56) (c : Bool) :
    (addCarry a b c).c = decide (2 ^ 56 ≤ a.toNat + b.toNat + if c then 1 else 0) := by
  have ha := a.isLt
  have hb := b.isLt
  have hc : (if c then 1 else 0) ≤ 1 := by cases c <;> decide
  simp only [addCarry, add56_c, add56_r, BitVec.toNat_add, toNat_carryVal, ← Bool.decide_or]
  exact decide_eq_decide.2 (by omega)

theorem addCarry_v (a b : Word56) (c : Bool) :
    (addCarry a b c).v =
      (overflows (a.toInt + b.toInt) || overflows ((pattern (a.toInt + b.toInt)).toInt + (if c then 1 else 0 : Nat))) := by
  simp [addCarry, toInt_carryVal]

theorem subBorrow_r (a b : Word56) (c : Bool) : (subBorrow a b c).r = pattern (a.toInt - b.toInt - (if c then 1 else 0 : Nat)) := by
  rw [pattern_sub, pattern_sub, pattern_toInt, pattern_toInt, ← carryVal_eq]
  simp [subBorrow]

/-- At most one of the two steps borrows. -/
theorem subBorrow_c (a b : Word56) (c : Bool) :
    (subBorrow a b c).c = decide (a.toNat < b.toNat + if c then 1 else 0) := by
  have ha := a.isLt
  have hb := b.isLt
  have hc : (if c then 1 else 0) ≤ 1 := by cases c <;> decide
  simp only [subBorrow, sub56_c, sub56_r, BitVec.toNat_sub, toNat_carryVal, ← Bool.decide_or]
  exact decide_eq_decide.2 (by omega)

theorem subBorrow_v (a b : Word56) (c : Bool) :
    (subBorrow a b c).v =
      (overflows (a.toInt - b.toInt) || overflows ((pattern (a.toInt - b.toInt)).toInt - (if c then 1 else 0 : Nat))) := by
  simp [subBorrow, toInt_carryVal]

/-- Settles O23: the carry and the overflow of the two steps together. -/
theorem carryForms : Obligations.CarryForms := by
  intro s j d
  refine ⟨fatalInMode11_map [.adc j d, .sbc j d] (by simp [ModeFree]), fun sc hsc => ⟨?_, ?_⟩⟩
  · rw [← addCarry_r, ← addCarry_c, ← addCarry_v]
    exact computes_of_arithEffect (.adc j d) hsc rfl
  · rw [← subBorrow_r, ← subBorrow_c, ← subBorrow_v]
    exact computes_of_arithEffect (.sbc j d) hsc rfl

/-! ### Products and rounding -/

theorem toInt_product (s : State) (q : MulPair) (k : MulSign) : (product s q k).toInt = exactProduct s q k := by
  rw [product_eq, toInt_pattern (overflows_exactProduct s q k)]

theorem macSum_r (a : Word56) (s : State) (q : MulPair) (k : MulSign) :
    (add56 a (product s q k)).r = pattern (a.toInt + exactProduct s q k) := by
  rw [add56_r, pattern_add, pattern_toInt, product_eq]

theorem macSum_v (a : Word56) (s : State) (q : MulPair) (k : MulSign) :
    (add56 a (product s q k)).v = overflows (a.toInt + exactProduct s q k) := by
  rw [add56_v, toInt_product]

/-- Settles O25: the product lies inside 56 bits, so only the addition can overflow. -/
theorem products : Obligations.Products := by
  intro s q d k
  refine ⟨fatalInMode11_map [.mpy q d k, .mac q d k] (by simp [ModeFree]), fun sc hsc => ⟨?_, ?_⟩⟩
  · rw [← product_eq]
    exact computes_of_arithNoCarry (.mpy q d k) hsc rfl
  · rw [← macSum_r, ← macSum_v]
    exact computes_of_arithNoCarry (.mac q d k) hsc rfl

/-- Settles O26: MPYR rounds the exact product, MACR the sum as its pattern holds it. -/
theorem convergentRounding : Obligations.ConvergentRounding := by
  intro s q d k
  refine ⟨fatalInMode11_map [.rnd d, .mpyr q d k, .macr q d k] (by simp [ModeFree]), fun sc hsc => ⟨?_, ?_, ?_⟩⟩
  · rw [← rnd56_r, ← rnd56_v]
    exact computes_of_arithNoCarry (.rnd d) hsc rfl
  · rw [← toInt_product, ← rnd56_r, ← rnd56_v]
    exact computes_of_arithNoCarry (.mpyr q d k) hsc rfl
  · rw [← macSum_r, ← macSum_v, ← rnd56_r, ← rnd56_v]
    exact computes_of_arithNoCarry (.macr q d k) hsc rfl

end Sys2Proof.Proofs
end

section
/-! PROOFS. The operations that read no scaling mode (R174, R177, R178, R187, R190 to R203): those of the middle limb, CLR,
TFR and MOVE complete in every state. -/

namespace Sys2Proof.Proofs

open Sys2Proof Sys2Proof.Machine Sys2Proof.Safety Sys2Proof.Claims

/-! ### The middle limb -/

/-- A logical effect over an SR with C written completes with the new middle limb and its flags. -/
theorem middleLimb_of_logicEffect (op : AluOp) {s : State} {d : AccSel} {m : Word} {c : Bool}
    (h : aluEffect op s = logicEffect d m (withC c s.sr) s) : MiddleLimb (aluInstr op) s d m c := by
  have hsr : ∀ k, (withLogic m (withC c s.sr)).getLsbD k = if k = srV then false else if k = srZ then m == 0
      else if k = srN then m.msb else if k = srC then c else s.sr.getLsbD k := fun k => by
    rw [getLsbD_withLogic, getLsbD_withC]
  have hL : KeepsL ⟨some (d, { getAcc s d with mid := m }), withLogic m (withC c s.sr)⟩ s := (hsr srL).trans
  have hexec := exec_aluInstr_of_ok (h.trans rfl)
  rw [applyAlu_some hL] at hexec
  refine ⟨_, hexec, by simp, hsr srN, (hsr srZ).trans (Bool.beq_eq_decide_eq m 0), hsr srV, hsr srC, fun k hk => ?_, by simp,
    sameMemory_setSr_setAcc s d _ _⟩
  rw [setSr_sr, hsr, if_neg (by simp only [srV]; omega), if_neg (by simp only [srZ]; omega), if_neg (by simp only [srN]; omega),
    if_neg (by simp only [srC]; omega)]

/-- A logical effect over SR as it stands keeps C. -/
theorem middleLimb_of_logicEffect_keepsC (op : AluOp) {s : State} {d : AccSel} {m : Word}
    (h : aluEffect op s = logicEffect d m s.sr s) : MiddleLimb (aluInstr op) s d m (s.sr.getLsbD srC) :=
  middleLimb_of_logicEffect op (h.trans (by rw [withC, setBit_eq_self (by decide) rfl]))

theorem shiftRight_one_eq (m : Word) : m >>> 1 = BitVec.ofNat 24 (m.toNat / 2) := by
  apply BitVec.eq_of_toNat_eq
  rw [BitVec.toNat_ushiftRight, BitVec.toNat_ofNat, Nat.shiftRight_eq_div_pow]
  omega

theorem shiftLeft_one_eq (m : Word) : m <<< 1 = BitVec.ofNat 24 (2 * m.toNat) := by
  apply BitVec.eq_of_toNat_eq
  rw [BitVec.toNat_shiftLeft, BitVec.toNat_ofNat, Nat.shiftLeft_eq, mul_comm, pow_one]

theorem toNat_append_eq_add {m n : Nat} (x : BitVec m) (y : BitVec n) : (x ++ y).toNat = x.toNat * 2 ^ n + y.toNat := by
  rw [BitVec.toNat_append, ← Nat.shiftLeft_add_eq_or_of_lt y.isLt, Nat.shiftLeft_eq]

theorem toNat_ofBool (c : Bool) : (BitVec.ofBool c).toNat = if c then 1 else 0 := by cases c <;> rfl

/-- A rotate right puts C above the upper 23 bits (R196). -/
theorem rotateRight_eq (m : Word) (c : Bool) : rotateRight m c = BitVec.ofNat 24 ((if c then 1 else 0) * 2 ^ 23 + m.toNat / 2) := by
  have hm := m.isLt
  have hc : (if c then 1 else 0) ≤ 1 := by cases c <;> decide
  have hupper : (fieldAt m 1 23).toNat = m.toNat / 2 := by
    rw [fieldAt, BitVec.extractLsb'_toNat, Nat.shiftRight_eq_div_pow]
    omega
  apply BitVec.eq_of_toNat_eq
  rw [rotateRight, toNat_append_eq_add, toNat_ofBool, hupper, BitVec.toNat_ofNat]
  omega

/-- A rotate left puts C below the lower 23 bits (R200). -/
theorem rotateLeft_eq (m : Word) (c : Bool) : rotateLeft m c = BitVec.ofNat 24 (2 * m.toNat + if c then 1 else 0) := by
  have hc : (if c then 1 else 0) ≤ 1 := by cases c <;> decide
  have hlower : (fieldAt m 0 23).toNat = m.toNat % 2 ^ 23 := by
    rw [fieldAt, BitVec.extractLsb'_toNat, Nat.shiftRight_zero]
  apply BitVec.eq_of_toNat_eq
  rw [rotateLeft, toNat_append_eq_add, toNat_ofBool, hlower, BitVec.toNat_ofNat]
  omega

/-- Settles O27: the bit shifted out is the C written before the flags of the new middle limb. -/
theorem middleLimbOperations : Obligations.MiddleLimbOperations := by
  intro s d j
  refine ⟨?_, ?_, ?_, ?_, ?_, ?_, ?_, ?_⟩
  · exact middleLimb_of_logicEffect_keepsC (.orReg j d) rfl
  · exact middleLimb_of_logicEffect_keepsC (.eorReg j d) rfl
  · exact middleLimb_of_logicEffect_keepsC (.andReg j d) rfl
  · exact middleLimb_of_logicEffect_keepsC (.notAcc d) rfl
  · rw [← shiftRight_one_eq]
    exact middleLimb_of_logicEffect (.lsr d) rfl
  · rw [← shiftLeft_one_eq]
    exact middleLimb_of_logicEffect (.lsl d) rfl
  · rw [← rotateRight_eq]
    exact middleLimb_of_logicEffect (.ror d) rfl
  · rw [← rotateLeft_eq]
    exact middleLimb_of_logicEffect (.rol d) rfl

/-! ### CLR, TFR and MOVE -/

theorem unpack_pack (x : Acc) : unpack (pack x) = x := by
  obtain ⟨ext, mid, lo⟩ := x
  have hext : fieldAt (ext ++ mid ++ lo : BitVec 56) 48 8 = ext :=
    (fieldAt_append_high _ _ (by decide)).trans (fieldAt_append_left _ _)
  have hmid : fieldAt (ext ++ mid ++ lo : BitVec 56) 24 24 = mid :=
    (fieldAt_append_high _ _ (by decide)).trans (fieldAt_append_right _ _)
  have hlo : fieldAt (ext ++ mid ++ lo : BitVec 56) 0 24 = lo := fieldAt_append_right _ _
  show (⟨_, _, _⟩ : Acc) = _
  rw [pack, hext, hmid, hlo]

theorem getLsbD_clrFlags (sr : BitVec 16) (k : Nat) :
    (clrFlags sr).getLsbD k =
      if k = srV then false else if k = srZ then true else if k = srN then false else if k = srU then true
      else if k = srE then false else sr.getLsbD k := by
  rw [clrFlags, getLsbD_setBit _ (by decide), getLsbD_setBit _ (by decide), getLsbD_setBit _ (by decide),
    getLsbD_setBit _ (by decide), getLsbD_setBit _ (by decide)]

/-- The flags of CLR as a mask: E, N, V cleared, U, Z set (R187). -/
theorem clrFlags_eq (sr : BitVec 16) : clrFlags sr = (sr &&& 0xFFC1) ||| 0x0014 := by
  apply BitVec.eq_of_getLsbD_eq
  intro k hk
  rw [getLsbD_clrFlags, BitVec.getLsbD_or, BitVec.getLsbD_and]
  interval_cases k <;> simp [srV, srZ, srN, srU, srE]

/-- An accumulator written with SR as it stands. -/
theorem exec_of_writeEffect (op : AluOp) {s : State} {d : AccSel} {x : Acc}
    (h : aluEffect op s = .ok (writeEffect d (pack x) s.sr)) :
    exec (aluInstr op) s = .next (setAcc s d x) := by
  rw [exec_aluInstr_of_ok h, writeEffect, applyAlu_some id, unpack_pack]
  cases d <;> rfl

/-- Settles O28: none of the four reads the scaling mode, and all but CLR leave SR as it stands. -/
theorem clearTransferAndMove : Obligations.ClearTransferAndMove := by
  intro s d j
  refine ⟨?_, ?_, ?_, ?_⟩
  · exact (exec_aluInstr_of_ok (op := .move) rfl).trans (congrArg _ (applyAlu_none id))
  · exact exec_of_writeEffect (.tfrAcc d) rfl
  · exact exec_of_writeEffect (.tfrReg j d) rfl
  · have hL : (clrFlags s.sr).getLsbD srL = s.sr.getLsbD srL := getLsbD_clrFlags s.sr srL
    rw [← clrFlags_eq]
    exact (exec_aluInstr_of_ok (op := .clr d) rfl).trans (congrArg _ (applyAlu_some hL.trans))

end Sys2Proof.Proofs
end

section
/-! PROOFS. The parallel moves (spec/42_parallel_move.md). First the rules they share: what a scaling mode stops (R170), what
the reads of phase 1 leave, what a store does to its cell, and the two phases of R220 as one equation. -/

namespace Sys2Proof.Proofs

open Sys2Proof Sys2Proof.Machine Sys2Proof.Safety Sys2Proof.Claims

/-! ### The scaling mode (R170) -/

/-- Every scaling mode but 11 has a meaning. -/
theorem scaleOf_ok_or_reserved (sr : BitVec 16) : (∃ sc, scaleOf sr = .ok sc) ∨ sr &&& 0x0C00 = 0x0C00 := by
  by_cases h3 : fieldAt sr 10 2 = 3#2
  · right
    have h10 : sr.getLsbD 10 = true := by simpa [fieldAt] using congrArg (·.getLsbD 0) h3
    have h11 : sr.getLsbD 11 = true := by simpa [fieldAt] using congrArg (·.getLsbD 1) h3
    apply BitVec.eq_of_getLsbD_eq
    intro k hk
    interval_cases k <;> simp [h10, h11]
  · left
    have hlt := (fieldAt sr 10 2).isLt
    have hne : (fieldAt sr 10 2).toNat ≠ 3 := fun h => h3 (BitVec.eq_of_toNat_eq h)
    rw [scaleOf]
    generalize (fieldAt sr 10 2).toNat = n at hlt hne
    interval_cases n
    · exact ⟨_, rfl⟩
    · exact ⟨_, rfl⟩
    · exact ⟨_, rfl⟩
    · exact absurd rfl hne

theorem scaleOf_ok_of_not_reserved {sr : BitVec 16} (h : sr &&& 0x0C00 ≠ 0x0C00) : ∃ sc, scaleOf sr = .ok sc :=
  (scaleOf_ok_or_reserved sr).resolve_right h

/-- An operation completes wherever the scaling mode has a meaning. -/
theorem aluEffect_ok_of_scaleOf {s : State} {sc : Scale} (h : scaleOf s.sr = .ok sc) (op : AluOp) : ∃ e, aluEffect op s = .ok e := by
  cases op with
  | move | tfrAcc d | tfrReg j d | clr d | notAcc d | lsr d | lsl d | ror d | rol d | orReg j d | eorReg j d | andReg j d =>
    exact ⟨_, rfl⟩
  | tst d => exact ⟨_, (compareNoCarry_eq h _).trans (compareEffect_ok h _)⟩
  | cmpAcc d | cmpReg j d | cmpmAcc d | cmpmReg j d => exact ⟨_, compareEffect_ok h _⟩
  | addr d | subr d | addAcc d | addX d | addY d | addReg j d | addl d | subAcc d | subX d | subY d | subReg j d | subl d
  | adc j d | sbc j d | asr d | asl d => exact ⟨_, arithEffect_ok h d _⟩
  | rnd d | absAcc d | neg d | mpy q d k | mpyr q d k | mac q d k | macr q d k =>
    exact ⟨_, (arithNoCarry_eq h d _).trans (arithEffect_ok h d _)⟩

/-- An operation that does not read the scaling mode completes in every state. -/
theorem aluEffect_ok_of_modeFree {op : AluOp} (h : ModeFree op) (s : State) : ∃ e, aluEffect op s = .ok e := by
  obtain rfl | ⟨d, hd⟩ | ⟨j, d, hd⟩ := h
  · exact ⟨_, rfl⟩
  · simp only [List.mem_cons, List.not_mem_nil, or_false] at hd
    rcases hd with rfl | rfl | rfl | rfl | rfl | rfl | rfl <;> exact ⟨_, rfl⟩
  · simp only [List.mem_cons, List.not_mem_nil, or_false] at hd
    rcases hd with rfl | rfl | rfl | rfl <;> exact ⟨_, rfl⟩

/-- What an operation does is decided by the scaling mode and by whether it reads it. -/
theorem aluEffect_cases (op : AluOp) (s : State) :
    ((s.sr &&& 0x0C00 ≠ 0x0C00 ∨ ModeFree op) ∧ ∃ e, aluEffect op s = .ok e) ∨
    (s.sr &&& 0x0C00 = 0x0C00 ∧ ¬ ModeFree op ∧ aluEffect op s = .error .scalingReserved) := by
  by_cases hop : ModeFree op
  · exact .inl ⟨.inr hop, aluEffect_ok_of_modeFree hop s⟩
  by_cases hmode : s.sr &&& 0x0C00 = 0x0C00
  · exact .inr ⟨hmode, hop, aluEffect_error_of_scaleOf hop (scaleOf_reserved hmode)⟩
  · obtain ⟨sc, hsc⟩ := scaleOf_ok_of_not_reserved hmode
    exact .inl ⟨.inl hmode, aluEffect_ok_of_scaleOf hsc op⟩

/-! ### The sticky L of the limiter (R173) -/

theorem limited_limited (p q : Bool) (s : State) : limited q (limited p s) = limited (p || q) s := by
  cases p with
  | false => rfl
  | true =>
    cases q with
    | false => rfl
    | true =>
      show { s with sr := s.sr ||| 0x0040 ||| 0x0040 } = { s with sr := s.sr ||| 0x0040 }
      rw [BitVec.or_assoc, BitVec.or_self]

theorem scaleOf_limited (sat : Bool) (s : State) : scaleOf (limited sat s).sr = scaleOf s.sr := by
  have hfield : fieldAt (limited sat s).sr 10 2 = fieldAt s.sr 10 2 := by
    apply BitVec.eq_of_getLsbD_eq
    intro k hk
    simp only [fieldAt, BitVec.getLsbD_extractLsb', getLsbD_limited, show ¬ 10 + k = 6 by omega, decide_false, Bool.false_and,
      Bool.or_false]
  rw [scaleOf, scaleOf, hfield]

@[simp] theorem accVal_limited (sat : Bool) (s : State) (d : AccSel) : accVal (limited sat s) d = accVal s d := by
  cases sat <;> cases d <;> rfl

/-! ### The registers of a move (R34, R33) -/

/-- A read of a register other than A and B is the register as it stands. -/
theorem readReg_unlimited {r : Reg} (s : State) (hr : r.isMoveReg = true) (ha : r ≠ .a) (hb : r ≠ .b) :
    ∃ v, readReg r s = .ok (v, s) := by
  cases r with
  | a => exact absurd rfl ha
  | b => exact absurd rfl hb
  | m _ | sr | omr | sp | ssh | ssl | la | lc | reserved _ => simp [Reg.isMoveReg] at hr
  | _ => exact ⟨_, rfl⟩

theorem readReg_reserved {r : Reg} {s : State} (hmode : s.sr &&& 0x0C00 = 0x0C00) (hr : r = .a ∨ r = .b) :
    readReg r s = .error .scalingReserved := by
  rcases hr with rfl | rfl
  · exact readReg_acc_reserved .a hmode
  · exact readReg_acc_reserved .b hmode

/-- A register that a move names can be read outside scaling mode 11, and there too unless it is A or B. -/
theorem readReg_move_ok {r : Reg} {s : State} (hr : r.isMoveReg = true)
    (h : s.sr &&& 0x0C00 ≠ 0x0C00 ∨ (r ≠ .a ∧ r ≠ .b)) : ∃ v t, readReg r s = .ok (v, t) := by
  rcases h with hmode | ⟨ha, hb⟩
  · obtain ⟨sc, hsc⟩ := scaleOf_ok_of_not_reserved hmode
    exact readReg_move hr hsc
  · obtain ⟨v, hv⟩ := readReg_unlimited s hr ha hb
    exact ⟨v, s, hv⟩

/-- A read of a move's register leaves the state, up to the limiter's L. -/
theorem readReg_move_state {r : Reg} {s t : State} {v : Word} (hr : r.isMoveReg = true) (h : readReg r s = .ok (v, t)) :
    ∃ sat, t = limited sat s := by
  rcases readReg_ok h with rfl | rfl | ⟨rfl, -⟩
  · exact ⟨false, rfl⟩
  · exact ⟨true, rfl⟩
  · simp [Reg.isMoveReg] at hr

/-- The limited accumulator is the same before and after another register's read. -/
theorem readReg_acc_after {r : Reg} {s t : State} {v : Word} {sc : Scale} (d : AccSel) (hsc : scaleOf s.sr = .ok sc)
    (hr : r.isMoveReg = true) (h : readReg r s = .ok (v, t)) :
    ∃ u, readReg (accReg d) t = .ok ((limit24 sc (accVal s d)).1, u) := by
  obtain ⟨sat, rfl⟩ := readReg_move_state hr h
  have hread := readReg_acc d ((scaleOf_limited sat s).trans hsc)
  rw [accVal_limited] at hread
  exact ⟨_, hread⟩

theorem writeReg_accReg (d : AccSel) (v : Word) (s : State) :
    writeReg (accReg d) v s = .ok (setAcc s d ⟨signExt8 v, v, 0⟩) := by
  cases d <;> rfl

@[simp] theorem isMoveReg_xSideReg (f : XSide) : (xSideReg f).isMoveReg = true := by cases f <;> rfl
@[simp] theorem isMoveReg_ySideReg (f : YSide) : (ySideReg f).isMoveReg = true := by cases f <;> rfl
@[simp] theorem isMoveReg_xInputReg (e : XInput) : (xInputReg e).isMoveReg = true := by cases e <;> rfl
@[simp] theorem isMoveReg_yInputReg (g : YInput) : (yInputReg g).isMoveReg = true := by cases g <;> rfl
@[simp] theorem isMoveReg_accReg (d : AccSel) : (accReg d).isMoveReg = true := by cases d <;> rfl

/-! ### Memory that stays as it was -/

theorem sameMemory_refl (s : State) : SameMemory s s := ⟨fun _ _ => rfl, fun _ => rfl, rfl⟩

theorem sameMemory_trans {s t u : State} (h1 : SameMemory s t) (h2 : SameMemory t u) : SameMemory s u := by
  obtain ⟨hd1, hs1, hp1⟩ := h1
  obtain ⟨hd2, hs2, hp2⟩ := h2
  exact ⟨fun sp a => (hd2 sp a).trans (hd1 sp a), fun a => (hs2 a).trans (hs1 a), hp2.trans hp1⟩

theorem sameMemory_limited (sat : Bool) (s : State) : SameMemory s (limited sat s) := by
  cases sat <;> exact sameMemory_of_arrays rfl rfl rfl rfl rfl rfl

theorem sameMemory_readReg {r : Reg} {s t : State} {v : Word} (hr : r.isMoveReg = true) (h : readReg r s = .ok (v, t)) :
    SameMemory s t := by
  obtain ⟨sat, rfl⟩ := readReg_move_state hr h
  exact sameMemory_limited sat s

theorem sameMemory_memLoad {sp : Space} {a v : Word} {s t : State} (h : memLoad sp a s = .ok (v, t)) : SameMemory s t := by
  rcases memLoad_ok h with rfl | rfl <;> exact sameMemory_of_arrays rfl rfl rfl rfl rfl rfl

/-- A register that a move names is always written, and no word of memory with it. -/
theorem writeReg_move {r : Reg} (v : Word) (s : State) (hr : r.isMoveReg = true) :
    ∃ t, writeReg r v s = .ok t ∧ SameMemory s t := by
  have hcode : ∀ c, r ≠ .reserved c := by
    rintro c rfl
    simp [Reg.isMoveReg] at hr
  obtain ⟨t, ht⟩ := writeReg_total v s hcode
  obtain ⟨hx, hy, hp, hmix, hperiph, hscratch⟩ := writeReg_memory ht
  exact ⟨t, ht, sameMemory_of_arrays hp hx hy hmix hscratch hperiph⟩

theorem sameMemory_setAcc (s : State) (d : AccSel) (x : Acc) : SameMemory s (setAcc s d x) := by
  cases d <;> exact sameMemory_of_arrays rfl rfl rfl rfl rfl rfl

theorem sameMemory_applyAlu (e : AluEffect) (s : State) : SameMemory s (applyAlu e s) := by
  rw [applyAlu_eq]
  exact sameMemory_of_arrays rfl rfl rfl rfl rfl rfl

theorem sameMemory_applyUpdate (u : Option (Fin 8 × Word)) (s : State) : SameMemory s (applyUpdate u s) := by
  cases u <;> exact sameMemory_of_arrays rfl rfl rfl rfl rfl rfl

/-- Phase 2 before its move destinations writes no memory (R220). -/
theorem sameMemory_afterAlu {s t : State} (e : AluEffect) (u : Option (Fin 8 × Word)) (ext : Bool) (h : SameMemory s t) :
    SameMemory s (afterAlu e u ext t) := by
  have hu : SameMemory s (applyUpdate u (applyAlu e t)) :=
    sameMemory_trans h (sameMemory_trans (sameMemory_applyAlu e t) (sameMemory_applyUpdate u _))
  cases ext with
  | false => exact hu
  | true => exact sameMemory_trans hu (sameMemory_of_arrays rfl rfl rfl rfl rfl rfl)

/-! ### A store to a cell (R63, R64) -/

theorem onlyCell_of_sameMemory_left {sp : DspSpace} {a v : Word} {s t u : State} (h1 : SameMemory s t) (h2 : OnlyCell sp a v t u) :
    OnlyCell sp a v s u := by
  obtain ⟨hd, hs, hp⟩ := h1
  obtain ⟨hv, hd', hs', hp'⟩ := h2
  exact ⟨hv, fun sp' a' hne => (hd' sp' a' hne).trans (hd sp' a'), fun b => (hs' b).trans (hs b), hp'.trans hp⟩

theorem onlyCell_of_sameMemory_right {sp : DspSpace} {a v : Word} {s t u : State} (h1 : OnlyCell sp a v s t) (h2 : SameMemory t u) :
    OnlyCell sp a v s u := by
  obtain ⟨hv, hd, hs, hp⟩ := h1
  obtain ⟨hd', hs', hp'⟩ := h2
  exact ⟨(hd' sp a).trans hv, fun sp' a' hne => (hd' sp' a').trans (hd sp' a' hne), fun b => (hs' b).trans (hs b), hp'.trans hp⟩

theorem onlyArrays_trans {s t u : State} (h1 : OnlyArrays s t) (h2 : OnlyArrays t u) : OnlyArrays s u := by
  unfold OnlyArrays at *
  rw [h2, h1]

/-- An X or Y address that selects a cell lies below the peripheral window. -/
theorem below_periph_of_cell {sp : Space} {a : Word} (h : cellOf (dsp sp) a ≠ none) : sp = .x → a.toNat < 0xFFFF80 := by
  rintro rfl
  by_contra hle
  refine h ?_
  rw [dsp, cellOf, if_neg (by omega), if_neg (by omega), if_neg (by omega)]

/-- An X address and a Y address never select one cell. -/
theorem cellOf_x_ne_y {a b : Word} (h : cellOf .y b ≠ none) : cellOf .x a ≠ cellOf .y b := by
  have hy : cellOf .y b = some (.y b.toNat) := ite_eq_left_iff.2 fun hb => absurd (if_neg hb) h
  rw [hy, cellOf]
  split_ifs <;> simp

/-- A store of an instruction to a cell completes, and writes that cell of X, Y or the mix buffer alone. -/
theorem memStore_of_cell {sp : Space} {a : Word} (s : State) (v : Word) (h : cellOf (dsp sp) a ≠ none) :
    ∃ t, memStore sp a v s = .ok t ∧ OnlyArrays s t ∧ OnlyCell (dsp sp) a v s t := by
  obtain ⟨c, hc⟩ := Option.ne_none_iff_exists'.1 h
  refine ⟨writeCell s v c, ?_, ?_, onlyCell_writeCell s v hc⟩
  · rw [memStore_eq_writeDsp s v (below_periph_of_cell h), writeDsp_of_cell s v hc]
  · cases c with
    | p k =>
      cases sp <;> simp only [dsp, cellOf] at hc <;> split_ifs at hc <;> cases hc
    | x k | y k | mix k => rfl

theorem memLoad_of_readDsp {sp : Space} {a v : Word} {s : State} (h : readDsp (dsp sp) s a = .ok v) :
    memLoad sp a s = .ok (v, s) := by
  have hcell : cellOf (dsp sp) a ≠ none := fun hn => by
    rw [readDsp_of_no_cell s hn] at h
    cases h
  rw [memLoad_eq_readDsp s (below_periph_of_cell hcell), h]
  rfl

/-- The 64 short addresses select cells of X and of Y (R225). -/
theorem cellOf_short (sp : Space) (aa : BitVec 6) : cellOf (dsp sp) (aa.setWidth 24) ≠ none := by
  have hlt : (aa.setWidth 24).toNat < 64 := by
    rw [BitVec.toNat_setWidth]
    omega
  cases sp with
  | x => rw [dsp, cellOf, if_neg (by omega), if_neg (by omega), if_pos (by omega)]; exact Option.some_ne_none _
  | y => rw [dsp, cellOf, if_pos (by omega)]; exact Option.some_ne_none _

/-! ### The two phases (R220) -/

section
variable {op : AluOp} {plan : State → Except Fault MovePlan} {s st : State} {e : AluEffect} {f : Fault}

theorem runMove_of_plan_error (hp : plan s = .error f) : runMove op plan s = .fault f := by
  rw [runMove, attemptMove, hp]
  rfl

theorem runMove_of_alu_error {p : MovePlan} (hp : plan s = .ok p) (he : aluEffect op s = .error f) : runMove op plan s = .fault f := by
  rw [runMove, attemptMove, hp, he]
  rfl

theorem runMove_of_ok {p : MovePlan} (hp : plan s = .ok p) (he : aluEffect op s = .ok e) :
    runMove op plan s = toOutcome (commitMove e p) := by
  rw [runMove, attemptMove, hp, he]
  rfl

/-- A move with at most one Rn update does its writes after the effects of `afterAlu`. -/
theorem runMove_of_plan {u : Option (Fin 8 × Word)} {ws : List MoveWrite} {ext : Bool}
    (hp : plan s = .ok ⟨st, u.toList, ws, ext⟩) (he : aluEffect op s = .ok e) :
    runMove op plan s = toOutcome (applyWrites ws (afterAlu e u ext st)) := by
  rw [runMove_of_ok hp he]
  cases u <;> cases ext <;> rfl

/-- A move with two parts writes the update of the first, then that of the second. -/
theorem runMove_of_double_plan {u w : Option (Fin 8 × Word)} {ws : List MoveWrite}
    (hp : plan s = .ok ⟨st, u.toList ++ w.toList, ws, false⟩) (he : aluEffect op s = .ok e) :
    runMove op plan s = toOutcome (applyWrites ws (applyUpdate w (afterAlu e u false st))) := by
  rw [runMove_of_ok hp he]
  cases u <;> cases w <;> rfl

end

section
variable {ws : List MoveWrite} {s t : State}

theorem applyWrites_reg {r : Reg} {v : Word} (h : writeReg r v s = .ok t) : applyWrites (.reg r v :: ws) s = applyWrites ws t := by
  rw [applyWrites, applyWrite, h]
  rfl

theorem applyWrites_mem {sp : Space} {a v : Word} (h : memStore sp a v s = .ok t) :
    applyWrites (.mem sp a v :: ws) s = applyWrites ws t := by
  rw [applyWrites, applyWrite, reasonOnly_ok.1 h]
  rfl

/-- A store's Fatal is the instruction's. -/
theorem toOutcome_applyWrites_mem_error {sp : Space} {a v : Word} {f : Fault} (h : memStore sp a v s = .error f) :
    toOutcome (applyWrites (.mem sp a v :: ws) s) = .fault f := by
  obtain ⟨e, he, rfl⟩ := reasonOnly_error.1 h
  rw [applyWrites, applyWrite, he]
  rfl

end

/-! ### Moves by their writes

A move whose outcome is a list of writes over `b`, the state before its move destinations. -/

section
variable {i : Instr} {s b : State}

theorem register_write {r : Reg} {v : Word} (hx : exec i s = toOutcome (applyWrites [.reg r v] b)) (hb : SameMemory s b)
    (hr : r.isMoveReg = true) : ∃ t, writeReg r v b = .ok t ∧ exec i s = .next t ∧ SameMemory s t := by
  obtain ⟨t, ht, hmem⟩ := writeReg_move v b hr
  exact ⟨t, ht, by rw [hx, applyWrites_reg ht]; rfl, sameMemory_trans hb hmem⟩

theorem two_register_writes {r1 r2 : Reg} {v1 v2 : Word} (hx : exec i s = toOutcome (applyWrites [.reg r1 v1, .reg r2 v2] b))
    (hb : SameMemory s b) (hr1 : r1.isMoveReg = true) (hr2 : r2.isMoveReg = true) :
    ∃ t1 t, writeReg r1 v1 b = .ok t1 ∧ writeReg r2 v2 t1 = .ok t ∧ exec i s = .next t ∧ SameMemory s t := by
  obtain ⟨t1, h1, hm1⟩ := writeReg_move v1 b hr1
  obtain ⟨t, h2, hm2⟩ := writeReg_move v2 t1 hr2
  exact ⟨t1, t, h1, h2, by rw [hx, applyWrites_reg h1, applyWrites_reg h2]; rfl, sameMemory_trans (sameMemory_trans hb hm1) hm2⟩

theorem cell_store {sp : Space} {a v : Word} (hx : exec i s = toOutcome (applyWrites [.mem sp a v] b)) (hb : SameMemory s b)
    (hcell : cellOf (dsp sp) a ≠ none) : ∃ t, exec i s = .next t ∧ OnlyCell (dsp sp) a v s t ∧ OnlyArrays b t := by
  obtain ⟨t, ht, harr, hc⟩ := memStore_of_cell b v hcell
  exact ⟨t, by rw [hx, applyWrites_mem ht]; rfl, onlyCell_of_sameMemory_left hb hc, harr⟩

theorem store_then_register {sp : Space} {a v w : Word} {r : Reg}
    (hx : exec i s = toOutcome (applyWrites [.mem sp a v, .reg r w] b)) (hb : SameMemory s b)
    (hcell : cellOf (dsp sp) a ≠ none) (hr : r.isMoveReg = true) :
    ∃ t1 t, OnlyArrays b t1 ∧ OnlyCell (dsp sp) a v s t1 ∧ writeReg r w t1 = .ok t ∧ exec i s = .next t := by
  obtain ⟨t1, h1, harr, hc⟩ := memStore_of_cell b v hcell
  obtain ⟨t, h2, -⟩ := writeReg_move w t1 hr
  exact ⟨t1, t, harr, onlyCell_of_sameMemory_left hb hc, h2, by rw [hx, applyWrites_mem h1, applyWrites_reg h2]; rfl⟩

theorem register_then_store {sp : Space} {a v w : Word} {r : Reg}
    (hx : exec i s = toOutcome (applyWrites [.reg r w, .mem sp a v] b)) (hb : SameMemory s b)
    (hcell : cellOf (dsp sp) a ≠ none) (hr : r.isMoveReg = true) :
    ∃ t1 t, writeReg r w b = .ok t1 ∧ OnlyArrays t1 t ∧ OnlyCell (dsp sp) a v s t ∧ exec i s = .next t := by
  obtain ⟨t1, h1, hm1⟩ := writeReg_move w b hr
  obtain ⟨t, h2, harr, hc⟩ := memStore_of_cell t1 v hcell
  exact ⟨t1, t, h1, harr, onlyCell_of_sameMemory_left (sameMemory_trans hb hm1) hc,
    by rw [hx, applyWrites_reg h1, applyWrites_mem h2]; rfl⟩

/-- A store of any kind, the peripheral path among them, and then a register. -/
theorem memStore_then_register {sp : Space} {a v w : Word} {r : Reg}
    (hx : exec i s = toOutcome (applyWrites [.mem sp a v, .reg r w] b)) (hr : r.isMoveReg = true) :
    (∀ t1, memStore sp a v b = .ok t1 → ∃ t, writeReg r w t1 = .ok t ∧ exec i s = .next t) ∧
    (∀ f, memStore sp a v b = .error f → exec i s = .fault f) := by
  refine ⟨fun t1 h1 => ?_, fun f h => hx.trans (toOutcome_applyWrites_mem_error h)⟩
  obtain ⟨t, h2, -⟩ := writeReg_move w t1 hr
  exact ⟨t, h2, by rw [hx, applyWrites_mem h1, applyWrites_reg h2]; rfl⟩

/-- A store to a cell of X and then one to a cell of Y: neither undoes the other. -/
theorem two_cell_stores {a1 a2 v1 v2 : Word} (hx : exec i s = toOutcome (applyWrites [.mem .x a1 v1, .mem .y a2 v2] b))
    (hb : SameMemory s b) (h1 : cellOf .x a1 ≠ none) (h2 : cellOf .y a2 ≠ none) :
    ∃ t, exec i s = .next t ∧ OnlyArrays b t ∧ readDsp .x t a1 = .ok v1 ∧ readDsp .y t a2 = .ok v2 ∧
      ∀ sp a, cellOf sp a ≠ cellOf .x a1 → cellOf sp a ≠ cellOf .y a2 → readDsp sp t a = readDsp sp s a := by
  obtain ⟨t1, ht1, harr1, hc1⟩ := memStore_of_cell (sp := .x) b v1 h1
  obtain ⟨t, ht, harr, hc2⟩ := memStore_of_cell (sp := .y) t1 v2 h2
  obtain ⟨hv1, hframe1, -⟩ := onlyCell_of_sameMemory_left hb hc1
  obtain ⟨hv2, hframe2, -⟩ := hc2
  refine ⟨t, by rw [hx, applyWrites_mem ht1, applyWrites_mem ht]; rfl, onlyArrays_trans harr1 harr, ?_, hv2, fun sp a hne1 hne2 => ?_⟩
  · exact (hframe2 .x a1 (cellOf_x_ne_y h2)).trans hv1
  · exact (hframe2 sp a hne2).trans (hframe1 sp a hne1)

end

end Sys2Proof.Proofs
end

section
/-! PROOFS. The moves of one part (R221 to R225): no move, the address register update, registers and immediates, and the X
and Y memory moves. -/

namespace Sys2Proof.Proofs

open Sys2Proof Sys2Proof.Machine Sys2Proof.Safety Sys2Proof.Claims

/-! ### No parallel move (R221) -/

/-- With nothing to move, phase 2 is the ALU effect alone. -/
theorem exec_noMove (op : AluOp) (s : State) : exec (.noMove op) s = exec (aluInstr op) s := by
  rw [exec_aluInstr, runAlu]
  cases he : aluEffect op s with
  | ok e => exact runMove_of_ok (plan := planNoMove) rfl he
  | error f => exact runMove_of_alu_error (plan := planNoMove) rfl he

/-- An ALU effect writes one accumulator at most. -/
theorem applyAlu_keeps_acc (e : AluEffect) (s : State) : (applyAlu e s).a = s.a ∨ (applyAlu e s).b = s.b := by
  obtain ⟨acc, sr⟩ := e
  rcases acc with _ | ⟨d, v⟩
  · exact .inl rfl
  · cases d
    · exact .inr rfl
    · exact .inl rfl

theorem getLsbD_applyAlu_sr (e : AluEffect) (s : State) (k : Nat) :
    (applyAlu e s).sr.getLsbD k = if k = srL then e.sr.getLsbD srL || s.sr.getLsbD srL else e.sr.getLsbD k := by
  obtain ⟨acc, sr⟩ := e
  have hL : ∀ t : State, t.sr = s.sr → (setSr t (setBit sr srL (sr.getLsbD srL || t.sr.getLsbD srL))).sr.getLsbD k =
      if k = srL then sr.getLsbD srL || s.sr.getLsbD srL else sr.getLsbD k := fun t ht => by
    rw [setSr_sr, getLsbD_setBit _ (by decide), ht]
  rcases acc with _ | ⟨d, v⟩
  · exact hL s rfl
  · cases d
    · exact hL (setAcc s .a v) rfl
    · exact hL (setAcc s .b v) rfl

/-- Settles O29: phase 2 of an empty move is the effect's write, which keeps SR above CCR and ORs L. -/
theorem noMoveIsTheAluOperation : Obligations.NoMoveIsTheAluOperation := by
  intro s op
  refine ⟨exec_noMove op s, fun sc hsc => ?_⟩
  obtain ⟨e, he⟩ := aluEffect_ok_of_scaleOf hsc op
  refine ⟨e, applyAlu e s, he, (exec_noMove op s).trans (exec_aluInstr_of_ok he), rfl, applyAlu_eq e s, applyAlu_keeps_acc e s,
    fun k hk => ?_, fun hL => ?_, sameMemory_applyAlu e s⟩
  · rw [getLsbD_applyAlu_sr, if_neg (by simp only [srL]; omega)]
    exact (aluEffect_sr he).getLsbD hk
  · rw [getLsbD_applyAlu_sr, if_pos rfl, hL, Bool.or_true]

/-! ### The address register update (R222) -/

theorem updateDisp_eq (mode : UpdateMode) (s : State) (i : Fin 8) : updateDisp mode s i = shortDisp mode s.n[i] := by
  cases mode <;> rfl

/-- Phase 1 of the update is the address arithmetic alone. -/
theorem planMoveUpdate_eq (mode : UpdateMode) (i : Fin 8) (s : State) :
    planMoveUpdate mode i s =
      (offsetOf s.r[i] s.m[i] (shortDisp mode s.n[i])).bind fun u => .ok ⟨s, (some (i, u)).toList, [], false⟩ := by
  rw [← updateDisp_eq]
  rfl

/-- Settles O30: the arithmetic is phase 1, so its Fatal precedes the operation's, which is that of scaling mode 11. -/
theorem addressRegisterUpdate : Obligations.AddressRegisterUpdate := by
  intro s mode i op
  refine ⟨?_, fun f hf => ?_, fun u hu => ?_, fun f hf => ?_⟩
  · rcases aluEffect_cases op s with ⟨h, he⟩ | ⟨hmode, hop, he⟩
    · exact iff_of_true he h
    · refine iff_of_false ?_ ?_
      · rintro ⟨e, he'⟩
        rw [he] at he'
        cases he'
      · rintro (h | h)
        · exact h hmode
        · exact hop h
  · rcases aluEffect_cases op s with ⟨-, e, he⟩ | ⟨-, -, he⟩ <;> rw [he] at hf <;> cases hf
    rfl
  · have hplan : planMoveUpdate mode i s = .ok ⟨s, (some (i, u)).toList, [], false⟩ := by rw [planMoveUpdate_eq, hu]; rfl
    refine ⟨fun e he => ⟨_, runMove_of_plan hplan he, ?_, sameMemory_afterAlu e _ _ (sameMemory_refl s)⟩,
      fun f he => runMove_of_alu_error hplan he⟩
    rw [afterAlu, applyUpdate, setR, applyAlu_eq]
    rfl
  · exact runMove_of_plan_error (plan := planMoveUpdate mode i) (by rw [planMoveUpdate_eq, hf]; rfl)

/-! ### Moves that write one destination -/

section
variable {i : Instr} {op : AluOp} {plan : State → Except Fault MovePlan} {s st : State} {e : AluEffect} {r : Reg} {v : Word}
  {u : Option (Fin 8 × Word)} {ext : Bool}

theorem loadsRegister_of_plan (hi : exec i s = runMove op plan s) (hp : plan s = .ok ⟨st, u.toList, [.reg r v], ext⟩)
    (he : aluEffect op s = .ok e) (hr : r.isMoveReg = true) (hst : SameMemory s st) : LoadsRegister i s st r v op u ext := by
  obtain ⟨t, ht⟩ := register_write (hi.trans (runMove_of_plan hp he)) (sameMemory_afterAlu e u ext hst) hr
  exact ⟨e, t, he, ht⟩

theorem storesRegister_of_plan {sp : Space} {a : Word} (hi : exec i s = runMove op plan s)
    (hp : plan s = .ok ⟨st, u.toList, [.mem sp a v], ext⟩) (he : aluEffect op s = .ok e) (hr : r.isMoveReg = true)
    (hread : readReg r s = .ok (v, st)) (hcell : cellOf (dsp sp) a ≠ none) : StoresRegister i s r sp a op u ext := by
  have hb := sameMemory_afterAlu e u ext (sameMemory_readReg hr hread)
  obtain ⟨t, ht⟩ := cell_store (hi.trans (runMove_of_plan hp he)) hb hcell
  exact ⟨e, v, st, t, he, hread, ht⟩

theorem storesPeripheral_of_plan {a : Word} (hi : exec i s = runMove op plan s)
    (hp : plan s = .ok ⟨st, u.toList, [.mem .x a v], ext⟩) (he : aluEffect op s = .ok e) (hread : readReg r s = .ok (v, st)) :
    StoresPeripheral i s r a op u ext := by
  have hx := hi.trans (runMove_of_plan hp he)
  exact ⟨e, v, st, he, hread, fun t ht => by rw [hx, applyWrites_mem ht]; rfl,
    fun f hf => hx.trans (toOutcome_applyWrites_mem_error hf)⟩

end

/-! ### Phase 1 of a memory part (R225) -/

section
variable {sp : Space} {r : Reg} {others : List (Reg × Reg)} {ws : List MoveWrite} {s s1 s2 : State} {v : Word} {ea : EaAddr}
  {u : AddrUse} {f : Fault}

theorem readMoves_one {dst src : Reg} (h : readReg src s = .ok (v, s1)) : readMoves [(dst, src)] s = .ok ([.reg dst v], s1) := by
  rw [readMoves, h]
  rfl

theorem readMoves_one_error {dst src : Reg} (h : readReg src s = .error f) : readMoves [(dst, src)] s = .error f := by
  rw [readMoves, h]
  rfl

theorem planEa_imm (h : readMoves others s = .ok (ws, s1)) :
    planEa sp r (.load (.imm v)) others s = .ok ⟨s1, [], .reg r v, ws, true⟩ := by
  rw [planEa, h]
  rfl

theorem planEa_load (hu : useEa ea s = .ok u) (h : readMoves others s = .ok (ws, s1)) (hm : memLoad sp u.addr s1 = .ok (v, s2)) :
    planEa sp r (.load (.addr ea)) others s = .ok ⟨s2, u.update.toList, .reg r v, ws, eaTakesExt ea⟩ :=
  bind_ok.2 ⟨u, hu, bind_ok.2 ⟨(ws, s1), h, bind_ok.2 ⟨(v, s2), hm, rfl⟩⟩⟩

theorem planEa_store (hu : useEa ea s = .ok u) (hr : readReg r s = .ok (v, s1)) (h : readMoves others s1 = .ok (ws, s2)) :
    planEa sp r (.store ea) others s = .ok ⟨s2, u.update.toList, .mem sp u.addr v, ws, eaTakesExt ea⟩ :=
  bind_ok.2 ⟨u, hu, bind_ok.2 ⟨(v, s1), hr, bind_ok.2 ⟨(ws, s2), h, rfl⟩⟩⟩

theorem planEa_store_error (hu : useEa ea s = .ok u) (hr : readReg r s = .error f) :
    planEa sp r (.store ea) others s = .error f :=
  bind_error.2 (.inr ⟨u, hu, bind_error.2 (.inl hr)⟩)

/-- A move made of one memory part, in either order of its writes, has the plan of that part. -/
theorem planOfEa_ok {order : EaPlan → MovePlan} {mv : EaMove} {p : EaPlan} (h : planEa sp r mv others s = .ok p) :
    (do
      let q ← planEa sp r mv others s
      .ok (order q) : Except Fault MovePlan) = .ok (order p) := by
  rw [h]
  rfl

theorem planOfEa_error {order : EaPlan → MovePlan} {mv : EaMove} (h : planEa sp r mv others s = .error f) :
    (do
      let q ← planEa sp r mv others s
      .ok (order q) : Except Fault MovePlan) = .error f := by
  rw [h]
  rfl

theorem planMoveXYAa_load {aa : BitVec 6} (h : memLoad sp (aa.setWidth 24) s = .ok (v, s1)) :
    planMoveXYAa sp r .load aa s = .ok ⟨s1, [], [.reg r v], false⟩ :=
  bind_ok.2 ⟨(v, s1), h, rfl⟩

theorem planMoveXYAa_store {aa : BitVec 6} (h : readReg r s = .ok (v, s1)) :
    planMoveXYAa sp r .store aa s = .ok ⟨s1, [], [.mem sp (aa.setWidth 24) v], false⟩ :=
  bind_ok.2 ⟨(v, s1), h, rfl⟩

theorem planMoveXYAa_store_error {aa : BitVec 6} (h : readReg r s = .error f) : planMoveXYAa sp r .store aa s = .error f :=
  bind_error.2 (.inl h)

end

/-! ### Register and immediate moves (R223, R224) -/

/-- An immediate short is the integer at the upper byte of the six, and at the low byte of the others. -/
theorem immShort_eq {dst : Reg} (i : BitVec 8) :
    immShort dst i =
      if dst ∈ [Reg.x0, Reg.x1, Reg.y0, Reg.y1, Reg.a, Reg.b] then BitVec.ofNat 24 (i.toNat * 2 ^ 16) else BitVec.ofNat 24 i.toNat := by
  have hlow : i.setWidth 24 = BitVec.ofNat 24 i.toNat := by
    apply BitVec.eq_of_toNat_eq
    rw [BitVec.toNat_setWidth, BitVec.toNat_ofNat]
  have hhigh : i.setWidth 24 <<< 16 = BitVec.ofNat 24 (i.toNat * 2 ^ 16) := by
    rw [hlow, BitVec.shiftLeft_eq_mul_twoPow, BitVec.ofNat_mul]
    rfl
  rw [← hlow, ← hhigh]
  cases dst <;> rfl

/-- Settles O31: one register write after the ALU result; only a source A or B reads the scaling mode. -/
theorem registerAndImmediateMoves : Obligations.RegisterAndImmediateMoves := by
  intro s e op dst he hdst
  refine ⟨fun src hsrc => ⟨fun h => ?_, fun hmode hab => ?_⟩, fun i => ?_⟩
  · obtain ⟨v, s1, hread⟩ := readReg_move_ok hsrc h
    have hplan : planMoveRegReg src dst s = .ok ⟨s1, [], [.reg dst v], false⟩ := by
      rw [planMoveRegReg, readMoves_one hread]
      rfl
    exact ⟨v, s1, hread, loadsRegister_of_plan rfl hplan he hdst (sameMemory_readReg hsrc hread)⟩
  · refine runMove_of_plan_error (plan := planMoveRegReg src dst) ?_
    rw [planMoveRegReg, readMoves_one_error (readReg_reserved hmode hab)]
    rfl
  · rw [← immShort_eq]
    exact loadsRegister_of_plan (plan := planMoveImm dst i) rfl rfl he hdst (sameMemory_refl s)

/-! ### X and Y memory moves (R225) -/

/-- Settles O32: each form is one write, of the register or of the addressed word, after the ALU result and the Rn update. -/
theorem memoryMoves : Obligations.MemoryMoves := by
  intro s e op sp r he hr
  refine ⟨fun ea u v s1 hu hm => ?_, fun v => ?_, fun aa v s1 hm => ?_, fun h => ?_,
    fun hmode hab => ⟨fun ea u hu => ?_, fun aa => ?_⟩⟩
  · exact loadsRegister_of_plan rfl (planOfEa_ok (order := mainFirst) (planEa_load hu rfl hm)) he hr (sameMemory_memLoad hm)
  · exact loadsRegister_of_plan (u := none) rfl (planOfEa_ok (order := mainFirst) (planEa_imm rfl)) he hr (sameMemory_refl s)
  · exact loadsRegister_of_plan (u := none) rfl (planMoveXYAa_load hm) he hr (sameMemory_memLoad hm)
  · obtain ⟨v, s1, hread⟩ := readReg_move_ok hr h
    have hplan : ∀ ea u, useEa ea s = .ok u →
        planMoveXYEa sp r (.store ea) s = .ok ⟨s1, u.update.toList, [.mem sp u.addr v], eaTakesExt ea⟩ :=
      fun ea u hu => planOfEa_ok (order := mainFirst) (planEa_store hu hread rfl)
    refine ⟨fun ea u hu hcell => ?_, fun ea u hu hsp _ => ?_, fun aa => ?_⟩
    · exact storesRegister_of_plan rfl (hplan ea u hu) he hr hread hcell
    · subst hsp
      exact storesPeripheral_of_plan rfl (hplan ea u hu) he hread
    · exact storesRegister_of_plan (u := none) rfl (planMoveXYAa_store hread) he hr hread (cellOf_short sp aa)
  · have hplan := planEa_store_error (sp := sp) (others := []) hu (readReg_reserved hmode hab)
    exact runMove_of_plan_error (plan := planMoveXYEa sp r (.store ea)) (planOfEa_error (order := mainFirst) hplan)
  · exact runMove_of_plan_error (planMoveXYAa_store_error (readReg_reserved hmode hab))

end Sys2Proof.Proofs
end

section
/-! PROOFS. The moves of class I and II (R226 to R228, R232, R233): a memory part beside a limited accumulator. -/

namespace Sys2Proof.Proofs

open Sys2Proof Sys2Proof.Machine Sys2Proof.Safety Sys2Proof.Claims

/-! ### A limited accumulator as the second source (R170) -/

section
variable {sp : Space} {r : Reg} {s : State} {d : AccSel}

theorem planEa_imm_reserved {v : Word} (g : Reg) (hmode : s.sr &&& 0x0C00 = 0x0C00) :
    planEa sp r (.load (.imm v)) [(g, accReg d)] s = .error .scalingReserved :=
  bind_error.2 (.inl (readMoves_one_error (readReg_acc_reserved d hmode)))

/-- The register sources are read before a load's memory source, and the address before both (R220, log entry 19). -/
theorem planEa_addr_reserved {ea : EaAddr} {u : AddrUse} {mv : EaMove} (g : Reg) (hmode : s.sr &&& 0x0C00 = 0x0C00)
    (hr : r.isMoveReg = true) (hu : useEa ea s = .ok u) (hmv : mv ∈ [EaMove.load (.addr ea), .store ea]) :
    planEa sp r mv [(g, accReg d)] s = .error .scalingReserved := by
  have hacc : readMoves [(g, accReg d)] s = .error .scalingReserved := readMoves_one_error (readReg_acc_reserved d hmode)
  simp only [List.mem_cons, List.not_mem_nil, or_false] at hmv
  rcases hmv with rfl | rfl
  · exact bind_error.2 (.inr ⟨u, hu, bind_error.2 (.inl hacc)⟩)
  · by_cases hab : r = .a ∨ r = .b
    · exact planEa_store_error hu (readReg_reserved hmode hab)
    · obtain ⟨v, hv⟩ := readReg_unlimited s hr (fun h => hab (.inl h)) fun h => hab (.inr h)
      exact bind_error.2 (.inr ⟨u, hu, bind_error.2 (.inr ⟨(v, s), hv, bind_error.2 (.inl hacc)⟩)⟩)

end

/-! ### Class I (R226, R227) -/

section
variable {op : AluOp} {d : AccSel} {s : State} {e : AluEffect} {f : Fault}

theorem exec_moveXRI_error {x : XSide} {g : YInput} {mv : EaMove}
    (h : planEa .x (xSideReg x) mv [(yInputReg g, accReg d)] s = .error f) : exec (.moveXRI x d g mv op) s = .fault f :=
  runMove_of_plan_error (plan := planMoveXRI x d g mv) (planOfEa_error (order := mainFirst) h)

theorem exec_moveRYI_error {x : XInput} {y : YSide} {mv : EaMove}
    (h : planEa .y (ySideReg y) mv [(xInputReg x, accReg d)] s = .error f) : exec (.moveRYI d x y mv op) s = .fault f :=
  runMove_of_plan_error (plan := planMoveRYI d x y mv) (planOfEa_error (order := mainLast) h)

variable {st : State} {u : Option (Fin 8 × Word)} {ext : Bool} {main : MoveWrite} {others : List MoveWrite}

/-- X:R: the X part, then the copy of the accumulator. -/
theorem exec_moveXRI {x : XSide} {g : YInput} {mv : EaMove}
    (h : planEa .x (xSideReg x) mv [(yInputReg g, accReg d)] s = .ok ⟨st, u.toList, main, others, ext⟩)
    (he : aluEffect op s = .ok e) :
    exec (.moveXRI x d g mv op) s = toOutcome (applyWrites (main :: others) (afterAlu e u ext st)) :=
  runMove_of_plan (plan := planMoveXRI x d g mv) (planOfEa_ok (order := mainFirst) h) he

/-- R:Y: the copy of the accumulator, then the Y part. -/
theorem exec_moveRYI {x : XInput} {y : YSide} {mv : EaMove}
    (h : planEa .y (ySideReg y) mv [(xInputReg x, accReg d)] s = .ok ⟨st, u.toList, main, others, ext⟩)
    (he : aluEffect op s = .ok e) :
    exec (.moveRYI d x y mv op) s = toOutcome (applyWrites (others ++ [main]) (afterAlu e u ext st)) :=
  runMove_of_plan (plan := planMoveRYI d x y mv) (planOfEa_ok (order := mainLast) h) he

end

/-- Settles O33: every form reads the accumulator after the address and its own register, and before a memory source; its
two writes follow in the order of the class. -/
theorem classOneMoves : Obligations.ClassOneMoves := by
  intro s op d
  refine ⟨fun hmode f g x y => ⟨fun v => ⟨?_, ?_⟩, fun ea u hu mv hmv => ⟨?_, ?_⟩⟩, fun sc hsc => ?_⟩
  · exact exec_moveXRI_error (planEa_imm_reserved _ hmode)
  · exact exec_moveRYI_error (planEa_imm_reserved _ hmode)
  · exact exec_moveXRI_error (planEa_addr_reserved _ hmode (isMoveReg_xSideReg f) hu hmv)
  · exact exec_moveRYI_error (planEa_addr_reserved _ hmode (isMoveReg_ySideReg y) hu hmv)
  obtain ⟨e, he⟩ := aluEffect_ok_of_scaleOf hsc op
  have hacc := readReg_acc d hsc
  have hs1 := sameMemory_readReg (isMoveReg_accReg d) hacc
  /- A store reads its own register first, and the accumulator after it is the same. -/
  have reads : ∀ r : Reg, r.isMoveReg = true → ∃ v s2 s3, readReg r s = .ok (v, s2) ∧
      readReg (accReg d) s2 = .ok ((limit24 sc (accVal s d)).1, s3) ∧ SameMemory s s3 := fun r hr => by
    obtain ⟨v, s2, hread⟩ := readReg_move hr hsc
    obtain ⟨s3, hacc2⟩ := readReg_acc_after d hsc hr hread
    exact ⟨v, s2, s3, hread, hacc2, sameMemory_trans (sameMemory_readReg hr hread) (sameMemory_readReg (isMoveReg_accReg d) hacc2)⟩
  refine ⟨_, _, hacc, fun f g ea u v s2 hu hm => ?_, fun f g v => ?_, fun f g ea u hu hcell => ?_, fun f g ea u hu _ => ?_,
    fun x f ea u v s2 hu hm => ?_, fun x f v => ?_, fun x f ea u hu hcell => ?_⟩
  · have hb := sameMemory_afterAlu e u.update (eaTakesExt ea) (sameMemory_trans hs1 (sameMemory_memLoad hm))
    obtain ⟨t1, t, h⟩ := two_register_writes (exec_moveXRI (planEa_load hu (readMoves_one hacc) hm) he) hb
      (isMoveReg_xSideReg f) (isMoveReg_yInputReg g)
    exact ⟨e, t1, t, he, h⟩
  · have hb := sameMemory_afterAlu e none true hs1
    obtain ⟨t1, t, h⟩ := two_register_writes (exec_moveXRI (u := none) (planEa_imm (readMoves_one hacc)) he) hb
      (isMoveReg_xSideReg f) (isMoveReg_yInputReg g)
    exact ⟨e, t1, t, he, h⟩
  · obtain ⟨v, s2, s3, hread, hacc2, hs3⟩ := reads (xSideReg f) (isMoveReg_xSideReg f)
    have hb := sameMemory_afterAlu e u.update (eaTakesExt ea) hs3
    obtain ⟨t1, t, h⟩ := store_then_register (exec_moveXRI (planEa_store hu hread (readMoves_one hacc2)) he) hb hcell
      (isMoveReg_yInputReg g)
    exact ⟨e, v, s2, s3, t1, t, he, hread, hacc2, h⟩
  · obtain ⟨v, s2, s3, hread, hacc2, -⟩ := reads (xSideReg f) (isMoveReg_xSideReg f)
    exact ⟨e, v, s2, s3, he, hread, hacc2,
      memStore_then_register (exec_moveXRI (planEa_store hu hread (readMoves_one hacc2)) he) (isMoveReg_yInputReg g)⟩
  · have hb := sameMemory_afterAlu e u.update (eaTakesExt ea) (sameMemory_trans hs1 (sameMemory_memLoad hm))
    obtain ⟨t1, t, h⟩ := two_register_writes (exec_moveRYI (planEa_load hu (readMoves_one hacc) hm) he) hb
      (isMoveReg_xInputReg x) (isMoveReg_ySideReg f)
    exact ⟨e, t1, t, he, h⟩
  · have hb := sameMemory_afterAlu e none true hs1
    obtain ⟨t1, t, h⟩ := two_register_writes (exec_moveRYI (u := none) (planEa_imm (readMoves_one hacc)) he) hb
      (isMoveReg_xInputReg x) (isMoveReg_ySideReg f)
    exact ⟨e, t1, t, he, h⟩
  · obtain ⟨v, s2, s3, hread, hacc2, hs3⟩ := reads (ySideReg f) (isMoveReg_ySideReg f)
    have hb := sameMemory_afterAlu e u.update (eaTakesExt ea) hs3
    obtain ⟨t1, t, h⟩ := register_then_store (exec_moveRYI (planEa_store hu hread (readMoves_one hacc2)) he) hb hcell
      (isMoveReg_xInputReg x)
    exact ⟨e, v, s2, s3, t1, t, he, hread, hacc2, h⟩

/-! ### Class II (R232, R233) -/

/-- Phase 1 of a class II move: the limited accumulator, and then the input register that replaces it. -/
theorem planEa_classTwo {sp : Space} {src : Reg} {d : AccSel} {ea : EaAddr} {u : AddrUse} {s s1 : State} {v w : Word}
    (hu : useEa ea s = .ok u) (hacc : readReg (accReg d) s = .ok (v, s1)) (hsrc : readReg src s1 = .ok (w, s1)) :
    planEa sp (accReg d) (.store ea) [(accReg d, src)] s =
      .ok ⟨s1, u.update.toList, .mem sp u.addr v, [.reg (accReg d) w], eaTakesExt ea⟩ :=
  planEa_store hu hacc (readMoves_one hsrc)

/-- The store of an accumulator to a cell, and then the word that replaces it. -/
theorem store_then_acc {i : Instr} {s b : State} {sp : Space} {a v w : Word} {d : AccSel}
    (hx : exec i s = toOutcome (applyWrites [.mem sp a v, .reg (accReg d) w] b)) (hb : SameMemory s b)
    (hcell : cellOf (dsp sp) a ≠ none) :
    ∃ t1 t, OnlyArrays b t1 ∧ OnlyCell (dsp sp) a v s t ∧ t = setAcc t1 d ⟨signExt8 w, w, 0⟩ ∧ exec i s = .next t := by
  obtain ⟨t1, t, harr, hc, hw, hnext⟩ := store_then_register hx hb hcell (isMoveReg_accReg d)
  rw [writeReg_accReg] at hw
  cases hw
  exact ⟨t1, _, harr, onlyCell_of_sameMemory_right hc (sameMemory_setAcc t1 d _), rfl, hnext⟩

/-- Settles O34: the accumulator is read, stored, and then replaced. -/
theorem classTwoMoves : Obligations.ClassTwoMoves := by
  intro s op d ea u hu
  refine ⟨fun hmode i hi => ?_, fun sc hsc => ?_⟩
  · have hacc := readReg_acc_reserved d hmode
    simp only [List.mem_cons, List.not_mem_nil, or_false] at hi
    rcases hi with rfl | rfl
    · exact runMove_of_plan_error (plan := planMoveXRII d ea) (planOfEa_error (order := mainFirst) (planEa_store_error hu hacc))
    · exact runMove_of_plan_error (plan := planMoveRYII d ea) (planOfEa_error (order := mainFirst) (planEa_store_error hu hacc))
  obtain ⟨e, he⟩ := aluEffect_ok_of_scaleOf hsc op
  have hacc := readReg_acc d hsc
  generalize hsat : (limit24 sc (accVal s d)).2 = sat at hacc
  have hb := sameMemory_afterAlu e u.update (eaTakesExt ea) (sameMemory_limited sat s)
  have hx0 : readReg .x0 (limited sat s) = .ok (s.x0, limited sat s) := by cases sat <;> rfl
  have hy0 : readReg .y0 (limited sat s) = .ok (s.y0, limited sat s) := by cases sat <;> rfl
  have hX := runMove_of_plan (plan := planMoveXRII d ea) (planOfEa_ok (order := mainFirst) (planEa_classTwo hu hacc hx0)) he
  have hY := runMove_of_plan (plan := planMoveRYII d ea) (planOfEa_ok (order := mainFirst) (planEa_classTwo hu hacc hy0)) he
  refine ⟨e, _, _, he, hacc, fun hcell => store_then_acc (i := .moveXRII d ea op) hX hb hcell, fun _ => ?_,
    fun hcell => store_then_acc (i := .moveRYII d ea op) hY hb hcell⟩
  obtain ⟨hnext, hfault⟩ := memStore_then_register (i := .moveXRII d ea op) hX (isMoveReg_accReg d)
  refine ⟨fun t1 ht1 => ?_, hfault⟩
  obtain ⟨t, hw, ht⟩ := hnext t1 ht1
  rw [writeReg_accReg] at hw
  cases hw
  exact ht

end Sys2Proof.Proofs
end

section
/-! PROOFS. The moves that use X and Y together (R229 to R231, R234): L moves and XY double moves. -/

namespace Sys2Proof.Proofs

open Sys2Proof Sys2Proof.Machine Sys2Proof.Safety Sys2Proof.Claims

/-! ### The register pairs (R229, R230) -/

/-- The two words of a pair as a source, each read with the limiter's L of the one before it. -/
theorem readPair_eq {l : LPair} {s : State} {sc : Scale} (h : scaleOf s.sr = .ok sc ∨ l ∈ [LPair.a10, .b10, .x, .y]) :
    readPair l s =
      .ok (((pairSource l sc s).1, (pairSource l sc s).2.1), limited (pairSource l sc s).2.2 s) := by
  have both : ∀ d1 d2 : AccSel, scaleOf s.sr = .ok sc →
      (do
        let (h, s1) ← readReg (accReg d1) s
        let (v, s2) ← readReg (accReg d2) s1
        .ok ((h, v), s2) : Except Fault ((Word × Word) × State)) =
      .ok (((limit24 sc (accVal s d1)).1, (limit24 sc (accVal s d2)).1),
        limited ((limit24 sc (accVal s d1)).2 || (limit24 sc (accVal s d2)).2) s) := fun d1 d2 hsc => by
    have h2 := readReg_acc d2 ((scaleOf_limited (limit24 sc (accVal s d1)).2 s).trans hsc)
    rw [accVal_limited, limited_limited] at h2
    exact bind_ok.2 ⟨_, readReg_acc d1 hsc, bind_ok.2 ⟨_, h2, rfl⟩⟩
  have hsc : l ∈ [LPair.a, .b, .ab, .ba] → scaleOf s.sr = .ok sc := fun hl => h.resolve_right fun hl' => by
    cases l <;> simp at hl hl'
  cases l with
  | a10 | b10 | x | y => rfl
  | a | b =>
    simp only [readPair, hsc (by simp)]
    rfl
  | ab => exact both .a .b (hsc (by simp))
  | ba => exact both .b .a (hsc (by simp))

theorem readPair_reserved {l : LPair} {s : State} (hmode : s.sr &&& 0x0C00 = 0x0C00) (hl : l ∈ [LPair.a, .b, .ab, .ba]) :
    readPair l s = .error .scalingReserved := by
  cases l with
  | a10 | b10 | x | y => simp at hl
  | a | b => simp only [readPair, scaleOf_reserved hmode]
  | ab => exact bind_error.2 (.inl (readReg_acc_reserved .a hmode))
  | ba => exact bind_error.2 (.inl (readReg_acc_reserved .b hmode))

/-- The writes of a pair are its registers after a load. -/
theorem applyWrites_pairWrites (l : LPair) (hi lo : Word) (s : State) :
    applyWrites (pairWrites l hi lo) s = .ok (pairLoaded l hi lo s) := by
  cases l <;> rfl

theorem sameMemory_pairLoaded (l : LPair) (hi lo : Word) (s : State) : SameMemory s (pairLoaded l hi lo s) := by
  cases l <;> exact sameMemory_of_arrays rfl rfl rfl rfl rfl rfl

/-! ### L moves at an address (R229) -/

section
variable {i : Instr} {op : AluOp} {plan : State → Except Fault MovePlan} {l : LPair} {a : Word} {u : Option (Fin 8 × Word)}
  {ext : Bool} {s : State} {e : AluEffect}

/-- The plan of an L move with an effective address is that of its address. -/
theorem planMoveLEa_eq {w : Dir} {ea : EaAddr} {use : AddrUse} (hu : useEa ea s = .ok use) :
    planMoveLEa l w ea s = planLong l w use.addr use.update.toList (eaTakesExt ea) s := by
  rw [planMoveLEa, hu]
  rfl

theorem long_load {hi lo : Word} (hexec : exec i s = runMove op plan s) (hp : plan s = planLong l .load a u.toList ext s)
    (he : aluEffect op s = .ok e) (hhi : readDsp .x s a = .ok hi) (hlo : readDsp .y s a = .ok lo) :
    ∃ t, t = pairLoaded l hi lo (afterAlu e u ext s) ∧ exec i s = .next t ∧ SameMemory s t := by
  have hx : memLoad .x a s = .ok (hi, s) := memLoad_of_readDsp hhi
  have hy : memLoad .y a s = .ok (lo, s) := memLoad_of_readDsp hlo
  have hplan : plan s = .ok ⟨s, u.toList, pairWrites l hi lo, ext⟩ :=
    hp.trans (bind_ok.2 ⟨_, hx, bind_ok.2 ⟨_, hy, rfl⟩⟩)
  refine ⟨_, rfl, ?_, sameMemory_trans (sameMemory_afterAlu e u ext (sameMemory_refl s)) (sameMemory_pairLoaded l hi lo _)⟩
  rw [hexec, runMove_of_plan hplan he, applyWrites_pairWrites]
  rfl

theorem long_store {sc : Scale} (hi : exec i s = runMove op plan s) (hp : plan s = planLong l .store a u.toList ext s)
    (he : aluEffect op s = .ok e) (hl : scaleOf s.sr = .ok sc ∨ l ∈ [LPair.a10, .b10, .x, .y])
    (hx : cellOf .x a ≠ none) (hy : cellOf .y a ≠ none) :
    ∃ t, exec i s = .next t ∧ OnlyArrays (afterAlu e u ext (limited (pairSource l sc s).2.2 s)) t ∧
      readDsp .x t a = .ok (pairSource l sc s).1 ∧ readDsp .y t a = .ok (pairSource l sc s).2.1 ∧
      ∀ sp a', cellOf sp a' ≠ cellOf .x a → cellOf sp a' ≠ cellOf .y a → readDsp sp t a' = readDsp sp s a' := by
  have hplan := hp.trans (bind_ok.2 ⟨_, readPair_eq hl, rfl⟩)
  exact two_cell_stores (hi.trans (runMove_of_plan hplan he)) (sameMemory_afterAlu e u ext (sameMemory_limited _ s)) hx hy

theorem long_store_reserved (hi : exec i s = runMove op plan s) (hp : plan s = planLong l .store a u.toList ext s)
    (hmode : s.sr &&& 0x0C00 = 0x0C00) (hl : l ∈ [LPair.a, .b, .ab, .ba]) : exec i s = .fault .scalingReserved :=
  hi.trans (runMove_of_plan_error (hp.trans (bind_error.2 (.inl (readPair_reserved hmode hl)))))

end

/-- Settles O35: both address forms are one L move at an address; a short address always has its two cells. -/
theorem longMoves : Obligations.LongMoves := by
  intro s e op l he
  refine ⟨fun ea u hi lo hu hhi hlo => ?_, fun aa => ?_, fun sc hl => ⟨fun ea u hu hx hy => ?_, fun aa => ?_⟩,
    fun hmode hl => ⟨fun ea u hu => ?_, fun aa => ?_⟩⟩
  · exact long_load (plan := planMoveLEa l .load ea) rfl (planMoveLEa_eq hu) he hhi hlo
  · obtain ⟨cx, hcx⟩ := Option.ne_none_iff_exists'.1 (cellOf_short .x aa)
    obtain ⟨cy, hcy⟩ := Option.ne_none_iff_exists'.1 (cellOf_short .y aa)
    have hhi := readDsp_of_cell s hcx
    have hlo := readDsp_of_cell s hcy
    obtain ⟨t, ht⟩ := long_load (i := .moveLAa l .load aa op) (u := none) (plan := planMoveLAa l .load aa) rfl rfl he hhi hlo
    exact ⟨_, _, t, hhi, hlo, ht⟩
  · exact long_store (plan := planMoveLEa l .store ea) rfl (planMoveLEa_eq hu) he hl hx hy
  · exact long_store (u := none) (plan := planMoveLAa l .store aa) rfl rfl he hl (cellOf_short .x aa) (cellOf_short .y aa)
  · exact long_store_reserved (plan := planMoveLEa l .store ea) rfl (planMoveLEa_eq hu) hmode hl
  · exact long_store_reserved (u := none) (plan := planMoveLAa l .store aa) rfl rfl hmode hl

/-! ### XY double moves (R231, R234) -/

theorem xyConflict_iff {wx wy : Dir} {x : XSide} {y : YSide} :
    xyConflict wx wy x y = true ↔ wx = .load ∧ wy = .load ∧ (x = .a ∧ y = .a ∨ x = .b ∧ y = .b) := by
  simp [xyConflict, and_assoc]

theorem xyWrite_load {sp : Space} {r : Reg} {a v w : Word} {s t : State} (h : memLoad sp a s = .ok (w, t)) :
    xyWrite .load sp r a v s = .ok (.reg r w, t) :=
  bind_ok.2 ⟨_, h, rfl⟩

/-- A double move that is no conflict: addresses, register sources, memory sources; then the ALU effect, the two updates, and
the X part before the Y part (R231, R220). -/
theorem exec_moveXYDouble {wx wy : Dir} {my mx : XyMode} (x : XSide) (y : YSide) {rr : BitVec 2} {i : Fin 8} {op : AluOp}
    {s s1 s2 s3 s4 : State} {ux uy : AddrUse} {vx vy : Word} {px py : MoveWrite} {e : AluEffect}
    (hc : ¬ (wx = .load ∧ wy = .load ∧ (x = .a ∧ y = .a ∨ x = .b ∧ y = .b))) (he : aluEffect op s = .ok e)
    (hux : useXyMode mx i s = .ok ux) (huy : useXyMode my (xyYIndex i rr) s = .ok uy)
    (h1 : xySource wx (xSideReg x) s = .ok (vx, s1)) (h2 : xySource wy (ySideReg y) s1 = .ok (vy, s2))
    (h3 : xyWrite wx .x (xSideReg x) ux.addr vx s2 = .ok (px, s3)) (h4 : xyWrite wy .y (ySideReg y) uy.addr vy s3 = .ok (py, s4)) :
    exec (.moveXYDouble wy my x y wx rr mx i op) s =
      toOutcome (applyWrites [px, py] (applyUpdate uy.update (afterAlu e ux.update false s4))) := by
  refine runMove_of_double_plan (plan := planMoveXYDouble wy my x y wx rr mx i) ?_ he
  rw [planMoveXYDouble, if_neg fun h => hc (xyConflict_iff.1 h)]
  exact bind_ok.2 ⟨_, hux, bind_ok.2 ⟨_, huy, bind_ok.2 ⟨_, h1, bind_ok.2 ⟨_, h2, bind_ok.2 ⟨_, h3, bind_ok.2 ⟨_, h4, rfl⟩⟩⟩⟩⟩⟩

theorem exec_moveXYDouble_conflict {my mx : XyMode} {x : XSide} {y : YSide} (rr : BitVec 2) (i : Fin 8) (op : AluOp) (s : State)
    (h : x = .a ∧ y = .a ∨ x = .b ∧ y = .b) : exec (.moveXYDouble .load my x y .load rr mx i op) s = .fault .moveConflict :=
  runMove_of_plan_error (plan := planMoveXYDouble .load my x y .load rr mx i) (if_pos (xyConflict_iff.2 ⟨rfl, rfl, h⟩))

/-- Settles O36: one equation for the four directions, then the two writes of each. -/
theorem doubleMoves : Obligations.DoubleMoves := by
  intro s op my mx x y rr i
  refine ⟨exec_moveXYDouble_conflict rr i op s, fun e ux uy he hux huy => ?_⟩
  have hb : ∀ t, SameMemory s t → SameMemory s (applyUpdate uy.update (afterAlu e ux.update false t)) := fun t h =>
    sameMemory_trans (sameMemory_afterAlu e _ _ h) (sameMemory_applyUpdate _ _)
  have hX := isMoveReg_xSideReg x
  have hY := isMoveReg_ySideReg y
  refine ⟨fun vx s1 vy s2 hc h1 h2 => ?_, fun vy s1 vx s2 h1 h2 hcell => ?_, fun vx s1 vy s2 h1 h2 hcell => ?_,
    fun vx s1 vy s2 h1 h2 _ => ?_, fun vx s1 vy s2 h1 h2 hcx hcy => ?_, fun vx s1 vy s2 h1 h2 _ => ?_⟩
  · have hx := exec_moveXYDouble x y (by simpa using hc) he hux huy rfl rfl (xyWrite_load h1) (xyWrite_load h2)
    have hmem := sameMemory_trans (sameMemory_memLoad h1) (sameMemory_memLoad h2)
    obtain ⟨t1, t, h⟩ := two_register_writes hx (hb s2 hmem) hX hY
    exact ⟨e, t1, t, he, h⟩
  · have hx := exec_moveXYDouble x y (wy := .store) (by simp) he hux huy rfl h1 (xyWrite_load h2) rfl
    have hmem := sameMemory_trans (sameMemory_readReg hY h1) (sameMemory_memLoad h2)
    obtain ⟨t1, t, h⟩ := register_then_store hx (hb s2 hmem) hcell hX
    exact ⟨e, t1, t, he, h⟩
  · have hx := exec_moveXYDouble x y (wx := .store) (by simp) he hux huy h1 rfl rfl (xyWrite_load h2)
    have hmem := sameMemory_trans (sameMemory_readReg hX h1) (sameMemory_memLoad h2)
    obtain ⟨t1, t, h⟩ := store_then_register hx (hb s2 hmem) hcell hY
    exact ⟨e, t1, t, he, h⟩
  · have hx := exec_moveXYDouble x y (wx := .store) (by simp) he hux huy h1 rfl rfl (xyWrite_load h2)
    exact ⟨e, he, memStore_then_register hx hY⟩
  · have hx := exec_moveXYDouble x y (wx := .store) (wy := .store) (by simp) he hux huy h1 h2 rfl rfl
    have hmem := sameMemory_trans (sameMemory_readReg hX h1) (sameMemory_readReg hY h2)
    obtain ⟨t, hnext, harr, hvx, hvy, hframe⟩ := two_cell_stores hx (hb s2 hmem) hcx hcy
    exact ⟨e, t, he, harr, hvx, hvy, hframe, hnext⟩
  · have hx := exec_moveXYDouble x y (wx := .store) (wy := .store) (by simp) he hux huy h1 h2 rfl rfl
    refine ⟨e, he, fun t1 ht1 => ?_, fun f hf => hx.trans (toOutcome_applyWrites_mem_error hf)⟩
    have hdsp : memStore .y uy.addr vy t1 = writeDsp .y t1 uy.addr vy := memStore_eq_writeDsp (isp := .y) t1 vy (by simp)
    rw [applyWrites_mem ht1] at hx
    refine ⟨fun hcell => ?_, fun hnone => ?_⟩
    · obtain ⟨t, ht, -⟩ := memStore_of_cell (sp := .y) t1 vy hcell
      exact ⟨t, hdsp ▸ ht, by rw [hx, applyWrites_mem ht]; rfl⟩
    · exact hx.trans (toOutcome_applyWrites_mem_error (hdsp.trans (writeDsp_of_no_cell t1 vy hnone)))

end Sys2Proof.Proofs
end

section
/-! PROOFS. Program control (spec/43_program_control.md). First the rows that read no operand (R250 to R258): NOP, the
traps, the returns, ENDDO, and the immediate operations on SR and OMR. -/

namespace Sys2Proof.Proofs

open Sys2Proof Sys2Proof.Machine Sys2Proof.Safety Sys2Proof.Claims

/-! ### Rows that post at most (R250, R252, R253, R255) -/

/-- Settles O37: none of the three has an effect, and UNLISTED_POLICY is the undefined path. -/
theorem nopWaitStopChangeNothing : Obligations.NopWaitStopChangeNothing := fun _ => ⟨rfl, rfl, rfl⟩

theorem post_of_disabled_or_pending {src : IrqSource} {s : State}
    (h : s.ipl[irqIndex src] = .disabled ∨ s.pending[irqIndex src] = true) : post src s = s := by
  rcases post_cases src s with he | ⟨hipl, hpend, -⟩
  · exact he
  · rcases h with h | h
    · exact absurd h hipl
    · simp [hpend] at h

theorem post_of_enabled {src : IrqSource} {s : State} (hipl : s.ipl[irqIndex src] ≠ .disabled)
    (hpend : s.pending[irqIndex src] = false) :
    post src s = { s with pending := s.pending.set (irqIndex src) true, pendingCount := s.pendingCount + 1 } := by
  rw [post, if_neg hipl, if_neg (by simp [hpend])]

/-- Settles O38: both rows are a post, and a post has its two cases. -/
theorem illegalAndTrapPostTheirSource : Obligations.IllegalAndTrapPostTheirSource := by
  refine ⟨?_, fun s j => ⟨post_of_disabled_or_pending, post_of_enabled, pendingOk_post j⟩⟩
  rintro s i k (⟨rfl, rfl⟩ | ⟨rfl, rfl⟩)
  · exact ⟨fun h => congrArg _ (post_of_disabled_or_pending (src := .illegal) h),
      fun hipl hpend => congrArg _ (post_of_enabled (src := .illegal) hipl hpend)⟩
  · exact ⟨fun h => congrArg _ (post_of_disabled_or_pending (src := .swi) h),
      fun hipl hpend => congrArg _ (post_of_enabled (src := .swi) hipl hpend)⟩

/-! ### Returns and ENDDO (R251, R254, R256) -/

/-- A pop charges nothing (R42). -/
@[simp] theorem popped_instrCycle (s : State) : (popped s).instrCycle = s.instrCycle := by
  rw [← popState_eq_popped, popState_instrCycle]

theorem returnFromInterrupt_eq (s : State) :
    returnFromInterrupt s = { popped s with pc := s.ssh.setWidth 24, sr := s.ssl &&& 0xAF7F, len := 0 } := by
  rw [returnFromInterrupt, popState_eq_popped]
  rfl

theorem returnFromSubroutine_eq (s : State) : returnFromSubroutine s = { popped s with pc := s.ssh.setWidth 24, len := 0 } := by
  rw [returnFromSubroutine, popState_eq_popped]
  rfl

/-- Settles O39: each return is a pop, the jump to the popped pc, and its charge. -/
theorem returnsPopTheStack : Obligations.ReturnsPopTheStack := by
  intro s
  have hrti : exec .rti s = .next (addCycles (returnFromInterrupt s) 2) := rfl
  have hrts : exec .rts s = .next (addCycles (returnFromSubroutine s) 2) := rfl
  rw [hrti, hrts, returnFromInterrupt_eq, returnFromSubroutine_eq]
  simp only [addCycles, popped_instrCycle, and_self]

/-- Settles O40: ENDDO is the end of a DO loop without its count. -/
theorem enddoUnwindsTheLoop : Obligations.EnddoUnwindsTheLoop := fun s => congrArg _ (unwindLoop_eq_loopPopped s)

/-! ### ANDI and ORI (R257, R258) -/

/-- A 16-bit word is its upper byte eight places up, over its lower byte. -/
theorem append_eq_or (hi lo : BitVec 8) : (hi ++ lo : BitVec 16) = (hi.setWidth 16 <<< 8) ||| lo.setWidth 16 :=
  (BitVec.setWidth_eq _).symm.trans BitVec.setWidth_append_eq_shiftLeft_setWidth_or

/-- Settles O41: the immediate is extended to SR by the bits that leave the other half as it is. -/
theorem andiAndOriOnControlBits : Obligations.AndiAndOriOnControlBits := by
  intro s i
  have hmr : (i ++ 0xFF#8 : BitVec 16) = (i.setWidth 16 <<< 8) ||| 0x00FF := append_eq_or i 0xFF
  have hccr : (0xFF#8 ++ i : BitVec 16) = 0xFF00 ||| i.setWidth 16 := append_eq_or 0xFF i
  have hmr0 : (i ++ 0x00#8 : BitVec 16) = i.setWidth 16 <<< 8 := (append_eq_or i 0).trans BitVec.or_zero
  have hccr0 : (0x00#8 ++ i : BitVec 16) = i.setWidth 16 := (append_eq_or 0 i).trans BitVec.zero_or
  rw [← hmr, ← hccr, ← hmr0, ← hccr0]
  exact ⟨rfl, rfl, rfl, rfl, rfl, rfl⟩

end Sys2Proof.Proofs
end

section
/-! PROOFS. The operands of program control (R100, R108), and the control-register moves (R259 to R262). -/

namespace Sys2Proof.Proofs

open Sys2Proof Sys2Proof.Machine Sys2Proof.Safety Sys2Proof.Claims

/-! ### A computation after an operand -/

section
variable {α : Type} {s : State} {x : Except Fault α} {f : α → Except Stop State}

theorem toOutcome_bind_of_ok {y : Except Stop α} {a : α} (h : y = .ok a) : toOutcome (y >>= f) = toOutcome (f a) := by
  rw [h]
  rfl

/-- The Fatal of an operand is the instruction's. -/
theorem toOutcome_bind_of_error {r : Fault} (h : x = .error r) : toOutcome (raisedIn s x >>= f) = .fault r := by
  rw [h]
  rfl

/-- A row that always completes once its operand has an address or a count. -/
theorem next_after_operand {y : Except Stop (Word × State)} {v : Word} {s1 : State} (g : Word → State → State)
    (h : y = .ok (v, s1)) : toOutcome (y >>= fun p => .ok (g p.1 p.2)) = .next (g v s1) :=
  toOutcome_bind_of_ok h

theorem toOutcome_of_error {r : Fault} {y : Except Fault State} (h : y = .error r) : toOutcome (raisedIn s y) = .fault r := by
  rw [h]
  rfl

end

/-- The effective address of a control row: the Rn update and the extension word come before its use (R100, R108). -/
theorem enterEa_of_useEa {ea : EaAddr} {s : State} {u : AddrUse} (h : useEa ea s = .ok u) :
    raisedIn s (enterEa ea s) = .ok (u.addr, addressed u.update (eaTakesExt ea) s) := by
  rw [raisedIn_ok, enterEa, h]
  rfl

@[simp] theorem applyUpdate_pc (u : Option (Fin 8 × Word)) (s : State) : (applyUpdate u s).pc = s.pc := by
  cases u <;> rfl

@[simp] theorem applyUpdate_sr (u : Option (Fin 8 × Word)) (s : State) : (applyUpdate u s).sr = s.sr := by
  cases u <;> rfl

@[simp] theorem addressed_pc (u : Option (Fin 8 × Word)) (ext : Bool) (s : State) : (addressed u ext s).pc = s.pc := by
  cases ext <;> exact applyUpdate_pc u s

@[simp] theorem addressed_sr (u : Option (Fin 8 × Word)) (ext : Bool) (s : State) : (addressed u ext s).sr = s.sr := by
  cases ext <;> exact applyUpdate_sr u s

/-! ### Memory that an operand leaves as it was -/

theorem sameMemory_addressed (u : Option (Fin 8 × Word)) (ext : Bool) (s : State) : SameMemory s (addressed u ext s) := by
  cases ext with
  | false => exact sameMemory_applyUpdate u s
  | true => exact sameMemory_trans (sameMemory_applyUpdate u s) (sameMemory_of_arrays rfl rfl rfl rfl rfl rfl)

theorem sameMemory_popState (s : State) : SameMemory s (popState s) :=
  sameMemory_of_arrays (popState_pram s) (popState_xram s) (popState_yram s) (popState_mixbuffer s) (popState_scratch s)
    (popState_periph s)

/-- A read of any register, the popping one among them, writes no memory (R34). -/
theorem sameMemory_of_readReg {r : Reg} {s t : State} {v : Word} (h : readReg r s = .ok (v, t)) : SameMemory s t := by
  rcases readReg_ok h with rfl | rfl | ⟨-, rfl⟩
  · exact sameMemory_refl t
  · exact sameMemory_setSr s _
  · exact sameMemory_popState s

/-- A register that has a code is always written, and no word of memory with it (R23, R33). -/
theorem writeReg_completes {r : Reg} (v : Word) (s : State) (hr : ∀ k, r ≠ .reserved k) :
    ∃ t, writeReg r v s = .ok t ∧ SameMemory s t := by
  obtain ⟨t, ht⟩ := writeReg_total v s hr
  obtain ⟨hx, hy, hp, hmix, hperiph, hscratch⟩ := writeReg_memory ht
  exact ⟨t, ht, sameMemory_of_arrays hp hx hy hmix hscratch hperiph⟩

/-! ### MOVEC (R259 to R262) -/

section
variable {i : Instr} {s b s1 : State} {sp : Space} {a v : Word} {c : Reg}

/-- An instruction that ends with a write of a register that has a code. -/
theorem ends_with_writeReg (hx : exec i s = toOutcome (raisedIn b (writeReg c v b))) (hb : SameMemory s b)
    (hc : ∀ k, c ≠ .reserved k) : ∃ t, writeReg c v b = .ok t ∧ exec i s = .next t ∧ SameMemory s t := by
  obtain ⟨t, ht, hmem⟩ := writeReg_completes v b hc
  exact ⟨t, ht, hx.trans (toOutcome_next.2 (raisedIn_ok.2 ht)), sameMemory_trans hb hmem⟩

/-- A copy reads its source, then writes its destination; a reserved code on either side is Fatal (R23, R259). -/
theorem copies_register {src dst : Reg} (hx : exec i s = toOutcome (copyReg src dst s)) :
    (∀ k, src = .reserved k → exec i s = .fault .reservedRegister) ∧
    (∀ v s1, readReg src s = .ok (v, s1) → (∀ k, dst ≠ .reserved k) →
      ∃ t, writeReg dst v s1 = .ok t ∧ exec i s = .next t ∧ SameMemory s t) ∧
    (∀ v s1 k, readReg src s = .ok (v, s1) → dst = .reserved k → exec i s = .fault .reservedRegister) := by
  have hread : ∀ v s1, readReg src s = .ok (v, s1) → exec i s = toOutcome (raisedIn s1 (writeReg dst v s1)) :=
    fun v s1 h => hx.trans (toOutcome_bind_of_ok (raisedIn_ok.2 h))
  refine ⟨?_, fun v s1 h hdst => ends_with_writeReg (hread v s1 h) (sameMemory_of_readReg h) hdst, ?_⟩
  · rintro k rfl
    exact hx.trans (toOutcome_bind_of_error rfl)
  · rintro v s1 k h rfl
    exact (hread v s1 h).trans (toOutcome_of_error rfl)

/-- A control register loaded with a word of memory. -/
theorem loads_control (hx : exec i s = toOutcome (loadReg sp a c b)) (hb : SameMemory s b)
    (hm : memLoad sp a b = .ok (v, s1)) (hc : ∀ k, c ≠ .reserved k) :
    ∃ t, writeReg c v s1 = .ok t ∧ exec i s = .next t ∧ SameMemory s t :=
  ends_with_writeReg (hx.trans (toOutcome_bind_of_ok (raisedIn_ok.2 hm))) (sameMemory_trans hb (sameMemory_memLoad hm)) hc

theorem storeReg_of_read (hx : exec i s = toOutcome (storeReg sp a c b)) (hr : readReg c b = .ok (v, s1)) :
    exec i s = toOutcome (attemptStore sp a v s1) := by
  rw [hx, storeReg, toOutcome_bind_of_ok (raisedIn_ok.2 hr)]

/-- A control register stored to an address that has a cell. -/
theorem stores_control (hx : exec i s = toOutcome (storeReg sp a c b)) (hb : SameMemory s b)
    (hr : readReg c b = .ok (v, s1)) (hcell : cellOf (dsp sp) a ≠ none) :
    ∃ t, exec i s = .next t ∧ OnlyCell (dsp sp) a v s t ∧ OnlyArrays s1 t := by
  obtain ⟨t, ht, harr, hc⟩ := memStore_of_cell s1 v hcell
  refine ⟨t, (storeReg_of_read hx hr).trans (toOutcome_next.2 (reasonOnly_ok.1 ht)), ?_, harr⟩
  exact onlyCell_of_sameMemory_left (sameMemory_trans hb (sameMemory_of_readReg hr)) hc

/-- A control register stored to any address, the peripheral ones among them: the outcome is the store's (R68). -/
theorem stores_control_as_memStore (hx : exec i s = toOutcome (storeReg sp a c b)) (hr : readReg c b = .ok (v, s1)) :
    (∀ t, memStore sp a v s1 = .ok t → exec i s = .next t) ∧ (∀ f, memStore sp a v s1 = .error f → exec i s = .fault f) :=
  ⟨fun _ ht => (storeReg_of_read hx hr).trans (toOutcome_next.2 (reasonOnly_ok.1 ht)),
    fun _ hf => (storeReg_of_read hx hr).trans (toOutcome_fault.2 (reasonOnly_error.1 hf))⟩

theorem exec_movecEa_load {ea : EaAddr} {u : AddrUse} (h : useEa ea s = .ok u) (sp : Space) (c : Reg) :
    exec (.movecEa (.load (.addr ea)) sp c) s = toOutcome (loadReg sp u.addr c (addressed u.update (eaTakesExt ea) s)) :=
  toOutcome_bind_of_ok (enterEa_of_useEa h)

theorem exec_movecEa_store {ea : EaAddr} {u : AddrUse} (h : useEa ea s = .ok u) (sp : Space) (c : Reg) :
    exec (.movecEa (.store ea) sp c) s = toOutcome (storeReg sp u.addr c (addressed u.update (eaTakesExt ea) s)) :=
  toOutcome_bind_of_ok (enterEa_of_useEa h)

end

/-- Settles O42: a copy in either direction, or the write of the zero-extended immediate. -/
theorem movecRegisterAndImmediate : Obligations.MovecRegisterAndImmediate := by
  intro s
  refine ⟨fun w r c => ?_, fun i c hc => ?_, fun i k => toOutcome_of_error rfl⟩
  · cases w with
    | load => exact copies_register (src := r) (dst := c) rfl
    | store => exact copies_register (src := c) (dst := r) rfl
  · rw [BitVec.ofNat_toNat]
    exact ends_with_writeReg rfl (sameMemory_refl s) hc

/-- Settles O43: after its address, each form is one load or one store of the control register. -/
theorem movecMemory : Obligations.MovecMemory := by
  intro s sp c hc
  refine ⟨fun ea u v s1 hu hm => ?_, fun v => ?_, fun aa v s1 hm => ?_, fun ea u v s1 hu hcell hr => ?_,
    fun ea u v s1 hu hsp _ hr => ?_, fun aa v s1 hr => ?_⟩
  · exact loads_control (exec_movecEa_load hu sp c) (sameMemory_addressed _ _ s) hm hc
  · exact ends_with_writeReg rfl (sameMemory_of_arrays rfl rfl rfl rfl rfl rfl) hc
  · exact loads_control rfl (sameMemory_refl s) hm hc
  · exact stores_control (exec_movecEa_store hu sp c) (sameMemory_addressed _ _ s) hr hcell
  · subst hsp
    exact stores_control_as_memStore (exec_movecEa_store hu .x c) hr
  · exact stores_control rfl (sameMemory_refl s) hr (cellOf_short sp aa)

end Sys2Proof.Proofs
end

section
/-! PROOFS. The loops (R263 to R270): a REP or a DO starts with the count that its operand gives. -/

namespace Sys2Proof.Proofs

open Sys2Proof Sys2Proof.Machine Sys2Proof.Safety Sys2Proof.Claims

/-! ### The count (R264 to R266, R268 to R270) -/

/-- The count at an effective address is read after the Rn update (R265, R269). -/
theorem countEa_of_load {mode : EaMode} {i : Fin 8} {sp : Space} {s s1 : State} {u : AddrUse} {v : Word}
    (hu : useEa (.reg mode i) s = .ok u) (hm : memLoad sp u.addr (applyUpdate u.update s) = .ok (v, s1)) :
    countEa mode i sp s = .ok (v, s1) :=
  bind_ok.2 ⟨_, enterEa_of_useEa hu, raisedIn_ok.2 hm⟩

/-! ### REP (R263 to R266) -/

/-- Settles O44: every form starts the same REP with its count. -/
theorem repStarts : Obligations.RepStarts := by
  intro s
  refine ⟨fun c => rfl, fun aa sp v s1 hm => ?_, fun mode i sp u v s1 hu hm => ?_, fun r v s1 hr => ?_⟩
  · exact next_after_operand (y := countAa aa sp s) (fun w => startRep (w.setWidth 16)) (raisedIn_ok.2 hm)
  · exact next_after_operand (fun w => startRep (w.setWidth 16)) (countEa_of_load hu hm)
  · exact next_after_operand (y := countReg r s) (fun w => startRep (w.setWidth 16)) (raisedIn_ok.2 hr)

/-! ### DO (R267 to R270) -/

/-- A 16-bit entry passes through a push unchanged (R31). -/
theorem setWidth_setWidth_16 (w : BitVec 16) : (w.setWidth 24).setWidth 16 = w := by simp

/-- The first push of DO saves (LA, LC) (R267). -/
theorem saveLoop_eq_pushed (s : State) : saveLoop s = pushed s.la (s.lc.setWidth 16) s := by
  rw [saveLoop, push_eq_pushed, setWidth_setWidth_16, BitVec.setWidth_setWidth_of_le _ (by decide)]

/-- The loop's flag, count, length and charge, after the two pushes (R267, R366). -/
def loopEntered (count : BitVec 16) (s : State) : State :=
  { s with sr := s.sr ||| 0x8000, lc := count.setWidth 17, len := 2, instrCycle := s.instrCycle + 4 }

theorem loopEntered_eq (count : BitVec 16) (s : State) :
    addCycles { setSr s (setBit s.sr srLF true) with lc := count.setWidth 17, len := 2 } Config.cyclesExtraDo =
      loopEntered count s := rfl

/-- The body of DO is that of R267: neither push nor the write of LA moves pc or SR. -/
theorem startDo_eq_doStarted (count : BitVec 16) (last : Word) (s : State) : startDo count last s = doStarted count last s := by
  have hpc : (saveLoop s).pc + 2 = s.pc + 2 := by rw [saveLoop, push, pushWith_pc]
  have hsr : (saveLoop s).sr.setWidth 24 = s.sr.setWidth 24 := by rw [saveLoop, push, pushWith_sr]
  calc startDo count last s
      = loopEntered count
          (push ((saveLoop s).pc + 2) ((saveLoop s).sr.setWidth 24) { saveLoop s with la := last.setWidth 16 }) :=
        loopEntered_eq count _
    _ = loopEntered count
          (pushed ((s.pc + 2).setWidth 16) s.sr { pushed s.la (s.lc.setWidth 16) s with la := last.setWidth 16 }) := by
        rw [hpc, hsr, push_eq_pushed, setWidth_setWidth_16, saveLoop_eq_pushed]
    _ = doStarted count last s := rfl

theorem next_doStarted {x : Host.Outcome State Fault Refusal} {count : BitVec 16} {last : Word} {s : State}
    (h : x = .next (startDo count last s)) : x = .next (doStarted count last s) := by
  rw [h, startDo_eq_doStarted]

/-- Settles O45: every form starts the same DO with its count. -/
theorem doStarts : Obligations.DoStarts := by
  intro s last
  refine ⟨fun c => next_doStarted rfl, fun aa sp v s1 hm => next_doStarted ?_, fun mode i sp u v s1 hu hm => next_doStarted ?_,
    fun r v s1 hr => next_doStarted ?_⟩
  · exact next_after_operand (y := countAa aa sp s) (fun w => startDo (w.setWidth 16) last) (raisedIn_ok.2 hm)
  · exact next_after_operand (fun w => startDo (w.setWidth 16) last) (countEa_of_load hu hm)
  · exact next_after_operand (y := countReg r s) (fun w => startDo (w.setWidth 16) last) (raisedIn_ok.2 hr)

end Sys2Proof.Proofs
end

section
/-! PROOFS. Jumps and calls (R271 to R278): the address and its Rn update come before the condition decides what happens to pc. -/

namespace Sys2Proof.Proofs

open Sys2Proof Sys2Proof.Machine Sys2Proof.Safety Sys2Proof.Claims

/-! ### Jumps (R271, R272, R275, R277) -/

section
variable {s : State} {ea : EaAddr} {u : AddrUse}

theorem exec_jmpEa (h : useEa ea s = .ok u) :
    exec (.jmpEa ea) s = .next (jumped u.addr (addressed u.update (eaTakesExt ea) s)) :=
  next_after_operand takeJump (enterEa_of_useEa h)

/-- The condition is that of SR before the instruction; the Rn update happens in either case (R272). -/
theorem exec_jccEa (h : useEa ea s = .ok u) (cond : Cond) :
    exec (.jccEa ea cond) s = .next (if condHolds cond s.sr then jumped u.addr (addressed u.update (eaTakesExt ea) s)
      else skipJump (addressed u.update (eaTakesExt ea) s)) :=
  next_after_operand (fun t s1 => if condHolds cond s.sr then takeJump t s1 else skipJump s1) (enterEa_of_useEa h)

theorem exec_jccAbs (cond : Cond) (a : BitVec 12) (s : State) :
    exec (.jccAbs cond a) s = .next (if condHolds cond s.sr then jumped (a.setWidth 24) s else skipJump s) := rfl

end

/-- Settles O46: one equation for each form, with its two cases. -/
theorem jumps : Obligations.Jumps := by
  intro s cond a
  refine ⟨rfl, fun h => ?_, fun h => ?_, fun ea u hu => ⟨exec_jmpEa hu, fun h => ?_, fun h => ⟨_, rfl, ?_⟩⟩⟩
  · rw [exec_jccAbs, h, if_pos rfl]
  · rw [exec_jccAbs, h, if_neg Bool.false_ne_true]
    rfl
  · rw [exec_jccEa hu, h, if_pos rfl]
  · rw [exec_jccEa hu, h, if_neg Bool.false_ne_true]
    rfl

/-! ### Calls (R273, R274, R276, R278) -/

section
variable {s : State} {ea : EaAddr} {u : AddrUse}

/-- A call that pushes saves the return address and SR (R273, R274). -/
theorem callAlways_eq (t len : Word) (s : State) :
    callAlways t len s = jumped t (pushed ((s.pc + len).setWidth 16) s.sr s) := by
  rw [callAlways, push_eq_pushed, setWidth_setWidth_16]
  rfl

/-- The body of JSR: a call that pushes, but for the one of a long interrupt (R273). -/
theorem callTo_eq_called (t len : Word) (s : State) : callTo t len s = called t len s := by
  rw [called, ← callAlways_eq]
  rfl

theorem exec_jsrEa (h : useEa ea s = .ok u) :
    exec (.jsrEa ea) s = .next (callTo u.addr (eaLength ea) (addressed u.update (eaTakesExt ea) s)) :=
  next_after_operand (callTo · (eaLength ea) ·) (enterEa_of_useEa h)

/-- The condition is that of SR before the instruction; the Rn update happens in either case (R274). -/
theorem exec_jsccEa (h : useEa ea s = .ok u) (cond : Cond) :
    exec (.jsccEa ea cond) s = .next (if condHolds cond s.sr
      then callAlways u.addr (eaLength ea) (addressed u.update (eaTakesExt ea) s)
      else skipJump (addressed u.update (eaTakesExt ea) s)) :=
  next_after_operand (fun t s1 => if condHolds cond s.sr then callAlways t (eaLength ea) s1 else skipJump s1) (enterEa_of_useEa h)

theorem exec_jsccAbs (cond : Cond) (a : BitVec 12) (s : State) :
    exec (.jsccAbs cond a) s = .next (if condHolds cond s.sr then callAlways (a.setWidth 24) 1 s else skipJump s) := rfl

end

/-- Settles O47: one equation for each form; the address moves neither pc nor SR, which a call pushes. -/
theorem calls : Obligations.Calls := by
  intro s cond a
  refine ⟨congrArg _ (callTo_eq_called _ 1 s), fun h => ?_, fun h => ?_, fun ea u hu => ⟨?_, fun h => ?_, fun h => ?_⟩⟩
  · rw [exec_jsccAbs, h, if_pos rfl, callAlways_eq]
  · rw [exec_jsccAbs, h, if_neg Bool.false_ne_true]
    rfl
  · rw [exec_jsrEa hu, callTo_eq_called]
    rfl
  · rw [exec_jsccEa hu, h, if_pos rfl, callAlways_eq, addressed_pc, addressed_sr]
    rfl
  · rw [exec_jsccEa hu, h, if_neg Bool.false_ne_true]
    rfl

end Sys2Proof.Proofs
end

section
/-! PROOFS. The peripheral window (R67, R68, R291 to R293, R299) and the DMA control register (R294 to R296): the action of a
write, and when the walk that follows it does nothing. -/

namespace Sys2Proof.Proofs

open Sys2Proof Sys2Proof.Machine Sys2Proof.Safety Sys2Proof.Claims

/-! ### The peripheral window -/

section
variable {a : Word} (h : a ∉ [0xFFFFC5, 0xFFFFD4, 0xFFFFD5, 0xFFFFD6, 0xFFFFD7])
include h

/-- A host address is none of the core's five (R291). -/
theorem ne_core_addresses :
    a ≠ Config.addrIsr ∧ a ≠ Config.addrDmaNext ∧ a ≠ Config.addrDmaStart ∧ a ≠ Config.addrDmaControl ∧
      a ≠ Config.addrDmaConfig := by
  simp only [List.mem_cons, List.not_mem_nil, or_false, not_or] at h
  exact h

/-- A write to a host address changes nothing here (R68). -/
theorem writePeriph_host (v : Word) (s : State) : writePeriph a v s = .ok s := by
  obtain ⟨hisr, hnext, hstart, hcontrol, hconfig⟩ := ne_core_addresses h
  rw [writePeriph, if_neg hisr, if_neg hconfig, if_neg hcontrol, if_neg hstart, if_neg hnext]

/-- A read of a host address is a free draw (R67). -/
theorem readPeriph_host (s : State) : readPeriph a s = (Config.hostPeriphRead s.draws a, { s with draws := s.draws + 1 }) := by
  obtain ⟨hisr, hnext, hstart, hcontrol, hconfig⟩ := ne_core_addresses h
  rw [readPeriph, if_neg hisr, if_neg hconfig, if_neg hcontrol, if_neg hstart, if_neg hnext]

/-- A debug read of a host address answers 0 (R347). -/
theorem peekPeriph_host (s : State) : peekPeriph s a = 0 := by
  obtain ⟨hisr, hnext, hstart, hcontrol, hconfig⟩ := ne_core_addresses h
  rw [peekPeriph, if_neg hisr, if_neg hconfig, if_neg hcontrol, if_neg hstart, if_neg hnext]

end

/-- A write of the interrupt-status register clears eol where it writes bit 7 (R299). -/
theorem memStore_isr (v : Word) (s : State) : memStore .x 0xFFFFC5 v s = .ok { s with eol := s.eol && !v.getLsbD 7 } := by
  have hstore : memStore .x 0xFFFFC5 v s = .ok (if v.getLsbD 7 then { s with eol := false } else s) := rfl
  rw [hstore]
  cases v.getLsbD 7 with
  | true => rw [Bool.not_true, Bool.and_false, if_pos rfl]
  | false => rw [Bool.not_false, Bool.and_true, if_neg Bool.false_ne_true]

/-- Settles O59: one register at each of the core's five addresses, and the host's at the others. -/
theorem peripheralRegisters : Obligations.PeripheralRegisters := by
  intro s v
  refine ⟨rfl, memStore_isr v s, rfl, rfl, rfl, rfl, rfl, rfl, rfl, fun a hp ha => ⟨?_, ?_⟩⟩
  · rw [memStore_peripheral s v hp, writePeriph_host ha]
    rfl
  · rw [memLoad_peripheral s hp, readPeriph_host ha]

/-! ### The action of a control write (R294) -/

/-- A field of a word is the word shifted and masked. -/
theorem toNat_fieldAt (w : Word) (lo len : Nat) (h : len ≤ 24) :
    (fieldAt w lo len).toNat = ((w >>> lo) &&& BitVec.ofNat 24 (2 ^ len - 1)).toNat := by
  have hmask : 2 ^ len - 1 < 2 ^ 24 :=
    lt_of_lt_of_le (Nat.sub_lt (Nat.two_pow_pos len) Nat.one_pos) (Nat.pow_le_pow_right (by decide) h)
  rw [fieldAt, BitVec.extractLsb'_toNat, BitVec.toNat_and, BitVec.toNat_ofNat, BitVec.toNat_ushiftRight, Nat.mod_eq_of_lt hmask,
    Nat.and_two_pow_sub_one_eq_mod]

theorem toNat_action (v : Word) : (fieldAt v 0 3).toNat = (v &&& 7).toNat := by
  rw [toNat_fieldAt v 0 3 (by decide), BitVec.ushiftRight_zero]
  rfl

/-- The actions 0 to 4 act on the status bits. -/
theorem dmaAction_of_le {v : Word} (control : Word) (h : (v &&& 7).toNat ≤ 4) :
    dmaAction v control = .ok (actedControl v control) := by
  have hv : v &&& 7 = 0 ∨ v &&& 7 = 1 ∨ v &&& 7 = 2 ∨ v &&& 7 = 3 ∨ v &&& 7 = 4 := by bv_omega
  rw [dmaAction, toNat_action, actedControl]
  rcases hv with hv | hv | hv | hv | hv <;> rw [hv] <;> rfl

/-- The actions 5 to 7 are Fatal. -/
theorem dmaAction_of_gt {v : Word} (control : Word) (h : 5 ≤ (v &&& 7).toNat) : dmaAction v control = .error .dmaAction := by
  have hle : (v &&& 7).toNat ≤ 7 := Nat.and_le_right
  have hv : v &&& 7 = 5 ∨ v &&& 7 = 6 ∨ v &&& 7 = 7 := by bv_omega
  rw [dmaAction, toNat_action]
  rcases hv with hv | hv | hv <;> rw [hv] <;> rfl

/-- A write to the control register acts on the status bits, then walks (R294). -/
theorem attemptStore_control {v : Word} (s : State) (h : (v &&& 7).toNat ≤ 4) :
    attemptStore .x 0xFFFFD6 v s = dmaRun { s with dmaControl := actedControl v s.dmaControl } := by
  have hwrite : attemptStore .x 0xFFFFD6 v s = dmaControlWrite v s := rfl
  rw [hwrite, dmaControlWrite, dmaAction_of_le _ h]
  rfl

theorem memStore_control {v : Word} (s : State) (h : (v &&& 7).toNat ≤ 4) :
    memStore .x 0xFFFFD6 v s = reasonOnly (dmaRun { s with dmaControl := actedControl v s.dmaControl }) :=
  congrArg reasonOnly (attemptStore_control s h)

/-! ### When the walk runs (R296) -/

/-- A walk whose pointer carries EOL transfers nothing. -/
theorem dmaWalk_of_eol {s : State} (h : s.dmaNext.getLsbD 14 = true) (k : Nat) : dmaWalk k s = .ok s := by
  cases k with
  | zero => rw [dmaWalk, dmaEol, if_pos h]
  | succ k => rw [dmaWalk, dmaEol, if_pos h]

/-- A walk whose pointer is without EOL loads a node. -/
theorem dmaWalk_of_node {s : State} (h : s.dmaNext.getLsbD 14 = false) (k : Nat) :
    dmaWalk (k + 1) s = dmaNode s >>= dmaWalk k := by
  rw [dmaWalk, dmaEol, h, if_neg Bool.false_ne_true]

theorem dmaRun_of_running {s : State} (hrunning : s.dmaControl.getLsbD 4 = true) (hfrozen : s.dmaControl.getLsbD 3 = false) :
    dmaRun s = dmaWalk Config.dmaMaxNodes s := by
  rw [dmaRun, dmaRunning, dmaFrozen, hrunning, hfrozen]
  rfl

/-- Nothing moves unless RUNNING is set, FROZEN clear and the pointer without EOL. -/
theorem dmaRun_of_quiet {s : State}
    (h : s.dmaControl.getLsbD 4 = false ∨ s.dmaControl.getLsbD 3 = true ∨ s.dmaNext.getLsbD 14 = true) : dmaRun s = .ok s := by
  rw [dmaRun, dmaRunning, dmaFrozen]
  rcases h with hstopped | hfrozen | heol
  · rw [hstopped]
    rfl
  · rw [hfrozen, Bool.not_true, Bool.and_false]
    rfl
  · rw [dmaWalk_of_eol heol, ite_self]

/-- Settles O56: the action, then the walk of control as it is now. -/
theorem dmaControlActions : Obligations.DmaControlActions := by
  intro s v c
  have hquiet : (v &&& 7).toNat ≤ 4 → c.getLsbD 4 = false ∨ c.getLsbD 3 = true ∨ s.dmaNext.getLsbD 14 = true →
      memStore .x 0xFFFFD6 v s = .ok { s with dmaControl := c } := fun hv hc => by
    rw [memStore_control s hv, dmaRun_of_quiet (s := { s with dmaControl := c }) hc]
    rfl
  refine ⟨fun hv => ?_, fun hv => ⟨hquiet hv, ?_, fun t hrunning hfrozen ht => ?_⟩, fun hv => ?_⟩
  · have hwrite : memStore .x 0xFFFFD6 v s = reasonOnly (dmaControlWrite v s) := rfl
    rw [hwrite, dmaControlWrite, dmaAction_of_gt _ hv]
    rfl
  · rw [memStore_control s hv, memStore_control _ (by decide)]
    rfl
  · rw [memStore_control s hv, dmaRun_of_running (s := { s with dmaControl := c }) hrunning hfrozen, reasonOnly_ok] at ht
    obtain ⟨hframe, -, heol⟩ := dmaWalk_ok ht
    exact ⟨heol, hframe⟩
  · have hc : c = (s.dmaControl ||| 0x20) &&& ~~~ 0x10 := by
      simp only [c, actedControl, hv]
      rfl
    have hstopped : c.getLsbD 4 = false := by
      rw [hc]
      simp
    rw [hquiet (by rw [hv]; decide) (.inl hstopped), hc]

end Sys2Proof.Proofs
end

section
/-! PROOFS. Blocks of a DMA transfer (R301, R303 to R305): the items in scratch memory, then the DSP side, whose words are
those of the cells that the block's addresses select. -/

namespace Sys2Proof.Proofs

open Sys2Proof Sys2Proof.Machine Sys2Proof.Safety Sys2Proof.Claims

/-! ### Items in scratch memory -/

/-- What an item keeps of its word: the upper 16 bits, or all 24 (R301). -/
def itemKeeps (f : Config.DmaFormat) (w : Word) : Word :=
  match f with
  | .upper16 => w &&& 0xFFFF00
  | .full24 => w

@[simp] theorem length_itemBytes (f : Config.DmaFormat) (w : Word) : (itemBytes f w).length = itemSize f := by
  cases f <;> rfl

theorem length_flatMap_itemBytes (f : Config.DmaFormat) (ws : List Word) :
    (ws.flatMap (itemBytes f)).length = ws.length * itemSize f := by
  simp [List.length_flatMap]

theorem writeBytes_append (m : Scratch) (a : Nat) (bs cs : List Byte) :
    writeBytes m a (bs ++ cs) = writeBytes (writeBytes m a bs) (a + bs.length) cs := by
  induction bs generalizing m a with
  | nil => rfl
  | cons b bs ih =>
    rw [List.cons_append, writeBytes, ih, writeBytes, List.length_cons]
    congr 1
    omega

/-- An item depends on its own bytes alone. -/
theorem itemWord_congr {f : Config.DmaFormat} {m m' : Scratch} {a : Nat} (h : ∀ b, b < a + itemSize f → m.read b = m'.read b) :
    itemWord f m a = itemWord f m' a := by
  cases f with
  | upper16 => rw [itemWord, itemWord, h a (by simp [itemSize]), h (a + 1) (by simp [itemSize])]
  | full24 =>
    rw [itemWord, itemWord, h a (by simp [itemSize]), h (a + 1) (by simp [itemSize]), h (a + 2) (by simp [itemSize])]

/-- A word is its three bytes. -/
theorem bytes_of_word (w : Word) : (fieldAt w 16 8 ++ fieldAt w 8 8 ++ fieldAt w 0 8 : BitVec 24) = w := by
  have hhigh : (fieldAt w 16 8 ++ fieldAt w 8 8 : BitVec 16) = fieldAt w 8 16 :=
    (sameBits_append _ _ _).2 ⟨by rw [SameBits, fieldAt_fieldAt w (by decide)], by rw [SameBits, fieldAt_fieldAt w (by decide)]⟩
  rw [hhigh]
  exact (sameBits_append _ _ _).2 ⟨rfl, rfl⟩

/-- The bytes of an item read back as what it keeps of its word. -/
theorem itemWord_writeBytes_self (f : Config.DmaFormat) (m : Scratch) (a : Nat) (w : Word) :
    itemWord f (writeBytes m a (itemBytes f w)) a = itemKeeps f w := by
  have hbyte : ∀ k (hk : k < (itemBytes f w).length),
      (writeBytes m a (itemBytes f w)).read (a + k) = (itemBytes f w)[k] :=
    fun k hk => read_writeBytes_inside m a _ hk
  cases f with
  | upper16 =>
    have h0 : (writeBytes m a (itemBytes .upper16 w)).read a = fieldAt w 8 8 := hbyte 0 (by simp [itemSize])
    have h1 : (writeBytes m a (itemBytes .upper16 w)).read (a + 1) = fieldAt w 16 8 := hbyte 1 (by simp [itemSize])
    rw [itemWord, h0, h1, itemKeeps]
    have hand : w &&& 0xFFFF00 =
        (fieldAt w 16 8 ++ fieldAt w 8 8 ++ fieldAt w 0 8 : BitVec 24) &&& (BitVec.allOnes 8 ++ BitVec.allOnes 8 ++ 0#8) := by
      rw [bytes_of_word]
      rfl
    rw [hand, BitVec.and_append, BitVec.and_append, BitVec.and_allOnes, BitVec.and_allOnes, BitVec.and_zero]
  | full24 =>
    have h0 : (writeBytes m a (itemBytes .full24 w)).read a = fieldAt w 0 8 := hbyte 0 (by simp [itemSize])
    have h1 : (writeBytes m a (itemBytes .full24 w)).read (a + 1) = fieldAt w 8 8 := hbyte 1 (by simp [itemSize])
    have h2 : (writeBytes m a (itemBytes .full24 w)).read (a + 2) = fieldAt w 16 8 := hbyte 2 (by simp [itemSize])
    rw [itemWord, h0, h1, h2, itemKeeps, bytes_of_word]

/-- The items of a list of words read back as what they keep of the words. -/
theorem itemWords_writeBytes (f : Config.DmaFormat) (m : Scratch) (a : Nat) (ws : List Word) :
    itemWords f (writeBytes m a (ws.flatMap (itemBytes f))) a ws.length = ws.map (itemKeeps f) := by
  induction ws generalizing m a with
  | nil => rfl
  | cons w ws ih =>
    rw [List.flatMap_cons, writeBytes_append, length_itemBytes, List.length_cons, itemWords, ih, List.map_cons]
    congr 1
    exact (itemWord_congr fun b hb => read_writeBytes_below _ _ _ hb).trans (itemWord_writeBytes_self f m a w)

@[simp] theorem length_itemWords (f : Config.DmaFormat) (m : Scratch) (a n : Nat) : (itemWords f m a n).length = n := by
  induction n generalizing a with
  | zero => rfl
  | succ n ih => rw [itemWords, List.length_cons, ih]

/-! ### Reading a block -/

/-- The addresses of a block, each with a cell (R65). -/
def HasCells (sp : DspSpace) (base n : Nat) : Prop := ∀ k, k < n → cellOf sp (BitVec.ofNat 24 (base + k)) ≠ none

/-- A block is read word by word. -/
theorem readBlock_ok_iff {sp : DspSpace} {s : State} {base n : Nat} {ws : List Word} :
    readBlock sp s base n = .ok ws ↔
      ws.length = n ∧ ∀ k (h : k < ws.length), readDsp sp s (BitVec.ofNat 24 (base + k)) = .ok ws[k] := by
  induction n generalizing base ws with
  | zero =>
    rw [readBlock, Except.ok.injEq, List.length_eq_zero_iff]
    constructor
    · rintro rfl
      exact ⟨rfl, nofun⟩
    · rintro ⟨rfl, -⟩
      rfl
  | succ n ih =>
    simp only [readBlock, bind_ok, ih, Except.ok.injEq]
    constructor
    · rintro ⟨v, hv, rest, ⟨hlen, hrest⟩, rfl⟩
      refine ⟨congrArg (· + 1) hlen, fun k hk => ?_⟩
      cases k with
      | zero => exact hv
      | succ k =>
        have := hrest k (Nat.lt_of_succ_lt_succ hk)
        rwa [Nat.add_right_comm] at this
    · rintro ⟨hlen, hws⟩
      obtain ⟨v, rest, rfl⟩ := List.exists_cons_of_length_eq_add_one hlen
      refine ⟨v, hws 0 (Nat.succ_pos _), rest, ⟨Nat.succ.inj hlen, fun k hk => ?_⟩, rfl⟩
      have := hws (k + 1) (Nat.succ_lt_succ hk)
      rwa [← Nat.add_assoc, Nat.add_right_comm] at this

theorem readBlock_of_cells {sp : DspSpace} {base n : Nat} (s : State) (h : HasCells sp base n) :
    readBlock sp s base n = .ok (blockWords sp s base n) := by
  refine readBlock_ok_iff.2 ⟨by rw [blockWords, List.length_map, List.length_range], fun k hk => ?_⟩
  have hkn : k < n := by rwa [blockWords, List.length_map, List.length_range] at hk
  obtain ⟨c, hc⟩ := Option.ne_none_iff_exists'.1 (h k hkn)
  simp only [blockWords, List.getElem_map, List.getElem_range, readDsp_of_cell s hc]
  rfl

/-- A block with an address that has no cell is Fatal (R65). -/
theorem readBlock_of_no_cell {sp : DspSpace} {base n k : Nat} (s : State) (hk : k < n)
    (h : cellOf sp (BitVec.ofNat 24 (base + k)) = none) : readBlock sp s base n = .error .addressOutOfRange := by
  induction n generalizing base k with
  | zero => exact absurd hk (Nat.not_lt_zero k)
  | succ n ih =>
    rw [readBlock]
    cases hc : cellOf sp (BitVec.ofNat 24 base) with
    | none =>
      rw [readDsp_of_no_cell s hc]
      rfl
    | some c =>
      cases k with
      | zero => exact absurd (hc.symm.trans h) (Option.some_ne_none c)
      | succ k =>
        rw [readDsp_of_cell s hc, ih (Nat.lt_of_succ_lt_succ hk) (by rwa [Nat.add_right_comm])]
        rfl

/-- Settles O58: the items are read back word by word, and the copy writes no other byte. -/
theorem dmaItemsRoundTrip : Obligations.DmaItemsRoundTrip := by
  intro s f sp base count saddr ws hws
  obtain ⟨rfl, -⟩ := readBlock_ok_iff.1 hws
  refine ⟨{ s with scratch := writeBytes s.scratch saddr (ws.flatMap (itemBytes f)) }, ?_, rfl, ?_, fun a ha => ?_⟩
  · rw [dspToScratch, hws]
    rfl
  · rw [itemWords_writeBytes]
    cases f <;> rfl
  · rcases ha with hbelow | habove
    · exact read_writeBytes_below _ _ _ hbelow
    · exact read_writeBytes_above _ _ _ (by rwa [length_flatMap_itemBytes])

end Sys2Proof.Proofs
end

section
/-! PROOFS. One node of a DMA walk (R297 to R305): the block that it writes to the DSP side, the fields of its descriptor, and
its transfer. -/

namespace Sys2Proof.Proofs

open Sys2Proof Sys2Proof.Machine Sys2Proof.Safety Sys2Proof.Claims

/-! ### Writing a block -/

/-- The state that a computation ends in, or that its Fatal leaves. -/
def endState : Except Stop State → State
  | .ok t => t
  | .error e => e.left

theorem onlyStores_refl (s : State) : OnlyStores s s := rfl

theorem onlyStores_trans {s t u : State} (h1 : OnlyStores s t) (h2 : OnlyStores t u) : OnlyStores s u := by
  unfold OnlyStores at *
  rw [h2, h1]

theorem onlyStores_writeCell (s : State) (v : Word) (c : Cell) : OnlyStores s (writeCell s v c) := by
  cases c <;> rfl

/-- The writes of a block reach its own cells alone, also where they end in a Fatal. -/
theorem writeBlock_frame (sp : DspSpace) (s : State) (base : Nat) (ws : List Word) :
    OnlyStores s (endState (writeBlock sp s base ws)) ∧ (endState (writeBlock sp s base ws)).scratch = s.scratch ∧
      ∀ sp' a', (∀ k, k < ws.length → cellOf sp' a' ≠ cellOf sp (BitVec.ofNat 24 (base + k))) →
        readDsp sp' (endState (writeBlock sp s base ws)) a' = readDsp sp' s a' := by
  induction ws generalizing s base with
  | nil => exact ⟨onlyStores_refl s, rfl, fun _ _ _ => rfl⟩
  | cons v ws ih =>
    rw [writeBlock]
    cases hc : cellOf sp (BitVec.ofNat 24 base) with
    | none =>
      rw [writeDsp_of_no_cell s v hc]
      exact ⟨onlyStores_refl s, rfl, fun _ _ _ => rfl⟩
    | some c =>
      rw [writeDsp_of_cell s v hc]
      obtain ⟨hstores, hscratch, hreads⟩ := ih (writeCell s v c) (base + 1)
      refine ⟨onlyStores_trans (onlyStores_writeCell s v c) hstores, hscratch.trans (writeCell_scratch s c v), fun sp' a' hne => ?_⟩
      obtain ⟨-, hother, -, -⟩ := onlyCell_writeCell s v hc
      refine (hreads sp' a' fun k hk => ?_).trans (hother sp' a' (hne 0 (Nat.succ_pos _)))
      rw [Nat.add_right_comm]
      exact hne (k + 1) (Nat.succ_lt_succ hk)

/-- No two addresses of a block select one cell. -/
def DistinctCells (sp : DspSpace) (base n : Nat) : Prop :=
  ∀ j k, j < k → k < n → cellOf sp (BitVec.ofNat 24 (base + j)) ≠ cellOf sp (BitVec.ofNat 24 (base + k))

/-- A block whose addresses have cells of their own is written, and read back. -/
theorem writeBlock_of_cells {sp : DspSpace} {base : Nat} {ws : List Word} (s : State) (hcells : HasCells sp base ws.length)
    (hdistinct : DistinctCells sp base ws.length) :
    ∃ t, writeBlock sp s base ws = .ok t ∧ readBlock sp t base ws.length = .ok ws := by
  induction ws generalizing s base with
  | nil => exact ⟨s, rfl, rfl⟩
  | cons v ws ih =>
    obtain ⟨c, hc⟩ := Option.ne_none_iff_exists'.1 (hcells 0 (Nat.succ_pos _))
    obtain ⟨t, ht, hread⟩ := ih (base := base + 1) (writeCell s v c)
      (fun k hk => by rw [Nat.add_right_comm]; exact hcells (k + 1) (Nat.succ_lt_succ hk))
      (fun j k hjk hk => by
        rw [Nat.add_right_comm base 1 j, Nat.add_right_comm base 1 k]
        exact hdistinct (j + 1) (k + 1) (Nat.succ_lt_succ hjk) (Nat.succ_lt_succ hk))
    have hfirst : readDsp sp t (BitVec.ofNat 24 base) = .ok v := by
      obtain ⟨-, -, hframe⟩ := writeBlock_frame sp (writeCell s v c) (base + 1) ws
      obtain ⟨hv, -, -, -⟩ := onlyCell_writeCell s v hc
      rw [ht] at hframe
      refine (hframe sp (BitVec.ofNat 24 base) fun k hk => ?_).trans hv
      rw [Nat.add_right_comm]
      exact hdistinct 0 (k + 1) (Nat.succ_pos k) (Nat.succ_lt_succ hk)
    refine ⟨t, ?_, ?_⟩
    · rw [writeBlock, writeDsp_of_cell (a := BitVec.ofNat 24 base) s v hc]
      exact ht
    · rw [List.length_cons, readBlock, hfirst, hread]
      rfl

/-- A block with an address that has no cell is Fatal; what its writes reached before stays (R308). -/
theorem writeBlock_of_no_cell {sp : DspSpace} {base k : Nat} {ws : List Word} (s : State) (hk : k < ws.length)
    (h : cellOf sp (BitVec.ofNat 24 (base + k)) = none) : ∃ u, writeBlock sp s base ws = .error ⟨.addressOutOfRange, u⟩ := by
  induction ws generalizing s base k with
  | nil => exact absurd hk (Nat.not_lt_zero k)
  | cons v ws ih =>
    rw [writeBlock]
    cases hc : cellOf sp (BitVec.ofNat 24 base) with
    | none =>
      rw [writeDsp_of_no_cell s v hc]
      exact ⟨s, rfl⟩
    | some c =>
      rw [writeDsp_of_cell s v hc]
      cases k with
      | zero => exact absurd (hc.symm.trans h) (Option.some_ne_none c)
      | succ k => exact ih (writeCell s v c) (Nat.lt_of_succ_lt_succ hk) (by rwa [Nat.add_right_comm])

/-! ### The range of a block (R303) -/

/-- An address that fits 24 bits does not wrap. -/
theorem toNat_address {n : Nat} (h : n < 2 ^ 24) : (BitVec.ofNat 24 n).toNat = n := by
  rw [BitVec.toNat_ofNat, Nat.mod_eq_of_lt h]

theorem dspRange_of_dmaRange {off count base : Nat} {sp : DspSpace} (h : DmaRange off count sp base) :
    dspRange off count = .ok (sp, base) := by
  rw [dspRange]
  rcases h with ⟨rfl, rfl, hlow, hend⟩ | ⟨rfl, rfl, hlow, hend⟩ | ⟨rfl, rfl, hlow, hend⟩
  · rw [if_pos hlow, if_pos hend]
  · rw [if_neg (by omega), if_pos hlow, if_pos hend, Nat.add_sub_cancel]
  · rw [if_neg (by omega), if_neg (by omega), if_pos ⟨by omega, hlow⟩, if_pos hend, Nat.add_sub_cancel]

theorem dspRange_of_no_range {off count : Nat} (h : ∀ sp base, ¬ DmaRange off count sp base) :
    dspRange off count = .error .dmaOffset := by
  rw [dspRange]
  split_ifs with hx hxend hy hyend hp hpend
  · exact absurd (.inl ⟨rfl, rfl, hx, hxend⟩) (h .x off)
  · rfl
  · exact absurd (.inr (.inl ⟨rfl, by omega, hy, hyend⟩)) (h .y (off - 0x1800))
  · rfl
  · exact absurd (.inr (.inr ⟨rfl, by omega, hp.2, hpend⟩)) (h .p (off - 0x2800))
  · rfl
  · rfl

theorem dmaRange_unique {off count base base' : Nat} {sp sp' : DspSpace} (h : DmaRange off count sp base)
    (h' : DmaRange off count sp' base') : sp' = sp ∧ base' = base := by
  have heq := (dspRange_of_dmaRange h').symm.trans (dspRange_of_dmaRange h)
  rwa [Except.ok.injEq, Prod.mk.injEq] at heq

/-- An X address lies in a mix window or in xram, where its cell says (R62). -/
theorem cellOf_x_ofNat {n : Nat} (h : n < 0x1800) :
    cellOf .x (BitVec.ofNat 24 n) = if n < 0x0C00 then some (.x n) else if n < 0x1000 then some (.mix (n - 0x0C00))
      else if n < 0x1400 then none else some (.mix (n - 0x1400)) := by
  have hn : (BitVec.ofNat 24 n).toNat = n := toNat_address (by omega)
  rw [cellOf, hn]
  split_ifs <;> first | omega | rfl

/-- Inside one range addresses with cells have cells of their own: between the two windows on the mix buffer there is a hole
(R62). -/
theorem distinctCells_of_range {off count base : Nat} {sp : DspSpace} (h : DmaRange off count sp base)
    (hcells : HasCells sp base count) : DistinctCells sp base count := by
  intro j k hjk hk heq
  rcases h with ⟨rfl, rfl, hlow, hend⟩ | ⟨rfl, rfl, hlow, hend⟩ | ⟨rfl, rfl, hlow, hend⟩
  · have hhole : ∀ i, i < count → ¬ (0x1000 ≤ base + i ∧ base + i < 0x1400) := fun i hi hbetween => by
      refine hcells i hi ?_
      rw [cellOf_x_ofNat (by omega), if_neg (by omega), if_neg (by omega), if_pos hbetween.2]
    have hwindow := hhole (0x1000 - base)
    have hj := hhole j (by omega)
    have hk' := hhole k hk
    rw [cellOf_x_ofNat (by omega), cellOf_x_ofNat (by omega)] at heq
    split_ifs at heq <;> simp only [Option.some.injEq, Cell.x.injEq, Cell.mix.injEq, reduceCtorEq] at heq <;> omega
  · have hcell : ∀ i, i < count → cellOf .y (BitVec.ofNat 24 (base + i)) = some (.y (base + i)) := fun i hi => by
      rw [cellOf, toNat_address (by omega), if_pos (by omega)]
    rw [hcell j (by omega), hcell k hk, Option.some.injEq, Cell.y.injEq] at heq
    omega
  · have hcell : ∀ i, i < count → cellOf .p (BitVec.ofNat 24 (base + i)) = some (.p (base + i)) := fun i hi => by
      rw [cellOf, toNat_address (by omega), if_pos (by omega)]
    rw [hcell j (by omega), hcell k hk, Option.some.injEq, Cell.p.injEq] at heq
    omega

/-! ### The descriptor (R297, R298, R302) -/

/-- The seven words as the model's descriptor. -/
def descriptorOf (d : Vector Word 7) : Descriptor := ⟨d[0], d[1], d[2], d[3], d[4], d[5], d[6]⟩

theorem dmaFormats_ctlFormat (d : Vector Word 7) : Config.dmaFormats (ctlFormat (descriptorOf d).ctl) = nodeFormat d := by
  rw [ctlFormat, toNat_fieldAt _ _ _ (by decide)]
  rfl

theorem ctlBufid_eq_iff (d : Vector Word 7) {n : Nat} (h : n < 2 ^ 24) :
    ctlBufid (descriptorOf d).ctl = n ↔ nodeBufid d = BitVec.ofNat 24 n := by
  rw [ctlBufid, toNat_fieldAt _ _ _ (by decide), ← BitVec.toNat_inj, toNat_address h]
  rfl

theorem nodeBytes_eq (f : Config.DmaFormat) (d : Vector Word 7) :
    (descriptorOf d).count.toNat * itemSize f = nodeBytes f d := by
  cases f <;> rfl

section
variable {d : Vector Word 7} {f : Config.DmaFormat}

theorem scratchAddress_of_skipped (h : NodeSkipped f d) : scratchAddress (descriptorOf d) (nodeBytes f d) = .ok none := by
  obtain ⟨hbufid, hend⟩ := h
  rw [scratchAddress, if_pos ((ctlBufid_eq_iff d (by decide)).2 hbufid)]
  exact if_pos hend

theorem scratchAddress_of_scratch {a : Nat} (h : NodeScratch f d a) :
    scratchAddress (descriptorOf d) (nodeBytes f d) = .ok (some a) := by
  rw [scratchAddress]
  rcases h with ⟨hbufid, hend, rfl⟩ | ⟨hbufid, rfl⟩
  · rw [if_pos ((ctlBufid_eq_iff d (by decide)).2 hbufid)]
    exact if_neg (Nat.not_le.2 hend)
  · have hF := (ctlBufid_eq_iff d (n := 0xF) (by decide)).2 hbufid
    rw [if_neg (by rw [hF]; decide), if_pos hF]
    rfl

theorem scratchAddress_of_bad_bufid (hE : nodeBufid d ≠ 0xE) (hF : nodeBufid d ≠ 0xF) (bytes : Nat) :
    scratchAddress (descriptorOf d) bytes = .error .dmaBufid := by
  rw [scratchAddress, if_neg (mt (ctlBufid_eq_iff d (by decide)).1 hE), if_neg (mt (ctlBufid_eq_iff d (by decide)).1 hF)]

theorem nodeScratch_unique {a a' : Nat} (h : NodeScratch f d a) (h' : NodeScratch f d a') : a' = a := by
  have heq := (scratchAddress_of_scratch h').symm.trans (scratchAddress_of_scratch h)
  rwa [Except.ok.injEq, Option.some.injEq] at heq

theorem not_skipped_of_nodeScratch {a : Nat} (h : NodeScratch f d a) : ¬ NodeSkipped f d := fun hs => by
  have heq := (scratchAddress_of_scratch h).symm.trans (scratchAddress_of_skipped hs)
  cases heq

/-! ### The transfer (R300 to R305) -/

/-- Where a node is skipped its transfer does nothing. -/
theorem dmaTransfer_of_skipped (s : State) (hf : nodeFormat d = some f) (h : NodeSkipped f d) :
    dmaTransfer (descriptorOf d) s = .ok s := by
  rw [dmaTransfer, dmaFormats_ctlFormat, hf]
  simp only [nodeBytes_eq, scratchAddress_of_skipped h]
  rfl

/-- Past its checks a node copies its block in its direction. -/
theorem dmaTransfer_of_copy (s : State) {sp : DspSpace} {base a : Nat} (hf : nodeFormat d = some f) (ha : NodeScratch f d a)
    (hr : DmaRange d[3].toNat d[2].toNat sp base) :
    dmaTransfer (descriptorOf d) s = if d[1].getLsbD 1 then raisedIn s (dspToScratch f sp base d[2].toNat a s)
      else scratchToDsp f sp base d[2].toNat a s := by
  have hrange : dspRange (descriptorOf d).dspOff.toNat (descriptorOf d).count.toNat = .ok (sp, base) := dspRange_of_dmaRange hr
  rw [dmaTransfer, dmaFormats_ctlFormat, hf]
  simp only [nodeBytes_eq, scratchAddress_of_scratch ha, hrange]
  rfl

/-- A node that fails a check leaves the state it started in. -/
theorem dmaTransfer_of_fatal {r : Fault} (s : State) (h : NodeFatal d r) : dmaTransfer (descriptorOf d) s = .error ⟨r, s⟩ := by
  rw [dmaTransfer, dmaFormats_ctlFormat]
  rcases h with ⟨hf, rfl⟩ | ⟨f, hf, ⟨hE, hF, rfl⟩ | ⟨⟨a, ha⟩, hr, rfl⟩⟩
  · rw [hf]
  · rw [hf]
    simp only [scratchAddress_of_bad_bufid hE hF]
    rfl
  · have hrange : dspRange (descriptorOf d).dspOff.toNat (descriptorOf d).count.toNat = .error .dmaOffset := dspRange_of_no_range hr
    rw [hf]
    simp only [nodeBytes_eq, scratchAddress_of_scratch ha, hrange]
    rfl

/-- A node whose block names a word that does not exist is Fatal. What it leaves differs in the block's cells at most. -/
theorem dmaTransfer_of_no_cell {sp : DspSpace} {base a k : Nat} (s : State) (hf : nodeFormat d = some f) (ha : NodeScratch f d a)
    (hr : DmaRange d[3].toNat d[2].toNat sp base) (hk : k < d[2].toNat) (hcell : cellOf sp (BitVec.ofNat 24 (base + k)) = none) :
    ∃ u, dmaTransfer (descriptorOf d) s = .error ⟨.addressOutOfRange, u⟩ ∧ OnlyStores s u ∧ u.scratch = s.scratch ∧
      ∀ sp' a', (∀ j, j < d[2].toNat → cellOf sp' a' ≠ cellOf sp (BitVec.ofNat 24 (base + j))) →
        readDsp sp' u a' = readDsp sp' s a' := by
  rw [dmaTransfer_of_copy s hf ha hr]
  cases d[1].getLsbD 1 with
  | true =>
    refine ⟨s, ?_, onlyStores_refl s, rfl, fun _ _ _ => rfl⟩
    rw [if_pos rfl, dspToScratch, readBlock_of_no_cell s hk hcell]
    rfl
  | false =>
    have hlen := length_itemWords f s.scratch a d[2].toNat
    obtain ⟨u, hu⟩ := writeBlock_of_no_cell (ws := itemWords f s.scratch a d[2].toNat) s (by rwa [hlen]) hcell
    have hframe := writeBlock_frame sp s base (itemWords f s.scratch a d[2].toNat)
    rw [hu, hlen] at hframe
    exact ⟨u, by rw [if_neg Bool.false_ne_true, scratchToDsp, hu], hframe⟩

/-- A node that can be carried out is carried out. -/
theorem dmaTransfer_of_ready (s : State) (h : NodeReady d) : ∃ t, dmaTransfer (descriptorOf d) s = .ok t ∧ NodeMoves d s t := by
  obtain ⟨f, hf, hskip | ⟨sp, base, a, ha, hr, hcells⟩⟩ := h
  · exact ⟨s, dmaTransfer_of_skipped s hf hskip, onlyStores_refl s, f, hf, .inl ⟨hskip, fun _ _ => rfl, rfl⟩⟩
  rw [dmaTransfer_of_copy s hf ha hr]
  cases hdir : d[1].getLsbD 1 with
  | true =>
    have hread := readBlock_of_cells s hcells
    refine ⟨{ s with scratch := writeBytes s.scratch a ((blockWords sp s base d[2].toNat).flatMap (itemBytes f)) }, ?_, rfl, f, hf,
      .inr ⟨sp, base, a, ha, hr, fun _ => ⟨fun _ _ => rfl, hread, rfl⟩, fun h => absurd (hdir.symm.trans h) (by decide)⟩⟩
    rw [if_pos rfl, dspToScratch, hread]
    rfl
  | false =>
    have hlen := length_itemWords f s.scratch a d[2].toNat
    obtain ⟨t, ht, hread⟩ := writeBlock_of_cells (ws := itemWords f s.scratch a d[2].toNat) s (by rwa [hlen])
      (by rw [hlen]; exact distinctCells_of_range hr hcells)
    obtain ⟨hstores, hscratch, hframe⟩ := writeBlock_frame sp s base (itemWords f s.scratch a d[2].toNat)
    rw [ht] at hstores hscratch hframe
    rw [hlen] at hread hframe
    refine ⟨t, by rw [if_neg Bool.false_ne_true, scratchToDsp, ht], hstores, f, hf,
      .inr ⟨sp, base, a, ha, hr, fun h => absurd (hdir.symm.trans h) (by decide), fun _ => ⟨hscratch, hread, hframe⟩⟩⟩

end

end Sys2Proof.Proofs
end

section
/-! PROOFS. A DMA walk node by node (R296, R297, R307, R308, R311). What a node's transfer leaves is known up to the words and
scratch bytes that it can be asked for, and a walk goes on from there as from any state that answers the same. -/

namespace Sys2Proof.Proofs

open Sys2Proof Sys2Proof.Machine Sys2Proof.Safety Sys2Proof.Claims

/-! ### States with the same words and scratch bytes -/

/-- Only the word arrays differ, and every word and every scratch byte reads the same. -/
structure SameStores (s t : State) : Prop where
  stores : OnlyStores s t
  words : SameWords s t
  scratch : t.scratch = s.scratch

theorem onlyStores_symm {s t : State} (h : OnlyStores s t) : OnlyStores t s := by
  unfold OnlyStores at *
  rw [h]

namespace SameStores
variable {s t u : State}

theorem refl (s : State) : SameStores s s := ⟨onlyStores_refl s, fun _ _ => rfl, rfl⟩

theorem symm (h : SameStores s t) : SameStores t s :=
  ⟨onlyStores_symm h.stores, fun sp a => (h.words sp a).symm, h.scratch.symm⟩

theorem trans (h1 : SameStores s t) (h2 : SameStores t u) : SameStores s u :=
  ⟨onlyStores_trans h1.stores h2.stores, fun sp a => (h2.words sp a).trans (h1.words sp a), h2.scratch.trans h1.scratch⟩

theorem dmaNext (h : SameStores s t) : t.dmaNext = s.dmaNext := by
  have hs := h.stores
  unfold OnlyStores at hs
  rw [hs]

theorem blockWords (h : SameStores s t) (sp : DspSpace) (base n : Nat) : blockWords sp t base n = blockWords sp s base n :=
  List.map_congr_left fun k _ => by rw [h.words]

theorem readBlock (h : SameStores s t) (sp : DspSpace) (base n : Nat) : readBlock sp t base n = readBlock sp s base n := by
  induction n generalizing base with
  | zero => rfl
  | succ n ih => rw [Machine.readBlock, Machine.readBlock, h.words, ih]

theorem nodeLoaded (h : SameStores s t) (d : Vector Word 7) : SameStores (nodeLoaded d s) (nodeLoaded d t) where
  stores := by
    have hs := h.stores
    unfold OnlyStores Claims.nodeLoaded at *
    rw [hs]
  words := h.words
  scratch := h.scratch

theorem nodeAt (h : SameStores s t) {d : Vector Word 7} (hd : NodeAt s d) : NodeAt t d := fun k => by
  rw [h.words, h.dmaNext]
  exact hd k

/-- The moves of a node from states that answer the same are the same. -/
theorem nodeMoves (h : SameStores s t) {d : Vector Word 7} (hm : NodeMoves d t u) : NodeMoves d s u := by
  have hwords : SameWords t u → SameWords s u := fun hw sp a => (hw sp a).trans (h.words sp a)
  obtain ⟨hstores, f, hf, ⟨hskip, hw, hscratch⟩ | ⟨sp, base, a, ha, hr, hto, hfrom⟩⟩ := hm
  · exact ⟨onlyStores_trans h.stores hstores, f, hf, .inl ⟨hskip, hwords hw, hscratch.trans h.scratch⟩⟩
  · rw [h.blockWords, h.readBlock, h.scratch] at hto
    rw [h.scratch] at hfrom
    refine ⟨onlyStores_trans h.stores hstores, f, hf, .inr ⟨sp, base, a, ha, hr, fun hdir => ?_, fun hdir => ?_⟩⟩
    · obtain ⟨hw, hread, hscratch⟩ := hto hdir
      exact ⟨hwords hw, hread, hscratch⟩
    · obtain ⟨hscratch, hread, hframe⟩ := hfrom hdir
      exact ⟨hscratch, hread, fun sp' a' hne => (hframe sp' a' hne).trans (h.words sp' a')⟩

end SameStores

/-- Addresses with one cell read the same word. -/
theorem readDsp_congr_cell {sp sp' : DspSpace} {a a' : Word} (s : State) (h : cellOf sp' a' = cellOf sp a) :
    readDsp sp' s a' = readDsp sp s a := by
  rw [readDsp_eq, readDsp_eq, h]

/-- The words and scratch bytes after a node's transfer are determined. -/
theorem nodeMoves_unique {d : Vector Word 7} {s t t' : State} (h : NodeMoves d s t) (h' : NodeMoves d s t') : SameStores t t' := by
  obtain ⟨hstores, f, hf, hmoves⟩ := h
  obtain ⟨hstores', f', hf', hmoves'⟩ := h'
  obtain rfl : f = f' := Option.some.inj (hf.symm.trans hf')
  suffices SameWords t t' ∧ t'.scratch = t.scratch from ⟨onlyStores_trans (onlyStores_symm hstores) hstores', this.1, this.2⟩
  rcases hmoves with ⟨hskip, hw, hscratch⟩ | ⟨sp, base, a, ha, hr, hto, hfrom⟩ <;>
    rcases hmoves' with ⟨hskip', hw', hscratch'⟩ | ⟨sp', base', a', ha', hr', hto', hfrom'⟩
  · exact ⟨fun sp a => (hw' sp a).trans (hw sp a).symm, hscratch'.trans hscratch.symm⟩
  · exact absurd hskip (not_skipped_of_nodeScratch ha')
  · exact absurd hskip' (not_skipped_of_nodeScratch ha)
  · obtain ⟨rfl, rfl⟩ := dmaRange_unique hr hr'
    obtain rfl := nodeScratch_unique ha ha'
    cases hdir : d[1].getLsbD 1 with
    | true =>
      obtain ⟨hw, -, hscratch⟩ := hto hdir
      obtain ⟨hw', -, hscratch'⟩ := hto' hdir
      exact ⟨fun sp a => (hw' sp a).trans (hw sp a).symm, hscratch'.trans hscratch.symm⟩
    | false =>
      obtain ⟨hscratch, hread, hframe⟩ := hfrom hdir
      obtain ⟨hscratch', hread', hframe'⟩ := hfrom' hdir
      refine ⟨fun q b => ?_, hscratch'.trans hscratch.symm⟩
      by_cases hin : ∃ k, k < d[2].toNat ∧ cellOf q b = cellOf sp' (BitVec.ofNat 24 (base' + k))
      · obtain ⟨k, hk, hcell⟩ := hin
        obtain ⟨hlen, hwords⟩ := readBlock_ok_iff.1 hread
        obtain ⟨-, hwords'⟩ := readBlock_ok_iff.1 hread'
        rw [readDsp_congr_cell t' hcell, readDsp_congr_cell t hcell, hwords k (by rwa [hlen]), hwords' k (by rwa [hlen])]
      · have hout : ∀ k, k < d[2].toNat → cellOf q b ≠ cellOf sp' (BitVec.ofNat 24 (base' + k)) :=
          fun k hk hcell => hin ⟨k, hk, hcell⟩
        rw [hframe q b hout, hframe' q b hout]

/-! ### Loading a node (R297) -/

/-- The descriptor of seven words. -/
def descriptorOfWords (ws : List Word) : Descriptor :=
  ⟨ws.getD 0 0, ws.getD 1 0, ws.getD 2 0, ws.getD 3 0, ws.getD 4 0, ws.getD 5 0, ws.getD 6 0⟩

theorem except_map_bind {ε α β γ : Type} (x : Except ε α) (f : α → Except ε β) (g : β → γ) :
    (x >>= f).map g = x >>= fun a => (f a).map g := by
  cases x <;> rfl

theorem except_ok_bind {ε α β : Type} (a : α) (f : α → Except ε β) : Except.ok a >>= f = f a := rfl

/-- A descriptor is read as a block of seven X words. -/
theorem readDescriptor_eq_readBlock (s : State) (a : Nat) : readDescriptor s a = (readBlock .x s a 7).map descriptorOfWords := by
  simp only [readDescriptor, readBlock, readDsp, Nat.add_assoc, Nat.reduceAdd, except_map_bind, bind_assoc, except_ok_bind]
  rfl

theorem readBlock_of_nodeAt {s : State} {d : Vector Word 7} (h : NodeAt s d) :
    readBlock .x s (s.dmaNext &&& 0x3FFF).toNat 7 = .ok [d[0], d[1], d[2], d[3], d[4], d[5], d[6]] :=
  readBlock_ok_iff.2 ⟨rfl, fun k hk =>
    match k, hk with
    | 0, _ => h 0
    | 1, _ => h 1
    | 2, _ => h 2
    | 3, _ => h 3
    | 4, _ => h 4
    | 5, _ => h 5
    | 6, _ => h 6⟩

theorem toNat_pointer (s : State) : (fieldAt s.dmaNext 0 14).toNat = (s.dmaNext &&& 0x3FFF).toNat := by
  rw [toNat_fieldAt _ 0 14 (by decide), BitVec.ushiftRight_zero]
  rfl

/-- A node whose descriptor exists takes its pointer, then transfers. -/
theorem dmaNode_of_nodeAt {s : State} {d : Vector Word 7} (h : NodeAt s d) :
    dmaNode s = dmaTransfer (descriptorOf d) (nodeLoaded d s) := by
  rw [dmaNode, toNat_pointer, readDescriptor_eq_readBlock, readBlock_of_nodeAt h]
  rfl

/-- A node whose descriptor does not exist leaves the state it started in. -/
theorem dmaNode_of_no_cell {s : State} {k : Nat} (hk : k < 7)
    (h : cellOf .x (BitVec.ofNat 24 ((s.dmaNext &&& 0x3FFF).toNat + k)) = none) :
    dmaNode s = .error ⟨.addressOutOfRange, s⟩ := by
  rw [dmaNode, toNat_pointer, readDescriptor_eq_readBlock, readBlock_of_no_cell s hk h]
  rfl

/-! ### The walk (R296) -/

section
variable {s : State} (heol : s.dmaNext.getLsbD 14 = false) (n : Nat)
include heol

theorem dmaWalk_of_no_descriptor {k : Nat} (hk : k < 7)
    (h : cellOf .x (BitVec.ofNat 24 ((s.dmaNext &&& 0x3FFF).toNat + k)) = none) :
    dmaWalk (n + 1) s = .error ⟨.addressOutOfRange, s⟩ := by
  rw [dmaWalk_of_node heol, dmaNode_of_no_cell hk h]
  rfl

variable {d : Vector Word 7} (hd : NodeAt s d)
include hd

/-- A node that is carried out takes the walk on. -/
theorem dmaWalk_of_ready (h : NodeReady d) :
    ∃ t, NodeMoves d (nodeLoaded d s) t ∧ t.dmaNext = d[0] ∧ dmaWalk (n + 1) s = dmaWalk n t := by
  obtain ⟨t, ht, hm⟩ := dmaTransfer_of_ready (nodeLoaded d s) h
  refine ⟨t, hm, congrArg State.dmaNext hm.1, ?_⟩
  rw [dmaWalk_of_node heol, dmaNode_of_nodeAt hd, ht]
  rfl

/-- The last node of a list ends the walk. -/
theorem dmaWalk_of_last (h : NodeReady d) (hlast : d[0].getLsbD 14 = true) :
    ∃ t, dmaWalk (n + 1) s = .ok t ∧ NodeMoves d (nodeLoaded d s) t := by
  obtain ⟨t, hm, hnext, hwalk⟩ := dmaWalk_of_ready heol n hd h
  exact ⟨t, hwalk.trans (dmaWalk_of_eol (hnext ▸ hlast) n), hm⟩

theorem dmaWalk_of_fatal {r : Fault} (h : NodeFatal d r) : dmaWalk (n + 1) s = .error ⟨r, nodeLoaded d s⟩ := by
  rw [dmaWalk_of_node heol, dmaNode_of_nodeAt hd, dmaTransfer_of_fatal _ h]
  rfl

theorem dmaWalk_of_no_cell {f : Config.DmaFormat} {sp : DspSpace} {base a k : Nat} (hf : nodeFormat d = some f)
    (ha : NodeScratch f d a) (hr : DmaRange d[3].toNat d[2].toNat sp base) (hk : k < d[2].toNat)
    (hcell : cellOf sp (BitVec.ofNat 24 (base + k)) = none) :
    ∃ u, dmaWalk (n + 1) s = .error ⟨.addressOutOfRange, u⟩ ∧ OnlyStores (nodeLoaded d s) u ∧ u.scratch = s.scratch ∧
      ∀ sp' a', (∀ j, j < d[2].toNat → cellOf sp' a' ≠ cellOf sp (BitVec.ofNat 24 (base + j))) →
        readDsp sp' u a' = readDsp sp' s a' := by
  obtain ⟨u, hu, hframe⟩ := dmaTransfer_of_no_cell (nodeLoaded d s) hf ha hr hk hcell
  refine ⟨u, ?_, hframe⟩
  rw [dmaWalk_of_node heol, dmaNode_of_nodeAt hd, hu]
  rfl

end

/-! ### A list that points to itself (R311) -/

/-- A node without words leaves the state as it was. -/
theorem dmaTransfer_of_empty {d : Vector Word 7} (s : State) (h : NodeReady d) (hempty : d[2] = 0) :
    dmaTransfer (descriptorOf d) s = .ok s := by
  obtain ⟨f, hf, hskip | ⟨sp, base, a, ha, hr, -⟩⟩ := h
  · exact dmaTransfer_of_skipped s hf hskip
  · rw [dmaTransfer_of_copy s hf ha hr, hempty]
    exact ite_self _

/-- The walk of an empty node that points to itself comes to no end, however many nodes it may load. -/
theorem dmaWalk_of_loop {s : State} {d : Vector Word 7} (hd : NodeAt s d) (h : NodeReady d) (hempty : d[2] = 0)
    (heol : d[0].getLsbD 14 = false) (hloaded : nodeLoaded d s = s) (n : Nat) :
    dmaWalk n s = .error ⟨.dmaNonterminating, s⟩ := by
  have hnext : s.dmaNext.getLsbD 14 = false := by rw [← hloaded]; exact heol
  induction n with
  | zero => rw [dmaWalk, dmaEol, hnext, if_neg Bool.false_ne_true]
  | succ n ih =>
    rw [dmaWalk_of_node hnext, dmaNode_of_nodeAt hd, dmaTransfer_of_empty _ h hempty, hloaded]
    exact ih

/-- The first load of such a node leaves a state that a further load does not change. -/
theorem dmaWalk_of_self_pointer {s : State} {d : Vector Word 7} (hd : NodeAt s d) (h : NodeReady d) (hempty : d[2] = 0)
    (hnext : s.dmaNext.getLsbD 14 = false) (heol : d[0].getLsbD 14 = false) (hself : d[0] &&& 0x3FFF = s.dmaNext &&& 0x3FFF)
    (n : Nat) : dmaWalk (n + 1) s = .error ⟨.dmaNonterminating, nodeLoaded d s⟩ := by
  have hagain : NodeAt (nodeLoaded d s) d := fun k => by
    rw [← hd k, ← hself]
    rfl
  have hloaded : nodeLoaded d (nodeLoaded d s) = nodeLoaded d s := by
    simp only [nodeLoaded, heol, Bool.or_false]
  rw [dmaWalk_of_node hnext, dmaNode_of_nodeAt hd, dmaTransfer_of_empty _ h hempty]
  exact dmaWalk_of_loop hagain h hempty heol hloaded n

/-! ### The statement -/

/-- A START begins a walk of up to DMA_MAX_NODES nodes, written here so that two of them can be taken off (R294, R296, R311). -/
theorem attemptStore_start {s : State} {v : Word} (hv : v &&& 7 = 1) (hfrozen : s.dmaControl.getLsbD 3 = false) :
    attemptStore .x 0xFFFFD6 v s = dmaWalk (16382 + 1 + 1) (started s) := by
  have hacted : actedControl v s.dmaControl = (s.dmaControl ||| 0x10) &&& ~~~ 0x20 := by rw [actedControl, if_pos hv]
  rw [attemptStore_control s (by rw [hv]; decide), hacted]
  refine dmaRun_of_running (s := started s) ?_ ?_
  · simp [started]
  · simpa [started] using hfrozen

/-- Settles O57: a walk takes its nodes one by one; the second node of a list starts from a state that answers as any other
that the moves of the first can leave. -/
theorem dmaWalkMovesItsNodes : Obligations.DmaWalkMovesItsNodes := by
  intro s v hv hfrozen heol
  simp only [memStore, attemptStore_start hv hfrozen]
  have hnext : (started s).dmaNext.getLsbD 14 = false := heol
  refine ⟨fun k hk hcell => ?_, fun d hd => ?_⟩
  · rw [dmaWalk_of_no_descriptor hnext _ hk hcell]
    rfl
  replace hd : NodeAt (started s) d := hd
  refine ⟨fun r => dmaWalk_of_fatal hnext _ hd, fun f base a k hf ha hr hk hcell => ?_, fun hready =>
    ⟨fun hlast => ?_, fun hmore hself hempty => dmaWalk_of_self_pointer hd hready hempty hnext hmore hself _, ?_, ?_⟩⟩
  · obtain ⟨u, hu, -⟩ := dmaWalk_of_no_cell hnext (16382 + 1) hd hf ha hr hk hcell
    rw [hu]
    rfl
  · obtain ⟨t, ht, hm⟩ := dmaWalk_of_last hnext (16382 + 1) hd hready hlast
    exact ⟨t, by rw [ht]; rfl, hm⟩
  all_goals
    obtain ⟨t, hm, htnext, hwalk⟩ := dmaWalk_of_ready hnext (16382 + 1) hd hready
    rw [hwalk]
    intro hmore
    have htmore : t.dmaNext.getLsbD 14 = false := htnext ▸ hmore
  · intro t1 d2 hm1 hd2
    have hsame : SameStores t1 t := nodeMoves_unique hm1 hm
    have hloaded := hsame.nodeLoaded d2
    have hd2' : NodeAt t d2 := hsame.nodeAt hd2
    refine ⟨fun hready2 hlast => ?_, fun r hfatal => ?_, fun f base a k hf ha hr hk hcell => ?_⟩
    · obtain ⟨u, hu, hm2⟩ := dmaWalk_of_last htmore 16382 hd2' hready2 hlast
      exact ⟨u, by rw [hu]; rfl, hloaded.nodeMoves hm2⟩
    · exact ⟨nodeLoaded d2 t, dmaWalk_of_fatal htmore 16382 hd2' hfatal, hloaded.stores, hsame.words, hsame.scratch⟩
    · obtain ⟨u, hu, hstores, hscratch, hframe⟩ := dmaWalk_of_no_cell htmore 16382 hd2' hf ha hr hk hcell
      exact ⟨u, hu, onlyStores_trans hloaded.stores hstores, hscratch.trans hsame.scratch,
        fun sp' a' hne => (hframe sp' a' hne).trans (hsame.words sp' a')⟩
  · intro t1 k hm1 hk hcell
    have hsame : SameStores t1 t := nodeMoves_unique hm1 hm
    exact ⟨t, dmaWalk_of_no_descriptor htmore 16382 hk (htnext ▸ hcell), hsame.stores, hsame.words, hsame.scratch⟩

end Sys2Proof.Proofs
end

section
/-! PROOFS. The host's calls (R310, R327, R328, R345 to R347), the fault state (R39), and what a Fatal step leaves (R130, R308). -/

namespace Sys2Proof.Proofs

open Sys2Proof Sys2Proof.Machine Sys2Proof.Safety Sys2Proof.Claims

/-! ### The fault state (R39, R345) -/

theorem unlessFatal_of_none {s : State} (h : s.fatal = none) (call : CallResult) : unlessFatal s call = call := by
  rw [unlessFatal, h]

theorem unlessFatal_of_some {s : State} {r : Fault} (h : s.fatal = some r) (call : CallResult) :
    unlessFatal s call = ⟨s, .fatal r⟩ := by
  rw [unlessFatal, h]

/-- In the fault state a call changes nothing and returns the fault. -/
theorem calls_in_fault_state {s : State} {r : Fault} (h : s.fatal = some r) :
    callBootstrap s = ⟨s, .fatal r⟩ ∧ (∀ k, callRaiseInterrupt s k = ⟨s, .fatal r⟩) ∧
      (∀ src l, callSetIpl s src l = ⟨s, .fatal r⟩) ∧ callStep s = ⟨s, .fatal r⟩ ∧ (∀ c, callRun s c = ⟨s, .fatal r⟩) ∧
      (∀ sp a, callReadCell s sp a = .fatal r) ∧ (callReset s).fatal = none :=
  ⟨unlessFatal_of_some h _, fun _ => unlessFatal_of_some h _, fun _ _ => unlessFatal_of_some h _, unlessFatal_of_some h _,
    fun _ => unlessFatal_of_some h _, fun _ _ => by rw [callReadCell, h], rfl⟩

/-! ### Bootstrap, raise-interrupt, read-cell (R310, R327, R347) -/

theorem callBootstrap_of_none {s : State} (h : s.fatal = none) :
    callBootstrap s = ⟨{ s with pram := bootWords s.scratch s.pram 0x800 }, .done⟩ := unlessFatal_of_none h _

theorem irqAll_irqIndex (src : IrqSource) : irqAll[(irqIndex src).val]? = some src := by cases src <;> rfl

theorem callRaiseInterrupt_of_source {s : State} (h : s.fatal = none) (src : IrqSource) :
    callRaiseInterrupt s (irqIndex src).val = ⟨post src s, .done⟩ := by
  rw [callRaiseInterrupt, unlessFatal_of_none h, irqAll_irqIndex]

theorem callRaiseInterrupt_of_no_source {s : State} (h : s.fatal = none) {k : Nat} (hk : 12 ≤ k) :
    callRaiseInterrupt s k = ⟨{ s with fatal := some .badSource }, .fatal .badSource⟩ := by
  have hnone : irqAll[k]? = none := List.getElem?_eq_none hk
  rw [callRaiseInterrupt, unlessFatal_of_none h, hnone]
  rfl

/-- Outside the peripheral window a debug read is that of the DMA (R66, R347). -/
theorem peekCell_eq_readDsp {sp : DspSpace} {a : Word} (s : State) (h : sp = .x → a.toNat < 0xFFFF80) :
    peekCell s sp a = readDsp sp s a := by
  cases sp with
  | x => exact if_neg (Nat.not_le.2 (h rfl))
  | y | p => rfl

theorem callReadCell_of_ok {s : State} {sp : DspSpace} {a v : Word} (h : s.fatal = none) (hv : peekCell s sp a = .ok v) :
    callReadCell s sp a = .word v := by
  rw [callReadCell, h]
  simp only [hv]

theorem callReadCell_of_error {s : State} {sp : DspSpace} {a : Word} {r : Fault} (h : s.fatal = none)
    (hr : peekCell s sp a = .error r) : callReadCell s sp a = .outOfRange := by
  rw [callReadCell, h]
  simp only [hr]

theorem callReadCell_peripheral {s : State} {a : Word} (h : s.fatal = none) (ha : 0xFFFF80 ≤ a.toNat) :
    callReadCell s .x a = .word (peekPeriph s a) :=
  callReadCell_of_ok h (if_pos ha)

/-! ### Step and run (R146, R147) -/

theorem callStep_of_next {s t : State} (h : s.fatal = none) (hstep : step s = .next t) : callStep s = ⟨t, .done⟩ := by
  rw [callStep, unlessFatal_of_none h, hstep]

theorem callStep_of_fault {s : State} {r : Fault} (h : s.fatal = none) (hstep : step s = .fault r) :
    callStep s = ⟨{ fatalOfStep s with fatal := some r }, .fatal r⟩ := by
  rw [callStep, unlessFatal_of_none h, hstep]
  rfl

theorem runLoop_of_spent {s : State} (h : s.budget ≤ 0) (k : Nat) : runLoop k s = ⟨s, .done⟩ := by
  cases k with
  | zero => rfl
  | succ k => rw [runLoop, if_pos h]

/-- A step of a run is charged to the budget, which the step itself leaves as it was (R147). -/
theorem runLoop_of_next {s t : State} (h : 0 < s.budget) (hstep : step s = .next t) (k : Nat) :
    runLoop (k + 1) s = runLoop k { t with budget := s.budget - t.instrCycle } := by
  obtain ⟨-, -, -, -, hbudget, -⟩ := everyStepBookkeeping s t hstep
  rw [runLoop, if_neg (Int.not_le.2 h), hstep, ← hbudget]

theorem runLoop_of_fault {s : State} {r : Fault} (h : 0 < s.budget) (hstep : step s = .fault r) (k : Nat) :
    runLoop (k + 1) s = ⟨{ fatalOfStep s with fatal := some r }, .fatal r⟩ := by
  rw [runLoop, if_neg (Int.not_le.2 h), hstep]
  rfl

theorem runLoop_of_refused {s : State} {r : Refusal} (h : 0 < s.budget) (hstep : step s = .refused r) (k : Nat) :
    runLoop (k + 1) s = ⟨s, .refused r⟩ := by
  rw [runLoop, if_neg (Int.not_le.2 h), hstep]

/-- Each step charges at least two cycles, so any number of steps that the budget fits in is enough (R147). -/
theorem runLoop_enough {s : State} {k j : Nat} (hk : s.budget ≤ k) (hj : s.budget ≤ j) : runLoop k s = runLoop j s := by
  induction k generalizing s j with
  | zero => rw [runLoop_of_spent hk, runLoop_of_spent hk]
  | succ k ih =>
    by_cases hspent : s.budget ≤ 0
    · rw [runLoop_of_spent hspent, runLoop_of_spent hspent]
    have hpos : 0 < s.budget := Int.not_le.1 hspent
    obtain ⟨j, rfl⟩ : ∃ i, j = i + 1 := Nat.exists_eq_succ_of_ne_zero (by omega)
    cases hstep : step s with
    | next t =>
      obtain ⟨hcycles, -⟩ := everyStepBookkeeping s t hstep
      rw [runLoop_of_next hpos hstep, runLoop_of_next hpos hstep]
      exact ih (by dsimp only; omega) (by dsimp only; omega)
    | fault r => rw [runLoop_of_fault hpos hstep, runLoop_of_fault hpos hstep]
    | refused r => rw [runLoop_of_refused hpos hstep, runLoop_of_refused hpos hstep]

/-- A run may take any number of steps that its budget fits in. -/
theorem callRun_eq_runLoop {s : State} {c k : Nat} (h : s.fatal = none) (hk : s.budget + c ≤ k) :
    callRun s c = runLoop k { s with budget := s.budget + c } := by
  rw [callRun, unlessFatal_of_none h]
  exact runLoop_enough (Int.self_le_toNat _) hk

theorem callRun_of_next {s t : State} {c : Nat} (h : s.fatal = none) (hpos : 0 < s.budget + c)
    (hstep : step { s with budget := s.budget + c } = .next t) :
    callRun s c = callRun { t with budget := s.budget + c - t.instrCycle } 0 := by
  obtain ⟨-, -, -, -, -, hfatal⟩ := everyStepBookkeeping _ t hstep
  have hfuel : s.budget + c ≤ ((s.budget + c).toNat + 1 : Nat) := by omega
  have hrest : s.budget + c - t.instrCycle + (0 : Nat) ≤ (s.budget + c).toNat := by omega
  rw [callRun_eq_runLoop h hfuel, runLoop_of_next (s := { s with budget := s.budget + c }) hpos hstep,
    callRun_eq_runLoop (s := { t with budget := s.budget + c - t.instrCycle }) (hfatal.trans h) hrest]
  simp only [Nat.cast_zero, Int.add_zero]

/-! ### A Fatal inside an instruction (R130, R308) -/

/-- The step finds an instruction of one word whatever the word after it is. -/
theorem fetch_of_single_word {s : State} {i : Instr} (hpc : s.pc.toNat < 4096) (hi : decode (s.pram.read s.pc.toNat) 0 = .ok i)
    (hlen : (encode i).length = 1) (hcontrol : ¬ ControlRow i) : fetch s = .instr i := by
  obtain ⟨-, hencode⟩ := decodeThenEncode.1 _ _ _ hi
  have hext : hasExtension (s.pram.read s.pc.toNat) = false := by
    cases htaken : hasExtension (s.pram.read s.pc.toNat) with
    | false => rfl
    | true => simp [hencode, htaken] at hlen
  obtain ⟨r, hmem, hrow, rfl⟩ := decode_ok hi
  have hbuild := row_build_of_no_extension r hmem (s.pram.read s.pc.toNat) (s.pram.read (s.pc + 1).toNat) 0
    ((hasExtension_of_lookupRow hrow).symm.trans hext)
  exact fetch_instr hpc ((decode_of_lookupRow hrow _).trans (congrArg Except.ok hbuild))
    (fun h => absurd (hext.symm.trans h) (by decide)) fun _ _ => hcontrol

/-- A step whose instruction is Fatal leaves what the instruction left. -/
theorem callStep_of_exec_fault {s : State} {i : Instr} {r : Fault} (hfatal : s.fatal = none) (hfetch : fetch s = .instr i)
    (hexec : exec i (beginInstr s) = .fault r) :
    callStep s = ⟨{ fatalOfInstr i (beginInstr s) with fatal := some r }, .fatal r⟩ := by
  have hstep : step s = .fault r := by rw [step_of_fetch_instr hfatal hfetch, hexec, finishOutcome]
  have hleft : fatalOfStep s = fatalOfInstr i (beginInstr s) := by
    rw [fatalOfStep, hfetch]
    simp only [hexec, fatalOfOutcome]
  rw [callStep_of_fault hfatal hstep, hleft]

/-- A control register stored at an address register: its Fatal is the store's (R260). -/
theorem attemptMovecEa_store_plain {s s1 : State} {sp : Space} {aa : Fin 8} {c : Reg} {v : Word}
    (hr : readReg c s = .ok (v, s1)) :
    attemptMovecEa (.store (.reg .plain aa)) sp c s = attemptStore sp s.r[aa] v s1 := by
  have hstore : attemptMovecEa (.store (.reg .plain aa)) sp c s = storeReg sp s.r[aa] c s := rfl
  rw [hstore, storeReg, hr]
  rfl

/-- Settles O60: each call by its own lemma; a run does not depend on the number of steps it is allowed. -/
theorem hostCalls : Obligations.HostCalls := by
  intro s
  refine ⟨fun h => ⟨_, callBootstrap_of_none h, rfl, fun i hi => ?_, fun i hi => ?_⟩,
    fun h => ⟨callRaiseInterrupt_of_source h, fun k => callRaiseInterrupt_of_no_source h⟩,
    fun h src l => unlessFatal_of_none h _,
    fun h => ⟨fun sp a ha => ⟨fun v hv => ?_, fun hcell => ?_⟩, callReadCell_peripheral h (by decide),
      callReadCell_peripheral h (by decide), callReadCell_peripheral h (by decide), callReadCell_peripheral h (by decide),
      callReadCell_peripheral h (by decide), fun a hp ha => ?_⟩,
    fun c h => ⟨fun hspent => ?_, fun hpos => ⟨fun t => callRun_of_next h hpos, fun r hstep => ?_⟩⟩,
    fun t => callStep_of_next, fun r => calls_in_fault_state, fun r h hstep => ⟨callStep_of_fault h hstep, ?_⟩,
    fun aa c v s1 e hfatal hi hpc haddr hr he => ?_⟩
  · exact (read_bootWords s.scratch s.pram 0x800 i).trans (if_pos hi)
  · exact (read_bootWords s.scratch s.pram 0x800 i).trans (if_neg (Nat.not_lt.2 hi))
  · exact callReadCell_of_ok h ((peekCell_eq_readDsp s ha).trans hv)
  · exact callReadCell_of_error h ((peekCell_eq_readDsp s ha).trans (readDsp_of_no_cell s hcell))
  · rw [callReadCell_peripheral h hp, peekPeriph_host ha]
  · rw [callRun_eq_runLoop h (Int.self_le_toNat _)]
    exact runLoop_of_spent hspent _
  · have hfuel : s.budget + c ≤ ((s.budget + c).toNat + 1 : Nat) := by omega
    rw [callRun_eq_runLoop h hfuel]
    exact runLoop_of_fault hpos hstep _
  · rw [callStep_of_fault h hstep]
    rfl
  · have hattempt : attemptMovecEa (.store (.reg .plain aa)) .x c (beginInstr s) = .error e := by
      rw [beginInstr_eq, attemptMovecEa_store_plain hr]
      exact (congrArg (attemptStore .x · v s1) haddr).trans he
    have hexec : exec (.movecEa (.store (.reg .plain aa)) .x c) (beginInstr s) = .fault e.reason :=
      toOutcome_fault.2 ⟨e, hattempt, rfl⟩
    rw [callStep_of_exec_fault hfatal (fetch_of_single_word hpc hi rfl nofun) hexec, fatalOfInstr, hattempt, leftBy]

end Sys2Proof.Proofs
end

section
/-! PROOFS. Arbitration (R323, R333, R334, R348): what the scan knows of the sources behind it, and how its winner is taken. -/

namespace Sys2Proof.Proofs

open Sys2Proof Sys2Proof.Machine Sys2Proof.Safety Sys2Proof.Claims

/-! ### What the scan has found -/

/-- No pending source of a list has the level 3. -/
def NoLevel3 (s : State) (l : List IrqSource) : Prop := ∀ j ∈ l, s.pending[irqIndex j] = true → s.ipl[irqIndex j] ≠ .level3

/-- Every pending source of a list is at or below the mask. -/
def AllMasked (s : State) (l : List IrqSource) : Prop :=
  ∀ j ∈ l, s.pending[irqIndex j] = true → iplValue s.ipl[irqIndex j] ≤ ((srMask s.sr).toNat : Int)

/-- A source is the first of level 3 among the pending ones of a list. -/
structure FirstLevel3 (s : State) (l : List IrqSource) (i : IrqSource) : Prop where
  pending : s.pending[irqIndex i] = true
  level : s.ipl[irqIndex i] = .level3
  first : ∀ j ∈ l, irqIndex j < irqIndex i → s.pending[irqIndex j] = true → s.ipl[irqIndex j] ≠ .level3

/-- A source lies above the mask, and is the first of the highest level among the pending ones of a list. -/
structure FirstHighest (s : State) (l : List IrqSource) (i : IrqSource) : Prop where
  mem : i ∈ l
  pending : s.pending[irqIndex i] = true
  above : ((srMask s.sr).toNat : Int) < iplValue s.ipl[irqIndex i]
  highest : ∀ j ∈ l, s.pending[irqIndex j] = true → iplValue s.ipl[irqIndex j] ≤ iplValue s.ipl[irqIndex i] ∧
    (irqIndex j < irqIndex i → iplValue s.ipl[irqIndex j] < iplValue s.ipl[irqIndex i])

/-- The scan's winner so far and its level, after the sources of a list. -/
def ScannedTo (s : State) (l : List IrqSource) (best : Int) : Option IrqSource → Prop
  | none => best = -1 ∧ AllMasked s l
  | some i => best = iplValue s.ipl[irqIndex i] ∧ FirstHighest s l i

/-- What the scan of a list answers (R333). -/
def Chosen (s : State) (l : List IrqSource) : Option IrqSource → Prop
  | none => NoLevel3 s l ∧ AllMasked s l
  | some i => FirstLevel3 s l i ∨ (NoLevel3 s l ∧ FirstHighest s l i)

section
variable {s : State} {seen rest : List IrqSource} {win : Option IrqSource} {best : Int} {i j : IrqSource}

theorem forall_mem_snoc {P : IrqSource → Prop} (h : ∀ k ∈ seen, P k) (hj : P j) : ∀ k ∈ seen ++ [j], P k :=
  List.forall_mem_append.2 ⟨h, List.forall_mem_singleton.2 hj⟩

theorem NoLevel3.snoc (h : NoLevel3 s seen) (hj : s.pending[irqIndex j] = true → s.ipl[irqIndex j] ≠ .level3) :
    NoLevel3 s (seen ++ [j]) :=
  forall_mem_snoc h hj

/-- A source that is not pending, masked, or no higher than the winner so far is passed over. -/
theorem ScannedTo.skip (h : ScannedTo s seen best win) (hlt : ∀ k ∈ seen, irqIndex k < irqIndex j)
    (hj : s.pending[irqIndex j] = true →
      ¬ (((srMask s.sr).toNat : Int) < iplValue s.ipl[irqIndex j] ∧ best < iplValue s.ipl[irqIndex j])) :
    ScannedTo s (seen ++ [j]) best win := by
  cases win with
  | none =>
    obtain ⟨rfl, hmasked⟩ := h
    exact ⟨rfl, forall_mem_snoc hmasked fun hp => by have := hj hp; omega⟩
  | some i =>
    obtain ⟨rfl, hi⟩ := h
    have hij : irqIndex i < irqIndex j := hlt i hi.mem
    refine ⟨rfl, List.mem_append_left _ hi.mem, hi.pending, hi.above, forall_mem_snoc hi.highest fun hp => ⟨?_, fun hji => ?_⟩⟩
    · have := hj hp
      have := hi.above
      omega
    · exact absurd hji hij.asymm

/-- A pending source above the mask and above the winner so far is the new winner. -/
theorem ScannedTo.take (h : ScannedTo s seen best win) (hp : s.pending[irqIndex j] = true)
    (habove : ((srMask s.sr).toNat : Int) < iplValue s.ipl[irqIndex j]) (hbest : best < iplValue s.ipl[irqIndex j]) :
    ScannedTo s (seen ++ [j]) (iplValue s.ipl[irqIndex j]) (some j) := by
  have hbelow : ∀ k ∈ seen, s.pending[irqIndex k] = true → iplValue s.ipl[irqIndex k] < iplValue s.ipl[irqIndex j] := by
    intro k hk hpk
    cases win with
    | none => exact lt_of_le_of_lt (h.2 k hk hpk) habove
    | some i =>
      obtain ⟨rfl, hi⟩ := h
      exact lt_of_le_of_lt (hi.highest k hk hpk).1 hbest
  exact ⟨rfl, by simp, hp, habove, forall_mem_snoc (fun k hk hpk => ⟨(hbelow k hk hpk).le, fun _ => hbelow k hk hpk⟩)
    fun _ => ⟨le_rfl, fun hjj => absurd hjj (lt_irrefl _)⟩⟩

/-! ### The scan -/

/-- A scan that stops at a source of level 3: those before it have another level, and those after it a larger index. -/
theorem NoLevel3.first (h : NoLevel3 s seen) (hsorted : (seen ++ j :: rest).Pairwise (irqIndex · < irqIndex ·))
    (hp : s.pending[irqIndex j] = true) (hl : s.ipl[irqIndex j] = .level3) : FirstLevel3 s (seen ++ j :: rest) j := by
  refine ⟨hp, hl, fun k hk hkj => ?_⟩
  rcases List.mem_append.1 hk with hk | hk
  · exact h k hk
  rcases List.mem_cons.1 hk with rfl | hk
  · exact absurd hkj (lt_irrefl _)
  · have hjk : irqIndex j < irqIndex k := List.rel_of_pairwise_cons (List.pairwise_append.1 hsorted).2.1 hk
    exact absurd hkj hjk.asymm

/-- The scan goes through the sources in index order and keeps what it knows of those behind it. -/
theorem chosen_scanSources (hsorted : (seen ++ rest).Pairwise (irqIndex · < irqIndex ·)) (hno : NoLevel3 s seen)
    (h : ScannedTo s seen best win) : Chosen s (seen ++ rest) (scanSources s rest win best) := by
  induction rest generalizing seen win best with
  | nil =>
    rw [List.append_nil, scanSources]
    cases win with
    | none => exact ⟨hno, h.2⟩
    | some i => exact .inr ⟨hno, h.2⟩
  | cons j rest ih =>
    have hlt : ∀ k ∈ seen, irqIndex k < irqIndex j := fun k hk =>
      (List.pairwise_append.1 hsorted).2.2 k hk j List.mem_cons_self
    have hsplit : seen ++ j :: rest = (seen ++ [j]) ++ rest := by simp
    unfold scanSources
    split
    · rename_i hp
      split
      · rename_i hl
        exact .inl (hno.first hsorted hp hl)
      rename_i hl
      rw [hsplit] at hsorted ⊢
      split
      · rename_i hgt
        exact ih hsorted (hno.snoc fun _ => hl) (h.take hp hgt.1 hgt.2)
      · rename_i hle
        exact ih hsorted (hno.snoc fun _ => hl) (h.skip hlt fun _ => hle)
    · rename_i hp
      rw [hsplit] at hsorted ⊢
      exact ih hsorted (hno.snoc fun h => absurd h hp) (h.skip hlt fun h => absurd h hp)

end

theorem irqAll_sorted : irqAll.Pairwise (irqIndex · < irqIndex ·) := by decide

theorem mem_irqAll (i : IrqSource) : i ∈ irqAll := by cases i <;> decide

theorem chosen_winner (s : State) : Chosen s irqAll (winner s) :=
  chosen_scanSources (seen := []) irqAll_sorted nofun ⟨rfl, nofun⟩

/-- Settles O51: the scan over all sources, which visits every one of them in index order. -/
theorem arbitrationWinner : Obligations.ArbitrationWinner := by
  intro s
  have hchosen := chosen_winner s
  refine ⟨fun i hi => ?_, fun hnone j hp => ?_⟩
  · rw [hi] at hchosen
    rcases hchosen with h | ⟨hno, h⟩
    · exact ⟨h.pending, .inl ⟨h.level, fun j => h.first j (mem_irqAll j)⟩⟩
    · exact ⟨h.pending, .inr ⟨fun j => hno j (mem_irqAll j), h.above, fun j => h.highest j (mem_irqAll j)⟩⟩
  · rw [hnone] at hchosen
    exact ⟨hchosen.1 j (mem_irqAll j) hp, hchosen.2 j (mem_irqAll j) hp⟩

/-- A source of level 3 that alone is pending wins, whatever the mask is. -/
theorem winner_of_only_pending {s : State} {i : IrqSource} (hp : s.pending[irqIndex i] = true)
    (hl : s.ipl[irqIndex i] = .level3) (honly : ∀ j, s.pending[irqIndex j] = true → j = i) : winner s = some i := by
  cases hw : winner s with
  | none => exact absurd hl ((arbitrationWinner s).2 hw i hp).1
  | some j => rw [honly j (winner_pending hw)]

/-! ### The winner is taken -/

/-- The level of a source that may win, promoted by one up to 3 (R334). -/
theorem promote_eq_ofInt {l : Ipl} (h : l ≠ .disabled) : promote l = BitVec.ofInt 2 (min (iplValue l + 1) 3) := by
  cases l with
  | disabled => exact absurd rfl h
  | level0 | level1 | level2 | level3 => decide

theorem vectorUnimplemented_iff (i : IrqSource) : vectorUnimplemented i = true ↔ i ∈ [.hostCommand, .ssiRcvE, .ssiTrxE] := by
  cases i <;> decide

/-! ### The check with the pipeline idle -/

section
variable {s : State} (hloop : s.loopRep = false)
include hloop

/-- With the pipeline idle the check is the trace test and arbitration (R330). -/
theorem attemptCheck_idle (hstate : s.interruptState = .none) : attemptCheck s = traceAndArbitrate s := by
  rw [attemptCheck, hloop, if_neg Bool.false_ne_true, hstate]

/-- With the pipeline in progress the check is one count of it (R330). -/
theorem attemptCheck_inProgress (hstate : s.interruptState ≠ .none) : attemptCheck s = pipelineStep s := by
  rw [attemptCheck, hloop, if_neg Bool.false_ne_true]
  cases hs : s.interruptState with
  | none => exact absurd hs hstate
  | disabled | long => rfl

theorem interruptCheck_of_step {t : State} (hstate : s.interruptState ≠ .none) (hstep : pipelineStep s = .ok t) :
    interruptCheck s = .ok t := by
  rw [interruptCheck, attemptCheck_inProgress hloop hstate, hstep]
  rfl

end

/-- Settles O52: the three outcomes of the trace test and arbitration, and the two of a winner. -/
theorem winnerArmsThePipeline : Obligations.WinnerArmsThePipeline := by
  constructor
  · intro s hloop hstate s1
    have hcheck : attemptCheck s = traceAndArbitrate s := attemptCheck_idle hloop hstate
    rw [interruptCheck, hcheck]
    rcases traceAndArbitrate_cases s with ⟨hzero, he⟩ | ⟨hcount, hnone, he⟩ | ⟨hcount, i, hi, he⟩ <;> rw [he]
    · exact ⟨fun _ => rfl, fun h => absurd hzero h, fun _ h => absurd hzero h⟩
    · exact ⟨fun _ => rfl, fun _ _ => rfl, fun _ _ h => absurd (hnone.symm.trans h) nofun⟩
    · refine ⟨fun h => absurd h hcount, fun _ h => absurd (hi.symm.trans h) nofun, fun k _ hk => ?_⟩
      obtain rfl : i = k := Option.some.inj (hi.symm.trans hk)
      exact ⟨rfl, rfl⟩
  · intro s i _ hipl latched
    have hlatch : latchInterrupt i s = latched := by rw [latchInterrupt, promote_eq_ofInt hipl]
    refine ⟨fun hmem => takeInterrupt_error.2 ⟨(vectorUnimplemented_iff i).2 hmem, by rw [hlatch]⟩, fun hmem => ?_⟩
    rw [← vectorUnimplemented_iff, Bool.not_eq_true] at hmem
    exact takeInterrupt_ok.2 ⟨hmem, by rw [hlatch]; rfl⟩

end Sys2Proof.Proofs
end

section
/-! PROOFS. The interrupt pipeline (R330 to R340), count by count: the redirection to the vector, the entry of a long
interrupt, the fast return, and the end of the pipeline. -/

namespace Sys2Proof.Proofs

open Sys2Proof Sys2Proof.Machine Sys2Proof.Safety Sys2Proof.Claims

/-! ### The long entry (R336, R338) -/

theorem isLong_iff (w : Word) : isLong w = true ↔ JsrPattern w := by
  simp [isLong, JsrPattern]

/-- A push reads and writes none of the pipeline's fields. -/
theorem pushed_pipeline (a b : BitVec 16) (s : State) (i : InterruptState) (long : Bool) (c : PipelineCount) :
    pushed a b { s with interruptState := i, longTaken := long, pipelineCount := c } =
      { pushed a b s with interruptState := i, longTaken := long, pipelineCount := c } := by
  unfold pushed post
  dsimp only
  (repeat' split) <;> rfl

theorem pushed_sr (a b : BitVec 16) (s : State) : (pushed a b s).sr = s.sr := by
  unfold pushed
  dsimp only
  (repeat' split) <;> simp

/-- The count after a long entry is set last, and may as well be set first. -/
theorem longEntry_count (saved : Word) (s : State) (c : PipelineCount) :
    { longEntry saved s with pipelineCount := c } = longEntered saved { s with pipelineCount := c } := by
  have hin := pushed_pipeline (saved.setWidth 16) s.sr s .long true s.pipelineCount
  have hout := pushed_pipeline (saved.setWidth 16) s.sr s s.interruptState s.longTaken c
  rw [longEntry, longEntered, push_eq_pushed, setWidth_setWidth_16, hin, hout, pushed_sr]
  rfl

section
variable {s : State} (hpc : s.pc.toNat < 4096)
include hpc

theorem inspectVector_of_other (h : ¬ JsrPattern (s.pram.read s.pc.toNat)) : inspectVector s = .ok s := by
  rw [← isLong_iff, Bool.not_eq_true] at h
  simp only [inspectVector, readP_inside hpc, h]

theorem inspectVector_of_jsr {saved : Word} (hsave : s.savePc = some saved) (h : JsrPattern (s.pram.read s.pc.toNat)) :
    inspectVector s = .ok (longEntry saved s) := by
  simp only [inspectVector, readP_inside hpc, (isLong_iff _).2 h, hsave]

end

/-! ### The counts -/

section
variable {s : State} {v saved : Word}

theorem pipelineStep_four (hcount : s.pipelineCount = .four) (hfetch : s.instrFetch = some v) :
    pipelineStep s = inspectVector { s with savePc := some s.pc, pc := v } >>= fun s1 =>
      .ok { s1 with pipelineCount := .three } := by
  simp only [pipelineStep, hcount, pipelineFour, hfetch]

theorem pipelineStep_three_inside (hcount : s.pipelineCount = .three) (hfetch : s.instrFetch = some v) (hpc : s.pc = v + 1) :
    pipelineStep s = inspectVector s >>= fun s1 => .ok { s1 with pipelineCount := .two } := by
  simp only [pipelineStep, hcount, pipelineThree, hfetch, if_pos hpc]

/-- A second vector word that is not the next to execute is not inspected (R337). -/
theorem pipelineStep_three_outside (hcount : s.pipelineCount = .three) (hfetch : s.instrFetch = some v) (hpc : s.pc ≠ v + 1) :
    pipelineStep s = .ok { s with pipelineCount := .two } := by
  simp only [pipelineStep, hcount, pipelineThree, hfetch, if_neg hpc]

theorem pipelineStep_two (hcount : s.pipelineCount = .two) (hfetch : s.instrFetch = some v) (hsave : s.savePc = some saved) :
    pipelineStep s = .ok { s with
      pc := if s.pc = v + 2 ∧ s.longTaken = false then saved else s.pc, pipelineCount := .one } := by
  simp only [pipelineStep, hcount, pipelineTwo, hfetch, hsave]
  split <;> rfl

theorem pipelineStep_zero (hcount : s.pipelineCount = .zero) : pipelineStep s = traceAndArbitrate (leavePipeline s) := by
  rw [pipelineStep, hcount]

end

/-! ### The JSR of a long interrupt (R273, R338) -/

/-- In the state LONG a call does not push again, and hands over to DISABLED. -/
theorem called_long {s : State} (h : s.interruptState = .long) (t len : Word) :
    called t len s = jumped t { s with interruptState := .disabled } := if_pos h

theorem addressed_interruptState (u : Option (Fin 8 × Word)) (ext : Bool) (s : State) :
    (addressed u ext s).interruptState = s.interruptState := by
  cases u <;> cases ext <;> rfl

/-- A jump overwrites the length that an extension word gave; the charge alone remembers it. -/
theorem jumped_addressed (t : Word) (u : Option (Fin 8 × Word)) (ext : Bool) (s : State) :
    jumped t { addressed u ext s with interruptState := .disabled } =
      { applyUpdate u s with
        pc := t
        len := 0
        interruptState := .disabled
        instrCycle := (addressed u ext s).instrCycle + 2 } := by
  cases ext <;> rfl

/-- Settles O53: the JSR of the state LONG, then the inspections of the two vector words. -/
theorem longInterruptEntry : Obligations.LongInterruptEntry := by
  constructor
  · intro s hlong
    refine ⟨fun a => ⟨called (a.setWidth 24) 1 s, congrArg _ (callTo_eq_called _ 1 s), ?_⟩, fun ea u hu => ⟨_, exec_jsrEa hu, ?_⟩⟩
    · rw [called_long hlong]
      rfl
    · rw [callTo_eq_called, called_long ((addressed_interruptState _ _ s).trans hlong), jumped_addressed]
  · intro s v hloop hstate hfetch
    refine ⟨fun hcount hv => ⟨fun hother => ?_, fun hjsr => ?_⟩,
      fun saved hcount hsave => ⟨fun hpc => ?_, fun hpc hp hother => ?_, fun hpc hp hjsr => ?_⟩⟩ <;>
      refine interruptCheck_of_step hloop hstate ?_
    · rw [pipelineStep_four hcount hfetch, inspectVector_of_other hv hother]
      rfl
    · rw [pipelineStep_four hcount hfetch, inspectVector_of_jsr hv rfl hjsr]
      exact congrArg Except.ok (longEntry_count _ _ _)
    · exact pipelineStep_three_outside hcount hfetch hpc
    · rw [pipelineStep_three_inside hcount hfetch hpc, inspectVector_of_other hp hother]
      rfl
    · rw [pipelineStep_three_inside hcount hfetch hpc, inspectVector_of_jsr hp hsave hjsr]
      exact congrArg Except.ok (longEntry_count _ _ _)

/-- Settles O54: the counts 5, 2 and 1. -/
theorem fastInterruptReturn : Obligations.FastInterruptReturn := by
  intro s hloop hstate
  refine ⟨fun hcount => ?_, fun v saved hcount hfetch hsave => ?_, fun hcount => ?_⟩ <;>
    refine interruptCheck_of_step hloop hstate ?_
  · rw [pipelineStep, hcount]
  · exact pipelineStep_two hcount hfetch hsave
  · rw [pipelineStep, hcount]

/-! ### TRACE, and the end of the pipeline -/

theorem only_trace_posted (j : IrqSource)
    (h : (State.reset.pending.set (irqIndex .trace) true)[irqIndex j] = true) : j = .trace := by
  revert h
  cases j <;> decide

/-- With the levels of reset and nothing else pending TRACE wins, and taking it gives back the pending sources (R332, R334). -/
theorem interruptCheck_trace {s : State} (hloop : s.loopRep = false) (hstate : s.interruptState = .none)
    (ht : s.sr.getLsbD srT = true) (hipl : s.ipl = State.reset.ipl) (hpend : s.pending = State.reset.pending)
    (hcount : s.pendingCount = 0) :
    interruptCheck s = .ok { s with
      iplToRaise := 3, instrFetch := some 0x000004, longTaken := false, interruptState := .disabled, pipelineCount := .five } := by
  have hlevel : s.ipl[irqIndex .trace] = .level3 := by rw [hipl]; rfl
  have hfree : s.pending[irqIndex .trace] = false := by rw [hpend]; rfl
  have hcleared : s.pending.set (irqIndex .trace) false = s.pending := by rw [hpend]; rfl
  have hpost : post .trace s = { s with pending := s.pending.set (irqIndex .trace) true, pendingCount := s.pendingCount + 1 } :=
    post_of_enabled (by simp [hlevel]) hfree
  have hcounted : (post .trace s).pendingCount ≠ 0 := by simp [hpost]
  have hwinner : winner (post .trace s) = some .trace := by
    rw [hpost]
    exact winner_of_only_pending (Vector.getElem_set_self _) hlevel fun j hj => only_trace_posted j (hpend ▸ hj)
  have htaken := (winnerArmsThePipeline.1 s hloop hstate).2.2 .trace
  simp only [if_pos ht] at htaken
  rw [(htaken hcounted hwinner).2, takeInterrupt_ok.2 ⟨rfl, rfl⟩, hpost]
  simp [reasonOnly, armPipeline, latchInterrupt, hlevel, promote, Config.vector, hcleared, hcount]

/-- Settles O55: the REP and idle cases, TRACE as the only pending source, and the pipeline left at count 0. -/
theorem checkDuringRepAndTrace : Obligations.CheckDuringRepAndTrace := by
  intro s
  refine ⟨interruptCheck_repeating, fun hloop hstate ht hcount => interruptCheck_idle hloop ⟨hstate, hcount, ht⟩,
    interruptCheck_trace, fun hloop hstate hcount => ?_⟩
  have hleft : attemptCheck (leavePipeline s) = traceAndArbitrate (leavePipeline s) := attemptCheck_idle hloop rfl
  have hstep : attemptCheck s = traceAndArbitrate (leavePipeline s) :=
    (attemptCheck_inProgress hloop hstate).trans (pipelineStep_zero hcount)
  exact congrArg reasonOnly (hstep.trans hleft.symm)

end Sys2Proof.Proofs
end
